-- ==== Sys2Proof/Word.lean ====
section
/-! DEFINITION. The words the manual handles as bits: octets, node numbers, the digest and the tick count.
Everything else the monitor holds (positions, grid coordinates, counts, limits) is exact and is a `Nat` or an `Int` (R2). -/

namespace Sys2Proof

/-- One octet of a frame or a record (chapter 12). -/
abbrev Octet := BitVec 8

/-- A node number, 0 to 15 (R155, R192). -/
abbrev Node := BitVec 4

/-- A setpoint sequence or insert count: 0 to 255, counted modulo 256 (R42, R58, R166). -/
abbrev SeqNo := BitVec 8

/-- A tick count: 32 bits, wrapping (R94). -/
abbrev Tick := BitVec 32

/-- The 16-bit check register and the digest (R34). -/
abbrev Digest := BitVec 16

end Sys2Proof
end

