-- ==== Sys2Proof/Syntax.lean ====
section
/-! DEFINITION. The commands: one constructor of `Instr` per row of spec/opcode_table.json.
A command names a STEP of one block of the monitor and, where there are several such blocks, which one takes it.
What the step works on (the frame routed, the placement sent, the request passed on) waits in the state, in the
channel the manual gives it, because the manual says in which order a block takes what was sent to it
(log entry 1). Only what comes from outside the monitor is an operand: a received frame, the node straps. -/

namespace Sys2Proof

/-- The two arms (0.5). The controller port and the drive port of an arm bear its letter. -/
inductive Arm where
  | armA
  | armB
  deriving DecidableEq, Repr

/-- The other arm (0.5). -/
def Arm.other : Arm → Arm
  | .armA => .armB
  | .armB => .armA

/-- The two links of an arm: its controller link (CA, CB) and its drive link (DA, DB). -/
inductive Side where
  | ctrl
  | drive
  deriving DecidableEq, Repr

/-- The blocks that raise events at the report unit (R177 to R179, table of 11.2). -/
inductive Block where
  | arm (a : Arm)
  | port (side : Side) (a : Arm)
  | workspace
  | table
  deriving DecidableEq, Repr

/-- What a port's receiver has between a start delimiter and the end marker, or the delimiter that cuts it (R156):
the octets, and whether the end marker came (`false`: a new start delimiter came first). -/
structure RxFrame where
  octets : List Octet
  ended : Bool
  deriving DecidableEq, Repr

/-- The commands, in the order of spec/opcode_table.json. Where a command names an arm, the step is the one of
that arm's unit or port, or, for a request, the one whose sender is that arm (R172). -/
inductive Instr where
  | powerOn (straps : Node)
  | resetAssert
  | frameArrival (side : Side) (a : Arm) (f : RxFrame)
  | portCadenceExpiry (side : Side) (a : Arm)
  | lockLossSilence (side : Side) (a : Arm)
  | requestDecode (a : Arm)
  | setpointArrival (a : Arm)
  | setpointVerdict (a : Arm)
  | cadenceExpiryRun (a : Arm)
  | frameLoss (a : Arm)
  | feedbackLoss (a : Arm)
  | cadenceExpiryHalting (a : Arm)
  | cadenceExpirySettling (a : Arm)
  | settleTimeout (a : Arm)
  | cadenceExpiryQuiet (a : Arm)
  | feedbackArrival (a : Arm)
  | paramArrival (a : Arm)
  | armTickCopy (a : Arm)
  | lockGained (a : Arm)
  | controllerLockLoss (a : Arm)
  | driveLockLoss (a : Arm)
  | tableLockReport
  | armEnable (a : Arm)
  | enableVerdict (a : Arm)
  | armHalt (a : Arm)
  | armCut (a : Arm)
  | armClear (a : Arm)
  | armReset (a : Arm)
  | armStatus (a : Arm)
  | statusRead (a : Arm)
  | envelopePush (a : Arm)
  | envelopePop (a : Arm)
  | envelopeVerdict (a : Arm)
  | maskSet (a : Arm)
  | contextSave (a : Arm)
  | contextLoad (a : Arm)
  | commitNotice (a : Arm)
  | checkedPlacement (a : Arm)
  | forcedPlacement (a : Arm)
  | restUpdate (a : Arm)
  | setRecordUnknown (a : Arm)
  | stateReport (a : Arm)
  | claim (a : Arm)
  | renew (a : Arm)
  | release (a : Arm)
  | cancel (a : Arm)
  | cellRead (a : Arm)
  | leaseTick
  | leaseLapse
  | waitExpired
  | claimRemoval (a : Arm)
  | outcomeDiscard (a : Arm)
  | discardReport (a : Arm)
  | sentReport (a : Arm)
  | outcomeHandover (a : Arm)
  | answerPlace (a : Arm)
  | insertionOpportunity (a : Arm)
  | noticeSelection (a : Arm)
  | eventRaise (b : Block)
  | reportTick
  | eventsRead (a : Arm)
  | eventsClear (a : Arm)
  | noticeSet (a : Arm)
  | tableWrite (a : Arm)
  | headerWrite (a : Arm)
  | profileWrite (a : Arm)
  | tableRead (a : Arm)
  | digestRead (a : Arm)
  | tablesReset (a : Arm)
  | headerPresenceReport
  | agree (a : Arm)
  | agreeWithdraw (a : Arm)
  | commit
  | commitCompletion
  deriving DecidableEq, Repr

end Sys2Proof
end

