-- ==== Sys2Proof/Decode.lean ====
section
/-! DEFINITION. The opcode table of this block gives no row any bits (its rows are steps, not words), so no word
spells a command (log entry 30). -/

namespace Sys2Proof

/-- The command a word spells by the table's bits: none, for the table gives no row bits. -/
def decodeTableWord (_nbits _w : Nat) : Option Instr := none

end Sys2Proof
end

