-- ==== Sys2Proof/Config.lean ====
section
/-! DEFINITION. What the manual leaves open and the model leaves free: constants with no body.
No proof can see a value of one, so a theorem about the model holds whatever they are. -/

namespace Sys2Proof

/-- The four octets of a position field whose exact value (R2, R6) lies outside a signed 32-bit count.
The manual gives the field four octets and no value for such a position (log entry 8). -/
opaque Config.freePosition : Int → BitVec 32

/-- The node in a FRAME_ERROR detail when the frame was cut before its node octet (R157, log entry 9).
Applied to the state's draw counter: each draw is a fresh value. -/
opaque Config.freeNode : Nat → Node

/-- Whether an arm unit receives the lease tick before the cadence expiry when the timebase delivers both at one
instant (R40, R69, log entry 10). Applied to the draw counter and the arm. -/
opaque Config.tickFirst : Nat → Arm → Bool

end Sys2Proof
end

