-- ==== Sys2Proof/Machine/Types.lean ====
section
/-! DEFINITION. The records of the manual as plain data: geometry, banks, box records, cells, claims, contexts,
frames, requests, events, and what one block sends another. State.lean puts them together. -/

namespace Sys2Proof.Machine

/-! ### Shapes -/

/-- One value for each of the axes X, Y and Z. -/
structure Tri (α : Type) where
  x : α
  y : α
  z : α
  deriving DecidableEq, Repr

/-- One value for each arm. -/
structure PerArm (α : Type) where
  a : α
  b : α
  deriving DecidableEq, Repr

inductive Axis where
  | axisX
  | axisY
  | axisZ
  deriving DecidableEq, Repr

/-- A grid box: [lo, hi] on each axis (R1). -/
structure Box where
  lo : Tri Int
  hi : Tri Int
  deriving DecidableEq, Repr

/-- A position in counts; W is carried and takes no part in boxes (1.2). -/
structure Pos where
  xyz : Tri Int
  w : Int
  deriving DecidableEq, Repr

/-- The direction of grid against counts (R3). -/
inductive Sign where
  | plus
  | minus
  deriving DecidableEq, Repr

/-- The geometry of one axis (R3). -/
structure AxisGeom where
  origin : Int
  sign : Sign
  pitch : Nat
  decel : Nat
  deriving DecidableEq, Repr

abbrev Geometry := Tri AxisGeom

/-- An envelope: margins in grid units (R9). -/
structure Envelope where
  lateral : Nat
  below : Nat
  above : Nat
  deriving DecidableEq, Repr

/-- An entry of an envelope stack (R129). -/
structure Margin where
  lateral : Nat
  below : Nat
  deriving DecidableEq, Repr

/-! ### Zone banks (chapter 2) -/

/-- An arm profile (R24). -/
structure Profile where
  origin : Tri Int
  sign : Tri Sign
  pitch : Tri Nat
  decel : Tri Nat
  stepCap : Tri Nat
  baseLateral : Nat
  baseBelow : Nat
  baseAbove : Nat
  cadence : Nat
  missLimit : Nat
  softLimit : Nat
  feedbackLimit : Nat
  trackingLimit : Nat
  settleWindow : Nat
  settleLimit : Nat
  deriving DecidableEq, Repr

/-- A zone entry with the fields its kind uses (R22). -/
inductive ZoneEntry where
  | empty
  | home (a : Arm) (box : Box)
  | bin (box : Box) (bays cells : Nat)
  | forbidden (box : Box)
  | slow (box : Box) (caps : Tri Nat)
  deriving DecidableEq, Repr

/-- A bank header (R21). -/
structure Header where
  present : PerArm Bool
  label : Nat
  deriving DecidableEq, Repr

/-- A zone bank (R20). `entries` has 24 members. -/
structure Bank where
  header : Header
  entries : List ZoneEntry
  profiles : PerArm Profile
  deriving DecidableEq, Repr

/-- The bin geometry: the BIN's box, nb and nc (R16). Its absence is the absence of a BIN. -/
structure BinGeom where
  box : Box
  bays : Nat
  cells : Nat
  deriving DecidableEq, Repr

inductive BankItem where
  | header
  | entry (i : Nat)
  | profile (a : Arm)
  deriving DecidableEq, Repr

inductive ValReason where
  | badBox
  | twoBins
  | badGrid
  | homeInBin
  | absentHome
  | noHome
  | badProfile
  deriving DecidableEq, Repr

/-- The profile fields that can fail validation (R37). -/
inductive ProfileField where
  | pitch (ax : Axis)
  | decel (ax : Axis)
  | stepCap (ax : Axis)
  | baseLateral
  | baseBelow
  | baseAbove
  | cadence
  | missLimit
  | softLimit
  | feedbackLimit
  | trackingLimit
  | settleLimit
  deriving DecidableEq, Repr

/-- A failed validation (R35). -/
structure ValFailure where
  item : BankItem
  reason : ValReason
  field : Option ProfileField
  deriving DecidableEq, Repr

/-- The validation result of the shadow (R35). -/
inductive Validation where
  | passed
  | failed (f : ValFailure)
  deriving DecidableEq, Repr

/-! ### Arm states, faults and contexts (chapters 3, 4 and 7) -/

/-- The seven arm states (R66). -/
inductive ArmState where
  | sync
  | standby
  | run
  | halting
  | settling
  | held
  | cut
  deriving DecidableEq, Repr

/-- The stop cause (R66). -/
inductive StopCause where
  | fault
  | requested
  deriving DecidableEq, Repr

/-- The fifteen fault kinds (R69), in the order of their codes (R190). -/
inductive FaultKind where
  | range
  | forbidden
  | proximity
  | trespass
  | speed
  | sequence
  | tracking
  | feedbackLoss
  | stack
  | frameLoss
  | softLimit
  | settleTimeout
  | driveFault
  | linkLoss
  | cutRequested
  deriving DecidableEq, Repr

/-- A set of fault or violation kinds: bit n holds the kind of code n (R188, R190). -/
abbrev KindSet := BitVec 16

/-- A fault record (R69). `also` holds no kind twice by being a set. -/
structure FaultRec where
  kind : FaultKind
  also : KindSet
  seq : Option SeqNo
  axis : Option Axis
  port : Option Side
  tick : Tick
  state : ArmState
  deriving DecidableEq, Repr

/-- What is found when a fault reaches the arm state machine (R70). -/
structure Finding where
  kind : FaultKind
  also : KindSet
  seq : Option SeqNo
  axis : Option Axis
  port : Option Side
  tick : Tick
  deriving DecidableEq, Repr

/-- The violation mask over the six maskable kinds; `true` is masked (R52). -/
structure Mask where
  trespass : Bool
  speed : Bool
  sequence : Bool
  tracking : Bool
  feedbackLoss : Bool
  stack : Bool
  deriving DecidableEq, Repr

/-- The arm context (R39, R83, R129, R138, R139). `stack` holds the top entry first. -/
structure ArmContext where
  mask : Mask
  stack : List Margin
  softSeen : Bool
  fault : Option FaultRec
  carried : Option FaultRec
  soft : Nat
  miss : Nat
  feedback : Nat
  settleCount : Nat
  settleTimer : Nat
  deriving DecidableEq, Repr

/-- The last forwarded setpoint (R39). -/
structure LastForwarded where
  pos : Option Pos
  step : Tri Int
  seq : SeqNo
  deriving DecidableEq, Repr

/-! ### Events of the report unit (chapter 11) -/

/-- The 24 event kinds, in the order of their numbers (R177). -/
inductive EventKind where
  | range
  | forbidden
  | proximity
  | trespass
  | speed
  | sequence
  | tracking
  | feedbackLoss
  | stack
  | frameLoss
  | softLimit
  | settleTimeout
  | driveFault
  | linkLoss
  | stateChange
  | leaseLapsed
  | frameError
  | setpointEarly
  | requestOverrun
  | passRefused
  | feedbackStale
  | commitDone
  | commitRefused
  | agreementDropped
  deriving DecidableEq, Repr

/-- The source of a STACK violation (R130). -/
inductive StackSource where
  | frame
  | request
  deriving DecidableEq, Repr

/-- The case of a STACK violation (R130). -/
inductive StackCase where
  | overflow
  | underflow
  | badOp
  deriving DecidableEq, Repr

/-- The particulars of a STACK violation (R130). -/
structure StackDetail where
  source : StackSource
  case : StackCase
  depth : Nat
  margin : Option Margin
  seq : Option SeqNo
  deriving DecidableEq, Repr

/-- Why a received frame is discarded (R157). -/
inductive FrameCause where
  | endError
  | checkError
  | kindError
  deriving DecidableEq, Repr

/-- Why an agreement was dropped (R144). -/
inductive DropCause where
  | write
  | tablesReset
  | lock
  deriving DecidableEq, Repr

/-- Why a commit is refused (R150), with its data. -/
inductive CommitRefusal where
  | leasesHeld (cell : Nat) (owner : Arm)
  | illegalBox (arm : Arm) (kind : FaultKind)
  | armActive (arm : Arm)
  deriving DecidableEq, Repr

/-- The detail of a flag (table of 11.2). -/
inductive Detail where
  | seqAxis (seq : SeqNo) (axis : Option Axis)
  | seqOnly (seq : SeqNo)
  | seqPair (first second : SeqNo)
  | stack (d : StackDetail)
  | settleTimeout (seq : SeqNo) (count : Nat)
  | linkLoss (port : Side) (state : ArmState)
  | stateChange (before after : ArmState)
  | leaseLapsed (bay cell lease : Nat) (tick : Tick)
  | frameError (port : Side) (cause : FrameCause) (kind : Nat) (node : Node)
  | overrun (code tag : Octet)
  | passRefused (state : ArmState) (seq : SeqNo)
  | commitDone (label : Nat) (digest shadow : Digest) (changed : Bool)
  | commitRefused (why : CommitRefusal) (digest : Digest)
  | dropped (cause : DropCause) (digest : Digest) (port : Option Side)
  deriving DecidableEq, Repr

/-- A raise on its way to the report unit (R179). -/
structure Raise where
  arm : Arm
  kind : EventKind
  detail : Detail
  deriving DecidableEq, Repr

/-- A flag of the report unit (R178). -/
structure Flag where
  set : Bool
  noticed : Bool
  occurrences : Nat
  detail : Option Detail
  tick : Option Tick
  deriving DecidableEq, Repr

/-- A notice setting (R180). -/
structure NoticeSetting where
  enable : Bool
  priority : Nat
  deriving DecidableEq, Repr

/-! ### Requests and answers (chapter 10) -/

/-- The 27 requests (R188). -/
inductive ReqName where
  | armEnable
  | armHalt
  | armCut
  | armClear
  | armReset
  | armStatus
  | envelopePush
  | envelopePop
  | maskSet
  | contextSave
  | contextLoad
  | claim
  | renew
  | release
  | cancel
  | cellRead
  | tableWrite
  | headerWrite
  | profileWrite
  | tableRead
  | digestRead
  | tablesReset
  | agree
  | agreeWithdraw
  | eventsRead
  | eventsClear
  | noticeSet
  deriving DecidableEq, Repr

/-- The code and tag a request carried, echoed in its answer (R173). -/
structure ReqHead where
  code : Octet
  tag : Octet
  deriving DecidableEq, Repr

/-- A decoded request on its way to its owning block, with the sender's arm (R171, R172). The owning block judges
the argument octets. -/
structure Request where
  arm : Arm
  name : ReqName
  head : ReqHead
  args : List Octet
  deriving DecidableEq, Repr

inductive AnswerStatus where
  | ok
  | queued
  | refused
  deriving DecidableEq, Repr

/-- The reason codes (R174). -/
inductive Reason where
  | state
  | range
  | noBank
  | noBin
  | absent
  | busy
  | queueFull
  | quota
  | duplicate
  | notHeld
  | lapsed
  | inUse
  | notFound
  | invalid
  | mismatch
  | illegal
  | faultPending
  | stack
  | unknownRequest
  deriving DecidableEq, Repr

/-- An answer (R173); `data` in the octet form of R188. -/
structure Answer where
  head : ReqHead
  status : AnswerStatus
  reason : Option Reason
  data : List Octet
  deriving DecidableEq, Repr

/-- The answer buffer of a controller port (R170, R189); `part` is the number of the next part to send. -/
inductive AnswerBuffer where
  | empty
  | awaiting
  | holding (ans : Answer) (part : Nat)
  deriving DecidableEq, Repr

/-! ### Box records, cells and claims (chapters 1, 5 and 6) -/

/-- A box record (R12): the fields each mode has. -/
inductive BoxRecord where
  | absent
  | unknown
  | rest (box : Box) (env : Envelope)
  | motion (box motion : Box) (env : Envelope)
  deriving DecidableEq, Repr

/-- A cell record (R92). -/
inductive CellRec where
  | free
  | held (owner : Arm) (lease : Nat) (deadline : Tick)
  deriving DecidableEq, Repr

/-- A run of cells (R96). -/
structure Run where
  bay : Nat
  first : Nat
  length : Nat
  deriving DecidableEq, Repr

/-- An entry of the claim queue (R113). -/
structure QueueEntry where
  arm : Arm
  tag : Octet
  run : Run
  lease : Nat
  deadline : Tick
  deriving DecidableEq, Repr

/-- Why a cell is not grantable (R99). -/
inductive ClaimCause where
  | heldByOther
  | occupied
  | queuedBefore
  deriving DecidableEq, Repr

inductive ClaimResult where
  | granted
  | waitExpired
  | cancelled
  deriving DecidableEq, Repr

/-- An outcome (R124). -/
structure ClaimOutcome where
  tag : Octet
  result : ClaimResult
  run : Run
  deriving DecidableEq, Repr

/-- A checked placement as the arm unit sends it (R13, R45). -/
structure Placement where
  p : Tri Int
  p0 : Tri Int
  step : Tri Int
  env : Envelope
  geom : Geometry
  caps : Tri Nat
  deriving DecidableEq, Repr

/-- The verdict on a checked placement (R46). -/
inductive Verdict where
  | placed
  | failed (kinds : KindSet) (rangeAxis speedAxis : Option Axis) (tick : Tick)
  | absent
  | unknown
  deriving DecidableEq, Repr

/-- The fields of a context record that R141 can find failing, in its order. A mask setting cannot fail: each is one bit
(R188, R190). -/
inductive ContextField where
  | depth
  | entries
  | softSeen
  | faultSource
  | faultKind
  | faultAlso
  | faultSequence
  | faultAxis
  | faultPort
  | faultArmState
  deriving DecidableEq, Repr

/-! ### What one block sends another -/

/-- A SETPOINT routed to an arm unit (R187); `octets` is the frame as received. -/
structure SetpointFrame where
  octets : List Octet
  seq : SeqNo
  pos : Pos
  op : Octet
  lateral : Octet
  below : Octet
  deriving DecidableEq, Repr

/-- A FEEDBACK routed to an arm unit (R187). -/
structure FeedbackFrame where
  node : Node
  seq : SeqNo
  payload : List Octet
  echo : SeqNo
  actual : Pos
  status : Octet
  deriving DecidableEq, Repr

/-- The events that reach an arm unit and wait in arrival order (R40). The two named second are an ARM_CUT and a FEEDBACK
with a FAULT status that were waiting already when another cause of CUT ended a stop (R86, log entry 28). -/
inductive ArmEvent where
  | setpoint (f : SetpointFrame)
  | feedback (f : FeedbackFrame)
  | param (octets : List Octet) (seq : SeqNo)
  | expiry
  | tick
  | lock (side : Side) (locked : Bool)
  | commitNotice (present : Bool) (profile : Profile)
  | request (r : Request)
  | cutSecond (r : Request)
  | faultSecond (f : FeedbackFrame)
  deriving DecidableEq, Repr

/-- What an outstanding checked placement was sent for, with what the arm unit keeps for its verdict (R45, R77, R136).
`geom` is the geometry the placement carried. A setpoint keeps its masked findings: for SEQUENCE the expected
sequence (R42), for STACK its particulars (R130). -/
inductive Outstanding where
  | setpoint (f : SetpointFrame) (step : Tri Int) (geom : Geometry) (expected : Option SeqNo) (stack : Option StackDetail)
  | enable (head : ReqHead) (geom : Geometry)
  | envelope (head : ReqHead) (geom : Geometry)
  deriving DecidableEq, Repr

/-- What an arm unit sends the workspace unit, in the order of its events (R40, R97). -/
inductive ToWorkspace where
  | checked (p : Placement)
  | forced (p p0 step : Tri Int) (geom : Geometry)
  | rest (pos : Tri Int) (env : Envelope) (geom : Geometry)
  | setUnknown
  | stateReport (st : ArmState)
  | claimRemoval
  | statusRead (head : ReqHead) (part : List Octet)
  deriving DecidableEq, Repr

/-- What the workspace unit sends a controller port unit (R124, R126). -/
inductive ToPort where
  | outcome (o : ClaimOutcome)
  | discard
  deriving DecidableEq, Repr

/-- What a controller port unit reports to the workspace unit (R114). -/
inductive PortReport where
  | sent
  | discarded (n : Nat)
  deriving DecidableEq, Repr

/-- What the table unit sends the workspace unit (R148, R175). -/
inductive FromTable where
  | commit (bank : Bank) (digest : Digest)
  | presence (p : PerArm Bool)
  deriving DecidableEq, Repr

/-- The completion of a commit (R151, R153). -/
inductive Completion where
  | done (old : Option Bank) (label : Nat) (digest : Digest) (changed : Bool)
  | refused (why : CommitRefusal)
  deriving DecidableEq, Repr

/-- The events that wait at the table unit in one list (R149). -/
inductive TableEvent where
  | request (r : Request)
  | lock (side : Side) (a : Arm) (locked : Bool)
  deriving DecidableEq, Repr

/-- The insertion opportunity of a controller port (R167, R168): none stands, one is not yet arbitrated, or the report
unit has been asked for a notice at it. -/
inductive Opportunity where
  | closed
  | offered
  | asked
  deriving DecidableEq, Repr

/-! ### The blocks -/

/-- An arm unit (R39, R66, R67, R69). -/
structure ArmUnit where
  state : ArmState
  stopCause : Option StopCause
  sto : Bool
  ctx : ArmContext
  slotFilled : Bool
  expected : Option SeqNo
  last : LastForwarded
  lastActual : Option Pos
  feedbackSeen : Bool
  substituted : Bool
  outstanding : Option Outstanding
  work : Profile
  placeGeom : Geometry
  bankKnown : Bool
  present : Bool
  newProfile : Option Profile
  tickCopy : Tick
  ctrlLocked : Bool
  driveLocked : Bool
  awaitFeedback : Bool
  arrivals : List ArmEvent
  verdict : Option Verdict
  toWs : List ToWorkspace
  raises : List Raise
  handed : List (List Octet)
  deriving DecidableEq, Repr

/-- The lock state of a port (R159). -/
structure LinkLock where
  locked : Bool
  good : Nat
  bad : Nat
  silent : Nat
  deriving DecidableEq, Repr

/-- A controller port unit, CA or CB. `handed` is what its transmitter was handed, oldest first (R166); `expiryDue` says that
the timebase has delivered a cadence expiry the port has not yet taken (R159). -/
structure CtrlPort where
  lock : LinkLock
  buffer : AnswerBuffer
  fifo : List ClaimOutcome
  insertCount : SeqNo
  forwarded : Bool
  handed : List (List Octet)
  opportunity : Opportunity
  expiryDue : Bool
  toWs : List PortReport
  raises : List Raise
  deriving DecidableEq, Repr

/-- A drive port unit, DA or DB. -/
structure DrivePort where
  lock : LinkLock
  node : Option Node
  expiryDue : Bool
  raises : List Raise
  deriving DecidableEq, Repr

/-- What the request unit has in hand for one port: a REQUEST's payload not yet decoded, an owner's answer not yet
placed (R171, R173). -/
structure ReqPort where
  incoming : Option (List Octet)
  answer : Option Answer
  deriving DecidableEq, Repr

/-- The workspace unit. -/
structure Workspace where
  active : Option Bank
  records : PerArm BoxRecord
  cells : Option (List CellRec)
  queue : List QueueEntry
  outcomeCount : PerArm Nat
  tick : Tick
  scan : Nat
  reported : PerArm ArmState
  headerPresent : PerArm Bool
  ticksDue : Nat
  requests : List Request
  toPort : PerArm (List ToPort)
  raises : List Raise
  deriving DecidableEq, Repr

/-- The table unit. -/
structure TableUnit where
  shadow : Bank
  digest : Digest
  result : Validation
  agreement : PerArm (Option Digest)
  outstanding : Bool
  ctrlLocked : PerArm Bool
  arrivals : List TableEvent
  completion : Option Completion
  toWs : List FromTable
  raises : List Raise
  deriving DecidableEq, Repr

/-- The report unit. For each arm, `flags` holds its 21 arm flags and then the 3 device flags of its controller port,
in kind order (R178); `settings` is in kind order (R180). -/
structure ReportUnit where
  flags : PerArm (List Flag)
  settings : List NoticeSetting
  tick : Tick
  ticksDue : Nat
  requests : List Request
  deriving DecidableEq, Repr

/-- The cadence timer of an arm, in units of 125 µs (R3): the period in force, the one a commit has handed over, and
the units left to the next expiry. -/
structure CadenceTimer where
  period : Nat
  next : Option Nat
  left : Nat
  deriving DecidableEq, Repr

/-- The timebase: how many 125 µs units of the current millisecond have passed, and the two cadence timers. -/
structure Timebase where
  units : Nat
  timers : PerArm CadenceTimer
  deriving DecidableEq, Repr

/-! ### Reading and writing the shapes -/

def Tri.map {α β : Type} (f : α → β) (t : Tri α) : Tri β := ⟨f t.x, f t.y, f t.z⟩

def Tri.map2 {α β γ : Type} (f : α → β → γ) (s : Tri α) (t : Tri β) : Tri γ := ⟨f s.x t.x, f s.y t.y, f s.z t.z⟩

def Tri.get {α : Type} (t : Tri α) : Axis → α
  | .axisX => t.x
  | .axisY => t.y
  | .axisZ => t.z

/-- The first axis, in the order X, Y, Z, on which a test holds. -/
def Tri.firstAxis (t : Tri Bool) : Option Axis :=
  if t.x then some .axisX else if t.y then some .axisY else if t.z then some .axisZ else none

def Tri.add (s t : Tri Int) : Tri Int := Tri.map2 (· + ·) s t

def Tri.sub (s t : Tri Int) : Tri Int := Tri.map2 (· - ·) s t

/-- The step 0 on every axis. -/
def Tri.zero : Tri Int := ⟨0, 0, 0⟩

def PerArm.get {α : Type} (p : PerArm α) : Arm → α
  | .armA => p.a
  | .armB => p.b

def PerArm.set {α : Type} (p : PerArm α) (arm : Arm) (v : α) : PerArm α :=
  match arm with
  | .armA => { p with a := v }
  | .armB => { p with b := v }

def PerArm.map {α β : Type} (f : α → β) (p : PerArm α) : PerArm β := ⟨f p.a, f p.b⟩

def Profile.geometry (p : Profile) : Geometry :=
  ⟨⟨p.origin.x, p.sign.x, p.pitch.x, p.decel.x⟩, ⟨p.origin.y, p.sign.y, p.pitch.y, p.decel.y⟩,
   ⟨p.origin.z, p.sign.z, p.pitch.z, p.decel.z⟩⟩

end Sys2Proof.Machine
end

