-- ==== Sys2Proof/Machine/Geometry.lean ====
section
/-! DEFINITION. Chapter 1: from counts to grid, braking, the motion, reach and rest boxes, bays and cells, and which
box another block reads for a record (R1 to R18). All count arithmetic is exact (R2). -/

namespace Sys2Proof.Machine

/-! ### Boxes (R1, R2) -/

/-- Two boxes intersect when their intervals overlap on all three axes (R1). -/
def Box.meets (b c : Box) : Bool :=
  decide (b.lo.x ≤ c.hi.x ∧ c.lo.x ≤ b.hi.x) && decide (b.lo.y ≤ c.hi.y ∧ c.lo.y ≤ b.hi.y)
    && decide (b.lo.z ≤ c.hi.z ∧ c.lo.z ≤ b.hi.z)

/-- A grid unit (a point with integer coordinates) lies in a box (R1). -/
def Box.has (b : Box) (p : Tri Int) : Bool :=
  decide (b.lo.x ≤ p.x ∧ p.x ≤ b.hi.x) && decide (b.lo.y ≤ p.y ∧ p.y ≤ b.hi.y) && decide (b.lo.z ≤ p.z ∧ p.z ≤ b.hi.z)

/-- lo ≤ hi on every axis (R1). -/
def Box.ordered (b : Box) : Bool := decide (b.lo.x ≤ b.hi.x) && decide (b.lo.y ≤ b.hi.y) && decide (b.lo.z ≤ b.hi.z)

/-- One box lies within another, axis by axis. -/
def Box.within (b c : Box) : Bool :=
  decide (c.lo.x ≤ b.lo.x ∧ b.hi.x ≤ c.hi.x) && decide (c.lo.y ≤ b.lo.y ∧ b.hi.y ≤ c.hi.y)
    && decide (c.lo.z ≤ b.lo.z ∧ b.hi.z ≤ c.hi.z)

/-- The grid limit on one coordinate: below −1 becomes −1, above 1024 becomes 1024 (R2). -/
def limitCoord (g : Int) : Int := max (-1) (min 1024 g)

/-- The grid limit, applied once to the finished box (R2). -/
def Box.limit (b : Box) : Box := ⟨b.lo.map limitCoord, b.hi.map limitCoord⟩

/-- Growth by an envelope: lateral on X and Y, below and above on Z (R10). -/
def Box.grow (e : Envelope) (b : Box) : Box :=
  ⟨⟨b.lo.x - e.lateral, b.lo.y - e.lateral, b.lo.z - e.below⟩, ⟨b.hi.x + e.lateral, b.hi.y + e.lateral, b.hi.z + e.above⟩⟩

/-- The parts of `b` outside `c`, as boxes: `b` itself when they do not meet, else the slabs before and after `c` on X,
then on Y between those, then on Z. -/
def Box.minus (b c : Box) : List Box :=
  if b.meets c then
    let mx : Box := ⟨{ b.lo with x := max b.lo.x c.lo.x }, { b.hi with x := min b.hi.x c.hi.x }⟩
    let my : Box := ⟨{ mx.lo with y := max b.lo.y c.lo.y }, { mx.hi with y := min b.hi.y c.hi.y }⟩
    (if b.lo.x < c.lo.x then [⟨b.lo, { b.hi with x := c.lo.x - 1 }⟩] else [])
      ++ (if c.hi.x < b.hi.x then [⟨{ b.lo with x := c.hi.x + 1 }, b.hi⟩] else [])
      ++ (if b.lo.y < c.lo.y then [⟨mx.lo, { mx.hi with y := c.lo.y - 1 }⟩] else [])
      ++ (if c.hi.y < b.hi.y then [⟨{ mx.lo with y := c.hi.y + 1 }, mx.hi⟩] else [])
      ++ (if b.lo.z < c.lo.z then [⟨my.lo, { my.hi with z := c.lo.z - 1 }⟩] else [])
      ++ (if c.hi.z < b.hi.z then [⟨{ my.lo with z := c.hi.z + 1 }, my.hi⟩] else [])
  else [b]

/-- What is left of a list of boxes outside `c`. -/
def minusAll (rest : List Box) (c : Box) : List Box := rest.flatMap (Box.minus · c)

/-- A box lies within a set of grid units given as the union of boxes: nothing of it is left outside them (R1, R18). -/
def Box.coveredBy (b : Box) (cs : List Box) : Bool := (cs.foldl minusAll [b]).isEmpty

/-! ### Counts to grid (R4, R5) -/

def Sign.apply : Sign → Int → Int
  | .plus, q => q
  | .minus, q => -q

/-- R4: floor(sign·(q − origin) / pitch). Integer division by a positive pitch rounds toward minus infinity. -/
def AxisGeom.grid (g : AxisGeom) (q : Int) : Int := g.sign.apply (q - g.origin) / (g.pitch : Int)

/-- An interval on one axis. -/
structure Interval where
  lo : Int
  hi : Int
  deriving DecidableEq, Repr

/-- R5: both ends converted, and the pair ordered. -/
def AxisGeom.gridInterval (g : AxisGeom) (q : Interval) : Interval :=
  ⟨min (g.grid q.lo) (g.grid q.hi), max (g.grid q.lo) (g.grid q.hi)⟩

def boxOf (x y z : Interval) : Box := ⟨⟨x.lo, y.lo, z.lo⟩, ⟨x.hi, y.hi, z.hi⟩⟩

/-- The grid box of a point (R4). -/
def pointBox (g : Geometry) (p : Tri Int) : Box :=
  boxOf (g.x.gridInterval ⟨p.x, p.x⟩) (g.y.gridInterval ⟨p.y, p.y⟩) (g.z.gridInterval ⟨p.z, p.z⟩)

/-! ### Braking (R6, R7) -/

/-- R6: the braking step after a step. -/
def brakingStep (d : Nat) (s : Int) : Int := if s.natAbs ≤ d then 0 else s - d * s.sign

/-- R7: the braking reach in its closed form, n = ceil(s/d) − 1 and B = n·s − d·n(n+1)/2. -/
def brakingReach (d s : Nat) : Int :=
  let n : Int := ((s : Int) + d - 1) / d - 1
  n * s - d * (n * (n + 1) / 2)

/-! ### Motion, reach and rest boxes (R8, R10, R11) -/

/-- R8, steps 1 and 2: the count interval of a setpoint on one axis. -/
def motionCounts (d : Nat) (p p0 s : Int) : Interval :=
  if 0 < s then ⟨min p0 p, max p0 p + brakingReach d s.natAbs⟩
  else if s < 0 then ⟨min p0 p - brakingReach d s.natAbs, max p0 p⟩
  else ⟨p, p⟩

def motionAxis (g : AxisGeom) (p p0 s : Int) : Interval := g.gridInterval (motionCounts g.decel p p0 s)

/-- R8: the motion box before the grid limit. -/
def motionBox (g : Geometry) (p p0 s : Tri Int) : Box :=
  boxOf (motionAxis g.x p.x p0.x s.x) (motionAxis g.y p.y p0.y s.y) (motionAxis g.z p.z p0.z s.z)

/-- R10: the reach box. -/
def reachBox (g : Geometry) (e : Envelope) (p p0 s : Tri Int) : Box := ((motionBox g p p0 s).grow e).limit

/-- R11: the rest box. -/
def restBox (g : Geometry) (e : Envelope) (p : Tri Int) : Box := ((pointBox g p).grow e).limit

/-! ### Bays and cells (R16, R17) -/

def BinGeom.bayPitch (g : BinGeom) : Int := (g.box.hi.x - g.box.lo.x + 1) / (g.bays : Int)

def BinGeom.cellWidth (g : BinGeom) : Int := (g.box.hi.y - g.box.lo.y + 1) / (g.cells : Int)

/-- The column of cell (b, c) (R16). -/
def BinGeom.column (g : BinGeom) (b c : Nat) : Box :=
  ⟨⟨g.box.lo.x + b * g.bayPitch, g.box.lo.y + c * g.cellWidth, g.box.lo.z⟩,
   ⟨g.box.lo.x + (b + 1) * g.bayPitch - 1, g.box.lo.y + (c + 1) * g.cellWidth - 1, g.box.hi.z⟩⟩

/-- The single index of a cell (R16). -/
def BinGeom.index (g : BinGeom) (b c : Nat) : Nat := b * g.cells + c

/-- The column of the cell with a single index (R16). -/
def BinGeom.columnAt (g : BinGeom) (i : Nat) : Box := g.column (i / g.cells) (i % g.cells)

def BoxRecord.isMotion : BoxRecord → Bool
  | .motion .. => true
  | _ => false

/-- The box another block reads for a record (R15). -/
def BoxRecord.readAs (bin : Option BinGeom) : BoxRecord → Option Box
  | .absent => none
  | .unknown => bin.map BinGeom.box
  | .rest box _ => some box
  | .motion box _ _ => some box

/-- Whether a record covers the cell with a single index (R15, R17). An UNKNOWN record covers every cell. -/
def BoxRecord.covers (g : BinGeom) (i : Nat) : BoxRecord → Bool
  | .absent => false
  | .unknown => true
  | .rest box _ => box.meets (g.columnAt i)
  | .motion box _ _ => box.meets (g.columnAt i)

end Sys2Proof.Machine
end

