-- ==== Sys2Proof/Machine/Layout.lean ====
section
/-! DEFINITION. The octet forms of chapter 12: numbers, the check register, frames, records, the data of answers
and the details of notices (R34, R186 to R190). -/

namespace Sys2Proof.Machine

/-! ### Numbers: most significant octet first (R186) -/

def octet (n : Nat) : Octet := BitVec.ofNat 8 n

def octets16 (v : BitVec 16) : List Octet := [v.extractLsb' 8 8, v.extractLsb' 0 8]

def octets24 (v : BitVec 24) : List Octet := [v.extractLsb' 16 8, v.extractLsb' 8 8, v.extractLsb' 0 8]

def octets32 (v : BitVec 32) : List Octet :=
  [v.extractLsb' 24 8, v.extractLsb' 16 8, v.extractLsb' 8 8, v.extractLsb' 0 8]

def nat16 (n : Nat) : List Octet := octets16 (BitVec.ofNat 16 n)

/-- A signed 16-bit value, the fewest whole octets for a grid coordinate −1 to 1024 (R188). -/
def int16 (i : Int) : List Octet := octets16 (BitVec.ofInt 16 i)

/-- A position or a step: a signed 32-bit count in two's complement (R186, R188). A value outside that range has no
octets in the manual: they are free (log entry 8). -/
def count32 (i : Int) : List Octet :=
  octets32 (if -2147483648 ≤ i ∧ i ≤ 2147483647 then BitVec.ofInt 32 i else Config.freePosition i)

def yesNo (b : Bool) : Octet := if b then 1 else 0

/-- The octet at an index of a payload or of arguments whose length has been tested. -/
def octetAt (os : List Octet) (i : Nat) : Nat := (os.getD i 0).toNat

def nat16At (os : List Octet) (i : Nat) : Nat := octetAt os i * 256 + octetAt os (i + 1)

def nat24At (os : List Octet) (i : Nat) : Nat := octetAt os i * 65536 + nat16At os (i + 1)

def bits32At (os : List Octet) (i : Nat) : BitVec 32 :=
  os.getD i 0 ++ os.getD (i + 1) 0 ++ os.getD (i + 2) 0 ++ os.getD (i + 3) 0

/-- A signed 32-bit count read from four octets (R186). -/
def count32At (os : List Octet) (i : Nat) : Int := (bits32At os i).toInt

def posAt (os : List Octet) (i : Nat) : Pos :=
  ⟨⟨count32At os i, count32At os (i + 4), count32At os (i + 8)⟩, count32At os (i + 12)⟩

/-- A value that may be absent: one octet, 1 when present and 0 when absent, then the value or zeros (R188). -/
def optional (width : Nat) : Option (List Octet) → List Octet
  | none => 0 :: List.replicate width 0
  | some os => 1 :: os

/-! ### The check (R34) -/

/-- One bit into the check register: shift, and combine with x^16 + x^12 + x^5 + 1 when the compared bits differ. -/
def checkBit (r : BitVec 16) (b : Bool) : BitVec 16 :=
  if r.msb != b then (r <<< 1) ^^^ 0x1021#16 else r <<< 1

/-- One octet into the check register, most significant bit first. -/
def checkOctet (r : BitVec 16) (o : Octet) : BitVec 16 :=
  [o.getLsbD 7, o.getLsbD 6, o.getLsbD 5, o.getLsbD 4, o.getLsbD 3, o.getLsbD 2, o.getLsbD 1, o.getLsbD 0].foldl checkBit r

/-- The 16-bit check over a sequence of octets: the register starts with every bit one. -/
def check (os : List Octet) : Digest := os.foldl checkOctet 0xFFFF#16

/-! ### Frames (R155, R186) -/

/-- The eight frame kinds, in the order of their codes. -/
inductive FrameKind where
  | idle
  | setpoint
  | feedback
  | param
  | request
  | answer
  | outcome
  | notice
  deriving DecidableEq, Repr

def FrameKind.code : FrameKind → Nat
  | .idle => 0
  | .setpoint => 1
  | .feedback => 2
  | .param => 3
  | .request => 4
  | .answer => 5
  | .outcome => 6
  | .notice => 7

/-- The four header octets the monitor sends: mark 5 beside the kind, node with 0 above it, sequence, length. -/
def header (k : FrameKind) (node : Node) (seq : SeqNo) (length : Nat) : List Octet :=
  [octet (0x50 + k.code), node.setWidth 8, seq, octet length]

/-- A frame between its delimiters, with its check over header and payload (R155), sent high octet first (R186). -/
def frame (k : FrameKind) (node : Node) (seq : SeqNo) (payload : List Octet) : List Octet :=
  let body := header k node seq payload.length ++ payload
  body ++ octets16 (check body)

/-- The IDLE frame of a transmitter with nothing waiting (R166). -/
def idleFrame (node : Node) : List Octet := frame .idle node 0 []

def posOctets (p : Pos) : List Octet :=
  count32 p.xyz.x ++ count32 p.xyz.y ++ count32 p.xyz.z ++ count32 p.w

/-- A setpoint the monitor makes: operation NONE, zeros in octets 16 to 18 (R58, R75, R187). -/
def setpointFrame (node : Node) (seq : SeqNo) (p : Pos) : List Octet :=
  frame .setpoint node seq (posOctets p ++ [0, 0, 0])

/-- A SETPOINT as received, read by R187. -/
def readSetpoint (octets : List Octet) : SetpointFrame :=
  let payload := (octets.drop 4).take 19
  { octets := octets, seq := octets.getD 2 0, pos := posAt payload 0, op := payload.getD 16 0,
    lateral := payload.getD 17 0, below := payload.getD 18 0 }

/-- A FEEDBACK as received, read by R187. -/
def readFeedback (octets : List Octet) : FeedbackFrame :=
  let payload := (octets.drop 4).take 18
  { node := (octets.getD 1 0).setWidth 4, seq := octets.getD 2 0, payload := payload, echo := payload.getD 0 0,
    actual := posAt payload 1, status := payload.getD 17 0 }

/-! ### Codes (R188, R190) -/

def Arm.code : Arm → Octet
  | .armA => 0
  | .armB => 1

/-- Axes as in the context record: 0 none, 1 X, 2 Y, 3 Z (R190). -/
def axisCode : Option Axis → Octet
  | none => 0
  | some .axisX => 1
  | some .axisY => 2
  | some .axisZ => 3

/-- Ports as in the context record: 0 absent, 1 C, 2 D (R190). -/
def sideCode : Option Side → Octet
  | none => 0
  | some .ctrl => 1
  | some .drive => 2

/-- Arm states as in the guard status octet (R187). -/
def ArmState.code : ArmState → Nat
  | .sync => 0
  | .standby => 1
  | .run => 2
  | .halting => 3
  | .settling => 4
  | .held => 5
  | .cut => 6

def ArmState.ofCode : Nat → Option ArmState
  | 0 => some .sync
  | 1 => some .standby
  | 2 => some .run
  | 3 => some .halting
  | 4 => some .settling
  | 5 => some .held
  | 6 => some .cut
  | _ => none

/-- Fault kinds by their event numbers 0 to 13, and CUT_REQUESTED 14 (R190). -/
def FaultKind.code : FaultKind → Nat
  | .range => 0
  | .forbidden => 1
  | .proximity => 2
  | .trespass => 3
  | .speed => 4
  | .sequence => 5
  | .tracking => 6
  | .feedbackLoss => 7
  | .stack => 8
  | .frameLoss => 9
  | .softLimit => 10
  | .settleTimeout => 11
  | .driveFault => 12
  | .linkLoss => 13
  | .cutRequested => 14

/-- Every fault kind, in code order. -/
def FaultKind.all : List FaultKind :=
  [.range, .forbidden, .proximity, .trespass, .speed, .sequence, .tracking, .feedbackLoss, .stack, .frameLoss,
   .softLimit, .settleTimeout, .driveFault, .linkLoss, .cutRequested]

def FaultKind.ofCode (n : Nat) : Option FaultKind := FaultKind.all[n]?

/-- Event kinds by number (R177). -/
def EventKind.code : EventKind → Nat
  | .range => 0
  | .forbidden => 1
  | .proximity => 2
  | .trespass => 3
  | .speed => 4
  | .sequence => 5
  | .tracking => 6
  | .feedbackLoss => 7
  | .stack => 8
  | .frameLoss => 9
  | .softLimit => 10
  | .settleTimeout => 11
  | .driveFault => 12
  | .linkLoss => 13
  | .stateChange => 14
  | .leaseLapsed => 15
  | .frameError => 16
  | .setpointEarly => 17
  | .requestOverrun => 18
  | .passRefused => 19
  | .feedbackStale => 20
  | .commitDone => 21
  | .commitRefused => 22
  | .agreementDropped => 23

/-- Reason codes (R188); 0 when not REFUSED. -/
def Reason.code : Reason → Octet
  | .state => 1
  | .range => 2
  | .noBank => 3
  | .noBin => 4
  | .absent => 5
  | .busy => 6
  | .queueFull => 8
  | .quota => 9
  | .duplicate => 10
  | .notHeld => 11
  | .lapsed => 12
  | .inUse => 13
  | .notFound => 14
  | .invalid => 15
  | .mismatch => 16
  | .illegal => 17
  | .faultPending => 18
  | .stack => 19
  | .unknownRequest => 20

def AnswerStatus.code : AnswerStatus → Octet
  | .ok => 0
  | .queued => 1
  | .refused => 2

def ClaimResult.code : ClaimResult → Octet
  | .granted => 0
  | .waitExpired => 1
  | .cancelled => 2

/-! Enumerated values this chapter does not code are coded by their place in the manual's first list of them
(R188; log entry 14 names the lists). -/

def ClaimCause.code : ClaimCause → Octet
  | .heldByOther => 0
  | .occupied => 1
  | .queuedBefore => 2

def StackSource.code : StackSource → Octet
  | .frame => 0
  | .request => 1

def StackCase.code : StackCase → Octet
  | .overflow => 0
  | .underflow => 1
  | .badOp => 2

def FrameCause.code : FrameCause → Octet
  | .endError => 0
  | .checkError => 1
  | .kindError => 2

def DropCause.code : DropCause → Octet
  | .write => 0
  | .tablesReset => 1
  | .lock => 2

def StopCause.code : StopCause → Octet
  | .fault => 0
  | .requested => 1

def ValReason.code : ValReason → Octet
  | .badBox => 0
  | .twoBins => 1
  | .badGrid => 2
  | .homeInBin => 3
  | .absentHome => 4
  | .noHome => 5
  | .badProfile => 6

/-- A validation item, coded as TABLE_READ codes items (R188): 0 header, 1 to 24 entries, 25 and 26 profiles. -/
def BankItem.code : BankItem → Octet
  | .header => 0
  | .entry i => octet (i + 1)
  | .profile .armA => 25
  | .profile .armB => 26

def Axis.place : Axis → Nat
  | .axisX => 0
  | .axisY => 1
  | .axisZ => 2

/-- A profile field by its place in the table of R24, X before Y before Z within a row (R37). -/
def ProfileField.code : ProfileField → Octet
  | .pitch ax => octet (6 + ax.place)
  | .decel ax => octet (9 + ax.place)
  | .stepCap ax => octet (12 + ax.place)
  | .baseLateral => 15
  | .baseBelow => 16
  | .baseAbove => 17
  | .cadence => 18
  | .missLimit => 19
  | .softLimit => 20
  | .feedbackLimit => 21
  | .trackingLimit => 22
  | .settleLimit => 24

/-- A context field by its place in the list of R141, in which a mask setting stands fourth (R188, log entry 11). -/
def ContextField.code : ContextField → Octet
  | .depth => 0
  | .entries => 1
  | .softSeen => 2
  | .faultSource => 4
  | .faultKind => 5
  | .faultAlso => 6
  | .faultSequence => 7
  | .faultAxis => 8
  | .faultPort => 9
  | .faultArmState => 10

def modeCode : BoxRecord → Octet
  | .absent => 0
  | .unknown => 1
  | .rest .. => 2
  | .motion .. => 3

/-! ### Kind sets -/

def KindSet.empty : KindSet := 0#16

def KindSet.single (k : FaultKind) : KindSet := 1#16 <<< k.code

def KindSet.add (s : KindSet) (k : FaultKind) : KindSet := s ||| KindSet.single k

def KindSet.union (s t : KindSet) : KindSet := s ||| t

def KindSet.without (s : KindSet) (k : FaultKind) : KindSet := s &&& ~~~(KindSet.single k)

def KindSet.has (s : KindSet) (k : FaultKind) : Bool := s.getLsbD k.code

def KindSet.addIf (s : KindSet) (b : Bool) (k : FaultKind) : KindSet := if b then KindSet.add s k else s

/-- The first kind of a set in code order. Over the kinds a setpoint's check can find this is the order of R56. -/
def KindSet.first (s : KindSet) : Option FaultKind := FaultKind.all.find? (KindSet.has s)

/-! ### Bank records (R190) -/

def headerOctets (h : Header) : List Octet := [yesNo h.present.a, yesNo h.present.b] ++ nat16 h.label

def coordOctets (t : Tri Int) : List Octet := int16 t.x ++ int16 t.y ++ int16 t.z

def boxOctets (b : Box) : List Octet := coordOctets b.lo ++ coordOctets b.hi

def tri16 (t : Tri Nat) : List Octet := nat16 t.x ++ nat16 t.y ++ nat16 t.z

/-- A zone entry record, 19 octets, absent fields zero (R34, R190). -/
def entryOctets : ZoneEntry → List Octet
  | .empty => List.replicate 19 0
  | .home .armA box => 1 :: (boxOctets box ++ List.replicate 6 0)
  | .home .armB box => 2 :: (boxOctets box ++ List.replicate 6 0)
  | .bin box bays cells => 3 :: (boxOctets box ++ [octet bays, octet cells] ++ List.replicate 4 0)
  | .forbidden box => 4 :: (boxOctets box ++ List.replicate 6 0)
  | .slow box caps => 5 :: (boxOctets box ++ tri16 caps)

def signOctet : Sign → Octet
  | .plus => 0
  | .minus => 1

/-- A profile record, 46 octets (R190). -/
def profileOctets (p : Profile) : List Octet :=
  count32 p.origin.x ++ count32 p.origin.y ++ count32 p.origin.z
    ++ [signOctet p.sign.x, signOctet p.sign.y, signOctet p.sign.z]
    ++ tri16 p.pitch ++ tri16 p.decel ++ tri16 p.stepCap
    ++ [octet p.baseLateral, octet p.baseBelow, octet p.baseAbove, octet p.cadence,
        octet p.missLimit, octet p.softLimit, octet p.feedbackLimit]
    ++ octets24 (BitVec.ofNat 24 p.trackingLimit) ++ nat16 p.settleWindow ++ [octet p.settleLimit]

/-- The canonical form of a bank (R34). -/
def canonicalOctets (b : Bank) : List Octet :=
  headerOctets b.header ++ (b.entries.map entryOctets).flatten ++ profileOctets b.profiles.a ++ profileOctets b.profiles.b

/-- The digest of a bank (R34). -/
def digestOf (b : Bank) : Digest := check (canonicalOctets b)

/-! ### Context and fault records (R139, R190) -/

/-- The mask word: bit n masks the kind of event number n (R188). -/
def maskWord (m : Mask) : BitVec 16 :=
  KindSet.empty |> (KindSet.addIf · m.trespass .trespass) |> (KindSet.addIf · m.speed .speed)
    |> (KindSet.addIf · m.sequence .sequence) |> (KindSet.addIf · m.tracking .tracking)
    |> (KindSet.addIf · m.feedbackLoss .feedbackLoss) |> (KindSet.addIf · m.stack .stack)

/-- The mask a mask word sets; its other bits are not examined (R188). -/
def maskOfWord (w : BitVec 16) : Mask :=
  { trespass := KindSet.has w .trespass, speed := KindSet.has w .speed, sequence := KindSet.has w .sequence,
    tracking := KindSet.has w .tracking, feedbackLoss := KindSet.has w .feedbackLoss, stack := KindSet.has w .stack }

/-- Octets 20 to 32 of a context record: a fault with its source (1 PENDING, 2 CARRIED), or zeros for none. -/
def faultOctets (source : Octet) : Option FaultRec → List Octet
  | none => List.replicate 13 0
  | some f =>
    [source, octet f.kind.code] ++ octets16 f.also ++ [f.seq.getD 0, yesNo f.seq.isSome, axisCode f.axis, sideCode f.port]
      ++ octets32 f.tick ++ [octet f.state.code]

/-- The fault of a context record: the fault record as PENDING, else the carried fault as CARRIED (R139, R140). -/
def contextFault (c : ArmContext) : List Octet :=
  match c.fault with
  | some f => faultOctets 1 (some f)
  | none => faultOctets 2 c.carried

def marginOctets (m : Margin) : List Octet := [octet m.lateral, octet m.below]

/-- The eight stack entries of a context record, bottom first, zero beyond depth. -/
def stackOctets (stack : List Margin) : List Octet :=
  let used := (stack.reverse.map marginOctets).flatten
  used ++ List.replicate (16 - used.length) 0

/-- The context record, 38 octets (R190). -/
def contextOctets (c : ArmContext) : List Octet :=
  octets16 (maskWord c.mask) ++ [octet c.stack.length] ++ stackOctets c.stack ++ [yesNo c.softSeen] ++ contextFault c
    ++ [octet c.soft, octet c.miss, octet c.feedback, octet c.settleCount, octet c.settleTimer]

/-! ### Outcomes, details and answers (R188) -/

def runOctets (r : Run) : List Octet := [octet r.bay, octet r.first, octet r.length]

def outcomePayload (o : ClaimOutcome) : List Octet := [o.tag, o.result.code] ++ runOctets o.run

/-- The validation result as data: failing item, reason and field, absent when passed (R33, R35; log entry 12). -/
def failureOctets (f : ValFailure) : List Octet :=
  [f.item.code, f.reason.code] ++ optional 1 (f.field.map fun x => [x.code])

def validationOctets : Validation → List Octet
  | .passed => optional 4 none
  | .failed f => optional 4 (some (failureOctets f))

/-- The data of a commit refusal in a detail: arm, kind, cell, owner, each absent where the reason has none
(log entry 13). -/
def refusalOctets : CommitRefusal → List Octet
  | .leasesHeld cell owner =>
    [0] ++ optional 1 none ++ optional 1 none ++ optional 1 (some [octet cell]) ++ optional 1 (some [Arm.code owner])
  | .illegalBox arm kind =>
    [1] ++ optional 1 (some [Arm.code arm]) ++ optional 1 (some [octet kind.code]) ++ optional 1 none ++ optional 1 none
  | .armActive arm => [2] ++ optional 1 (some [Arm.code arm]) ++ optional 1 none ++ optional 1 none ++ optional 1 none

/-- The octets of a detail, in the order of the table of 11.2 (R188, log entry 13). -/
def detailOctets : Detail → List Octet
  | .seqAxis seq axis => [seq, axisCode axis]
  | .seqOnly seq => [seq]
  | .seqPair first second => [first, second]
  | .stack d =>
    [d.source.code, d.case.code, octet d.depth] ++ optional 2 (d.margin.map marginOctets) ++ optional 1 (d.seq.map fun q => [q])
  | .settleTimeout seq count => [seq, octet count]
  | .linkLoss port state => [sideCode (some port), octet state.code]
  | .stateChange before after => [octet before.code, octet after.code]
  | .leaseLapsed bay cell lease tick => [octet bay, octet cell, octet lease] ++ octets32 tick
  | .frameError port cause kind node => [sideCode (some port), cause.code, octet kind, node.setWidth 8]
  | .overrun code tag => [code, tag]
  | .passRefused state seq => [octet state.code, seq]
  | .commitDone label digest shadow changed => nat16 label ++ octets16 digest ++ octets16 shadow ++ [yesNo changed]
  | .commitRefused why digest => refusalOctets why ++ octets16 digest
  | .dropped cause digest port => [cause.code] ++ octets16 digest ++ optional 1 (port.map fun p => [sideCode (some p)])

/-- How many octets the detail of a kind takes: the zeros of an absent one in EVENTS_READ (R184, R188). -/
def detailWidth : EventKind → Nat
  | .range | .speed | .sequence | .tracking | .settleTimeout | .linkLoss | .stateChange => 2
  | .forbidden | .proximity | .trespass | .feedbackLoss | .frameLoss | .softLimit | .driveFault | .setpointEarly => 1
  | .stack => 8
  | .leaseLapsed => 7
  | .frameError => 4
  | .requestOverrun | .passRefused | .feedbackStale => 2
  | .commitDone => 7
  | .commitRefused => 11
  | .agreementDropped => 5

def answerOk (h : ReqHead) (data : List Octet) : Answer := ⟨h, .ok, none, data⟩

def answerRefused (h : ReqHead) (r : Reason) (data : List Octet) : Answer := ⟨h, .refused, some r, data⟩

/-- How many data octets an ANSWER frame holds (R188). -/
def partSize : Nat := 59

/-- Whether the part of an answer is its last (R189). -/
def Answer.lastPart (ans : Answer) (part : Nat) : Bool := decide (ans.data.length ≤ partSize * (part + 1))

/-- The payload of a part of an answer: code, tag, status, reason, part octet, data (R188, R189). -/
def Answer.payload (ans : Answer) (part : Nat) : List Octet :=
  [ans.head.code, ans.head.tag, ans.status.code, (ans.reason.map Reason.code).getD 0,
    (if ans.lastPart part then 0x80#8 else 0#8) ||| octet (part % 16)]
    ++ (ans.data.drop (partSize * part)).take partSize

def positionOption (p : Option Pos) : List Octet := optional 16 (p.map posOctets)

def triCounts (t : Tri Int) : List Octet := count32 t.x ++ count32 t.y ++ count32 t.z

def envelopeOctets (e : Envelope) : List Octet := [octet e.lateral, octet e.below, octet e.above]

/-- A box record as data: mode, then box, motion part and envelope used where present (R175, log entry 12). -/
def recordOctets (r : BoxRecord) : List Octet :=
  match r with
  | .absent | .unknown => [modeCode r] ++ optional 12 none ++ optional 12 none ++ optional 3 none
  | .rest box env => [modeCode r] ++ optional 12 (some (boxOctets box)) ++ optional 12 none ++ optional 3 (some (envelopeOctets env))
  | .motion box motion env =>
    [modeCode r] ++ optional 12 (some (boxOctets box)) ++ optional 12 (some (boxOctets motion))
      ++ optional 3 (some (envelopeOctets env))

/-! ### The codes of the requests (R188) -/

def ReqName.ofCode (c : Octet) : Option ReqName :=
  match c.toNat with
  | 0x01 => some .armEnable
  | 0x02 => some .armHalt
  | 0x03 => some .armCut
  | 0x04 => some .armClear
  | 0x05 => some .armReset
  | 0x06 => some .armStatus
  | 0x10 => some .envelopePush
  | 0x11 => some .envelopePop
  | 0x12 => some .maskSet
  | 0x13 => some .contextSave
  | 0x14 => some .contextLoad
  | 0x20 => some .claim
  | 0x21 => some .renew
  | 0x22 => some .release
  | 0x23 => some .cancel
  | 0x24 => some .cellRead
  | 0x30 => some .tableWrite
  | 0x31 => some .headerWrite
  | 0x32 => some .profileWrite
  | 0x33 => some .tableRead
  | 0x34 => some .digestRead
  | 0x35 => some .tablesReset
  | 0x36 => some .agree
  | 0x37 => some .agreeWithdraw
  | 0x40 => some .eventsRead
  | 0x41 => some .eventsClear
  | 0x42 => some .noticeSet
  | _ => none

/-- The argument length R171 tests (R188). -/
def ReqName.argLength : ReqName → Nat
  | .envelopePush => 2
  | .maskSet => 2
  | .contextLoad => 38
  | .claim => 6
  | .renew => 4
  | .release => 3
  | .cancel => 1
  | .cellRead => 1
  | .tableWrite => 20
  | .headerWrite => 4
  | .profileWrite => 47
  | .tableRead => 2
  | .agree => 2
  | .eventsClear => 4
  | .noticeSet => 3
  | .armEnable | .armHalt | .armCut | .armClear | .armReset | .armStatus | .envelopePop | .contextSave | .digestRead
  | .tablesReset | .agreeWithdraw | .eventsRead => 0

end Sys2Proof.Machine
end

