-- ==== Sys2Proof/Machine/Bank.lean ====
section
/-! DEFINITION. Chapter 2: the default profile and the power-on bank, what the entries of a bank give the judgements,
validation (R18, R20 to R24, R35 to R38). -/

namespace Sys2Proof.Machine

/-! ### Power-on contents (R24, R38) -/

def Tri.all {α : Type} (v : α) : Tri α := ⟨v, v, v⟩

/-- The default profile (R24). -/
def Profile.default : Profile :=
  { origin := Tri.all 0, sign := Tri.all .plus, pitch := Tri.all 1, decel := Tri.all 1, stepCap := Tri.all 1,
    baseLateral := 0, baseBelow := 0, baseAbove := 0, cadence := 8, missLimit := 1, softLimit := 1, feedbackLimit := 1,
    trackingLimit := 1048575, settleWindow := 65535, settleLimit := 64 }

/-- The power-on contents of the shadow bank (R38). -/
def Bank.powerOn : Bank :=
  { header := ⟨⟨false, false⟩, 0⟩, entries := List.replicate 24 .empty, profiles := ⟨Profile.default, Profile.default⟩ }

/-! ### Reading a bank (R16, R18, R23) -/

def Bank.present (b : Bank) (arm : Arm) : Bool := b.header.present.get arm

/-- Present in the active bank, if there is one (R12, R148). -/
def presentIn (b : Option Bank) (arm : Arm) : Bool :=
  match b with
  | some bank => bank.present arm
  | none => false

/-- The BIN of a list of entries: the first BIN entry. A valid bank has at most one (R36). -/
def binOf : List ZoneEntry → Option BinGeom
  | [] => none
  | .bin box bays cells :: _ => some ⟨box, bays, cells⟩
  | _ :: rest => binOf rest

/-- The bin geometry of a bank (R16). -/
def Bank.bin (b : Bank) : Option BinGeom := binOf b.entries

/-- The box of an entry if it is a HOME of the arm (R18). -/
def ZoneEntry.homeBox (arm : Arm) : ZoneEntry → Option Box
  | .home h box => if h = arm then some box else none
  | _ => none

def ZoneEntry.forbiddenBox : ZoneEntry → Option Box
  | .forbidden box => some box
  | _ => none

def ZoneEntry.binBox : ZoneEntry → Option Box
  | .bin box _ _ => some box
  | _ => none

def ZoneEntry.isBin (e : ZoneEntry) : Bool := e.binBox.isSome

/-- The home space of an arm, as boxes (R18). -/
def Bank.homes (b : Bank) (arm : Arm) : List Box := b.entries.filterMap (ZoneEntry.homeBox arm)

def Bank.forbiddens (b : Bank) : List Box := b.entries.filterMap ZoneEntry.forbiddenBox

/-- The caps of an entry if it is a SLOW whose box meets the given box (R49). -/
def ZoneEntry.slowCaps (reach : Box) : ZoneEntry → Option (Tri Nat)
  | .slow box caps => if reach.meets box then some caps else none
  | _ => none

/-- The speed limit on each axis: the smallest of the step cap and the caps of every SLOW entry met (R49). -/
def Bank.speedLimit (b : Bank) (reach : Box) (cap : Tri Nat) : Tri Nat :=
  (b.entries.filterMap (ZoneEntry.slowCaps reach)).foldl (Tri.map2 min) cap

/-! ### Validation (R35 to R37) -/

/-- BAD_GRID (R36). -/
def badGrid (box : Box) (bays cells : Nat) : Bool :=
  !(decide (1 ≤ bays ∧ bays ≤ 8)) || !(decide (1 ≤ cells ∧ cells ≤ 16))
    || decide ((box.hi.x - box.lo.x + 1) % (bays : Int) ≠ 0) || decide ((box.hi.y - box.lo.y + 1) % (cells : Int) ≠ 0)

/-- The first check an entry fails, given whether a BIN stands at a lower index (R36). -/
def entryFailure (b : Bank) (binBefore : Bool) : ZoneEntry → Option ValReason
  | .empty => none
  | .forbidden box => if box.ordered then none else some .badBox
  | .slow box _ => if box.ordered then none else some .badBox
  | .home arm box =>
    if !box.ordered then some .badBox
    else if !b.present arm then some .absentHome
    else if (b.entries.filterMap ZoneEntry.binBox).any box.meets then some .homeInBin
    else none
  | .bin box bays cells =>
    if !box.ordered then some .badBox
    else if binBefore then some .twoBins
    else if badGrid box bays cells then some .badGrid
    else none

/-- The first failing entry from index `i` on (R35). -/
def entriesFailure (b : Bank) (i : Nat) (binBefore : Bool) : List ZoneEntry → Option ValFailure
  | [] => none
  | e :: rest =>
    match entryFailure b binBefore e with
    | some r => some ⟨.entry i, r, none⟩
    | none => entriesFailure b (i + 1) (binBefore || e.isBin) rest

/-- NO_HOME for one arm (R36). -/
def lacksHome (b : Bank) (arm : Arm) : Bool := b.present arm && (b.homes arm).isEmpty

def headerFailure (b : Bank) : Option ValFailure :=
  if lacksHome b .armA || lacksHome b .armB then some ⟨.header, .noHome, none⟩ else none

def inRange (lo hi v : Nat) : Bool := decide (lo ≤ v ∧ v ≤ hi)

/-- The fields that can fail, in the order of the table of R24, each with whether its value is valid (R37). -/
def profileChecks (p : Profile) : List (Bool × ProfileField) :=
  [(inRange 1 65535 p.pitch.x, .pitch .axisX), (inRange 1 65535 p.pitch.y, .pitch .axisY),
   (inRange 1 65535 p.pitch.z, .pitch .axisZ),
   (inRange 1 65535 p.decel.x, .decel .axisX), (inRange 1 65535 p.decel.y, .decel .axisY),
   (inRange 1 65535 p.decel.z, .decel .axisZ),
   (inRange 1 65535 p.stepCap.x, .stepCap .axisX), (inRange 1 65535 p.stepCap.y, .stepCap .axisY),
   (inRange 1 65535 p.stepCap.z, .stepCap .axisZ),
   (inRange 0 63 p.baseLateral, .baseLateral), (inRange 0 63 p.baseBelow, .baseBelow), (inRange 0 63 p.baseAbove, .baseAbove),
   (inRange 1 32 p.cadence, .cadence), (inRange 1 8 p.missLimit, .missLimit), (inRange 1 15 p.softLimit, .softLimit),
   (inRange 1 8 p.feedbackLimit, .feedbackLimit), (inRange 1 1048575 p.trackingLimit, .trackingLimit),
   (inRange 1 64 p.settleLimit, .settleLimit)]

/-- The first field of a profile outside its valid range (R37). -/
def badField (p : Profile) : Option ProfileField := ((profileChecks p).find? (fun c => !c.1)).map (·.2)

def profileFailure (b : Bank) (arm : Arm) : Option ValFailure :=
  (badField (b.profiles.get arm)).map fun f => ⟨.profile arm, .badProfile, some f⟩

/-- The first failure of a bank: header, entries in index order, profile A, profile B (R35). -/
def firstFailure (b : Bank) : Option ValFailure :=
  (headerFailure b).orElse fun _ => (entriesFailure b 0 false b.entries).orElse fun _ =>
    (profileFailure b .armA).orElse fun _ => profileFailure b .armB

/-- The validation result of a bank (R35). -/
def validate (b : Bank) : Validation :=
  match firstFailure b with
  | none => .passed
  | some f => .failed f

end Sys2Proof.Machine
end

