-- ==== Sys2Proof/Machine/PowerOn.lean ====
section
/-! DEFINITION. What every block holds after power-on (R191): the value each chapter gives for each item. -/

namespace Sys2Proof.Machine

/-- Every kind unmasked (R52). -/
def Mask.powerOn : Mask := ⟨false, false, false, false, false, false⟩

/-- The arm context after power-on and after ARM_RESET (R39, R69, R83, R89, R129, R138). -/
def ArmContext.powerOn : ArmContext :=
  { mask := Mask.powerOn, stack := [], softSeen := false, fault := none, carried := none, soft := 0, miss := 0,
    feedback := 0, settleCount := 0, settleTimer := 0 }

/-- An arm unit after power-on (R3, R39, R66, R67, R69, R191). -/
def ArmUnit.powerOn : ArmUnit :=
  { state := .sync, stopCause := none, sto := true, ctx := ArmContext.powerOn, slotFilled := false, expected := none,
    last := ⟨none, Tri.zero, 0⟩, lastActual := none, feedbackSeen := false, substituted := false, outstanding := none,
    work := Profile.default, placeGeom := Profile.default.geometry, bankKnown := false, present := false,
    newProfile := none, tickCopy := 0, ctrlLocked := false, driveLocked := false, awaitFeedback := false,
    arrivals := [], verdict := none, toWs := [], raises := [], handed := [] }

/-- A port's lock state after power-on (R159). -/
def LinkLock.powerOn : LinkLock := ⟨false, 0, 0, 0⟩

/-- A controller port unit after power-on (R124, R159, R166, R167, R170). -/
def CtrlPort.powerOn : CtrlPort :=
  { lock := LinkLock.powerOn, buffer := .empty, fifo := [], insertCount := 0, forwarded := false, handed := [],
    opportunity := .closed, expiryDue := false, toWs := [], raises := [] }

/-- A drive port unit after power-on (R159, R163). -/
def DrivePort.powerOn : DrivePort := { lock := LinkLock.powerOn, node := none, expiryDue := false, raises := [] }

/-- The workspace unit after power-on (R12, R38, R93, R94, R97, R108, R113, R114, R175). -/
def Workspace.powerOn : Workspace :=
  { active := none, records := ⟨.unknown, .unknown⟩, cells := none, queue := [], outcomeCount := ⟨0, 0⟩, tick := 0, scan := 0,
    reported := ⟨.sync, .sync⟩, headerPresent := ⟨false, false⟩, ticksDue := 0, requests := [], toPort := ⟨[], []⟩, raises := [] }

/-- The table unit after power-on (R38, R144, R147). -/
def TableUnit.powerOn : TableUnit :=
  { shadow := Bank.powerOn, digest := digestOf Bank.powerOn, result := validate Bank.powerOn, agreement := ⟨none, none⟩,
    outstanding := false, ctrlLocked := ⟨false, false⟩, arrivals := [], completion := none, toWs := [], raises := [] }

/-- A flag not set (R178). -/
def Flag.clear : Flag := ⟨false, false, 0, none, none⟩

/-- The notice settings after power-on (R180), in kind order. -/
def noticeSettingsPowerOn : List NoticeSetting :=
  [⟨true, 7⟩, ⟨true, 7⟩, ⟨true, 7⟩, ⟨true, 6⟩, ⟨true, 6⟩, ⟨true, 6⟩, ⟨true, 6⟩, ⟨true, 6⟩, ⟨true, 6⟩,
   ⟨true, 7⟩, ⟨true, 7⟩, ⟨true, 7⟩, ⟨true, 7⟩, ⟨true, 7⟩, ⟨true, 4⟩, ⟨true, 4⟩,
   ⟨false, 1⟩, ⟨false, 1⟩, ⟨false, 1⟩, ⟨false, 1⟩, ⟨false, 1⟩, ⟨true, 4⟩, ⟨true, 4⟩, ⟨false, 1⟩]

/-- The report unit after power-on (R178, R180). -/
def ReportUnit.powerOn : ReportUnit :=
  { flags := ⟨List.replicate 24 Flag.clear, List.replicate 24 Flag.clear⟩, settings := noticeSettingsPowerOn, tick := 0,
    ticksDue := 0, requests := [] }

/-- A cadence timer after power-on: the default period, the first expiry after one of it (R3, R191). -/
def CadenceTimer.powerOn : CadenceTimer := ⟨Profile.default.cadence, none, Profile.default.cadence⟩

def Timebase.powerOn : Timebase := ⟨0, ⟨CadenceTimer.powerOn, CadenceTimer.powerOn⟩⟩

end Sys2Proof.Machine
end

