-- ==== Sys2Proof/Machine/State.lean ====
section
/-! DEFINITION. The state of the monitor as plain data, the reasons a step can stop, and the state after reset. -/

namespace Sys2Proof.Machine

/-- The whole monitor: its blocks (0.2), the level of RESET_N, the node sampled from NODE[3:0] (R192), the count of free
values drawn (the model's own, log entry 9), and the queue of commands that wait (the model's own). -/
structure State where
  resetN : Bool
  node : Node
  arms : PerArm ArmUnit
  ctrl : PerArm CtrlPort
  drive : PerArm DrivePort
  req : PerArm ReqPort
  ws : Workspace
  table : TableUnit
  report : ReportUnit
  timebase : Timebase
  draws : Nat
  pending : List Instr
  deriving DecidableEq, Repr

/-- Where the manual says a situation cannot arise and gives no effect for it, the step stops with one of these
(log entry 7). Each is safe: no run of the hardware is in such a situation by the rule named. -/
inductive Fault where
  /-- A monitor setpoint, a step, a tracking or a settling comparison needs the last forwarded position, and there is
  none. Raised by the setpoint, cadence, feedback and envelope commands. Safe: entry to RUN sets it (R78, R163). -/
  | noForwardedPosition
  /-- A verdict ABSENT or UNKNOWN for a placement made in RUN. Raised by SETPOINT_VERDICT and ENVELOPE_VERDICT. Safe:
  a placement made in RUN finds a MOTION record (R46). -/
  | unjudgedInRun
  /-- A checked placement while there is no active bank. Raised by CHECKED_PLACEMENT. Safe: ARM_ENABLE is refused with
  NO_BANK, so none is sent (R12, R38, R77). -/
  | noActiveBank
  /-- A forced placement that finds a record other than MOTION. Raised by FORCED_PLACEMENT. Safe: it finds the record
  MOTION (R13). -/
  | forcedNotInMotion
  deriving DecidableEq, Repr

/-- The refusals. `notModelled` would be answered by an arm of exec whose command has no meaning yet: there is none.
Safe. -/
inductive Refusal where
  | notModelled (mnemonic : String)
  deriving DecidableEq, Repr

/-- What a command answers. -/
abbrev Result := Host.Outcome State Fault Refusal

/-- Every block at its power-on values, with RESET_N at a level and a node (R191, R192). -/
def State.powerOn (resetN : Bool) (node : Node) (draws : Nat) (pending : List Instr) : State :=
  { resetN := resetN, node := node, arms := ⟨ArmUnit.powerOn, ArmUnit.powerOn⟩,
    ctrl := ⟨CtrlPort.powerOn, CtrlPort.powerOn⟩, drive := ⟨DrivePort.powerOn, DrivePort.powerOn⟩,
    req := ⟨⟨none, none⟩, ⟨none, none⟩⟩, ws := Workspace.powerOn, table := TableUnit.powerOn,
    report := ReportUnit.powerOn, timebase := Timebase.powerOn, draws := draws, pending := pending }

/-- The machine right after reset: RESET_N has risen (R191). DESIGN CHOICE: the straps read 15, their level with nothing
fitted (12.7 gives them an internal pull-up); log entry 3. -/
def State.reset : State := State.powerOn true 15#4 0 []

end Sys2Proof.Machine
end

