-- ==== Sys2Proof/Machine/Ops.lean ====
section
/-! DEFINITION. The named operations over the state: reaching a block, handing something from one block to another,
and the frames of the commands: take the event that waits, or change nothing (log entry 1). -/

namespace Sys2Proof.Machine

/-! ### Reaching a block -/

def State.arm (s : State) (m : Arm) : ArmUnit := s.arms.get m

def State.setArm (s : State) (m : Arm) (u : ArmUnit) : State := { s with arms := s.arms.set m u }

def State.port (s : State) (m : Arm) : CtrlPort := s.ctrl.get m

def State.setPort (s : State) (m : Arm) (p : CtrlPort) : State := { s with ctrl := s.ctrl.set m p }

def State.drivePort (s : State) (m : Arm) : DrivePort := s.drive.get m

def State.setDrivePort (s : State) (m : Arm) (p : DrivePort) : State := { s with drive := s.drive.set m p }

def State.setWs (s : State) (w : Workspace) : State := { s with ws := w }

def State.setTable (s : State) (t : TableUnit) : State := { s with table := t }

def State.setReport (s : State) (r : ReportUnit) : State := { s with report := r }

/-- An event reaches an arm unit and takes its place among those that wait (R40). -/
def State.toArm (s : State) (m : Arm) (e : ArmEvent) : State :=
  s.setArm m { s.arm m with arrivals := (s.arm m).arrivals ++ [e] }

/-- An owning block hands the answer of a request to the request unit (R173). -/
def State.answer (s : State) (m : Arm) (ans : Answer) : State :=
  { s with req := s.req.set m { s.req.get m with answer := some ans } }

/-- The same, where the block has an answer to give. -/
def State.answer? (s : State) (m : Arm) : Option Answer → State
  | none => s
  | some ans => s.answer m ans

/-- The node of the drive of an arm, for the header of a setpoint the monitor makes (R163). The manual shows that it is
known whenever one is made; in any other state the node is free (log entry 7). -/
def State.driveNode (s : State) (m : Arm) : Node := (s.drivePort m).node.getD (Config.freeNode s.draws)

/-! ### The outputs (R67, R68, R191) -/

/-- The motion states: RUN, HALTING and SETTLING. -/
def ArmState.moving : ArmState → Bool
  | .run | .halting | .settling => true
  | .sync | .standby | .held | .cut => false

def ArmState.stopped (st : ArmState) : Bool := decide (st = .held ∨ st = .cut)

/-- STO_A or STO_B: asserted in reset, else as the arm unit drives it (R67, R191). -/
def State.stoPin (s : State) (m : Arm) : Bool := !s.resetN || (s.arm m).sto

/-- FAULT: asserted in reset, and while either arm is in HELD or CUT (R68, R191). -/
def State.faultPin (s : State) : Bool := !s.resetN || (s.arm .armA).state.stopped || (s.arm .armB).state.stopped

/-- What the transmitter of a drive port has been handed, oldest first; between frames it sends IDLE frames (R166). -/
def State.sentDown (s : State) (m : Arm) : List (List Octet) := (s.arm m).handed

/-- What the transmitter of a controller port has been handed, oldest first (R166). -/
def State.sentUp (s : State) (m : Arm) : List (List Octet) := (s.port m).handed

/-- What a transmitter sends when no frame waits: an IDLE frame, and nothing while RESET_N is low (R166, R191). -/
def State.idleLine (s : State) : Option (List Octet) := if s.resetN then some (idleFrame s.node) else none

/-! ### Taking an event -/

/-- The arm unit takes the oldest event that waits, unless a checked placement is outstanding (R40). `k` answers none for
an event the command is not about; then nothing changes (log entry 1). -/
def takeArm (m : Arm) (s : State) (k : ArmEvent → ArmUnit → Option Result) : Result :=
  match (s.arm m).outstanding, (s.arm m).arrivals with
  | none, e :: rest => (k e { s.arm m with arrivals := rest }).getD (.next s)
  | _, _ => .next s

/-- The arm unit takes a request of the given name (R171). -/
def takeArmRequest (m : Arm) (n : ReqName) (s : State) (k : Request → ArmUnit → Result) : Result :=
  takeArm m s fun e u =>
    match e with
    | .request r => if r.name = n then some (k r u) else none
    | _ => none

/-- The arm unit takes the verdict on its outstanding placement, which is then no longer outstanding (R53, R78, R136). -/
def takeVerdict (m : Arm) (s : State) (k : Outstanding → Verdict → ArmUnit → Option Result) : Result :=
  match (s.arm m).outstanding, (s.arm m).verdict with
  | some o, some v => (k o v { s.arm m with outstanding := none, verdict := none }).getD (.next s)
  | _, _ => .next s

/-- A request of an arm unit ends: the unit as the request left it, and the answer if there is one now. -/
def finishArm (m : Arm) (s : State) (r : ArmUnit × Option Answer) : Result := .next ((s.setArm m r.1).answer? m r.2)

/-- The last forwarded position where the manual's situation has one (log entry 7). -/
def withForwarded (u : ArmUnit) (k : Pos → Result) : Result :=
  match u.last.pos with
  | some p => k p
  | none => .fault .noForwardedPosition

/-- The workspace unit takes the oldest thing an arm unit sent it (R40). -/
def takeFromArm (m : Arm) (s : State) (k : ToWorkspace → State → Option Result) : Result :=
  match (s.arm m).toWs with
  | msg :: rest => (k msg (s.setArm m { s.arm m with toWs := rest })).getD (.next s)
  | [] => .next s

/-- The workspace unit takes the oldest request passed to it, if it is the named one of that sender (R97). -/
def takeWsRequest (m : Arm) (n : ReqName) (s : State) (k : Request → Workspace → Workspace × Answer) : Result :=
  match s.ws.requests with
  | r :: rest =>
    if r.arm = m ∧ r.name = n then
      let out := k r { s.ws with requests := rest }
      .next ((s.setWs out.1).answer m out.2)
    else .next s
  | [] => .next s

/-- The report unit takes the oldest request passed to it, if it is the named one of that sender. -/
def takeReportRequest (m : Arm) (n : ReqName) (s : State) (k : Request → ReportUnit → ReportUnit × Answer) : Result :=
  match s.report.requests with
  | r :: rest =>
    if r.arm = m ∧ r.name = n then
      let out := k r { s.report with requests := rest }
      .next ((s.setReport out.1).answer m out.2)
    else .next s
  | [] => .next s

/-- The table unit takes the oldest event that waits there, unless a commit is outstanding (R30, R149). -/
def takeTable (s : State) (k : TableEvent → TableUnit → Option Result) : Result :=
  match s.table.outstanding, s.table.arrivals with
  | false, e :: rest => (k e { s.table with arrivals := rest }).getD (.next s)
  | _, _ => .next s

/-- The table unit takes the named request of that sender (R30, R149). -/
def takeTableRequest (m : Arm) (n : ReqName) (s : State) (k : Request → TableUnit → TableUnit × Answer) : Result :=
  takeTable s fun e t =>
    match e with
    | .request r =>
      if r.arm = m ∧ r.name = n then
        let out := k r t
        some (.next ((s.setTable out.1).answer m out.2))
      else none
    | .lock .. => none

end Sys2Proof.Machine
end

