-- ==== Sys2Proof/Machine/ArmOps.lean ====
section
/-! DEFINITION. The operations an arm unit's rules share: envelopes, raises, changes of state, recording a fault,
entering HALTING, SETTLING and CUT, braking and hold setpoints, the parts of a cadence expiry (chapters 3, 4 and 7).
Where an event sends several things, it sends placements and rest updates before the report of the new state
(log entry 18). -/

namespace Sys2Proof.Machine

/-! ### Envelopes (R9) -/

/-- The envelope composed from a profile and a stack (R9). -/
def composeEnvelope (p : Profile) (stack : List Margin) : Envelope :=
  match stack with
  | [] => ⟨p.baseLateral, p.baseBelow, p.baseAbove⟩
  | top :: _ => ⟨p.baseLateral + top.lateral, p.baseBelow + top.below, p.baseAbove⟩

def ArmUnit.envelope (u : ArmUnit) : Envelope := composeEnvelope u.work u.ctx.stack

/-! ### Sending -/

def ArmUnit.send (u : ArmUnit) (msg : ToWorkspace) : ArmUnit := { u with toWs := u.toWs ++ [msg] }

def ArmUnit.raise (u : ArmUnit) (m : Arm) (k : EventKind) (d : Detail) : ArmUnit := { u with raises := u.raises ++ [⟨m, k, d⟩] }

/-- A frame goes to the transmitter of the drive port (R166). -/
def ArmUnit.hand (u : ArmUnit) (os : List Octet) : ArmUnit := { u with handed := u.handed ++ [os] }

/-- A rest update with a position (R14). It ends the wait of R134 for a first FEEDBACK (log entry 21). -/
def ArmUnit.sendRest (u : ArmUnit) (p : Pos) : ArmUnit :=
  { u.send (.rest p.xyz u.envelope u.work.geometry) with awaitFeedback := false }

/-- A rest update with the last actual position, if it is known. -/
def ArmUnit.sendRestIfKnown (u : ArmUnit) : ArmUnit :=
  match u.lastActual with
  | some p => u.sendRest p
  | none => u

/-! ### Changes of state (R66, R97) -/

/-- The states whose entry raises STATE_CHANGE (R66). -/
def ArmState.announced : ArmState → Bool
  | .halting | .held | .cut | .standby => true
  | .sync | .run | .settling => false

/-- The arm enters a state: it reports the change to the workspace unit (R97) and raises STATE_CHANGE where R66 says.
To be in the state already is no entry. -/
def ArmUnit.enter (u : ArmUnit) (m : Arm) (st : ArmState) : ArmUnit :=
  if u.state = st then u
  else
    let v := ({ u with state := st } : ArmUnit).send (.stateReport st)
    if st.announced then v.raise m .stateChange (.stateChange u.state st) else v

/-! ### Recording a fault (R70) -/

/-- A record joined by a finding: the kinds not already in it, and never its own kind (R70). -/
def FaultRec.join (r : FaultRec) (f : Finding) : FaultRec :=
  { r with also := KindSet.without (KindSet.add (KindSet.union r.also f.also) f.kind) r.kind }

/-- A finding as a first fault (R70). -/
def Finding.toRecord (f : Finding) (st : ArmState) : FaultRec :=
  { kind := f.kind, also := KindSet.without f.also f.kind, seq := f.seq, axis := f.axis, port := f.port, tick := f.tick,
    state := st }

/-- R70: the fault becomes the record, joins it, or makes a carried fault the record and joins that. -/
def ArmUnit.record (u : ArmUnit) (f : Finding) : ArmUnit :=
  match u.ctx.fault, u.ctx.carried with
  | some r, _ => { u with ctx := { u.ctx with fault := some (r.join f) } }
  | none, some c => { u with ctx := { u.ctx with fault := some (c.join f), carried := none } }
  | none, none => { u with ctx := { u.ctx with fault := some (f.toRecord u.state) } }

/-- A finding that carries no other kinds, with the tick of the arm unit's copy (R69). -/
def ArmUnit.finding (u : ArmUnit) (k : FaultKind) (seq : Option SeqNo) (axis : Option Axis) (port : Option Side) : Finding :=
  ⟨k, KindSet.empty, seq, axis, port, u.tickCopy⟩

/-! ### Entering HALTING, SETTLING and CUT (R73, R79, R82) -/

/-- R79: entry to HALTING. -/
def ArmUnit.halt (u : ArmUnit) (m : Arm) (cause : StopCause) : ArmUnit :=
  ({ u with stopCause := some cause } : ArmUnit).enter m .halting

/-- A hard fault in RUN (R70, R79). -/
def ArmUnit.hardFault (u : ArmUnit) (m : Arm) (f : Finding) : ArmUnit := (u.record f).halt m .fault

/-- R82: an arm in HALTING whose last forwarded step is 0 on all three axes enters SETTLING. -/
def ArmUnit.settleIfStill (u : ArmUnit) (m : Arm) : ArmUnit :=
  if u.state = .halting ∧ u.last.step = Tri.zero then
    ({ u with ctx := { u.ctx with settleCount := 0, settleTimer := 0 } } : ArmUnit).enter m .settling
  else u

/-- R73, after the cause has been recorded: STO asserted, a rest update or UNKNOWN, the state CUT. -/
def ArmUnit.cutNow (u : ArmUnit) (m : Arm) : ArmUnit :=
  let v : ArmUnit := { u with sto := true, stopCause := none }
  let w := match v.lastActual with
    | some p => v.sendRest p
    | none => v.send .setUnknown
  w.enter m .cut

/-- A waiting event as a second cause of CUT of the same stop, where it is a cause of CUT (R86, log entry 28). A loss of lock
needs no mark: in CUT it joins the record whenever it comes (R72, R74). -/
def ArmEvent.asSecond : ArmEvent → ArmEvent
  | .request r => if r.name = .armCut then .cutSecond r else .request r
  | .feedback f => if f.status = 0 then .feedback f else .faultSecond f
  | e => e

/-- A waiting event once the stop it was a second cause in is over. -/
def ArmEvent.asFirst : ArmEvent → ArmEvent
  | .cutSecond r => .request r
  | .faultSecond f => .feedback f
  | e => e

/-- R73: the cause is recorded by R70 and the arm enters CUT. An arm already in CUT only records it (R86). A passage to CUT out of
a stop makes the causes of CUT that wait with it second causes of that stop. -/
def ArmUnit.cut (u : ArmUnit) (m : Arm) (f : Finding) : ArmUnit :=
  if u.state = .cut then u.record f
  else if u.state = .halting ∨ u.state = .settling then
    { (u.record f).cutNow m with arrivals := u.arrivals.map ArmEvent.asSecond }
  else (u.record f).cutNow m

/-- Entry to SYNC: STO asserted, a carried fault discarded (R67, R72, R74, R90). -/
def ArmUnit.toSync (u : ArmUnit) (m : Arm) : ArmUnit :=
  ({ u with sto := true, stopCause := none, ctx := { u.ctx with carried := none } } : ArmUnit).enter m .sync

/-- Entry to STANDBY from SYNC: the record is set UNKNOWN and stays so until a first FEEDBACK (R71, R134). -/
def ArmUnit.standbyFromSync (u : ArmUnit) (m : Arm) : ArmUnit :=
  ({ u.send .setUnknown with awaitFeedback := true } : ArmUnit).enter m .standby

/-- R72, R86: a fault found during a stop that does not end it: it joins a fault stop's record, and leaves none on a
requested stop. Its flag is raised by the caller. -/
def ArmUnit.foundInStop (u : ArmUnit) (f : Finding) : ArmUnit :=
  if u.stopCause = some .fault then u.record f else u

/-! ### Setpoints the monitor makes (R58, R75) -/

/-- R58: the braking setpoint after the last forwarded setpoint, whose position is `p`: its forced placement is sent and
it goes to the drive. -/
def ArmUnit.brake (u : ArmUnit) (node : Node) (p : Pos) : ArmUnit :=
  let step := Tri.map2 (fun g s => brakingStep g.decel s) u.placeGeom u.last.step
  let q : Pos := ⟨p.xyz.add step, p.w⟩
  let seq := u.last.seq + 1
  { (u.send (.forced q.xyz p.xyz step u.placeGeom)).hand (setpointFrame node seq q) with last := ⟨some q, step, seq⟩ }

/-- R75: a hold setpoint at a position. -/
def ArmUnit.hold (u : ArmUnit) (node : Node) (p : Pos) : ArmUnit :=
  let seq := u.last.seq + 1
  { u.hand (setpointFrame node seq p) with last := ⟨some p, Tri.zero, seq⟩ }

/-! ### Parts of a cadence expiry -/

/-- R3: the arm unit takes as its working profile the profile of the latest commit notice, if one came since. -/
def ArmUnit.takeProfile (u : ArmUnit) : ArmUnit :=
  match u.newProfile with
  | some p => { u with work := p, newProfile := none }
  | none => u

/-- Whether the feedback count reaches its limit at the period's end (R64). -/
def ArmUnit.feedbackRunsOut (u : ArmUnit) : Bool := !u.feedbackSeen && decide (u.work.feedbackLimit ≤ u.ctx.feedback + 1)

/-- R64: the feedback count at a period's end, in RUN, HALTING or SETTLING. -/
def ArmUnit.stepFeedback (u : ArmUnit) (m : Arm) : ArmUnit :=
  if u.feedbackRunsOut then
    let v := ({ u with ctx := { u.ctx with feedback := 0 } } : ArmUnit).raise m .feedbackLoss (.seqOnly u.last.seq)
    let f := u.finding .feedbackLoss (some u.last.seq) none none
    if u.state = .run then
      if u.ctx.mask.feedbackLoss then v else v.hardFault m f
    else v.foundInStop f
  else if u.feedbackSeen then u
  else { u with ctx := { u.ctx with feedback := u.ctx.feedback + 1 } }

/-- Whether a missed period at this expiry reaches the miss limit (R60). -/
def ArmUnit.missRunsOut (u : ArmUnit) : Bool := decide (u.work.missLimit ≤ u.ctx.miss + 1)

/-- R60: a missed period. -/
def ArmUnit.missedPeriod (u : ArmUnit) (m : Arm) (node : Node) (p : Pos) : ArmUnit :=
  let v := u.brake node p
  let w : ArmUnit := { v with substituted := true, ctx := { v.ctx with miss := v.ctx.miss + 1 } }
  if u.missRunsOut then
    ((w.raise m .frameLoss (.seqOnly w.last.seq)).hardFault m (w.finding .frameLoss (some w.last.seq) none none)).settleIfStill m
  else w

end Sys2Proof.Machine
end

