-- ==== Sys2Proof/Machine/Locks.lean ====
section
/-! DEFINITION. The arm unit takes reports of lock: LOCK_GAINED (R71), CONTROLLER_LOCK_LOSS (R72), DRIVE_LOCK_LOSS (R74). -/

namespace Sys2Proof.Machine

/-- The lock last reported of one of the arm's ports (R175). -/
def ArmUnit.setLock (u : ArmUnit) (side : Side) (locked : Bool) : ArmUnit :=
  match side with
  | .ctrl => { u with ctrlLocked := locked }
  | .drive => { u with driveLocked := locked }

def ArmUnit.bothLocked (u : ArmUnit) : Bool := u.ctrlLocked && u.driveLocked

/-- R71: in SYNC with both ports LOCKED the arm enters STANDBY. -/
def ArmUnit.lockGained (u : ArmUnit) (m : Arm) : ArmUnit :=
  if u.state = .sync ∧ u.bothLocked = true then u.standbyFromSync m else u

/-- LINK_LOSS is raised in every state except SYNC (R72, R74). -/
def ArmUnit.raiseLinkLoss (u : ArmUnit) (m : Arm) (side : Side) : ArmUnit :=
  u.raise m .linkLoss (.linkLoss side u.state)

def ArmUnit.linkLoss (u : ArmUnit) (side : Side) : Finding := u.finding .linkLoss none none (some side)

/-- R72: the response to a loss of lock at the controller port, by state. -/
def ArmUnit.controllerLost (u : ArmUnit) (m : Arm) : ArmUnit :=
  let v := u.raiseLinkLoss m .ctrl
  match u.state with
  | .sync => u
  | .standby => v.toSync m
  | .run => v.hardFault m (u.linkLoss .ctrl)
  | .halting | .settling => v.foundInStop (u.linkLoss .ctrl)
  | .held => v.cut m (u.linkLoss .ctrl)
  | .cut => v.record (u.linkLoss .ctrl)

/-- R74: the response to a loss of lock at the drive port, by state and STO. -/
def ArmUnit.driveLost (u : ArmUnit) (m : Arm) : ArmUnit :=
  let v := u.raiseLinkLoss m .drive
  match u.state with
  | .sync => u
  | .standby => if u.sto then v.toSync m else v.cut m (u.linkLoss .drive)
  | .run | .halting | .settling => v.cut m (u.linkLoss .drive)
  | .held => if u.sto then v.record (u.linkLoss .drive) else v.cut m (u.linkLoss .drive)
  | .cut => v.record (u.linkLoss .drive)

/-- LOCK_GAINED (R71). -/
def execLockGained (m : Arm) (s : State) : Result :=
  takeArm m s fun e u =>
    match e with
    | .lock side true => some (.next (s.setArm m ((u.setLock side true).lockGained m)))
    | _ => none

/-- CONTROLLER_LOCK_LOSS (R72). -/
def execControllerLockLoss (m : Arm) (s : State) : Result :=
  takeArm m s fun e u =>
    match e with
    | .lock .ctrl false => some (.next (s.setArm m ((u.setLock .ctrl false).controllerLost m)))
    | _ => none

/-- DRIVE_LOCK_LOSS (R74). -/
def execDriveLockLoss (m : Arm) (s : State) : Result :=
  takeArm m s fun e u =>
    match e with
    | .lock .drive false => some (.next (s.setArm m ((u.setLock .drive false).driveLost m)))
    | _ => none

end Sys2Proof.Machine
end

