-- ==== Sys2Proof/Machine/Setpoint.lean ====
section
/-! DEFINITION. Setpoint checking at the arm unit (chapter 3): SETPOINT_ARRIVAL, SETPOINT_VERDICT, and the embedded
envelope operation of chapter 7. -/

namespace Sys2Proof.Machine

/-! ### Envelope operations (R130, R131) -/

/-- A valid envelope operation (R43, R130). -/
inductive EnvOp where
  | none
  | push (m : Margin)
  | pop
  deriving DecidableEq, Repr

/-- The margins of a push that overflows under masked STACK: field by field the larger (R130). -/
def Margin.merge (top pushed : Margin) : Margin := ⟨max top.lateral pushed.lateral, max top.below pushed.below⟩

/-- R130: the stack after an operation, and the case of the STACK violation if there is one. The stack's head is its
top entry. -/
def applyEnvOp (masked : Bool) (op : EnvOp) (stack : List Margin) : List Margin × Option StackCase :=
  match op, stack with
  | .none, _ => (stack, none)
  | .push m, [] => ([m], none)
  | .push m, top :: rest =>
    if stack.length < 8 then (m :: stack, none)
    else (if masked then top.merge m :: rest else stack, some .overflow)
  | .pop, _ :: rest => (rest, none)
  | .pop, [] => ([], some .underflow)

def ArmUnit.setStack (u : ArmUnit) (stack : List Margin) : ArmUnit := { u with ctx := { u.ctx with stack := stack } }

/-- The frame's code is PUSH, whatever its margins (R44, R187). -/
def SetpointFrame.isPush (f : SetpointFrame) : Bool := f.op == 1

def SetpointFrame.margin (f : SetpointFrame) : Margin := ⟨f.lateral.toNat, f.below.toNat⟩

/-- The frame's operation, none where it is a BAD_OP: a code that is no operation, or a PUSH with a margin above 63
(R43, R131). -/
def SetpointFrame.envOp (f : SetpointFrame) : Option EnvOp :=
  if f.op = 0 then some .none
  else if f.op = 1 then if f.margin.lateral ≤ 63 ∧ f.margin.below ≤ 63 then some (.push f.margin) else none
  else if f.op = 2 then some .pop
  else none

/-- Stage 2 (R43, R131): the stack after the frame's operation, and the STACK violation if there is one. -/
def stage2 (masked : Bool) (f : SetpointFrame) (stack : List Margin) : List Margin × Option StackDetail :=
  let detail (c : StackCase) : StackDetail :=
    ⟨.frame, c, stack.length, if f.isPush then some f.margin else none, some f.seq⟩
  match f.envOp with
  | some op => ((applyEnvOp masked op stack).1, (applyEnvOp masked op stack).2.map detail)
  | none => (stack, some (detail .badOp))

/-! ### The kinds found and their flags (R56, R57) -/

/-- What a setpoint's check has found: the verdict's kinds with its axes, the expected sequence of a SEQUENCE
violation, the particulars of a STACK violation. -/
structure Found where
  zone : KindSet
  rangeAxis : Option Axis
  speedAxis : Option Axis
  expected : Option SeqNo
  stack : Option StackDetail
  deriving DecidableEq, Repr

/-- Every kind found, as a set. -/
def Found.kinds (f : Found) : KindSet :=
  KindSet.addIf (KindSet.addIf f.zone f.expected.isSome .sequence) f.stack.isSome .stack

/-- The offending axis of a fault whose first kind is `k` (R56). -/
def Found.axisOf (f : Found) : FaultKind → Option Axis
  | .range => f.rangeAxis
  | .speed => f.speedAxis
  | _ => none

/-- The raises of the zone kinds, in kind order (R57). -/
def zoneRaises (m : Arm) (seq : SeqNo) (f : Found) : List Raise :=
  (if KindSet.has f.zone .range then [⟨m, .range, .seqAxis seq f.rangeAxis⟩] else [])
    ++ (if KindSet.has f.zone .forbidden then [⟨m, .forbidden, .seqOnly seq⟩] else [])
    ++ (if KindSet.has f.zone .proximity then [⟨m, .proximity, .seqOnly seq⟩] else [])
    ++ (if KindSet.has f.zone .trespass then [⟨m, .trespass, .seqOnly seq⟩] else [])
    ++ (if KindSet.has f.zone .speed then [⟨m, .speed, .seqAxis seq f.speedAxis⟩] else [])

/-- The raises of the arm unit's own kinds (R42, R57, R130). -/
def ownRaises (m : Arm) (seq : SeqNo) (f : Found) : List Raise :=
  (match f.expected with
    | some e => [(⟨m, .sequence, .seqPair e seq⟩ : Raise)]
    | none => [])
    ++ (match f.stack with
    | some d => [(⟨m, .stack, .stack d⟩ : Raise)]
    | none => [])

def ArmUnit.raiseAll (u : ArmUnit) (rs : List Raise) : ArmUnit := { u with raises := u.raises ++ rs }

def ArmUnit.raiseFound (u : ArmUnit) (m : Arm) (seq : SeqNo) (f : Found) : ArmUnit :=
  u.raiseAll (zoneRaises m seq f ++ ownRaises m seq f)

/-- A fault from the kinds found, found at a tick (R56, R69). -/
def Found.finding (f : Found) (seq : SeqNo) (tick : Tick) : Option Finding :=
  f.kinds.first.map fun k => ⟨k, f.kinds, some seq, f.axisOf k, none, tick⟩

/-! ### Outcomes (R54 to R56) -/

/-- R56: the hard outcome. The braking setpoint belongs to the current period; one of step 0 leads on to SETTLING
(R79, R82). -/
def ArmUnit.hardOutcome (u : ArmUnit) (m : Arm) (node : Node) (p : Pos) (seq : SeqNo) (f : Found) (tick : Tick) : ArmUnit :=
  let v : ArmUnit := { (u.raiseFound m seq f).brake node p with substituted := true }
  match f.finding seq tick with
  | some x => (v.hardFault m x).settleIfStill m
  | none => v

/-- R54: the forward outcome. -/
def ArmUnit.forwardOutcome (u : ArmUnit) (m : Arm) (frm : SetpointFrame) (step : Tri Int) (f : Found) : ArmUnit :=
  { ((u.raiseFound m frm.seq f).hand frm.octets) with
    last := ⟨some frm.pos, step, frm.seq⟩, substituted := false, ctx := { u.ctx with soft := 0, miss := 0 } }

/-- R55: the soft outcome, which at the soft limit is also the hard fault SOFT_LIMIT. -/
def ArmUnit.softOutcome (u : ArmUnit) (m : Arm) (node : Node) (p : Pos) (seq : SeqNo) (f : Found) (tick : Tick) : ArmUnit :=
  let v : ArmUnit := { (u.raiseFound m seq f).brake node p with
    substituted := true, ctx := { u.ctx with softSeen := true, soft := u.ctx.soft + 1, miss := 0 } }
  if u.work.softLimit ≤ u.ctx.soft + 1 then
    ((v.raise m .softLimit (.seqOnly seq)).hardFault m ⟨.softLimit, f.kinds, some seq, none, none, tick⟩).settleIfStill m
  else v

/-! ### The local check (R42 to R45) -/

/-- Stage 1 (R42): the expected sequence a frame violates, if it does. -/
def seqViolation (expected : Option SeqNo) (seq : SeqNo) : Option SeqNo :=
  match expected with
  | some e => if e = seq then none else some e
  | none => none

/-- Stage 3 (R44): the frame has failed on the arm unit's own findings. -/
def hardAtStage3 (mask : Mask) (isPush : Bool) (f : Found) : Bool :=
  (f.expected.isSome && !mask.sequence) || (f.stack.isSome && !mask.stack)
    || ((f.expected.isSome || f.stack.isSome) && isPush)

/-- The checked placement of stage 4 (R45). -/
def ArmUnit.setpointPlacement (u : ArmUnit) (p0 : Pos) (p : Pos) : Placement :=
  { p := p.xyz, p0 := p0.xyz, step := p.xyz.sub p0.xyz, env := u.envelope, geom := u.work.geometry, caps := u.work.stepCap }

/-- The local check of a frame taken in RUN with the slot EMPTY (R41 to R45). `p0` is the last forwarded position. -/
def ArmUnit.checkSetpoint (u : ArmUnit) (m : Arm) (node : Node) (p0 : Pos) (frm : SetpointFrame) : ArmUnit :=
  let s2 := stage2 u.ctx.mask.stack frm u.ctx.stack
  let found : Found := ⟨KindSet.empty, none, none, seqViolation u.expected frm.seq, s2.2⟩
  let v : ArmUnit := { u.setStack s2.1 with slotFilled := true, expected := some (frm.seq + 1) }
  if hardAtStage3 u.ctx.mask frm.isPush found then v.hardOutcome m node p0 frm.seq found u.tickCopy
  else
    let pl := v.setpointPlacement p0 frm.pos
    { v.send (.checked pl) with
      outstanding := some (.setpoint frm pl.step pl.geom found.expected found.stack) }

/-- SETPOINT_ARRIVAL (R41): the frame is checked in RUN with the slot EMPTY; with the slot FILLED it is discarded with
SETPOINT_EARLY; in any other state it is discarded whole. -/
def execSetpointArrival (m : Arm) (s : State) : Result :=
  takeArm m s fun e u =>
    match e with
    | .setpoint f =>
      some
        (if u.state = .run then
          if u.slotFilled then .next (s.setArm m (u.raise m .setpointEarly (.seqOnly f.seq)))
          else withForwarded u fun p0 => .next (s.setArm m (u.checkSetpoint m (s.driveNode m) p0 f))
        else .next (s.setArm m u))
    | _ => none

/-- Whether a FAILED verdict leads to the soft outcome (R53): only masked kinds, and no PUSH. -/
def softVerdict (mask : Mask) (isPush : Bool) (kinds : KindSet) : Bool :=
  !isPush && !(KindSet.has kinds .range) && !(KindSet.has kinds .forbidden) && !(KindSet.has kinds .proximity)
    && (!(KindSet.has kinds .trespass) || mask.trespass) && (!(KindSet.has kinds .speed) || mask.speed)

/-- SETPOINT_VERDICT (R53): forward, soft or hard. -/
def execSetpointVerdict (m : Arm) (s : State) : Result :=
  takeVerdict m s fun o v u =>
    match o with
    | .setpoint frm step geom expected stack =>
      some
        (match v with
        | .placed =>
          .next (s.setArm m (({ u with placeGeom := geom } : ArmUnit).forwardOutcome m frm step
            ⟨KindSet.empty, none, none, expected, stack⟩))
        | .failed kinds ra sa tick =>
          withForwarded u fun p0 =>
            let found : Found := ⟨kinds, ra, sa, expected, stack⟩
            if softVerdict u.ctx.mask frm.isPush kinds then
              .next (s.setArm m (u.softOutcome m (s.driveNode m) p0 frm.seq found tick))
            else .next (s.setArm m (u.hardOutcome m (s.driveNode m) p0 frm.seq found tick))
        | .absent | .unknown => .fault .unjudgedInRun)
    | _ => none

end Sys2Proof.Machine
end

