-- ==== Sys2Proof/Machine/ArmRequests.lean ====
section
/-! DEFINITION. The arm-state requests and the verdict of ARM_ENABLE (R77, R78, R80, R87 to R89), and the arm unit's
part of ARM_STATUS (R175). -/

namespace Sys2Proof.Machine

def okAnswer (r : Request) (data : List Octet) : Option Answer := some (answerOk r.head data)

def refusal (r : Request) (why : Reason) (data : List Octet) : Option Answer := some (answerRefused r.head why data)

/-- The first refusal of ARM_ENABLE that applies (R77). -/
def ArmUnit.enableRefusal (u : ArmUnit) : Option Reason :=
  if u.state ≠ .standby then some .state
  else if !u.bankKnown then some .noBank
  else if !u.present then some .absent
  else if u.lastActual.isNone then some .state
  else none

/-- The zero-step checked placement of ARM_ENABLE at a position (R77). -/
def ArmUnit.enablePlacement (u : ArmUnit) (p : Pos) : Placement :=
  { p := p.xyz, p0 := p.xyz, step := Tri.zero, env := u.envelope, geom := u.work.geometry, caps := u.work.stepCap }

/-- R77: delivery of a carried fault. The answer is REFUSED with FAULT_PENDING. -/
def ArmUnit.deliverCarried (u : ArmUnit) (m : Arm) (f : FaultRec) : ArmUnit :=
  ({ u with ctx := { u.ctx with fault := some f, carried := none } } : ArmUnit).enter m .held

/-- R77. -/
def ArmUnit.enable (u : ArmUnit) (m : Arm) (r : Request) : ArmUnit × Option Answer :=
  match u.enableRefusal, u.ctx.carried, u.lastActual with
  | some why, _, _ => (u, refusal r why [])
  | none, some f, _ => (u.deliverCarried m f, refusal r .faultPending [])
  | none, none, some p =>
    let pl := u.enablePlacement p
    ({ u.send (.checked pl) with outstanding := some (.enable r.head pl.geom) }, none)
  | none, none, none => (u, refusal r .state [])

/-- ARM_ENABLE (R77). -/
def execArmEnable (m : Arm) (s : State) : Result :=
  takeArmRequest m .armEnable s fun r u => finishArm m s (u.enable m r)

/-- R78, PLACED: the arm enters RUN from the last actual position. -/
def ArmUnit.enterRun (u : ArmUnit) (m : Arm) (geom : Geometry) : ArmUnit :=
  ({ u with
    sto := false, last := ⟨u.lastActual, Tri.zero, u.last.seq⟩, slotFilled := false, expected := none,
    ctx := { u.ctx with soft := 0, miss := 0, feedback := 0, settleCount := 0, settleTimer := 0 },
    feedbackSeen := false, substituted := false, placeGeom := geom } : ArmUnit).enter m .run

/-- The data of a refusal with ILLEGAL: the violated kinds and the offending axis of the first of them (R78, R136). -/
def illegalData (f : Found) : List Octet := octets16 f.kinds ++ [axisCode (f.kinds.first.bind f.axisOf)]

/-- ENABLE_VERDICT (R78). Masks do not apply. -/
def execEnableVerdict (m : Arm) (s : State) : Result :=
  takeVerdict m s fun o v u =>
    match o with
    | .enable h geom =>
      some (finishArm m s
        (match v with
        | .placed => (u.enterRun m geom, some (answerOk h []))
        | .failed kinds ra sa _ => (u, some (answerRefused h .illegal (illegalData ⟨kinds, ra, sa, none, none⟩)))
        | .absent => (u, some (answerRefused h .absent []))
        | .unknown => (u, some (answerRefused h .state []))))
    | _ => none

/-- R80. -/
def ArmUnit.haltRequest (u : ArmUnit) (m : Arm) (r : Request) : ArmUnit × Option Answer :=
  match u.state with
  | .run => (u.halt m .requested, okAnswer r [])
  | .standby | .halting | .settling | .held => (u, okAnswer r [])
  | .sync | .cut => (u, refusal r .state [])

/-- ARM_HALT (R80). -/
def execArmHalt (m : Arm) (s : State) : Result :=
  takeArmRequest m .armHalt s fun r u => finishArm m s (u.haltRequest m r)

/-- R87. In CUT nothing changes. -/
def ArmUnit.cutRequest (u : ArmUnit) (m : Arm) (r : Request) : ArmUnit × Option Answer :=
  match u.state with
  | .standby | .run | .halting | .settling | .held => (u.cut m (u.finding .cutRequested none none none), okAnswer r [])
  | .cut => (u, okAnswer r [])
  | .sync => (u, refusal r .state [])

/-- R86: an ARM_CUT that is a second cause of CUT of the stop that ended in this CUT joins the record (log entry 28). -/
def ArmUnit.cutSecond (u : ArmUnit) (m : Arm) (r : Request) : ArmUnit × Option Answer :=
  if u.state = .cut then (u.cut m (u.finding .cutRequested none none none), okAnswer r []) else u.cutRequest m r

/-- ARM_CUT (R87). -/
def execArmCut (m : Arm) (s : State) : Result :=
  takeArm m s fun e u =>
    match e with
    | .request r => if r.name = .armCut then some (finishArm m s (u.cutRequest m r)) else none
    | .cutSecond r => some (finishArm m s (u.cutSecond m r))
    | _ => none

/-- The state an ARM_CLEAR in HELD or an ARM_RESET leads to (R88, R89). -/
def ArmUnit.readyState (u : ArmUnit) : ArmState := if u.bothLocked then .standby else .sync

/-- R88. -/
def ArmUnit.clearRequest (u : ArmUnit) (m : Arm) (r : Request) : ArmUnit × Option Answer :=
  match u.state with
  | .held =>
    let v : ArmUnit := { u with ctx := { u.ctx with fault := none, softSeen := false } }
    (if u.bothLocked then v.enter m .standby else v.toSync m, okAnswer r [])
  | .standby => ({ u with ctx := { u.ctx with carried := none, softSeen := false } }, okAnswer r [])
  | .sync | .run | .halting | .settling | .cut => (u, refusal r .state [])

/-- ARM_CLEAR (R88). -/
def execArmClear (m : Arm) (s : State) : Result :=
  takeArmRequest m .armClear s fun r u => finishArm m s (u.clearRequest m r)

/-- R89, steps 1 to 4: the context at its power-on values, STO asserted, STANDBY or SYNC with its placement, and the
removal of the arm's claims. What still waits is no longer of the stop that is over. -/
def ArmUnit.reset (u : ArmUnit) (m : Arm) : ArmUnit :=
  let v : ArmUnit := { u with
    ctx := ArmContext.powerOn, expected := none, sto := true, stopCause := none, arrivals := u.arrivals.map ArmEvent.asFirst }
  let w :=
    if u.bothLocked then
      if u.state = .sync then v.standbyFromSync m else v.sendRestIfKnown.enter m .standby
    else v.enter m .sync
  w.send .claimRemoval

def ArmUnit.resetRequest (u : ArmUnit) (m : Arm) (r : Request) : ArmUnit × Option Answer :=
  match u.state with
  | .sync | .standby | .held | .cut => (u.reset m, okAnswer r [])
  | .run | .halting | .settling => (u, refusal r .state [])

/-- ARM_RESET (R89). -/
def execArmReset (m : Arm) (s : State) : Result :=
  takeArmRequest m .armReset s fun r u => finishArm m s (u.resetRequest m r)

/-- The arm unit's part of the status, in the order of the table of R175 (log entry 12). That a carried fault present is 1 and
absent 0, as a presence octet, is log entry 14, with the codes of STO, lock, stop cause and slot. -/
def ArmUnit.statusOctets (u : ArmUnit) : List Octet :=
  [octet u.state.code] ++ optional 1 (u.stopCause.map fun c => [c.code]) ++ [if u.sto then 0 else 1]
    ++ [if u.ctrlLocked then 0 else 1, if u.driveLocked then 0 else 1]
    ++ optional 13 (u.ctx.fault.map fun f => faultOctets 1 (some f)) ++ [yesNo u.ctx.carried.isSome]
    ++ [octet u.ctx.soft, octet u.ctx.miss, octet u.ctx.feedback, octet u.ctx.settleCount, octet u.ctx.settleTimer]
    ++ [yesNo u.slotFilled, yesNo u.substituted, yesNo u.feedbackSeen] ++ optional 1 (u.expected.map fun e => [e])
    ++ positionOption u.last.pos ++ triCounts u.last.step ++ [u.last.seq] ++ positionOption u.lastActual
    ++ [octet u.ctx.stack.length] ++ envelopeOctets u.envelope ++ [octet u.work.cadence]

/-- ARM_STATUS (R175): the arm unit records its part and sends a status read to the workspace unit. -/
def execArmStatus (m : Arm) (s : State) : Result :=
  takeArmRequest m .armStatus s fun r u => finishArm m s (u.send (.statusRead r.head u.statusOctets), none)

end Sys2Proof.Machine
end

