-- ==== Sys2Proof/Machine/Operands.lean ====
section
/-! DEFINITION. Operand forms: how an owning block reads the argument octets of a request (R188, R190), with the range
tests the owning rules make on them. -/

namespace Sys2Proof.Machine

/-- A yes or no, 1 or 0; any other value is out of range (R188). -/
def readFlag (n : Nat) : Option Bool := if n = 1 then some true else if n = 0 then some false else none

/-- An arm, 0 or 1; any other value is out of range (R188). -/
def readArm (n : Nat) : Option Arm := if n = 0 then some .armA else if n = 1 then some .armB else none

/-- A sign octet: 0 for +1, 1 for −1 (R190). -/
def readSign (n : Nat) : Option Sign := if n = 0 then some .plus else if n = 1 then some .minus else none

/-- A coordinate within 0 to 1023 (R27). -/
def readCoord (os : List Octet) (i : Nat) : Option Int :=
  if nat16At os i ≤ 1023 then some (nat16At os i) else none

/-- A cap within 1 to 65535 (R27). -/
def readCap (os : List Octet) (i : Nat) : Option Nat := if nat16At os i = 0 then none else some (nat16At os i)

def readCoords (os : List Octet) (i : Nat) : Option (Tri Int) :=
  match readCoord os i, readCoord os (i + 2), readCoord os (i + 4) with
  | some x, some y, some z => some ⟨x, y, z⟩
  | _, _, _ => none

def readBox (os : List Octet) (i : Nat) : Option Box :=
  match readCoords os i, readCoords os (i + 6) with
  | some lo, some hi => some ⟨lo, hi⟩
  | _, _ => none

def readCaps (os : List Octet) (i : Nat) : Option (Tri Nat) :=
  match readCap os i, readCap os (i + 2), readCap os (i + 4) with
  | some x, some y, some z => some ⟨x, y, z⟩
  | _, _, _ => none

/-- A zone entry record from octet `i` on: only the fields the kind uses are examined (R27, R190). -/
def readEntry (os : List Octet) (i : Nat) : Option ZoneEntry :=
  match octetAt os i with
  | 0 => some .empty
  | 1 => (readBox os (i + 1)).map (.home .armA)
  | 2 => (readBox os (i + 1)).map (.home .armB)
  | 3 => (readBox os (i + 1)).map fun box => .bin box (octetAt os (i + 13)) (octetAt os (i + 14))
  | 4 => (readBox os (i + 1)).map .forbidden
  | 5 =>
    match readBox os (i + 1), readCaps os (i + 13) with
    | some box, some caps => some (.slow box caps)
    | _, _ => none
  | _ => none

/-- A header record (R28, R190). -/
def readHeader (os : List Octet) : Option Header :=
  match readFlag (octetAt os 0), readFlag (octetAt os 1) with
  | some pa, some pb => some ⟨⟨pa, pb⟩, nat16At os 2⟩
  | _, _ => none

def readTri16 (os : List Octet) (i : Nat) : Tri Nat := ⟨nat16At os i, nat16At os (i + 2), nat16At os (i + 4)⟩

/-- A profile record from octet `i` on. Of the accepted ranges of R24 only a sign's can be missed by octets of the
record's widths (R29, R190). -/
def readProfile (os : List Octet) (i : Nat) : Option Profile :=
  match readSign (octetAt os (i + 12)), readSign (octetAt os (i + 13)), readSign (octetAt os (i + 14)) with
  | some sx, some sy, some sz =>
    some
      { origin := ⟨count32At os i, count32At os (i + 4), count32At os (i + 8)⟩, sign := ⟨sx, sy, sz⟩,
        pitch := readTri16 os (i + 15), decel := readTri16 os (i + 21), stepCap := readTri16 os (i + 27),
        baseLateral := octetAt os (i + 33), baseBelow := octetAt os (i + 34), baseAbove := octetAt os (i + 35),
        cadence := octetAt os (i + 36), missLimit := octetAt os (i + 37), softLimit := octetAt os (i + 38),
        feedbackLimit := octetAt os (i + 39), trackingLimit := nat24At os (i + 40), settleWindow := nat16At os (i + 43),
        settleLimit := octetAt os (i + 45) }
  | _, _, _ => none

/-- A run (R96, R188). -/
def readRun (os : List Octet) : Run := ⟨octetAt os 0, octetAt os 1, octetAt os 2⟩

/-! ### The context record (R141, R190) -/

/-- The stack entries of a context record to its depth, top first. -/
def readStack (os : List Octet) (depth : Nat) : List Margin :=
  ((List.range depth).map fun i => (⟨octetAt os (3 + 2 * i), octetAt os (4 + 2 * i)⟩ : Margin)).reverse

/-- An axis octet: 0 none, 1 X, 2 Y, 3 Z (R190). The outer none is out of range. -/
def readAxis : Nat → Option (Option Axis)
  | 0 => some none
  | 1 => some (some .axisX)
  | 2 => some (some .axisY)
  | 3 => some (some .axisZ)
  | _ => none

/-- A port octet of a fault: C or D for LINK_LOSS, absent for every other kind (R141). -/
def readFaultPort (kind : FaultKind) (n : Nat) : Option (Option Side) :=
  if kind = .linkLoss then
    if n = 1 then some (some .ctrl) else if n = 2 then some (some .drive) else none
  else if n = 0 then some none else none

/-- A sequence octet under its presence octet; a presence octet other than 0 or 1 is out of range (R141, R190). -/
def readFaultSeq (os : List Octet) : Option (Option SeqNo) :=
  (readFlag (octetAt os 25)).map fun p => if p then some (os.getD 24 0) else none

/-- What is loaded, or the first field that fails (R141). -/
abbrev Examined (α : Type) := Except ContextField α

def examine {α : Type} (field : ContextField) : Option α → Examined α
  | some v => .ok v
  | none => .error field

def examineIf (field : ContextField) (good : Bool) : Examined Unit := if good then .ok () else .error field

/-- The "also" set of a loaded fault: only the fifteen kinds, and not the fault's own (R141). -/
def readAlso (os : List Octet) (kind : FaultKind) : Option KindSet :=
  let w : BitVec 16 := os.getD 22 0 ++ os.getD 23 0
  if w.getLsbD 15 || KindSet.has w kind then none else some w

/-- The fault of a context record that holds one, its fields examined in the order of R141. -/
def readFault (os : List Octet) : Examined FaultRec := do
  examineIf .faultSource (decide (octetAt os 20 ≤ 2))
  let kind ← examine .faultKind (FaultKind.ofCode (octetAt os 21))
  let also ← examine .faultAlso (readAlso os kind)
  let seq ← examine .faultSequence (readFaultSeq os)
  let axis ← examine .faultAxis (readAxis (octetAt os 26))
  let port ← examine .faultPort (readFaultPort kind (octetAt os 27))
  let state ← examine .faultArmState (ArmState.ofCode (octetAt os 32))
  return { kind := kind, also := also, seq := seq, axis := axis, port := port, tick := bits32At os 28, state := state }

/-- What a context record delivers (R142). -/
structure LoadedContext where
  mask : Mask
  stack : List Margin
  softSeen : Bool
  fault : Option FaultRec
  deriving DecidableEq, Repr

/-- A context record, examined in the order of R141. Source 0 is no fault, and its other octets are not examined
(R190). -/
def readContext (os : List Octet) : Examined LoadedContext := do
  let depth := octetAt os 2
  examineIf .depth (decide (depth ≤ 8))
  let stack := readStack os depth
  examineIf .entries (stack.all fun m => decide (m.lateral ≤ 63) && decide (m.below ≤ 63))
  let softSeen ← examine .softSeen (readFlag (octetAt os 19))
  let fault ← if octetAt os 20 = 0 then pure none else (readFault os).map some
  return { mask := maskOfWord (os.getD 0 0 ++ os.getD 1 0), stack := stack, softSeen := softSeen, fault := fault }

end Sys2Proof.Machine
end

