-- ==== Sys2Proof/Machine/Flags.lean ====
section
/-! DEFINITION. The flags of the report unit: raising, eligibility, choosing a notice, and the guard status octet
(R165, R178 to R182). -/

namespace Sys2Proof.Machine

/-- A flag after one more raise (R179): set, not noticed, occurrences up to 255, the new detail and tick. -/
def Flag.raise (f : Flag) (d : Detail) (tick : Tick) : Flag :=
  ⟨true, false, min 255 (f.occurrences + 1), some d, some tick⟩

def ReportUnit.flagsOf (r : ReportUnit) (m : Arm) : List Flag := r.flags.get m

/-- The flag of a kind number, for an arm and its controller port. -/
def ReportUnit.flag (r : ReportUnit) (m : Arm) (kind : Nat) : Flag := (r.flagsOf m).getD kind Flag.clear

def ReportUnit.setFlag (r : ReportUnit) (m : Arm) (kind : Nat) (f : Flag) : ReportUnit :=
  { r with flags := r.flags.set m ((r.flagsOf m).set kind f) }

/-- The report unit takes a raise (R179). -/
def ReportUnit.takeRaise (r : ReportUnit) (x : Raise) : ReportUnit :=
  r.setFlag x.arm x.kind.code ((r.flag x.arm x.kind.code).raise x.detail r.tick)

/-- A flag is eligible when it is set, its kind is enabled and it is not noticed (R180). -/
def Flag.eligible (f : Flag) (n : NoticeSetting) : Bool := f.set && n.enable && !f.noticed

/-- The eligible flag of highest priority, and among equal priorities of the lowest kind number: its kind number and
priority, the lists starting at kind number `i` (R182). -/
def chooseFrom (i : Nat) : List Flag → List NoticeSetting → Option (Nat × Nat)
  | f :: fs, n :: ns =>
    let later := chooseFrom (i + 1) fs ns
    if f.eligible n then
      match later with
      | some (k, p) => if n.priority < p then some (k, p) else some (i, n.priority)
      | none => some (i, n.priority)
    else later
  | _, _ => none

/-- The kind number of the notice chosen for a port (R182). -/
def ReportUnit.choose (r : ReportUnit) (m : Arm) : Option Nat := (chooseFrom 0 (r.flagsOf m) r.settings).map (·.1)

/-- The notice waiting field (R165): at least one eligible flag of the port. -/
def ReportUnit.noticeWaiting (r : ReportUnit) (m : Arm) : Bool := (r.choose m).isSome

/-- The payload of a notice (R182, R188). -/
def noticePayload (m : Arm) (kind : Nat) (f : Flag) : List Octet :=
  let detail := (f.detail.map detailOctets).getD []
  [octet kind, Arm.code m, octet f.occurrences] ++ octets32 (f.tick.getD 0) ++ [octet detail.length] ++ detail

/-- The guard status octet (R165, R187). -/
def guardOctet (u : ArmUnit) (noticeWaiting : Bool) : Octet :=
  octet (u.state.code + 8 * u.substituted.toNat + 16 * u.ctx.fault.isSome.toNat + 32 * u.ctx.carried.isSome.toNat
    + 64 * u.sto.toNat + 128 * noticeWaiting.toNat)

end Sys2Proof.Machine
end

