-- ==== Sys2Proof/Machine/Port.lean ====
section
/-! DEFINITION. What the port units share (chapter 9, 6.6): lock, insertion opportunities and their arbitration, the copy of
the cadence expiry, forwarding upward, what a port takes from the workspace unit. A port takes its copy of an expiry, and
arbitrates an opportunity, before any later frame (R159, R167). -/

namespace Sys2Proof.Machine

/-! ### Lock (R159, R160) -/

/-- The lock state after a well-formed frame. -/
def LinkLock.wellFormed (l : LinkLock) : LinkLock :=
  if l.locked then { l with bad := 0, silent := 0 }
  else if 8 ≤ l.good + 1 then { locked := true, good := 0, bad := 0, silent := 0 }
  else { l with good := l.good + 1, bad := 0, silent := 0 }

/-- The lock state after a discarded frame. -/
def LinkLock.discarded (l : LinkLock) : LinkLock :=
  if !l.locked then { l with good := 0 }
  else if 4 ≤ l.bad + 1 then { locked := false, good := 0, bad := 0, silent := 0 }
  else { l with good := 0, bad := l.bad + 1 }

/-- The silence reaches its limit at this cadence expiry. -/
def LinkLock.silenceOut (l : LinkLock) : Bool := l.locked && decide (16 ≤ l.silent + 1)

/-- The lock state after a cadence expiry of the port's arm. -/
def LinkLock.expiry (l : LinkLock) : LinkLock :=
  if !l.locked then l
  else if l.silenceOut then { l with locked := false, bad := 0, silent := 0 }
  else { l with silent := l.silent + 1 }

def State.lockOf (s : State) (side : Side) (m : Arm) : LinkLock :=
  match side with
  | .ctrl => (s.port m).lock
  | .drive => (s.drivePort m).lock

/-- A port's new lock state, reported to the arm unit and the table unit when the lock has changed (R160). -/
def State.putLock (s : State) (side : Side) (m : Arm) (l : LinkLock) : State :=
  let t :=
    match side with
    | .ctrl => s.setPort m { s.port m with lock := l }
    | .drive => s.setDrivePort m { s.drivePort m with lock := l }
  if (s.lockOf side m).locked = l.locked then t
  else (t.toArm m (.lock side l.locked)).setTable { t.table with arrivals := t.table.arrivals ++ [.lock side m l.locked] }

/-! ### Insertion opportunities (R166 to R168, R173, R182) -/

/-- The port inserts a frame of the monitor's own, with the insert count as its sequence (R166, R173). The opportunity is
then used. -/
def CtrlPort.insert (p : CtrlPort) (k : FrameKind) (node : Node) (payload : List Octet) : CtrlPort :=
  { p with handed := p.handed ++ [frame k node p.insertCount payload], insertCount := p.insertCount + 1, opportunity := .closed }

/-- R168: the arbitration of an opportunity. -/
def CtrlPort.arbitrate (p : CtrlPort) (node : Node) : CtrlPort :=
  match p.buffer, p.fifo with
  | .holding ans part, _ =>
    { p.insert .answer node (ans.payload part) with
      buffer := if ans.lastPart part then .empty else .holding ans (part + 1) }
  | _, o :: rest => { p.insert .outcome node (outcomePayload o) with fifo := rest, toWs := p.toWs ++ [.sent] }
  | _, [] => { p with opportunity := .asked }

def State.arbitrate (s : State) (m : Arm) : State := s.setPort m ((s.port m).arbitrate s.node)

/-- R182: the report unit's choice of a notice is sent and its flag marked noticed; with none the opportunity passes unused. -/
def State.selectNotice (s : State) (m : Arm) : State :=
  match s.report.choose m with
  | some k =>
    let f := s.report.flag m k
    (s.setReport (s.report.setFlag m k { f with noticed := true })).setPort m ((s.port m).insert .notice s.node (noticePayload m k f))
  | none => s.setPort m { s.port m with opportunity := .closed }

/-- The opportunity that stands at a port, if any, is taken to its end: an opportunity is not kept for later (R167). -/
def State.closeOpportunity (s : State) (m : Arm) : State :=
  let t := if (s.port m).opportunity = .offered then s.arbitrate m else s
  if (t.port m).opportunity = .asked then t.selectNotice m else t

/-! ### The copy of the cadence expiry (R159, R167) -/

/-- Whether a cadence expiry has been delivered to a port that it has not yet taken. -/
def State.expiryDue (s : State) (side : Side) (m : Arm) : Bool :=
  match side with
  | .ctrl => (s.port m).expiryDue
  | .drive => (s.drivePort m).expiryDue

/-- The quiet test at a controller port (R167): no frame forwarded upward since the expiry before gives an opportunity. -/
def State.quietExpiry (s : State) (m : Arm) : State :=
  if (s.port m).forwarded then s.setPort m { s.port m with expiryDue := false, forwarded := false }
  else
    let t := s.closeOpportunity m
    t.setPort m { t.port m with expiryDue := false, opportunity := .offered }

/-- A port takes its copy of a cadence expiry: the silent periods (R159), and at a controller port the quiet test. -/
def State.takeExpiry (s : State) (side : Side) (m : Arm) : State :=
  let t :=
    match side with
    | .ctrl => s.quietExpiry m
    | .drive => s.setDrivePort m { s.drivePort m with expiryDue := false }
  t.putLock side m (s.lockOf side m).expiry

/-- The port takes its copy of an expiry at once: before anything that follows it there (R159). -/
def State.settleExpiry (s : State) (side : Side) (m : Arm) : State := if s.expiryDue side m then s.takeExpiry side m else s

/-- What comes before a frame handed upward: an expiry delivered before it, and an opportunity that stands (R159, R167). -/
def State.readyUp (s : State) (m : Arm) : State := (s.settleExpiry .ctrl m).closeOpportunity m

/-- A FEEDBACK or PARAM reply is handed to the transmitter of a controller port, and gives an opportunity directly after it
(R163, R164, R167). -/
def State.forwardUp (s : State) (m : Arm) (os : List Octet) : State :=
  let t := s.readyUp m
  t.setPort m { t.port m with handed := (t.port m).handed ++ [os], forwarded := true, opportunity := .offered }

/-- The command by which a port of an arm takes what waits for it there, if anything does. -/
def State.armPortDuty (s : State) (m : Arm) : Option Instr :=
  match (s.port m).opportunity with
  | .offered => some (.insertionOpportunity m)
  | .asked => some (.noticeSelection m)
  | .closed =>
    if (s.port m).expiryDue then some (.portCadenceExpiry .ctrl m)
    else if (s.drivePort m).expiryDue then some (.portCadenceExpiry .drive m)
    else none

/-- The same for the four ports, arm A's first: what comes before time passes (log entry 2). -/
def State.portDuty (s : State) : Option Instr := (s.armPortDuty .armA).or (s.armPortDuty .armB)

/-! ### What a controller port takes from the workspace unit (R124, R126) -/

/-- An outcome enters the FIFO at the young end; a discard request empties it and is reported. -/
def CtrlPort.take (p : CtrlPort) : ToPort → CtrlPort
  | .outcome o => { p with fifo := p.fifo ++ [o] }
  | .discard => { p with fifo := [], toWs := p.toWs ++ [.discarded p.fifo.length] }

/-- The port takes the oldest thing the workspace unit has sent it; `rest` is what is left. -/
def State.takeFromWs (s : State) (m : Arm) (msg : ToPort) (rest : List ToPort) : State :=
  (s.setWs { s.ws with toPort := s.ws.toPort.set m rest }).setPort m ((s.port m).take msg)

/-- The port takes everything the workspace unit has sent it, in order. -/
def State.takeAllFromWs (s : State) (m : Arm) : State :=
  (s.setWs { s.ws with toPort := s.ws.toPort.set m [] }).setPort m ((s.ws.toPort.get m).foldl CtrlPort.take (s.port m))

/-- An event that must see the outcomes it has made in their FIFO before it ends (R103): a port that was sent something
since `before` takes everything sent to it. -/
def State.takeNewFromWs (s : State) (before : PerArm (List ToPort)) (m : Arm) : State :=
  if (before.get m).length < (s.ws.toPort.get m).length then s.takeAllFromWs m else s

end Sys2Proof.Machine
end

