-- ==== Sys2Proof/Machine/Workspace.lean ====
section
/-! DEFINITION. Placements and box records at the workspace unit (R12 to R18, R46 to R51, R97, R105, R175):
CHECKED_PLACEMENT, FORCED_PLACEMENT, REST_UPDATE, SET_RECORD_UNKNOWN, STATE_REPORT, STATUS_READ,
HEADER_PRESENCE_REPORT. -/

namespace Sys2Proof.Machine

/-! ### Reading records and cells -/

def Workspace.record (w : Workspace) (m : Arm) : BoxRecord := w.records.get m

def Workspace.setRecord (w : Workspace) (m : Arm) (r : BoxRecord) : Workspace := { w with records := w.records.set m r }

/-- The bin geometry of the active bank (R16). -/
def Workspace.bin (w : Workspace) : Option BinGeom := w.active.bind Bank.bin

/-- The cells of the bin, none where there is no table (R93). -/
def Workspace.cellList (w : Workspace) : List CellRec := w.cells.getD []

def CellRec.heldBy (m : Arm) : CellRec → Bool
  | .free => false
  | .held owner _ _ => owner == m

def CellRec.isHeld : CellRec → Bool
  | .free => false
  | .held .. => true

/-- Change every cell by a function of its single index. -/
def mapCells (f : Nat → CellRec → CellRec) (i : Nat) : List CellRec → List CellRec
  | [] => []
  | c :: rest => f i c :: mapCells f (i + 1) rest

/-- The columns of the cells an arm holds (R18). -/
def heldColumns (g : BinGeom) (m : Arm) (i : Nat) : List CellRec → List Box
  | [] => []
  | c :: rest => if c.heldBy m then g.columnAt i :: heldColumns g m (i + 1) rest else heldColumns g m (i + 1) rest

/-- The held-cell space of an arm, as boxes (R18). -/
def heldSpace (bin : Option BinGeom) (cells : List CellRec) (m : Arm) : List Box :=
  match bin with
  | some g => heldColumns g m 0 cells
  | none => []

/-! ### Deadlines (R94) -/

/-- A deadline is reached: the count minus it, as a signed 32-bit difference, is 0 or more. -/
def reached (now deadline : Tick) : Bool := decide (0 ≤ (now - deadline).toInt)

/-- Now plus a length. -/
def after (now : Tick) (length : Nat) : Tick := now + BitVec.ofNat 32 length

/-- The remaining ticks (R94). -/
def remaining (now deadline : Tick) : Nat := if reached now deadline then 0 else (deadline - now).toNat

/-- A cell's deadline moved to now plus its lease length. -/
def CellRec.renew (now : Tick) : CellRec → CellRec
  | .free => .free
  | .held owner lease _ => .held owner lease (after now lease)

/-! ### Judgement (R47 to R50) -/

/-- The axes on which a box leaves the world (R47). -/
def outsideWorld (b : Box) : Tri Bool :=
  ⟨decide (b.lo.x < 0 ∨ 1023 < b.hi.x), decide (b.lo.y < 0 ∨ 1023 < b.hi.y), decide (b.lo.z < 0 ∨ 1023 < b.hi.z)⟩

/-- FORBIDDEN (R48). -/
def violatesForbidden (bank : Bank) (b : Box) : Bool := bank.forbiddens.any b.meets

/-- PROXIMITY against the box read for the other arm's record (R15, R48). -/
def violatesProximity (other : Option Box) (b : Box) : Bool :=
  match other with
  | some o => b.meets o
  | none => false

/-- The axes on which a step exceeds its speed limit (R49). -/
def overSpeed (limit : Tri Nat) (step : Tri Int) : Tri Bool := Tri.map2 (fun s l => decide (l < s.natAbs)) step limit

/-- The entitled space of an arm under a bank: its HOME entries and the columns of the cells it holds (R18). -/
def entitled (bank : Bank) (bin : Option BinGeom) (cells : List CellRec) (m : Arm) : List Box :=
  bank.homes m ++ heldSpace bin cells m

/-- TRESPASS: some grid unit of the box lies outside the entitled space (R50). -/
def violatesTrespass (space : List Box) (b : Box) : Bool := !b.coveredBy space

/-- The verdict on a reach box (R46 to R50). -/
def judge (bank : Bank) (other : Option Box) (space : List Box) (caps : Tri Nat) (step : Tri Int) (now : Tick) (b : Box) : Verdict :=
  let out := (outsideWorld b).firstAxis
  let fast := (overSpeed (bank.speedLimit b caps) step).firstAxis
  let kinds := KindSet.empty |> (KindSet.addIf · out.isSome .range) |> (KindSet.addIf · (violatesForbidden bank b) .forbidden)
    |> (KindSet.addIf · (violatesProximity other b) .proximity) |> (KindSet.addIf · (violatesTrespass space b) .trespass)
    |> (KindSet.addIf · fast.isSome .speed)
  if kinds = KindSet.empty then .placed else .failed kinds out fast now

/-- The judgement of an arm's reach box as the workspace unit stands (R46). -/
def Workspace.judgeFor (w : Workspace) (bank : Bank) (m : Arm) (pl : Placement) : Verdict :=
  judge bank ((w.record m.other).readAs bank.bin) (entitled bank bank.bin w.cellList m) pl.caps pl.step w.tick
    (reachBox pl.geom pl.env pl.p pl.p0 pl.step)

/-! ### Writing records -/

/-- R105: occupancy renewal. Every cell the box covers and the arm holds has its deadline moved on. -/
def Workspace.renewCovered (w : Workspace) (m : Arm) (box : Box) : Workspace :=
  match w.bin with
  | some g =>
    { w with cells := w.cells.map (mapCells (fun i c => if c.heldBy m && box.meets (g.columnAt i) then c.renew w.tick else c) 0) }
  | none => w

/-- A placement leaves the record MOTION and renews what its box covers (R13, R51). -/
def Workspace.place (w : Workspace) (m : Arm) (g : Geometry) (e : Envelope) (p p0 s : Tri Int) : Workspace :=
  let reach := reachBox g e p p0 s
  (w.setRecord m (.motion reach (motionBox g p p0 s).limit e)).renewCovered m reach

/-- A checked placement with an active bank (R46, R51): the workspace unit and the verdict. -/
def Workspace.checked (w : Workspace) (bank : Bank) (m : Arm) (pl : Placement) : Workspace × Verdict :=
  match w.record m with
  | .absent => (w, .absent)
  | .unknown => (w, .unknown)
  | .rest .. | .motion .. =>
    match w.judgeFor bank m pl with
    | .placed => (w.place m pl.geom pl.env pl.p pl.p0 pl.step, .placed)
    | v => (w, v)

/-- The verdict goes back to the arm unit that sent the placement (R46). -/
def State.sendVerdict (s : State) (m : Arm) (v : Verdict) : State := s.setArm m { s.arm m with verdict := some v }

/-- CHECKED_PLACEMENT (R46). -/
def execCheckedPlacement (m : Arm) (s : State) : Result :=
  takeFromArm m s fun msg t =>
    match msg with
    | .checked pl =>
      some
        (match t.ws.active with
        | some bank => .next ((t.setWs (t.ws.checked bank m pl).1).sendVerdict m (t.ws.checked bank m pl).2)
        | none => .fault .noActiveBank)
    | _ => none

/-- FORCED_PLACEMENT (R13): not judged; the envelope is the record's own envelope used. -/
def execForcedPlacement (m : Arm) (s : State) : Result :=
  takeFromArm m s fun msg t =>
    match msg with
    | .forced p p0 step geom =>
      some
        (match t.ws.record m with
        | .motion _ _ env => .next (t.setWs (t.ws.place m geom env p p0 step))
        | _ => .fault .forcedNotInMotion)
    | _ => none

/-- R14: the record after a rest update. -/
def BoxRecord.afterRest (r : BoxRecord) (p : Tri Int) (e : Envelope) (g : Geometry) : BoxRecord :=
  match r with
  | .absent => .absent
  | _ => .rest (restBox g e p) e

/-- REST_UPDATE (R14). -/
def execRestUpdate (m : Arm) (s : State) : Result :=
  takeFromArm m s fun msg t =>
    match msg with
    | .rest p e g => some (.next (t.setWs (t.ws.setRecord m ((t.ws.record m).afterRest p e g))))
    | _ => none

/-- The record set UNKNOWN, unless it is ABSENT (R14). -/
def BoxRecord.forgotten : BoxRecord → BoxRecord
  | .absent => .absent
  | _ => .unknown

/-- SET_RECORD_UNKNOWN (R71, R73). -/
def execSetRecordUnknown (m : Arm) (s : State) : Result :=
  takeFromArm m s fun msg t =>
    match msg with
    | .setUnknown => some (.next (t.setWs (t.ws.setRecord m (t.ws.record m).forgotten)))
    | _ => none

/-- STATE_REPORT (R97). -/
def execStateReport (m : Arm) (s : State) : Result :=
  takeFromArm m s fun msg t =>
    match msg with
    | .stateReport st => some (.next (t.setWs { t.ws with reported := t.ws.reported.set m st }))
    | _ => none

/-- The record as ARM_STATUS reports it: ABSENT for an arm absent in the shadow header while there is no active bank
(R12, R175). -/
def Workspace.reportedRecord (w : Workspace) (m : Arm) : BoxRecord :=
  if w.active.isNone && !(w.headerPresent.get m) then .absent else w.record m

/-- How many claims of an arm the queue holds. -/
def queuedOf (m : Arm) (q : List QueueEntry) : Nat := (q.filter fun e => e.arm == m).length

/-- The workspace unit's part of the status (R175). -/
def Workspace.statusOctets (w : Workspace) (m : Arm) : List Octet :=
  recordOctets (w.reportedRecord m)
    ++ [octet (w.reported.get m).code, octet (queuedOf m w.queue), octet (w.outcomeCount.get m)] ++ octets32 w.tick

/-- STATUS_READ (R175): the workspace unit adds its part and hands the whole answer over. -/
def execStatusRead (m : Arm) (s : State) : Result :=
  takeFromArm m s fun msg t =>
    match msg with
    | .statusRead h part => some (.next (t.answer m (answerOk h (part ++ t.ws.statusOctets m))))
    | _ => none

/-- HEADER_PRESENCE_REPORT (R175). -/
def execHeaderPresenceReport (s : State) : Result :=
  match s.table.toWs with
  | .presence p :: rest =>
    .next ((s.setTable { s.table with toWs := rest }).setWs { s.ws with headerPresent := p })
  | _ => .next s

end Sys2Proof.Machine
end

