-- ==== Sys2Proof/Machine/Bin.lean ====
section
/-! DEFINITION. Bin cells and the claim queue (chapters 5 and 6): CLAIM, RENEW, RELEASE, CANCEL, CELL_READ,
CLAIM_REMOVAL, and the re-evaluation other commands share. -/

namespace Sys2Proof.Machine

/-! ### Runs (R96) -/

def Run.inRange (r : Run) (g : BinGeom) : Bool :=
  decide (r.bay < g.bays) && decide (r.first < g.cells) && decide (1 ≤ r.length) && decide (r.length ≤ 16)
    && decide (r.first + r.length ≤ g.cells)

/-- The cell numbers of a run within its bay, first to last. -/
def Run.cellNumbers (r : Run) : List Nat := (List.range r.length).map (r.first + ·)

/-- The single indexes of a run's cells, first to last (R16, R96). -/
def Run.indexes (r : Run) (g : BinGeom) : List Nat := r.cellNumbers.map (g.index r.bay)

/-- Two runs share a cell. -/
def Run.shares (r q : Run) : Bool :=
  decide (r.bay = q.bay) && decide (r.first < q.first + q.length) && decide (q.first < r.first + r.length)

/-- A run holds a cell of a bay. -/
def Run.holds (r : Run) (bay c : Nat) : Bool := decide (r.bay = bay) && decide (r.first ≤ c) && decide (c < r.first + r.length)

def cellAt (cells : List CellRec) (i : Nat) : CellRec := cells.getD i .free

/-! ### The grant test (R99) -/

/-- What a grant test reads: the geometry, the other arm's record, the cells, and the claims of the other arm that
may not be overtaken. -/
structure GrantView where
  bin : BinGeom
  other : BoxRecord
  cells : List CellRec
  before : List QueueEntry
  deriving DecidableEq, Repr

/-- The cause for which a cell fails, the first of HELD_BY_OTHER, OCCUPIED, QUEUED_BEFORE (R99, R101). -/
def GrantView.cause (v : GrantView) (claimant : Arm) (bay c : Nat) : Option ClaimCause :=
  if (cellAt v.cells (v.bin.index bay c)).heldBy claimant.other then some .heldByOther
  else if v.other.covers v.bin (v.bin.index bay c) then some .occupied
  else if v.before.any fun e => e.run.holds bay c then some .queuedBefore
  else none

/-- The first cell of a run that fails, with its cause (R101); none when the run is grantable (R99). -/
def GrantView.blocking (v : GrantView) (claimant : Arm) (r : Run) : Option (ClaimCause × Nat) :=
  r.cellNumbers.findSome? fun c => (v.cause claimant r.bay c).map fun k => (k, c)

/-- R100: every cell of the run becomes HELD by the claimant under the lease, from now. -/
def grantCells (g : BinGeom) (claimant : Arm) (r : Run) (lease : Nat) (now : Tick) (cells : List CellRec) : List CellRec :=
  mapCells (fun i c => if (r.indexes g).contains i then .held claimant lease (after now lease) else c) 0 cells

/-- The claims of an arm among queue entries. -/
def claimsOf (m : Arm) (q : List QueueEntry) : List QueueEntry := q.filter fun e => e.arm == m

/-! ### Outcomes (R114, R118, R124) -/

/-- An outcome is handed to the claimant's controller port, and its outcome count rises by 1. -/
def Workspace.handOutcome (w : Workspace) (m : Arm) (o : ClaimOutcome) : Workspace :=
  { w with toPort := w.toPort.set m (w.toPort.get m ++ [.outcome o]), outcomeCount := w.outcomeCount.set m (w.outcomeCount.get m + 1) }

def QueueEntry.outcome (e : QueueEntry) (r : ClaimResult) : ClaimOutcome := ⟨e.tag, r, e.run⟩

/-- Each of some entries leaves with a result, in order. -/
def Workspace.handAll (w : Workspace) (r : ClaimResult) (es : List QueueEntry) : Workspace :=
  es.foldl (fun w e => w.handOutcome e.arm (e.outcome r)) w

/-! ### Re-evaluation (R118) -/

/-- Whether a queued claim is grantable: `kept` are the older claims still in the queue (R118). -/
def Workspace.grantable (w : Workspace) (g : BinGeom) (kept : List QueueEntry) (e : QueueEntry) : Bool :=
  ((⟨g, w.record e.arm.other, w.cellList, claimsOf e.arm.other kept⟩ : GrantView).blocking e.arm e.run).isNone

/-- The walk, oldest first: `kept` are the claims passed over so far, oldest first (R118). -/
def Workspace.walk (g : BinGeom) (kept : List QueueEntry) (w : Workspace) : List QueueEntry → Workspace
  | [] => { w with queue := kept }
  | e :: rest =>
    if w.grantable g kept e then
      Workspace.walk g kept
        (({ w with cells := w.cells.map (grantCells g e.arm e.run e.lease w.tick) } : Workspace).handOutcome e.arm (e.outcome .granted))
        rest
    else Workspace.walk g (kept ++ [e]) w rest

/-- R117: re-evaluation of the claim queue. Without a bin the queue is empty, and nothing is done. -/
def Workspace.reevaluate (w : Workspace) : Workspace :=
  match w.bin with
  | some g => Workspace.walk g [] w w.queue
  | none => w

/-! ### CLAIM (R98 to R101, R115) -/

/-- The first refusal of a CLAIM before the grant test (R98). -/
def Workspace.claimRefusal (w : Workspace) (m : Arm) (r : Run) (lease : Nat) : Option Reason :=
  match w.active, w.bin with
  | some bank, some g =>
    if !bank.present m then some .absent
    else if w.reported.get m ≠ .standby ∧ w.reported.get m ≠ .run then some .state
    else if !r.inRange g || decide (lease < 1) then some .range
    else none
  | _, _ => some .noBin

/-- The first claim of an arm with a tag or sharing a cell (R115). -/
def duplicateOf (m : Arm) (tag : Octet) (r : Run) (q : List QueueEntry) : Option QueueEntry :=
  q.find? fun e => e.arm == m && (e.tag == tag || e.run.shares r)

/-- A claim as it was carried (R98). -/
structure ClaimArgs where
  run : Run
  lease : Nat
  wait : Nat
  tag : Octet
  deriving DecidableEq, Repr

def readClaim (os : List Octet) : ClaimArgs := ⟨readRun os, octetAt os 3, octetAt os 4, os.getD 5 0⟩

/-- The quota use of an arm (R114). -/
def Workspace.quotaUse (w : Workspace) (m : Arm) : Nat := queuedOf m w.queue + w.outcomeCount.get m

def blockingOctets (bay : Nat) (b : ClaimCause × Nat) : List Octet := [b.1.code, octet bay, octet b.2]

/-- R115: a claim that is not grantable and may wait. -/
def Workspace.queueClaim (w : Workspace) (m : Arm) (h : ReqHead) (c : ClaimArgs) (b : ClaimCause × Nat) : Workspace × Answer :=
  match duplicateOf m c.tag c.run w.queue with
  | some e => (w, answerRefused h .duplicate [e.tag])
  | none =>
    if 8 ≤ w.queue.length then (w, answerRefused h .queueFull [])
    else if 4 ≤ w.quotaUse m then (w, answerRefused h .quota [octet (queuedOf m w.queue), octet (w.outcomeCount.get m)])
    else
      let deadline := after w.tick c.wait
      ({ w with queue := w.queue ++ [⟨m, c.tag, c.run, c.lease, deadline⟩] },
       ⟨h, .queued, none, [c.tag] ++ runOctets c.run ++ blockingOctets c.run.bay b ++ octets32 deadline ++ [octet (w.queue.length + 1)]⟩)

/-- R100: the grant in the CLAIM's own event. -/
def Workspace.grantClaim (w : Workspace) (g : BinGeom) (m : Arm) (h : ReqHead) (c : ClaimArgs) : Workspace × Answer :=
  ({ w with cells := w.cells.map (grantCells g m c.run c.lease w.tick) },
   answerOk h ([ClaimResult.granted.code] ++ runOctets c.run ++ [c.tag] ++ octets32 (after w.tick c.lease)))

/-- R98 to R101, R115. -/
def Workspace.claim (w : Workspace) (m : Arm) (h : ReqHead) (c : ClaimArgs) : Workspace × Answer :=
  match w.claimRefusal m c.run c.lease, w.bin with
  | some why, _ => (w, answerRefused h why [])
  | none, none => (w, answerRefused h .noBin [])
  | none, some g =>
    match (⟨g, w.record m.other, w.cellList, claimsOf m.other w.queue⟩ : GrantView).blocking m c.run with
    | none => w.grantClaim g m h c
    | some b =>
      if c.wait = 0 then (w, answerRefused h .busy (blockingOctets c.run.bay b))
      else w.queueClaim m h c b

/-- CLAIM (R98). -/
def execClaim (m : Arm) (s : State) : Result :=
  takeWsRequest m .claim s fun r w => w.claim m r.head (readClaim r.args)

/-! ### RENEW, RELEASE, CANCEL, CELL_READ (R102 to R104, R122) -/

/-- A run request needs a cell table and a run in range (R102, R103). -/
def Workspace.withRun (w : Workspace) (h : ReqHead) (r : Run) (k : BinGeom → Workspace × Answer) : Workspace × Answer :=
  match w.cells, w.bin with
  | some _, some g => if r.inRange g then k g else (w, answerRefused h .range [])
  | _, _ => (w, answerRefused h .noBin [])

/-- The first cell of a run not held by an arm. -/
def Workspace.firstNotHeld (w : Workspace) (g : BinGeom) (m : Arm) (r : Run) : Option Nat :=
  r.cellNumbers.find? fun c => !((cellAt w.cellList (g.index r.bay c)).heldBy m)

/-- The renewal of one cell by RENEW: a nonzero argument replaces its lease length (R102). -/
def CellRec.renewWith (lease : Nat) (now : Tick) : CellRec → CellRec
  | .free => .free
  | .held owner old _ => .held owner (if lease = 0 then old else lease) (after now (if lease = 0 then old else lease))

def CellRec.deadlineOctets : CellRec → List Octet
  | .free => octets32 0
  | .held _ _ d => octets32 d

/-- R102. -/
def Workspace.renew (w : Workspace) (m : Arm) (h : ReqHead) (r : Run) (lease : Nat) : Workspace × Answer :=
  w.withRun h r fun g =>
    match w.firstNotHeld g m r with
    | some c => (w, answerRefused h .lapsed [octet r.bay, octet c])
    | none =>
      let cells := mapCells (fun i c => if (r.indexes g).contains i then c.renewWith lease w.tick else c) 0 w.cellList
      ({ w with cells := some cells },
       answerOk h (runOctets r ++ ((r.indexes g).map fun i => (cellAt cells i).deadlineOctets).flatten))

/-- RENEW (R102). -/
def execRenew (m : Arm) (s : State) : Result :=
  takeWsRequest m .renew s fun r w => w.renew m r.head (readRun r.args) (octetAt r.args 3)

/-- The first cell of a run that an arm's own record covers (R103). -/
def Workspace.firstInUse (w : Workspace) (g : BinGeom) (m : Arm) (r : Run) : Option Nat :=
  r.cellNumbers.find? fun c => (w.record m).covers g (g.index r.bay c)

/-- R103. -/
def Workspace.release (w : Workspace) (m : Arm) (h : ReqHead) (r : Run) : Workspace × Answer :=
  w.withRun h r fun g =>
    match w.firstNotHeld g m r, w.firstInUse g m r with
    | some c, _ => (w, answerRefused h .notHeld [octet r.bay, octet c])
    | none, some c => (w, answerRefused h .inUse [octet r.bay, octet c])
    | none, none =>
      let cells := mapCells (fun i c => if (r.indexes g).contains i then .free else c) 0 w.cellList
      (({ w with cells := some cells } : Workspace).reevaluate, answerOk h [])

/-- RELEASE (R103). The outcomes of the claims it makes grantable are in their FIFOs before the event ends. -/
def execRelease (m : Arm) (s : State) : Result :=
  match takeWsRequest m .release s fun r w => w.release m r.head (readRun r.args) with
  | .next t => .next ((t.takeNewFromWs s.ws.toPort .armA).takeNewFromWs s.ws.toPort .armB)
  | r => r

/-- R122. -/
def Workspace.cancel (w : Workspace) (m : Arm) (h : ReqHead) (tag : Octet) : Workspace × Answer :=
  match w.cells with
  | none => (w, answerRefused h .noBin [])
  | some _ =>
    match w.queue.find? fun e => e.arm == m && e.tag == tag with
    | none => (w, answerRefused h .notFound [])
    | some e =>
      (({ w with queue := w.queue.filter fun x => !(x.arm == m && x.tag == tag) } : Workspace).reevaluate,
       answerOk h ([tag] ++ runOctets e.run))

/-- CANCEL (R122). -/
def execCancel (m : Arm) (s : State) : Result :=
  takeWsRequest m .cancel s fun r w => w.cancel m r.head (r.args.getD 0 0)

/-- One cell's record in CELL_READ data (R104, R190). -/
def Workspace.cellOctets (w : Workspace) (g : BinGeom) (i : Nat) : List Octet :=
  let coverA := ((w.record .armA).covers g i).toNat
  let coverB := ((w.record .armB).covers g i).toNat
  match cellAt w.cellList i with
  | .free => [octet (4 * coverA + 8 * coverB), 0, 0]
  | .held owner lease deadline =>
    [octet (1 + 2 * (owner == .armB).toNat + 4 * coverA + 8 * coverB), octet lease, octet (remaining w.tick deadline)]

/-- R104. -/
def Workspace.readCells (w : Workspace) (h : ReqHead) (bay : Nat) : Answer :=
  match w.cells, w.bin with
  | some _, some g =>
    if bay < g.bays then
      answerOk h (octets32 w.tick ++ [octet w.scan, octet g.bays, octet g.cells]
        ++ ((List.range g.cells).map fun c => w.cellOctets g (g.index bay c)).flatten)
    else answerRefused h .range []
  | _, _ => answerRefused h .noBin []

/-- CELL_READ (R104). -/
def execCellRead (m : Arm) (s : State) : Result :=
  takeWsRequest m .cellRead s fun r w => (w, w.readCells r.head (octetAt r.args 0))

/-! ### CLAIM_REMOVAL (R126) -/

/-- R126, steps 1 to 3. -/
def Workspace.removeClaims (w : Workspace) (m : Arm) : Workspace :=
  ({ w with queue := w.queue.filter fun e => !(e.arm == m), toPort := w.toPort.set m (w.toPort.get m ++ [.discard]) } :
    Workspace).reevaluate

/-- CLAIM_REMOVAL (R126). The outcomes handed to the port before the removal are in its FIFO when the discard is asked: none enters
between the two (R89, R126). -/
def execClaimRemoval (m : Arm) (s : State) : Result :=
  takeFromArm m s fun msg t =>
    match msg with
    | .claimRemoval =>
      let u := t.takeAllFromWs m
      some (.next (u.setWs (u.ws.removeClaims m)))
    | _ => none

end Sys2Proof.Machine
end

