-- ==== Sys2Proof/Machine/Cadence.lean ====
section
/-! DEFINITION. The cadence expiries of an arm unit (R59, R64, R76, R81, R84), its tick copy (R69) and the commit
notice (R3). FRAME_LOSS, FEEDBACK_LOSS and SETTLE_TIMEOUT are the expiries in which these come about: each takes
the whole expiry, and takes it only when it does (log entry 5). -/

namespace Sys2Proof.Machine

/-- The arm unit takes a cadence expiry in one of the states `ok`, when `cond` holds of the unit with the profile the
expiry takes (part 1 of every expiry, R3). -/
def takeExpiry (m : Arm) (s : State) (ok : ArmState → Bool) (cond : ArmUnit → Bool) (k : ArmUnit → Result) : Result :=
  takeArm m s fun e u =>
    match e with
    | .expiry => if ok u.state && cond u.takeProfile then some (k u.takeProfile) else none
    | _ => none

/-- R59, parts 2 to 5, in RUN. Where part 3 ends in FRAME_LOSS the arm is in a stop at part 4, and a FEEDBACK_LOSS there is a
fault found in it, masked or not (R86 and not the masked line of R64; the model's reading, log entry 34). -/
def ArmUnit.expiryRun (u : ArmUnit) (m : Arm) (node : Node) (p : Pos) : ArmUnit :=
  let v : ArmUnit := { u with substituted := false }
  let w := if v.slotFilled then v else v.missedPeriod m node p
  { w.stepFeedback m with slotFilled := false, feedbackSeen := false }

/-- R81, parts 2 to 6, in HALTING. -/
def ArmUnit.expiryHalting (u : ArmUnit) (m : Arm) (node : Node) (p : Pos) : ArmUnit :=
  let v := ({ u with substituted := false } : ArmUnit).stepFeedback m
  { (v.brake node p).settleIfStill m with feedbackSeen := false, slotFilled := false }

/-- Whether the settle timer reaches the settle limit at this expiry (R84). -/
def ArmUnit.settleRunsOut (u : ArmUnit) : Bool := decide (u.work.settleLimit ≤ u.ctx.settleTimer + 1)

/-- R84, parts 2 to 5, in SETTLING. -/
def ArmUnit.expirySettling (u : ArmUnit) (m : Arm) (node : Node) (p : Pos) : ArmUnit :=
  let v := ({ u with substituted := false } : ArmUnit).stepFeedback m
  let w : ArmUnit := { v with ctx := { v.ctx with settleTimer := v.ctx.settleTimer + 1 } }
  let x :=
    if u.settleRunsOut then
      (w.raise m .settleTimeout (.settleTimeout w.last.seq w.ctx.settleCount)).cut m (w.finding .settleTimeout none none none)
    else w.hold node p
  { x with feedbackSeen := false }

/-- R76, part 2, in SYNC, STANDBY, HELD and CUT. -/
def ArmUnit.quiet (u : ArmUnit) : ArmUnit :=
  { u with ctx := { u.ctx with feedback := 0 }, feedbackSeen := false, substituted := false }

/-- R76, part 3: the hold setpoint of STANDBY and HELD, at the last forwarded position with STO released and at the last
actual one, if known, with STO asserted (R75). -/
def quietHold (m : Arm) (s : State) (u : ArmUnit) : Result :=
  if u.state = .standby ∨ u.state = .held then
    if u.sto then
      match u.lastActual with
      | some p => .next (s.setArm m (u.hold (s.driveNode m) p))
      | none => .next (s.setArm m u)
    else withForwarded u fun p => .next (s.setArm m (u.hold (s.driveNode m) p))
  else .next (s.setArm m u)

def isRun (st : ArmState) : Bool := st == .run
def isHalting (st : ArmState) : Bool := st == .halting
def isSettling (st : ArmState) : Bool := st == .settling
def isQuiet (st : ArmState) : Bool := st == .sync || st == .standby || st == .held || st == .cut

/-- The rest of an expiry in RUN: a braking setpoint needs the last forwarded position. -/
def finishRun (m : Arm) (s : State) (u : ArmUnit) : Result :=
  withForwarded u fun p => .next (s.setArm m (u.expiryRun m (s.driveNode m) p))

def finishHalting (m : Arm) (s : State) (u : ArmUnit) : Result :=
  withForwarded u fun p => .next (s.setArm m (u.expiryHalting m (s.driveNode m) p))

def finishSettling (m : Arm) (s : State) (u : ArmUnit) : Result :=
  withForwarded u fun p => .next (s.setArm m (u.expirySettling m (s.driveNode m) p))

/-- CADENCE_EXPIRY_RUN (R59). -/
def execCadenceExpiryRun (m : Arm) (s : State) : Result := takeExpiry m s isRun (fun _ => true) (finishRun m s)

/-- FRAME_LOSS (R60): the expiry in RUN that finds the slot EMPTY and brings the miss count to the miss limit. -/
def execFrameLoss (m : Arm) (s : State) : Result :=
  takeExpiry m s isRun (fun u => !u.slotFilled && u.missRunsOut) (finishRun m s)

/-- FEEDBACK_LOSS (R64): the expiry in RUN, HALTING or SETTLING that brings the feedback count to the feedback limit. -/
def execFeedbackLoss (m : Arm) (s : State) : Result :=
  takeExpiry m s ArmState.moving ArmUnit.feedbackRunsOut fun u =>
    if isRun u.state then finishRun m s u else if isHalting u.state then finishHalting m s u else finishSettling m s u

/-- CADENCE_EXPIRY_HALTING (R81). -/
def execCadenceExpiryHalting (m : Arm) (s : State) : Result :=
  takeExpiry m s isHalting (fun _ => true) (finishHalting m s)

/-- CADENCE_EXPIRY_SETTLING (R84). -/
def execCadenceExpirySettling (m : Arm) (s : State) : Result :=
  takeExpiry m s isSettling (fun _ => true) (finishSettling m s)

/-- SETTLE_TIMEOUT (R84): the expiry in SETTLING that brings the settle timer to the settle limit. -/
def execSettleTimeout (m : Arm) (s : State) : Result := takeExpiry m s isSettling ArmUnit.settleRunsOut (finishSettling m s)

/-- CADENCE_EXPIRY_QUIET (R76). -/
def execCadenceExpiryQuiet (m : Arm) (s : State) : Result :=
  takeExpiry m s isQuiet (fun _ => true) fun u => quietHold m s u.quiet

/-- ARM_TICK_COPY (R69). -/
def execArmTickCopy (m : Arm) (s : State) : Result :=
  takeArm m s fun e u =>
    match e with
    | .tick => some (.next (s.setArm m { u with tickCopy := u.tickCopy + 1 }))
    | _ => none

/-- COMMIT_NOTICE (R3): bank known, the presence it carries, and its profile kept for the next expiry. -/
def execCommitNotice (m : Arm) (s : State) : Result :=
  takeArm m s fun e u =>
    match e with
    | .commitNotice present profile =>
      some (.next (s.setArm m { u with bankKnown := true, present := present, newProfile := some profile }))
    | _ => none

end Sys2Proof.Machine
end

