-- ==== Sys2Proof/Machine/Commit.lean ====
section
/-! DEFINITION. COMMIT (R93, R127, R128, R150, R151): the commit check and the commit done. -/

namespace Sys2Proof.Machine

/-! ### The commit check (R150) -/

/-- The first HELD cell by single index, with its owner; the list starts at index `i`. -/
def firstHeld (i : Nat) : List CellRec → Option (Nat × Arm)
  | [] => none
  | .free :: rest => firstHeld (i + 1) rest
  | .held owner _ _ :: _ => some (i, owner)

/-- The bin geometry differs: presence of a BIN, its box, bays and cells (R150). -/
def Workspace.geometryChanges (w : Workspace) (new : Bank) : Bool := decide (new.bin ≠ w.bin)

/-- Test 1. -/
def Workspace.leasesHeld (w : Workspace) (new : Bank) : Option CommitRefusal :=
  if w.geometryChanges new then (firstHeld 0 w.cellList).map fun x => .leasesHeld x.1 x.2 else none

/-- The entitled space of an arm under the new bank: held columns count only when the geometry is kept (R150). -/
def Workspace.newSpace (w : Workspace) (new : Bank) (m : Arm) : List Box :=
  entitled new (if w.geometryChanges new then none else new.bin) w.cellList m

/-- The first kind a stored MOTION box violates against the new bank, in the order RANGE, FORBIDDEN, TRESPASS. -/
def Workspace.boxViolation (w : Workspace) (new : Bank) (m : Arm) (b : Box) : Option FaultKind :=
  if (outsideWorld b).firstAxis.isSome then some .range
  else if violatesForbidden new b then some .forbidden
  else if violatesTrespass (w.newSpace new m) b then some .trespass
  else none

/-- Test 2 for one arm. -/
def Workspace.illegalBox (w : Workspace) (new : Bank) (m : Arm) : Option CommitRefusal :=
  match new.present m, w.record m with
  | true, .motion box _ _ => (w.boxViolation new m box).map (.illegalBox m)
  | _, _ => none

/-- Test 3 for one arm. -/
def Workspace.armActive (w : Workspace) (new : Bank) (m : Arm) : Option CommitRefusal :=
  if presentIn w.active m && !(new.present m)
      && (w.cellList.any (CellRec.heldBy m) || (w.reported.get m).moving || (w.record m).isMotion) then
    some (.armActive m)
  else none

/-- The first test that fails (R150). -/
def Workspace.commitRefusal (w : Workspace) (new : Bank) : Option CommitRefusal :=
  (w.leasesHeld new).orElse fun _ => (w.illegalBox new .armA).orElse fun _ => (w.illegalBox new .armB).orElse fun _ =>
    (w.armActive new .armA).orElse fun _ => w.armActive new .armB

/-! ### The commit done (R151) -/

/-- Step 2: an arm's record under the new bank. -/
def Workspace.newRecord (w : Workspace) (new : Bank) (m : Arm) : BoxRecord :=
  if !(new.present m) then .absent else if presentIn w.active m then w.record m else .unknown

/-- Step 3: the cell table of R93. -/
def Workspace.newCells (w : Workspace) (new : Bank) : Option (List CellRec) :=
  match new.bin with
  | none => none
  | some g => if w.bin = some g then w.cells else some (List.replicate (g.bays * g.cells) .free)

def Workspace.newScan (w : Workspace) (new : Bank) : Nat :=
  match new.bin with
  | none => 0
  | some g => if w.bin = some g then w.scan else 0

/-- The queued claims a commit cancels: of an absent arm when the geometry is kept (R127), every one when it changes (R128). -/
def Workspace.cancels (w : Workspace) (new : Bank) (e : QueueEntry) : Bool := w.geometryChanges new || !(new.present e.arm)

/-- Steps 1 to 4 at the workspace unit. -/
def Workspace.commitDone (w : Workspace) (new : Bank) : Workspace :=
  (({ w with
      active := some new, records := ⟨w.newRecord new .armA, w.newRecord new .armB⟩, cells := w.newCells new, scan := w.newScan new,
      queue := w.queue.filter fun e => !(w.cancels new e) } : Workspace).handAll .cancelled
    (w.queue.filter (w.cancels new))).reevaluate

/-- The timebase is given a cadence period of the new bank (R151, R3). -/
def CadenceTimer.give (t : CadenceTimer) (p : Profile) : CadenceTimer := { t with next := some p.cadence }

/-- Step 5: the commit notices, and the cadence periods of the new bank (R3). -/
def State.notifyCommit (s : State) (new : Bank) : State :=
  let t := (s.toArm .armA (.commitNotice (new.present .armA) new.profiles.a)).toArm .armB
    (.commitNotice (new.present .armB) new.profiles.b)
  { t with timebase := { t.timebase with
      timers := ⟨t.timebase.timers.a.give new.profiles.a, t.timebase.timers.b.give new.profiles.b⟩ } }

/-- The completion goes to the table unit (R151, R153). -/
def State.sendCompletion (s : State) (c : Completion) : State := s.setTable { s.table with completion := some c }

/-- R150, R151: a commit request taken by the workspace unit. -/
def State.takeCommit (s : State) (new : Bank) (digest : Digest) : State :=
  match s.ws.commitRefusal new with
  | some why => s.sendCompletion (.refused why)
  | none =>
    ((s.setWs (s.ws.commitDone new)).notifyCommit new).sendCompletion
      (.done s.ws.active new.header.label digest (s.ws.geometryChanges new))

/-- COMMIT (R150). -/
def execCommit (s : State) : Result :=
  match s.table.toWs with
  | .commit new digest :: rest => .next ((s.setTable { s.table with toWs := rest }).takeCommit new digest)
  | _ => .next s

end Sys2Proof.Machine
end

