-- ==== Sys2Proof/Machine/Context.lean ====
section
/-! DEFINITION. Envelope requests, masks and contexts (R129 to R143): ENVELOPE_PUSH, ENVELOPE_POP, ENVELOPE_VERDICT,
MASK_SET, CONTEXT_SAVE, CONTEXT_LOAD. -/

namespace Sys2Proof.Machine

/-- The answer OK of an envelope request: the depth and the composed envelope (R133, R134, R136). -/
def ArmUnit.envelopeData (u : ArmUnit) : List Octet := octet u.ctx.stack.length :: envelopeOctets u.envelope

/-- The rest update that follows a changed envelope in STANDBY, not sent while the last actual position is unknown or the
first FEEDBACK after SYNC is awaited (R134). -/
def ArmUnit.restForEnvelope (u : ArmUnit) : ArmUnit := if u.awaitFeedback then u else u.sendRestIfKnown

/-- The checked placement that re-judges the last forwarded setpoint (R136). -/
def ArmUnit.rejudgePlacement (u : ArmUnit) (p : Pos) : Placement :=
  { p := p.xyz, p0 := p.xyz.sub u.last.step, step := u.last.step, env := u.envelope, geom := u.work.geometry,
    caps := u.work.stepCap }

/-- An unmasked STACK violation by a request in RUN (R136). -/
def ArmUnit.stackFault (u : ArmUnit) (m : Arm) : ArmUnit :=
  u.hardFault m (u.finding .stack (some u.last.seq) none none)

/-- R133, R134, R136: an envelope request in STANDBY or RUN. The operation is applied by R130; an unmasked violation
refuses; an unchanged envelope answers OK; a changed one is carried to the box record. -/
def ArmUnit.envelopeRequest (u : ArmUnit) (m : Arm) (s : State) (r : Request) (op : EnvOp) (margin : Option Margin) : Result :=
  let out := applyEnvOp u.ctx.mask.stack op u.ctx.stack
  let v := u.setStack out.1
  match out.2 with
  | some c =>
    let w := v.raise m .stack (.stack ⟨.request, c, u.ctx.stack.length, margin, none⟩)
    if u.ctx.mask.stack then carry w
    else if u.state = .run then finishArm m s (w.stackFault m, refusal r .stack [])
    else finishArm m s (w, refusal r .stack [])
  | none => carry v
where
  /-- The comparison of the two composed envelopes (R133). -/
  carry (w : ArmUnit) : Result :=
    if w.envelope = u.envelope then finishArm m s (w, okAnswer r w.envelopeData)
    else if u.state = .run then
      withForwarded w fun p =>
        let pl := w.rejudgePlacement p
        finishArm m s ({ w.send (.checked pl) with outstanding := some (.envelope r.head pl.geom) }, none)
    else finishArm m s (w.restForEnvelope, okAnswer r w.envelopeData)

/-- The states that take an envelope request (R133). -/
def takesEnvelope (st : ArmState) : Bool := st == .standby || st == .run

/-- ENVELOPE_PUSH (R133). -/
def execEnvelopePush (m : Arm) (s : State) : Result :=
  takeArmRequest m .envelopePush s fun r u =>
    let margin : Margin := ⟨octetAt r.args 0, octetAt r.args 1⟩
    if !takesEnvelope u.state then finishArm m s (u, refusal r .state [])
    else if 63 < margin.lateral ∨ 63 < margin.below then finishArm m s (u, refusal r .range [])
    else u.envelopeRequest m s r (.push margin) (some margin)

/-- ENVELOPE_POP (R133). -/
def execEnvelopePop (m : Arm) (s : State) : Result :=
  takeArmRequest m .envelopePop s fun r u =>
    if !takesEnvelope u.state then finishArm m s (u, refusal r .state []) else u.envelopeRequest m s r .pop none

/-- R136, FAILED: the violation is hard whatever the masks; no braking setpoint is made in this event. -/
def ArmUnit.envelopeFailed (u : ArmUnit) (m : Arm) (f : Found) (tick : Tick) : ArmUnit :=
  let v := u.raiseFound m u.last.seq f
  match f.finding u.last.seq tick with
  | some x => v.hardFault m x
  | none => v

/-- ENVELOPE_VERDICT (R136). -/
def execEnvelopeVerdict (m : Arm) (s : State) : Result :=
  takeVerdict m s fun o v u =>
    match o with
    | .envelope h geom =>
      some
        (match v with
        | .placed => finishArm m s ({ u with placeGeom := geom }, some (answerOk h u.envelopeData))
        | .failed kinds ra sa tick =>
          let found : Found := ⟨kinds, ra, sa, none, none⟩
          finishArm m s (u.envelopeFailed m found tick, some (answerRefused h .illegal (illegalData found)))
        | .absent | .unknown => .fault .unjudgedInRun)
    | _ => none

/-- R137: the mask word sets a kind masked that cannot be. -/
def masksUnmaskable (w : BitVec 16) : Bool :=
  KindSet.has w .range || KindSet.has w .forbidden || KindSet.has w .proximity

/-- R137. -/
def ArmUnit.maskRequest (u : ArmUnit) (r : Request) : ArmUnit × Option Answer :=
  let w : BitVec 16 := r.args.getD 0 0 ++ r.args.getD 1 0
  if u.state ≠ .standby then (u, refusal r .state [])
  else if masksUnmaskable w then (u, refusal r .range [])
  else ({ u with ctx := { u.ctx with mask := maskOfWord w } }, okAnswer r (octets16 (maskWord (maskOfWord w))))

/-- MASK_SET (R137). -/
def execMaskSet (m : Arm) (s : State) : Result :=
  takeArmRequest m .maskSet s fun r u => finishArm m s (u.maskRequest r)

/-- CONTEXT_SAVE (R140). -/
def execContextSave (m : Arm) (s : State) : Result :=
  takeArmRequest m .contextSave s fun r u => finishArm m s (u, okAnswer r (contextOctets u.ctx))

/-- R142: what a load changes, with the rest update of step 6. -/
def ArmUnit.load (u : ArmUnit) (c : LoadedContext) : ArmUnit :=
  let v : ArmUnit := { u with ctx := { u.ctx with mask := c.mask, stack := c.stack, softSeen := c.softSeen, carried := c.fault } }
  if v.envelope = u.envelope then v else v.restForEnvelope

/-- R141, R142. -/
def ArmUnit.loadRequest (u : ArmUnit) (r : Request) : ArmUnit × Option Answer :=
  if u.state ≠ .standby then (u, refusal r .state [])
  else
    match readContext r.args with
    | .ok c => (u.load c, okAnswer r [])
    | .error field => (u, refusal r .invalid [field.code])

/-- CONTEXT_LOAD (R142). -/
def execContextLoad (m : Arm) (s : State) : Result :=
  takeArmRequest m .contextLoad s fun r u => finishArm m s (u.loadRequest r)

end Sys2Proof.Machine
end

