-- ==== Sys2Proof/Machine/Feedback.lean ====
section
/-! DEFINITION. FEEDBACK_ARRIVAL (R61 to R65, R83, R85, R164) and PARAM_ARRIVAL (R162). -/

namespace Sys2Proof.Machine

/-- An axis whose actual position differs from the commanded one by more than a limit (R63, R83). -/
def exceeds (limit : Nat) (actual commanded : Tri Int) : Tri Bool :=
  Tri.map2 (fun q c => decide (limit < (q - c).natAbs)) actual commanded

/-- R61: the last actual position, and in the non-motion states a rest update with it. -/
def ArmUnit.noteActual (u : ArmUnit) (p : Pos) : ArmUnit :=
  let v : ArmUnit := { u with lastActual := some p }
  match u.state with
  | .sync | .standby | .held | .cut => v.sendRest p
  | .run | .halting | .settling => v

/-- R62: the echo test. -/
def ArmUnit.matchesEcho (u : ArmUnit) (f : FeedbackFrame) : Bool := f.echo == u.last.seq

def ArmUnit.noteEcho (u : ArmUnit) (m : Arm) (f : FeedbackFrame) : ArmUnit :=
  if u.matchesEcho f then { u with feedbackSeen := true, ctx := { u.ctx with feedback := 0 } }
  else u.raise m .feedbackStale (.seqPair f.echo u.last.seq)

/-- R63: the tracking check of a matching FEEDBACK in RUN, against the last forwarded position `p`. -/
def ArmUnit.checkTracking (u : ArmUnit) (m : Arm) (f : FeedbackFrame) (p : Pos) : ArmUnit :=
  match (exceeds u.work.trackingLimit f.actual.xyz p.xyz).firstAxis with
  | some ax =>
    let v := u.raise m .tracking (.seqAxis f.echo (some ax))
    if u.ctx.mask.tracking then v else v.hardFault m (u.finding .tracking (some f.echo) (some ax) none)
  | none => u

/-- R65: the drive status. Only 0 is OK (R187). With STO asserted a FAULT status is no event, unless it is a second cause of CUT of
the stop that ended in this CUT: then it joins the record (R86, log entry 28). -/
def ArmUnit.checkStatus (u : ArmUnit) (m : Arm) (f : FeedbackFrame) (second : Bool) : ArmUnit :=
  if f.status ≠ 0 ∧ (u.sto = false ∨ (second = true ∧ u.state = .cut)) then
    (u.raise m .driveFault (.seqOnly f.echo)).cut m (u.finding .driveFault none none none)
  else u

/-- R85: settling ends. -/
def ArmUnit.endSettling (u : ArmUnit) (m : Arm) : ArmUnit :=
  let v := u.sendRestIfKnown
  if u.stopCause = some .fault then
    if u.ctrlLocked then ({ v with stopCause := none } : ArmUnit).enter m .held else v.cutNow m
  else if u.ctrlLocked then ({ v with stopCause := none } : ArmUnit).enter m .standby
  else v.toSync m

/-- R83: a matching FEEDBACK in SETTLING counts toward settling, and at 2 settling ends. -/
def ArmUnit.countSettling (u : ArmUnit) (m : Arm) (f : FeedbackFrame) (p : Pos) : ArmUnit :=
  if (exceeds u.work.settleWindow f.actual.xyz p.xyz).firstAxis.isSome then { u with ctx := { u.ctx with settleCount := 0 } }
  else
    let v : ArmUnit := { u with ctx := { u.ctx with settleCount := u.ctx.settleCount + 1 } }
    if 2 ≤ v.ctx.settleCount then v.endSettling m else v

/-- The checks of R61 to R65 on a FEEDBACK in the order echo, tracking, drive status, settling (log entry 17). `p` is the
last forwarded position, read in RUN and SETTLING alone. -/
def ArmUnit.checkFeedback (u : ArmUnit) (m : Arm) (f : FeedbackFrame) (second : Bool) (p : Pos) : ArmUnit :=
  let v := (u.noteActual f.actual).noteEcho m f
  let w := if u.state = .run ∧ u.matchesEcho f then v.checkTracking m f p else v
  let x := w.checkStatus m f second
  if u.state = .settling ∧ x.state = .settling ∧ u.matchesEcho f then x.countSettling m f p else x

/-- R164: the FEEDBACK with its guard status octet goes to the controller port's transmitter in the same event. Whether a notice
waits is read as the frame is handed over, after a notice that goes before it (R165). -/
def State.forwardFeedback (s : State) (m : Arm) (f : FeedbackFrame) : State :=
  let guard := guardOctet (s.arm m) ((s.readyUp m).report.noticeWaiting m)
  s.forwardUp m (frame .feedback f.node f.seq (f.payload ++ [guard]))

/-- A FEEDBACK taken by the arm unit. In RUN and SETTLING a matching one is compared with the last forwarded position. -/
def takeFeedback (m : Arm) (s : State) (f : FeedbackFrame) (second : Bool) (u : ArmUnit) : Result :=
  if (u.state = .run ∨ u.state = .settling) ∧ u.matchesEcho f then
    withForwarded u fun p => .next ((s.setArm m (u.checkFeedback m f second p)).forwardFeedback m f)
  else .next ((s.setArm m (u.checkFeedback m f second f.actual)).forwardFeedback m f)

/-- FEEDBACK_ARRIVAL (R61). -/
def execFeedbackArrival (m : Arm) (s : State) : Result :=
  takeArm m s fun e u =>
    match e with
    | .feedback f => some (takeFeedback m s f false u)
    | .faultSecond f => some (takeFeedback m s f true u)
    | _ => none

/-- PARAM_ARRIVAL (R162): passed to the drive unaltered in STANDBY and CUT, else discarded with PASS_REFUSED. -/
def execParamArrival (m : Arm) (s : State) : Result :=
  takeArm m s fun e u =>
    match e with
    | .param os seq =>
      some (.next (s.setArm m
        (if u.state = .standby ∨ u.state = .cut then u.hand os else u.raise m .passRefused (.passRefused u.state seq))))
    | _ => none

end Sys2Proof.Machine
end

