-- ==== Sys2Proof/Machine/Link.lean ====
section
/-! DEFINITION. The receive side of the ports (R155 to R163): the tests of a frame, routing; FRAME_ARRIVAL,
PORT_CADENCE_EXPIRY, LOCK_LOSS_SILENCE. -/

namespace Sys2Proof.Machine

/-! ### The tests of a frame (R156 to R158) -/

/-- The delimiter was noise: the octet after it does not carry the frame mark 5 (R156, R186). -/
def isNoise (f : RxFrame) : Bool :=
  match f.octets with
  | o :: _ => o.extractLsb' 4 4 != 5#4
  | [] => true

/-- The kind code of a received frame (R186). -/
def rxKind (f : RxFrame) : Nat := octetAt f.octets 0 % 16

/-- The node of a received frame; none when the frame was cut before it (R186). -/
def rxNode (f : RxFrame) : Option Node := f.octets[1]?.map (BitVec.setWidth 4)

def rxLength (f : RxFrame) : Nat := octetAt f.octets 3

def rxPayload (f : RxFrame) : List Octet := (f.octets.drop 4).take (rxLength f)

/-- The end test (R157). -/
def rxEndGood (f : RxFrame) : Bool :=
  f.ended && decide (4 ≤ f.octets.length) && decide (rxLength f ≤ 64) && decide (f.octets.length = rxLength f + 6)

/-- The check test (R157): over header and payload, against the two octets that follow, high octet first (R155, R186). -/
def rxCheckGood (f : RxFrame) : Bool :=
  f.octets.drop (rxLength f + 4) == octets16 (check (f.octets.take (rxLength f + 4)))

/-- The acceptance table by kind, node and payload length (R158). -/
def accepts (side : Side) (monitor : Node) (kind : Nat) (node : Node) (len : Nat) : Bool :=
  match kind, side with
  | 0, _ => true
  | 1, .ctrl => node != monitor && len == 19
  | 2, .drive => node != monitor && len == 18
  | 3, _ => node != monitor
  | 4, .ctrl => node == monitor
  | _, _ => false

/-- The first test a frame fails (R157); none when it is well-formed. -/
def frameFailure (side : Side) (monitor : Node) (f : RxFrame) : Option FrameCause :=
  if !rxEndGood f then some .endError
  else if !rxCheckGood f then some .checkError
  else if !accepts side monitor (rxKind f) ((rxNode f).getD 0) (rxLength f) then some .kindError
  else none

/-! ### Raises -/

/-- A port unit raises an event of its arm (R157, R170). -/
def State.portRaise (s : State) (side : Side) (m : Arm) (k : EventKind) (d : Detail) : State :=
  match side with
  | .ctrl => s.setPort m { s.port m with raises := (s.port m).raises ++ [⟨m, k, d⟩] }
  | .drive => s.setDrivePort m { s.drivePort m with raises := (s.drivePort m).raises ++ [⟨m, k, d⟩] }

/-! ### FRAME_ARRIVAL -/

/-- R157: FRAME_ERROR. The node of a frame cut before its node octet is free (log entry 9). -/
def State.frameError (s : State) (side : Side) (m : Arm) (f : RxFrame) (c : FrameCause) : State :=
  match rxNode f with
  | some n => s.portRaise side m .frameError (.frameError side c (rxKind f) n)
  | none =>
    ({ s with draws := s.draws + 1 } : State).portRaise side m .frameError
      (.frameError side c (rxKind f) (Config.freeNode s.draws))

/-- The first two octets of a REQUEST payload, 0 in place of one missing (R170, R171; log entry 24). -/
def headOf (payload : List Octet) : ReqHead := ⟨payload.getD 0 0, payload.getD 1 0⟩

/-- R170: the answer-buffer test of a well-formed REQUEST. -/
def State.takeRequestFrame (s : State) (m : Arm) (payload : List Octet) : State :=
  match (s.port m).buffer with
  | .empty =>
    let t := s.setPort m { s.port m with buffer := .awaiting }
    { t with req := t.req.set m { t.req.get m with incoming := some payload } }
  | .awaiting | .holding .. =>
    s.portRaise .ctrl m .requestOverrun (.overrun (headOf payload).code (headOf payload).tag)

/-- A drive port learns its drive's node (R163). -/
def State.learnNode (s : State) (m : Arm) (n : Node) : State := s.setDrivePort m { s.drivePort m with node := some n }

/-- Routing of a well-formed frame (R161, R163), by kind code. -/
def State.route (s : State) (side : Side) (m : Arm) (f : RxFrame) : State :=
  let n := (rxNode f).getD 0
  match side, rxKind f with
  | .ctrl, 1 => s.toArm m (.setpoint (readSetpoint f.octets))
  | .ctrl, 3 => s.toArm m (.param f.octets (f.octets.getD 2 0))
  | .ctrl, 4 => s.takeRequestFrame m (rxPayload f)
  | .drive, 2 => (s.learnNode m n).toArm m (.feedback (readFeedback f.octets))
  | .drive, 3 => (s.learnNode m n).forwardUp m f.octets
  | _, _ => s

/-- A frame that is not noise: tested, counted toward lock, then routed or discarded (R157, R159; log entry 16). A cadence
expiry delivered before it is taken before it (R159). -/
def State.takeFrame (s : State) (side : Side) (m : Arm) (f : RxFrame) : State :=
  let t := s.settleExpiry side m
  match frameFailure side s.node f with
  | some c => (t.putLock side m (t.lockOf side m).discarded).frameError side m f c
  | none => (t.putLock side m (t.lockOf side m).wellFormed).route side m f

/-- FRAME_ARRIVAL (R156, R157): the only input of the ports. While RESET_N is low nothing is received (R191). -/
def execFrameArrival (side : Side) (m : Arm) (f : RxFrame) (s : State) : Result :=
  if s.resetN && !isNoise f then .next (s.takeFrame side m f) else .next s

/-! ### Cadence expiries at a port -/

/-- A port takes its copy of its arm's cadence expiry (R159, R167), when one waits and `cond` holds. -/
def takePortExpiry (side : Side) (m : Arm) (s : State) (cond : Bool) : Result :=
  if s.expiryDue side m && cond then .next (s.takeExpiry side m) else .next s

/-- PORT_CADENCE_EXPIRY (R159). -/
def execPortCadenceExpiry (side : Side) (m : Arm) (s : State) : Result := takePortExpiry side m s true

/-- LOCK_LOSS_SILENCE (R159): the expiry that brings the silent periods of a LOCKED port to 16. -/
def execLockLossSilence (side : Side) (m : Arm) (s : State) : Result :=
  takePortExpiry side m s (s.lockOf side m).silenceOut

end Sys2Proof.Machine
end

