-- ==== Sys2Proof/Machine/Insertion.lean ====
section
/-! DEFINITION. The request unit and the upward insertion slot (R124 to R126, R166 to R173, R182, R189): REQUEST_DECODE,
ANSWER_PLACE, INSERTION_OPPORTUNITY, NOTICE_SELECTION, OUTCOME_HANDOVER, OUTCOME_DISCARD, SENT_REPORT, DISCARD_REPORT. -/

namespace Sys2Proof.Machine

/-! ### Decoding and placing (R171, R173) -/

/-- The blocks that own requests (R171). -/
inductive Owner where
  | armUnit
  | workspace
  | table
  | report
  deriving DecidableEq, Repr

/-- The owning block of a request (R171). A TABLE_READ goes by its bank octet, 0 for ACTIVE (R188). -/
def ownerOf (n : ReqName) (args : List Octet) : Owner :=
  match n with
  | .armEnable | .armHalt | .armCut | .armClear | .armReset | .armStatus | .envelopePush | .envelopePop | .maskSet
  | .contextSave | .contextLoad => .armUnit
  | .claim | .renew | .release | .cancel | .cellRead => .workspace
  | .tableRead => if args.getD 0 0 = 0 then .workspace else .table
  | .tableWrite | .headerWrite | .profileWrite | .digestRead | .tablesReset | .agree | .agreeWithdraw => .table
  | .eventsRead | .eventsClear | .noticeSet => .report

/-- A decoded request reaches its owning block behind those already there (R171, R173). -/
def State.passRequest (s : State) (r : Request) : State :=
  match ownerOf r.name r.args with
  | .armUnit => s.toArm r.arm (.request r)
  | .workspace => s.setWs { s.ws with requests := s.ws.requests ++ [r] }
  | .table => s.setTable { s.table with arrivals := s.table.arrivals ++ [.request r] }
  | .report => s.setReport { s.report with requests := s.report.requests ++ [r] }

/-- The answer is placed in the port's answer buffer, which becomes HOLDING (R170, R173). -/
def State.placeAnswer (s : State) (m : Arm) (ans : Answer) : State := s.setPort m { s.port m with buffer := .holding ans 0 }

/-- R171: the request named, or the answer of the first test that fails. -/
def decodeRequest (m : Arm) (payload : List Octet) : Request ⊕ Answer :=
  let h := headOf payload
  if payload.length < 2 then .inr (answerRefused h .unknownRequest [])
  else
    match ReqName.ofCode h.code with
    | none => .inr (answerRefused h .unknownRequest [])
    | some n =>
      if (payload.drop 2).length = n.argLength then .inl ⟨m, n, h, payload.drop 2⟩
      else .inr (answerRefused h .range [octet n.argLength])

/-- REQUEST_DECODE (R171). A refusal is placed in the same event (log entry 23). -/
def execRequestDecode (m : Arm) (s : State) : Result :=
  match (s.req.get m).incoming with
  | some payload =>
    let t : State := { s with req := s.req.set m { s.req.get m with incoming := none } }
    match decodeRequest m payload with
    | .inl r => .next (t.passRequest r)
    | .inr ans => .next (t.placeAnswer m ans)
  | none => .next s

/-- ANSWER_PLACE (R173). -/
def execAnswerPlace (m : Arm) (s : State) : Result :=
  match (s.req.get m).answer with
  | some ans =>
    let t : State := { s with req := s.req.set m { s.req.get m with answer := none } }
    .next (t.placeAnswer m ans)
  | none => .next s

/-! ### Insertion opportunities (R167, R168) -/

/-- INSERTION_OPPORTUNITY (R168): the port arbitrates the opportunity that stands. -/
def execInsertionOpportunity (m : Arm) (s : State) : Result :=
  if (s.port m).opportunity = .offered then .next (s.arbitrate m) else .next s

/-- NOTICE_SELECTION (R182): at an opportunity at which the report unit has been asked. -/
def execNoticeSelection (m : Arm) (s : State) : Result :=
  if (s.port m).opportunity = .asked then .next (s.selectNotice m) else .next s

/-! ### Outcomes at the port and the counts at the workspace unit (R114, R124 to R126) -/

/-- OUTCOME_HANDOVER (R124). -/
def execOutcomeHandover (m : Arm) (s : State) : Result :=
  match s.ws.toPort.get m with
  | .outcome o :: rest => .next (s.takeFromWs m (.outcome o) rest)
  | _ => .next s

/-- OUTCOME_DISCARD (R126). -/
def execOutcomeDiscard (m : Arm) (s : State) : Result :=
  match s.ws.toPort.get m with
  | .discard :: rest => .next (s.takeFromWs m .discard rest)
  | _ => .next s

/-- The outcome count of an arm falls by a number (R114). -/
def Workspace.lowerCount (w : Workspace) (m : Arm) (n : Nat) : Workspace :=
  { w with outcomeCount := w.outcomeCount.set m (w.outcomeCount.get m - n) }

/-- SENT_REPORT (R125). -/
def execSentReport (m : Arm) (s : State) : Result :=
  match (s.port m).toWs with
  | .sent :: rest => .next ((s.setPort m { s.port m with toWs := rest }).setWs (s.ws.lowerCount m 1))
  | _ => .next s

/-- DISCARD_REPORT (R114, R126). -/
def execDiscardReport (m : Arm) (s : State) : Result :=
  match (s.port m).toWs with
  | .discarded n :: rest => .next ((s.setPort m { s.port m with toWs := rest }).setWs (s.ws.lowerCount m n))
  | _ => .next s

end Sys2Proof.Machine
end

