-- ==== Sys2Proof/Machine/Lease.lean ====
section
/-! DEFINITION. The lease tick (R106 to R110, R120): LEASE_TICK, and its two named parts LEASE_LAPSE and WAIT_EXPIRED,
which take the whole tick, and take it only when what they name comes about in it (log entry 5). -/

namespace Sys2Proof.Machine

/-- Whether a scan visit frees a cell: HELD, outside its owner's box, its deadline reached (R107). -/
def Workspace.lapses (w : Workspace) (g : BinGeom) (i : Nat) : CellRec → Bool
  | .free => false
  | .held owner _ deadline => !((w.record owner).covers g i) && reached w.tick deadline

/-- R107: a cell after a scan visit. R110 says that the visit after a RENEW finds the deadline not reached; a RENEW that leaves a
lease length of 1 gives a deadline that R94 calls reached at the next tick. The model follows R94 and R107 there, and the visit
of that tick frees the cell (log entry 36). -/
def Workspace.visitCell (w : Workspace) (g : BinGeom) (i : Nat) : CellRec → CellRec
  | .free => .free
  | .held owner lease deadline =>
    if (w.record owner).covers g i then .held owner lease (after w.tick lease)
    else if reached w.tick deadline then .free
    else .held owner lease deadline

/-- The raise of a cell that lapses (R107). -/
def lapseRaise (g : BinGeom) (now : Tick) (i : Nat) : CellRec → List Raise
  | .free => []
  | .held owner lease _ => [⟨owner, .leaseLapsed, .leaseLapsed (i / g.cells) (i % g.cells) lease now⟩]

/-- Whether the cell with a single index lies in the bay the scan pointer names. -/
def Workspace.visits (w : Workspace) (g : BinGeom) (i : Nat) : Bool := decide (i / g.cells = w.scan)

/-- The raises of a scan visit, in cell order; the list starts at single index `i`. -/
def Workspace.lapseRaises (w : Workspace) (g : BinGeom) (i : Nat) : List CellRec → List Raise
  | [] => []
  | c :: rest =>
    if w.visits g i && w.lapses g i c then lapseRaise g w.tick i c ++ w.lapseRaises g (i + 1) rest
    else w.lapseRaises g (i + 1) rest

/-- The scan visit to the bay the scan pointer names (R107). -/
def Workspace.scanVisit (w : Workspace) (g : BinGeom) : Workspace :=
  { w with
    cells := w.cells.map (mapCells (fun i c => if w.visits g i then w.visitCell g i c else c) 0)
    raises := w.raises ++ w.lapseRaises g 0 w.cellList }

/-- The claims whose wait deadline is reached, in queue order (R120). -/
def Workspace.expired (w : Workspace) : List QueueEntry := w.queue.filter fun e => reached w.tick e.deadline

/-- Wait expiry (R120). -/
def Workspace.expireWaits (w : Workspace) : Workspace :=
  ({ w with queue := w.queue.filter fun e => !reached w.tick e.deadline } : Workspace).handAll .waitExpired w.expired

/-- The scan pointer's advance (R108). -/
def Workspace.advanceScan (w : Workspace) (g : BinGeom) : Workspace :=
  { w with scan := if w.scan + 1 < g.bays then w.scan + 1 else 0 }

/-- Part 1 of the lease tick: the tick count rises by 1 (R94, R106). -/
def Workspace.riseTick (w : Workspace) : Workspace := { w with tick := w.tick + 1, ticksDue := w.ticksDue - 1 }

/-- The lease tick (R106). Without a cell table only its first part is carried out. -/
def Workspace.leaseTick (w : Workspace) : Workspace :=
  match w.cells, w.bin with
  | some _, some g => (((w.riseTick.scanVisit g).reevaluate).expireWaits).advanceScan g
  | _, _ => w.riseTick

/-- Whether some lease lapses in the tick about to be taken. -/
def Workspace.lapseComes (w : Workspace) : Bool :=
  match w.cells, w.bin with
  | some cells, some g => !(w.riseTick.lapseRaises g 0 cells).isEmpty
  | _, _ => false

/-- Whether some wait runs out in the tick about to be taken. -/
def Workspace.expiryComes (w : Workspace) : Bool :=
  match w.cells, w.bin with
  | some _, some g => !((w.riseTick.scanVisit g).reevaluate.expired).isEmpty
  | _, _ => false

/-- The workspace unit takes a lease tick that waits, when `cond` holds. -/
def takeLeaseTick (s : State) (cond : Bool) : Result :=
  if s.ws.ticksDue ≠ 0 ∧ cond = true then .next (s.setWs s.ws.leaseTick) else .next s

/-- LEASE_TICK (R106). -/
def execLeaseTick (s : State) : Result := takeLeaseTick s true

/-- LEASE_LAPSE (R107): the lease tick whose scan visit frees a cell. -/
def execLeaseLapse (s : State) : Result := takeLeaseTick s s.ws.lapseComes

/-- WAIT_EXPIRED (R120): the lease tick at which the wait deadline of a claim still queued is reached. -/
def execWaitExpired (s : State) : Result := takeLeaseTick s s.ws.expiryComes

end Sys2Proof.Machine
end

