-- ==== Sys2Proof/Machine/Report.lean ====
section
/-! DEFINITION. The report unit's steps (chapter 11): EVENT_RAISE, REPORT_TICK, EVENTS_READ, EVENTS_CLEAR, NOTICE_SET. -/

namespace Sys2Proof.Machine

/-- The raises a block has sent and the report unit has not taken, oldest first (R179). -/
def State.raisesOf (s : State) : Block → List Raise
  | .arm m => (s.arm m).raises
  | .port .ctrl m => (s.port m).raises
  | .port .drive m => (s.drivePort m).raises
  | .workspace => s.ws.raises
  | .table => s.table.raises

def State.setRaises (s : State) (b : Block) (rs : List Raise) : State :=
  match b with
  | .arm m => s.setArm m { s.arm m with raises := rs }
  | .port .ctrl m => s.setPort m { s.port m with raises := rs }
  | .port .drive m => s.setDrivePort m { s.drivePort m with raises := rs }
  | .workspace => s.setWs { s.ws with raises := rs }
  | .table => s.setTable { s.table with raises := rs }

/-- EVENT_RAISE (R179): the report unit takes a block's oldest raise. -/
def execEventRaise (b : Block) (s : State) : Result :=
  match s.raisesOf b with
  | x :: rest => .next ((s.setRaises b rest).setReport (s.report.takeRaise x))
  | [] => .next s

/-- REPORT_TICK (R178). -/
def execReportTick (s : State) : Result :=
  if s.report.ticksDue = 0 then .next s
  else .next (s.setReport { s.report with tick := s.report.tick + 1, ticksDue := s.report.ticksDue - 1 })

/-- Every event kind, in kind order (R177). -/
def EventKind.all : List EventKind :=
  [.range, .forbidden, .proximity, .trespass, .speed, .sequence, .tracking, .feedbackLoss, .stack, .frameLoss, .softLimit,
   .settleTimeout, .driveFault, .linkLoss, .stateChange, .leaseLapsed, .frameError, .setpointEarly, .requestOverrun,
   .passRefused, .feedbackStale, .commitDone, .commitRefused, .agreementDropped]

/-- The fields of a flag as data, in the order of R178 (R184, R188). -/
def flagOctets (k : EventKind) (f : Flag) : List Octet :=
  [yesNo f.set, yesNo f.noticed, octet f.occurrences] ++ optional (detailWidth k) (f.detail.map detailOctets)
    ++ optional 4 (f.tick.map octets32)

def settingOctets (n : NoticeSetting) : List Octet := [yesNo n.enable, octet n.priority]

/-- The data of EVENTS_READ (R184). -/
def ReportUnit.readData (r : ReportUnit) (m : Arm) : List Octet :=
  (List.zipWith flagOctets EventKind.all (r.flagsOf m)).flatten ++ octets32 r.tick ++ (r.settings.map settingOctets).flatten

/-- EVENTS_READ (R184). -/
def execEventsRead (m : Arm) (s : State) : Result :=
  takeReportRequest m .eventsRead s fun q r => (r, answerOk q.head (r.readData m))

/-- A flag list with the marked kinds cleared, starting at kind number `i` (R185). -/
def clearMarked (marks : BitVec 32) (i : Nat) : List Flag → List Flag
  | [] => []
  | f :: rest => (if marks.getLsbD i then Flag.clear else f) :: clearMarked marks (i + 1) rest

/-- The occurrences of the marked kinds just before the clear (R185). That they stand in kind order is the model's choice
(log entry 35). -/
def markedOccurrences (marks : BitVec 32) (i : Nat) : List Flag → List Octet
  | [] => []
  | f :: rest =>
    if marks.getLsbD i then octet f.occurrences :: markedOccurrences marks (i + 1) rest
    else markedOccurrences marks (i + 1) rest

/-- R185: a mark outside the kinds 0 to 23 refuses. -/
def ReportUnit.clearRequest (r : ReportUnit) (m : Arm) (q : Request) : ReportUnit × Answer :=
  let marks := bits32At q.args 0
  if marks.extractLsb' 24 8 = 0#8 then
    ({ r with flags := r.flags.set m (clearMarked marks 0 (r.flagsOf m)) },
     answerOk q.head (markedOccurrences marks 0 (r.flagsOf m)))
  else (r, answerRefused q.head .range [])

/-- EVENTS_CLEAR (R185). -/
def execEventsClear (m : Arm) (s : State) : Result :=
  takeReportRequest m .eventsClear s fun q r => r.clearRequest m q

def ReportUnit.setting (r : ReportUnit) (kind : Nat) : NoticeSetting := r.settings.getD kind ⟨false, 0⟩

/-- R181. The data is the setting before and after the change. -/
def ReportUnit.noticeRequest (r : ReportUnit) (q : Request) : ReportUnit × Answer :=
  let kind := octetAt q.args 0
  match readFlag (octetAt q.args 1) with
  | some enable =>
    if kind ≤ 23 ∧ octetAt q.args 2 ≤ 7 then
      let n : NoticeSetting := ⟨enable, octetAt q.args 2⟩
      ({ r with settings := r.settings.set kind n }, answerOk q.head (settingOctets (r.setting kind) ++ settingOctets n))
    else (r, answerRefused q.head .range [])
  | none => (r, answerRefused q.head .range [])

/-- NOTICE_SET (R181). -/
def execNoticeSet (m : Arm) (s : State) : Result :=
  takeReportRequest m .noticeSet s fun q r => r.noticeRequest q

end Sys2Proof.Machine
end

