-- ==== Sys2Proof/Machine/Startup.lean ====
section
/-! DEFINITION. POWER_ON and RESET_ASSERT (R191, R192). -/

namespace Sys2Proof.Machine

/-- POWER_ON (R191, R192): the rise of RESET_N. Every block takes its power-on values and the straps are sampled. The
count of free values drawn, which is the model's own, goes on (log entry 3). -/
def execPowerOn (straps : Node) (s : State) : Result := .next (State.powerOn true straps s.draws s.pending)

/-- RESET_ASSERT (R191): RESET_N taken low ends every operation in progress; what the blocks hold until the rise is not
seen outside, and the model gives it the power-on values (log entry 4). -/
def execResetAssert (s : State) : Result := .next (State.powerOn false s.node s.draws s.pending)

end Sys2Proof.Machine
end

