-- ==== Sys2Proof/Machine/Table.lean ====
section
/-! DEFINITION. The table unit (chapters 2 and 8): TABLE_WRITE, HEADER_WRITE, PROFILE_WRITE, TABLE_READ, DIGEST_READ,
TABLES_RESET, AGREE, AGREE_WITHDRAW, TABLE_LOCK_REPORT, COMMIT_COMPLETION. -/

namespace Sys2Proof.Machine

/-! ### Changing the shadow (R26, R31, R144) -/

/-- New shadow contents, with their digest and validation result (R34, R35). -/
def TableUnit.setShadow (t : TableUnit) (b : Bank) : TableUnit :=
  { t with shadow := b, digest := digestOf b, result := validate b }

/-- An agreement record is emptied with AGREEMENT_DROPPED, if it held a digest (R144). -/
def TableUnit.drop (t : TableUnit) (m : Arm) (cause : DropCause) (port : Option Side) : TableUnit :=
  match t.agreement.get m with
  | none => t
  | some d =>
    { t with agreement := t.agreement.set m none, raises := t.raises ++ [⟨m, .agreementDropped, .dropped cause d port⟩] }

/-- Both records are emptied, arm A's first (R26, R31). -/
def TableUnit.dropAll (t : TableUnit) (cause : DropCause) : TableUnit := (t.drop .armA cause none).drop .armB cause none

/-- The shadow header's presence flags go to the workspace unit (R175). -/
def TableUnit.reportPresence (t : TableUnit) : TableUnit := { t with toWs := t.toWs ++ [.presence t.shadow.header.present] }

/-- The answer of an accepted shadow write: the new digest and validation result (R26, R31). -/
def TableUnit.writeAnswer (t : TableUnit) (h : ReqHead) : Answer := answerOk h (octets16 t.digest ++ validationOctets t.result)

/-- R26: the effects of an accepted shadow write. -/
def TableUnit.write (t : TableUnit) (b : Bank) : TableUnit := (t.setShadow b).dropAll .write

/-- R27. The index and record are refused by the first test that fails; the record's own tests are those of the form
(R190). -/
def TableUnit.tableWrite (t : TableUnit) (r : Request) : TableUnit × Answer :=
  match readEntry r.args 1 with
  | some e =>
    if octetAt r.args 0 ≤ 23 then
      let u := t.write { t.shadow with entries := t.shadow.entries.set (octetAt r.args 0) e }
      (u, u.writeAnswer r.head)
    else (t, answerRefused r.head .range [])
  | none => (t, answerRefused r.head .range [])

/-- TABLE_WRITE (R27). -/
def execTableWrite (m : Arm) (s : State) : Result := takeTableRequest m .tableWrite s fun r t => t.tableWrite r

/-- R28. -/
def TableUnit.headerWrite (t : TableUnit) (r : Request) : TableUnit × Answer :=
  match readHeader r.args with
  | some h =>
    let u := (t.write { t.shadow with header := h }).reportPresence
    (u, u.writeAnswer r.head)
  | none => (t, answerRefused r.head .range [])

/-- HEADER_WRITE (R28). -/
def execHeaderWrite (m : Arm) (s : State) : Result := takeTableRequest m .headerWrite s fun r t => t.headerWrite r

/-- R29. -/
def TableUnit.profileWrite (t : TableUnit) (r : Request) : TableUnit × Answer :=
  match readArm (octetAt r.args 0), readProfile r.args 1 with
  | some m, some p =>
    let u := t.write { t.shadow with profiles := t.shadow.profiles.set m p }
    (u, u.writeAnswer r.head)
  | _, _ => (t, answerRefused r.head .range [])

/-- PROFILE_WRITE (R29). -/
def execProfileWrite (m : Arm) (s : State) : Result := takeTableRequest m .profileWrite s fun r t => t.profileWrite r

/-- R31. -/
def TableUnit.reset (t : TableUnit) : TableUnit := ((t.setShadow Bank.powerOn).dropAll .tablesReset).reportPresence

/-- TABLES_RESET (R31). -/
def execTablesReset (m : Arm) (s : State) : Result :=
  takeTableRequest m .tablesReset s fun r t => (t.reset, t.reset.writeAnswer r.head)

/-! ### Reading (R30, R32, R33, R149) -/

/-- An item of a bank as stored (R32), by its item octet (R188). -/
def Bank.item (b : Bank) (item : Nat) : List Octet :=
  if item = 0 then headerOctets b.header
  else if item ≤ 24 then entryOctets (b.entries.getD (item - 1) .empty)
  else if item = 25 then profileOctets b.profiles.a
  else profileOctets b.profiles.b

/-- R32 for the active bank, at the workspace unit. -/
def Workspace.readActive (w : Workspace) (r : Request) : Answer :=
  if 26 < octetAt r.args 1 then answerRefused r.head .range []
  else
    match w.active with
    | none => answerRefused r.head .noBank []
    | some b => answerOk r.head (b.item (octetAt r.args 1))

/-- R32 for every other bank value, at the table unit: 1 is SHADOW (R188). -/
def TableUnit.readShadow (t : TableUnit) (r : Request) : Answer :=
  if octetAt r.args 0 ≠ 1 ∨ 26 < octetAt r.args 1 then answerRefused r.head .range []
  else answerOk r.head (t.shadow.item (octetAt r.args 1))

/-- R33. -/
def TableUnit.readDigest (t : TableUnit) (r : Request) : Answer :=
  answerOk r.head (octets16 t.digest ++ validationOctets t.result)

/-- Whether an event that waits at the table unit is the named request of that sender. -/
def TableEvent.isRequest (m : Arm) (n : ReqName) : TableEvent → Bool
  | .request r => r.arm == m && r.name == n
  | .lock .. => false

/-- Take the first event that satisfies a test out of a list. -/
def takeFirst (p : TableEvent → Bool) : List TableEvent → Option (TableEvent × List TableEvent)
  | [] => none
  | e :: rest => if p e then some (e, rest) else (takeFirst p rest).map fun x => (x.1, e :: x.2)

/-- A read of the shadow, taken like any event, or ahead of what waits for a commit while one is outstanding (R30, R149). -/
def takeTableRead (m : Arm) (n : ReqName) (s : State) (k : Request → TableUnit → Answer) : Result :=
  if s.table.outstanding then
    match takeFirst (TableEvent.isRequest m n) s.table.arrivals with
    | some (.request r, rest) => .next ((s.setTable { s.table with arrivals := rest }).answer m (k r s.table))
    | _ => .next s
  else takeTableRequest m n s fun r t => (t, k r t)

/-- Whether the request the workspace unit takes next is that sender's TABLE_READ. -/
def Workspace.readWaits (w : Workspace) (m : Arm) : Bool :=
  match w.requests with
  | r :: _ => r.arm == m && r.name == .tableRead
  | [] => false

/-- TABLE_READ (R32): of ACTIVE at the workspace unit, of any other bank value at the table unit (R171). -/
def execTableRead (m : Arm) (s : State) : Result :=
  if s.ws.readWaits m then takeWsRequest m .tableRead s fun r w => (w, w.readActive r)
  else takeTableRead m .tableRead s fun r t => t.readShadow r

/-- DIGEST_READ (R33). -/
def execDigestRead (m : Arm) (s : State) : Result := takeTableRead m .digestRead s fun r t => t.readDigest r

/-! ### Agreement (R145 to R148) -/

/-- The arm is required for a commit: present in the active bank or in the shadow header (R148, log entry 27). -/
def TableUnit.required (t : TableUnit) (active : Option Bank) (m : Arm) : Bool :=
  presentIn active m || t.shadow.present m

/-- The commit test (R148). -/
def TableUnit.commitTest (t : TableUnit) (active : Option Bank) : Bool :=
  (!(t.required active .armA) || t.agreement.a == some t.digest) && (!(t.required active .armB) || t.agreement.b == some t.digest)

/-- R148: the commit request. -/
def TableUnit.requestCommit (t : TableUnit) : TableUnit :=
  { t with outstanding := true, toWs := t.toWs ++ [.commit t.shadow t.digest] }

/-- R145. -/
def TableUnit.agree (t : TableUnit) (active : Option Bank) (m : Arm) (r : Request) : TableUnit × Answer :=
  let d : Digest := r.args.getD 0 0 ++ r.args.getD 1 0
  if !(t.ctrlLocked.get m) then (t, answerRefused r.head .state [])
  else if d ≠ t.digest then (t, answerRefused r.head .mismatch (octets16 t.digest))
  else
    match t.result with
    | .failed f => (t, answerRefused r.head .invalid (failureOctets f))
    | .passed =>
      let u : TableUnit := { t with agreement := t.agreement.set m (some d) }
      (if u.commitTest active then u.requestCommit else u,
       answerOk r.head (octets16 d ++ [yesNo (u.commitTest active)]))

/-- AGREE (R145). -/
def execAgree (m : Arm) (s : State) : Result := takeTableRequest m .agree s fun r t => t.agree s.ws.active m r

/-- AGREE_WITHDRAW (R146). -/
def execAgreeWithdraw (m : Arm) (s : State) : Result :=
  takeTableRequest m .agreeWithdraw s fun r t =>
    ({ t with agreement := t.agreement.set m none }, answerOk r.head (optional 2 ((t.agreement.get m).map octets16)))

/-- R147: the lock kept of a controller port. -/
def TableUnit.noteLock (t : TableUnit) (side : Side) (m : Arm) (locked : Bool) : TableUnit :=
  match side with
  | .ctrl => { t with ctrlLocked := t.ctrlLocked.set m locked }
  | .drive => t

/-- R147. -/
def TableUnit.lockReport (t : TableUnit) (side : Side) (m : Arm) (locked : Bool) : TableUnit :=
  if locked then t.noteLock side m true else (t.noteLock side m false).drop m .lock (some side)

/-- TABLE_LOCK_REPORT (R147). -/
def execTableLockReport (s : State) : Result :=
  takeTable s fun e t =>
    match e with
    | .lock side m locked => some (.next (s.setTable (t.lockReport side m locked)))
    | .request _ => none

/-! ### Completion (R153) -/

/-- One raise at each controller port, CA first. -/
def TableUnit.raiseBoth (t : TableUnit) (k : EventKind) (d : Detail) : TableUnit :=
  { t with raises := t.raises ++ [⟨.armA, k, d⟩, ⟨.armB, k, d⟩] }

/-- R153: both agreement records become empty and the commit is no longer outstanding. -/
def TableUnit.endCommit (t : TableUnit) : TableUnit := { t with agreement := ⟨none, none⟩, outstanding := false, completion := none }

/-- R153. -/
def TableUnit.complete (t : TableUnit) : Completion → TableUnit
  | .done old label digest changed =>
    let u := (t.setShadow (old.getD Bank.powerOn)).endCommit.reportPresence
    u.raiseBoth .commitDone (.commitDone label digest u.digest changed)
  | .refused why => t.endCommit.raiseBoth .commitRefused (.commitRefused why t.digest)

/-- COMMIT_COMPLETION (R153). -/
def execCommitCompletion (s : State) : Result :=
  match s.table.completion with
  | some c => .next (s.setTable (s.table.complete c))
  | none => .next s

end Sys2Proof.Machine
end

