-- ==== Sys2Proof/Machine/Dispatch.lean ====
section
/-! DEFINITION. The meaning of every command: one arm per row of spec/opcode_table.json, in its order. -/

namespace Sys2Proof.Machine

def exec (i : Instr) (s : State) : Host.Outcome State Fault Refusal :=
  match i with
  | .powerOn straps => Sys2Proof.Machine.execPowerOn straps s
  | .resetAssert => Sys2Proof.Machine.execResetAssert s
  | .frameArrival side a f => Sys2Proof.Machine.execFrameArrival side a f s
  | .portCadenceExpiry side a => Sys2Proof.Machine.execPortCadenceExpiry side a s
  | .lockLossSilence side a => Sys2Proof.Machine.execLockLossSilence side a s
  | .requestDecode a => Sys2Proof.Machine.execRequestDecode a s
  | .setpointArrival a => Sys2Proof.Machine.execSetpointArrival a s
  | .setpointVerdict a => Sys2Proof.Machine.execSetpointVerdict a s
  | .cadenceExpiryRun a => Sys2Proof.Machine.execCadenceExpiryRun a s
  | .frameLoss a => Sys2Proof.Machine.execFrameLoss a s
  | .feedbackLoss a => Sys2Proof.Machine.execFeedbackLoss a s
  | .cadenceExpiryHalting a => Sys2Proof.Machine.execCadenceExpiryHalting a s
  | .cadenceExpirySettling a => Sys2Proof.Machine.execCadenceExpirySettling a s
  | .settleTimeout a => Sys2Proof.Machine.execSettleTimeout a s
  | .cadenceExpiryQuiet a => Sys2Proof.Machine.execCadenceExpiryQuiet a s
  | .feedbackArrival a => Sys2Proof.Machine.execFeedbackArrival a s
  | .paramArrival a => Sys2Proof.Machine.execParamArrival a s
  | .armTickCopy a => Sys2Proof.Machine.execArmTickCopy a s
  | .lockGained a => Sys2Proof.Machine.execLockGained a s
  | .controllerLockLoss a => Sys2Proof.Machine.execControllerLockLoss a s
  | .driveLockLoss a => Sys2Proof.Machine.execDriveLockLoss a s
  | .tableLockReport => Sys2Proof.Machine.execTableLockReport s
  | .armEnable a => Sys2Proof.Machine.execArmEnable a s
  | .enableVerdict a => Sys2Proof.Machine.execEnableVerdict a s
  | .armHalt a => Sys2Proof.Machine.execArmHalt a s
  | .armCut a => Sys2Proof.Machine.execArmCut a s
  | .armClear a => Sys2Proof.Machine.execArmClear a s
  | .armReset a => Sys2Proof.Machine.execArmReset a s
  | .armStatus a => Sys2Proof.Machine.execArmStatus a s
  | .statusRead a => Sys2Proof.Machine.execStatusRead a s
  | .envelopePush a => Sys2Proof.Machine.execEnvelopePush a s
  | .envelopePop a => Sys2Proof.Machine.execEnvelopePop a s
  | .envelopeVerdict a => Sys2Proof.Machine.execEnvelopeVerdict a s
  | .maskSet a => Sys2Proof.Machine.execMaskSet a s
  | .contextSave a => Sys2Proof.Machine.execContextSave a s
  | .contextLoad a => Sys2Proof.Machine.execContextLoad a s
  | .commitNotice a => Sys2Proof.Machine.execCommitNotice a s
  | .checkedPlacement a => Sys2Proof.Machine.execCheckedPlacement a s
  | .forcedPlacement a => Sys2Proof.Machine.execForcedPlacement a s
  | .restUpdate a => Sys2Proof.Machine.execRestUpdate a s
  | .setRecordUnknown a => Sys2Proof.Machine.execSetRecordUnknown a s
  | .stateReport a => Sys2Proof.Machine.execStateReport a s
  | .claim a => Sys2Proof.Machine.execClaim a s
  | .renew a => Sys2Proof.Machine.execRenew a s
  | .release a => Sys2Proof.Machine.execRelease a s
  | .cancel a => Sys2Proof.Machine.execCancel a s
  | .cellRead a => Sys2Proof.Machine.execCellRead a s
  | .leaseTick => Sys2Proof.Machine.execLeaseTick s
  | .leaseLapse => Sys2Proof.Machine.execLeaseLapse s
  | .waitExpired => Sys2Proof.Machine.execWaitExpired s
  | .claimRemoval a => Sys2Proof.Machine.execClaimRemoval a s
  | .outcomeDiscard a => Sys2Proof.Machine.execOutcomeDiscard a s
  | .discardReport a => Sys2Proof.Machine.execDiscardReport a s
  | .sentReport a => Sys2Proof.Machine.execSentReport a s
  | .outcomeHandover a => Sys2Proof.Machine.execOutcomeHandover a s
  | .answerPlace a => Sys2Proof.Machine.execAnswerPlace a s
  | .insertionOpportunity a => Sys2Proof.Machine.execInsertionOpportunity a s
  | .noticeSelection a => Sys2Proof.Machine.execNoticeSelection a s
  | .eventRaise b => Sys2Proof.Machine.execEventRaise b s
  | .reportTick => Sys2Proof.Machine.execReportTick s
  | .eventsRead a => Sys2Proof.Machine.execEventsRead a s
  | .eventsClear a => Sys2Proof.Machine.execEventsClear a s
  | .noticeSet a => Sys2Proof.Machine.execNoticeSet a s
  | .tableWrite a => Sys2Proof.Machine.execTableWrite a s
  | .headerWrite a => Sys2Proof.Machine.execHeaderWrite a s
  | .profileWrite a => Sys2Proof.Machine.execProfileWrite a s
  | .tableRead a => Sys2Proof.Machine.execTableRead a s
  | .digestRead a => Sys2Proof.Machine.execDigestRead a s
  | .tablesReset a => Sys2Proof.Machine.execTablesReset a s
  | .headerPresenceReport => Sys2Proof.Machine.execHeaderPresenceReport s
  | .agree a => Sys2Proof.Machine.execAgree a s
  | .agreeWithdraw a => Sys2Proof.Machine.execAgreeWithdraw a s
  | .commit => Sys2Proof.Machine.execCommit s
  | .commitCompletion => Sys2Proof.Machine.execCommitCompletion s

end Sys2Proof.Machine
end

