-- ==== Sys2Proof/Machine/Timebase.lean ====
section
/-! DEFINITION. The timebase (0.2, R3, R69, R159, R178, R191): 125 µs of time, which is what a step does when no command
waits and no port has anything to take (log entry 2). It delivers the lease tick and each arm's cadence expiry, and waits for nobody (R40). -/

namespace Sys2Proof.Machine

/-- The cadence timer of an arm expires in this unit (R3). -/
def CadenceTimer.expires (t : CadenceTimer) : Bool := decide (t.left ≤ 1)

/-- A cadence timer after one unit. At an expiry the period of the latest commit comes into force (R3). -/
def CadenceTimer.pass (t : CadenceTimer) : CadenceTimer :=
  if t.expires then
    let period := t.next.getD t.period
    ⟨period, none, period⟩
  else { t with left := t.left - 1 }

/-- The millisecond ends in this unit. -/
def Timebase.ticks (t : Timebase) : Bool := decide (8 ≤ t.units + 1)

/-- The timebase after one unit. -/
def Timebase.pass (t : Timebase) : Timebase :=
  { units := if t.ticks then 0 else t.units + 1, timers := ⟨t.timers.a.pass, t.timers.b.pass⟩ }

/-- What one unit brings an arm unit. When a lease tick and an expiry fall together, which comes first is free (log entry
10). -/
def unitEvents (tick expiry tickFirst : Bool) : List ArmEvent :=
  match tick, expiry with
  | false, false => []
  | true, false => [.tick]
  | false, true => [.expiry]
  | true, true => if tickFirst then [.tick, .expiry] else [.expiry, .tick]

/-- One unit at the arm unit and the two ports of an arm. The arm unit's own copy of an expiry stands in its arrivals at once, and
a lock that a port loses in its copy is reported behind it (R159, R160): the manual orders the two nowhere (log entry 37). -/
def State.deliverTo (s : State) (m : Arm) : State :=
  let expiry := (s.timebase.timers.get m).expires
  let u := s.arm m
  let p := s.port m
  let d := s.drivePort m
  ((s.setArm m { u with arrivals := u.arrivals ++ unitEvents s.timebase.ticks expiry (Config.tickFirst s.draws m) }).setPort m
    { p with expiryDue := p.expiryDue || expiry }).setDrivePort m { d with expiryDue := d.expiryDue || expiry }

/-- The lease tick at the workspace unit and the report unit (R106, R178). -/
def State.deliverTick (s : State) : State :=
  let n := s.timebase.ticks.toNat
  (s.setWs { s.ws with ticksDue := s.ws.ticksDue + n }).setReport { s.report with ticksDue := s.report.ticksDue + n }

/-- 125 µs pass. In reset the timebase stands still (R191). -/
def State.timePasses (s : State) : State :=
  if s.resetN then
    let t := ((s.deliverTo .armA).deliverTo .armB).deliverTick
    { t with timebase := s.timebase.pass, draws := s.draws + 1 }
  else s

end Sys2Proof.Machine
end

