-- ==== Sys2Proof/Safety.lean ====
section
/-! DEFINITION. The laws the manual gives the monitor, as invariants of State: what the certificates state that every
step keeps. Each is decidable. -/

namespace Sys2Proof.Machine

/-! ### The arm unit and its safety lines (R66, R67, R69, R78) -/

/-- The fault of an "also" set is never the record's own kind (R69, R70). -/
def alsoGood (f : Option FaultRec) : Prop := ∀ r ∈ f, KindSet.has r.also r.kind = false

/-- Why a placement may be outstanding: ARM_ENABLE in STANDBY from a known position, or a setpoint or envelope request
in RUN (R40, R77). -/
def ArmUnit.purposeGood (u : ArmUnit) : Prop :=
  match u.outstanding with
  | none => True
  | some (.enable ..) => u.state = .standby ∧ u.ctx.carried = none ∧ u.lastActual.isSome = true
  | some _ => u.state = .run

/-- The laws of one arm unit. -/
structure ArmUnit.Good (u : ArmUnit) : Prop where
  /-- STO is asserted in SYNC and CUT (R67). -/
  stoAsserted : u.state = .sync ∨ u.state = .cut → u.sto = true
  /-- STO is released in RUN, HALTING and SETTLING (R67). -/
  stoReleased : u.state.moving = true → u.sto = false
  /-- The stop cause is present in HALTING and SETTLING alone (R66). -/
  causeIffStop : u.stopCause.isSome = true ↔ u.state = .halting ∨ u.state = .settling
  /-- A fault is pending in HELD, in CUT and in a fault stop, and nowhere else (R69). -/
  faultIff : u.ctx.fault.isSome = true ↔ u.state = .held ∨ u.state = .cut ∨ u.stopCause = some .fault
  /-- A carried fault is held in STANDBY alone (R69, R90). -/
  carriedOnly : u.ctx.carried.isSome = true → u.state = .standby
  /-- The last forwarded position is known whenever STO is released (R67, R78). -/
  forwardedKnown : u.sto = false → u.last.pos.isSome = true
  /-- A commit is known of in RUN, in a stop and while a placement is outstanding (R77). -/
  bankFirst : u.state.moving = true ∨ u.outstanding.isSome = true → u.bankKnown = true
  purpose : u.purposeGood
  /-- A verdict comes only for an outstanding placement (R40, R46). -/
  verdictAsked : u.verdict.isSome = true → u.outstanding.isSome = true
  alsoFault : alsoGood u.ctx.fault
  alsoCarried : alsoGood u.ctx.carried

/-! ### Arm unit and workspace unit together (R13, R40, R46) -/

def ToWorkspace.isChecked : ToWorkspace → Bool
  | .checked _ => true
  | _ => false

def ToWorkspace.isForced : ToWorkspace → Bool
  | .forced .. => true
  | _ => false

/-- A message that takes the record out of MOTION. -/
def ToWorkspace.isRest : ToWorkspace → Bool
  | .rest .. | .setUnknown => true
  | _ => false

/-- No forced placement stands behind a rest update or a setting of the record to UNKNOWN. -/
def forcedFirst : List ToWorkspace → Bool
  | [] => true
  | msg :: rest => (!msg.isRest || rest.all (fun x => !x.isForced)) && forcedFirst rest

/-- The checked placements on their way: exactly one, sent last, while one is outstanding without its verdict; else none. -/
def ArmUnit.channelGood (u : ArmUnit) : Prop :=
  if u.outstanding.isSome ∧ u.verdict = none then
    (u.toWs.getLast?.map ToWorkspace.isChecked) = some true ∧ (u.toWs.filter ToWorkspace.isChecked).length = 1
  else (∀ msg ∈ u.toWs, msg.isChecked = false) ∧ (u.verdict.isSome = true → u.toWs = [])

def ArmEvent.isNotice : ArmEvent → Bool
  | .commitNotice .. => true
  | _ => false

/-- A verdict on a placement made in RUN is PLACED or FAILED (R46). -/
def ArmUnit.verdictGood (u : ArmUnit) : Prop :=
  match u.outstanding, u.verdict with
  | some (.setpoint ..), some v => v ≠ .absent ∧ v ≠ .unknown
  | some (.envelope ..), some v => v ≠ .absent ∧ v ≠ .unknown
  | _, _ => True

/-- The laws that join an arm unit with its box record. -/
structure State.Joined (s : State) (m : Arm) : Prop where
  /-- Only an arm present in the active bank has a MOTION record (R12, R151). -/
  motionPresent : (s.ws.record m).isMotion = true → presentIn s.ws.active m = true
  /-- In a motion state the record is MOTION, and nothing on its way changes that (R13, R14). -/
  movingMotion : (s.arm m).state.moving = true → (s.ws.record m).isMotion = true ∧ ∀ msg ∈ (s.arm m).toWs, msg.isRest = false
  placedMotion : (s.arm m).verdict = some .placed → (s.ws.record m).isMotion = true
  /-- A forced placement finds the record MOTION (R13). -/
  forcedMotion : (∃ msg ∈ (s.arm m).toWs, msg.isForced = true) → (s.ws.record m).isMotion = true
  forcedOrder : forcedFirst (s.arm m).toWs = true
  channel : (s.arm m).channelGood
  verdict : (s.arm m).verdictGood
  /-- An arm unit knows of a commit only once there is an active bank (R3, R38). -/
  knowsBank : (s.arm m).bankKnown = true ∨ (∃ e ∈ (s.arm m).arrivals, e.isNotice = true) → s.ws.active.isSome = true

/-- The laws of the arm units, and of the arm units with the workspace unit. -/
def State.ArmsGood (s : State) : Prop := ∀ m, (s.arm m).Good ∧ s.Joined m

/-! ### The table unit (R34, R35, R144) -/

/-- The digest and validation result are those of the shadow as it stands, and a record that holds a digest holds the
current shadow digest of a shadow that passes. -/
structure TableUnit.Good (t : TableUnit) : Prop where
  digest : t.digest = digestOf t.shadow
  result : t.result = validate t.shadow
  agreed : ∀ m, ∀ d ∈ t.agreement.get m, d = t.digest ∧ t.result = .passed

/-! ### Cells, claims and outcomes (R92, R93, R108, R113 to R115) -/

def presentOwner (active : Option Bank) : CellRec → Prop
  | .free => True
  | .held owner lease _ => presentIn active owner = true ∧ 1 ≤ lease ∧ lease ≤ 255

/-- The cell table, the scan pointer and the queue against the bin of the active bank. -/
def Workspace.tableGood (w : Workspace) : Prop :=
  match w.bin, w.cells with
  | some g, some cells =>
    cells.length = g.bays * g.cells ∧ (g.bays = 0 ∨ w.scan < g.bays) ∧ (∀ c ∈ cells, presentOwner w.active c)
      ∧ ∀ e ∈ w.queue, presentIn w.active e.arm = true ∧ e.run.inRange g = true ∧ 1 ≤ e.lease ∧ e.lease ≤ 255
  | none, none => w.queue = [] ∧ w.scan = 0
  | _, _ => False

/-- Outcomes among what the workspace unit has sent a controller port. -/
def sentOutcomes : List ToPort → Nat
  | [] => 0
  | .outcome _ :: rest => sentOutcomes rest + 1
  | .discard :: rest => sentOutcomes rest

/-- How far the reports on their way will lower an outcome count. -/
def reportedOutcomes : List PortReport → Nat
  | [] => 0
  | .sent :: rest => reportedOutcomes rest + 1
  | .discarded n :: rest => reportedOutcomes rest + n

/-- Two queued claims of one arm share neither a tag nor a cell (R113). -/
def apart (e f : QueueEntry) : Prop := e.arm = f.arm → e.tag ≠ f.tag ∧ e.run.shares f.run = false

/-- The laws of the queue, the quota and the outcome FIFOs. -/
structure State.QueueGood (s : State) : Prop where
  table : s.ws.tableGood
  /-- At most 8 claims wait (R115). -/
  length : s.ws.queue.length ≤ 8
  /-- An arm's queued claims and outcome count number at most 4 (R114, R115). -/
  quota : ∀ m, s.ws.quotaUse m ≤ 4
  /-- The outcome count covers the outcomes handed over and not yet reported sent or discarded (R114). -/
  counts : ∀ m, s.ws.outcomeCount.get m
    = sentOutcomes (s.ws.toPort.get m) + (s.port m).fifo.length + reportedOutcomes (s.port m).toWs
  distinct : s.ws.queue.Pairwise apart

/-! ### Locks, flags, ticks, stacks -/

/-- The ranges of R159, and which count runs at which lock. -/
structure LinkLock.Good (l : LinkLock) : Prop where
  good : l.good < 8
  bad : l.bad < 4
  silent : l.silent < 16
  locked : l.locked = true → l.good = 0
  unlocked : l.locked = false → l.bad = 0 ∧ l.silent = 0

def State.LocksGood (s : State) : Prop := ∀ side m, (s.lockOf side m).Good

/-- A flag's fields stand and fall together (R178, R179). -/
structure Flag.Good (f : Flag) : Prop where
  detail : f.detail.isSome = f.set
  tick : f.tick.isSome = f.set
  clear : f.set = false → f.noticed = false ∧ f.occurrences = 0
  counted : f.set = true → 1 ≤ f.occurrences ∧ f.occurrences ≤ 255

structure ReportUnit.Good (r : ReportUnit) : Prop where
  /-- 21 arm flags and 3 device flags for each port (R178). -/
  flags : ∀ m, (r.flagsOf m).length = 24 ∧ ∀ f ∈ r.flagsOf m, f.Good
  /-- A setting for each of the 24 kinds (R180). -/
  settings : r.settings.length = 24 ∧ ∀ n ∈ r.settings, n.priority ≤ 7

def ArmEvent.isTick : ArmEvent → Bool
  | .tick => true
  | _ => false

/-- The number of lease ticks delivered is the same for the workspace unit, the report unit and both arm units: what each
has counted with what waits for it (R69, R178). -/
def State.TicksGood (s : State) : Prop :=
  let count := s.ws.tick + BitVec.ofNat 32 s.ws.ticksDue
  s.report.tick + BitVec.ofNat 32 s.report.ticksDue = count
    ∧ ∀ m, (s.arm m).tickCopy + BitVec.ofNat 32 ((s.arm m).arrivals.filter ArmEvent.isTick).length = count

/-- An envelope stack holds at most 8 entries of margins 0 to 63 (R129). -/
def stackGood (stack : List Margin) : Prop := stack.length ≤ 8 ∧ ∀ m ∈ stack, m.lateral ≤ 63 ∧ m.below ≤ 63

def State.StacksGood (s : State) : Prop := ∀ m, stackGood (s.arm m).ctx.stack

/-! ### A stop that opens with a braking setpoint -/

/-- The arm unit `b`, in RUN with the braking setpoint of this event just made, in the fault stop that begins there with the
record `r`: HALTING, or SETTLING at once when that setpoint stands still (R56, R79, R82). -/
def ArmUnit.opensFaultStop (b : ArmUnit) (m : Arm) (r : FaultRec) : ArmUnit :=
  let still : Prop := b.last.step = Tri.zero
  { b with
    state := if still then .settling else .halting
    stopCause := some .fault
    ctx := { b.ctx with
      fault := some r, settleCount := if still then 0 else b.ctx.settleCount, settleTimer := if still then 0 else b.ctx.settleTimer }
    toWs := b.toWs ++ (.stateReport .halting :: if still then [.stateReport .settling] else [])
    raises := b.raises ++ [⟨m, .stateChange, .stateChange .run .halting⟩] }

/-- The same for a fault that makes no braking setpoint: the ramp begins at the next expiry (R79). -/
def ArmUnit.haltsOn (u : ArmUnit) (m : Arm) (r : FaultRec) : ArmUnit :=
  { u with
    state := .halting
    stopCause := some .fault
    ctx := { u.ctx with fault := some r }
    toWs := u.toWs ++ [.stateReport .halting]
    raises := u.raises ++ [⟨m, .stateChange, .stateChange .run .halting⟩] }

/-! ### Which event a block takes next: the premises of the certificates -/

/-- An arm unit takes an event next: none of its placements is outstanding and the event is the oldest that waits (R40). -/
abbrev State.armTakes (s : State) (m : Arm) (e : ArmEvent) (rest : List ArmEvent) : Prop :=
  (s.arm m).outstanding = none ∧ (s.arm m).arrivals = e :: rest

/-- An arm unit takes a verdict next. -/
abbrev State.verdictTakes (s : State) (m : Arm) (o : Outstanding) (v : Verdict) : Prop :=
  (s.arm m).outstanding = some o ∧ (s.arm m).verdict = some v

/-- The workspace unit takes a message of an arm unit next. -/
abbrev State.wsTakes (s : State) (m : Arm) (msg : ToWorkspace) (rest : List ToWorkspace) : Prop := (s.arm m).toWs = msg :: rest

/-- The workspace unit takes a request next. -/
abbrev State.wsTakesRequest (s : State) (m : Arm) (n : ReqName) (r : Request) (rest : List Request) : Prop :=
  s.ws.requests = r :: rest ∧ r.arm = m ∧ r.name = n

/-- The table unit takes a request next: no commit is outstanding (R30, R149). -/
abbrev State.tableTakes (s : State) (m : Arm) (n : ReqName) (r : Request) (rest : List TableEvent) : Prop :=
  s.table.outstanding = false ∧ s.table.arrivals = .request r :: rest ∧ r.arm = m ∧ r.name = n

/-- The report unit takes a request next. -/
abbrev State.reportTakes (s : State) (m : Arm) (n : ReqName) (r : Request) (rest : List Request) : Prop :=
  s.report.requests = r :: rest ∧ r.arm = m ∧ r.name = n

/-- All the laws together. -/
structure State.LawsHold (s : State) : Prop where
  arms : s.ArmsGood
  table : s.table.Good
  queue : s.QueueGood
  locks : s.LocksGood
  report : s.report.Good
  ticks : s.TicksGood
  envelopes : s.StacksGood

end Sys2Proof.Machine
end

