-- ==== Sys2Proof/Certificates/Slice0/Obligations.lean ====
section
/-! DEFINITION. The statements for the provers. Each docstring names the sections of spec/ it formalises; where a clause rests
on a choice of the model, the docstring names the log entry. -/

open Sys2Proof Sys2Proof.Machine

/-! ### Geometry (chapter 1) -/

/-- R6: the braking step; repeated braking steps reach 0 after ceil(|s|/d) of them and stay there. R58: a braking setpoint is
the last forwarded one moved by it on X, Y and Z under the placement geometry's deceleration, W unchanged, its sequence one more;
its forced placement is sent, its frame, with operation NONE, goes to the drive, and it is then the last forwarded one. -/
def Obligations.BrakingRule : Prop :=
  (∀ (d : Nat) (s : Int), d < s.natAbs → brakingStep d s = s - d * s.sign)
    ∧ (∀ (d : Nat) (s : Int), s.natAbs ≤ d → brakingStep d s = 0)
    ∧ (∀ (d : Nat) (s : Int) (k : Nat), 1 ≤ d → ((brakingStep d)^[k] s = 0 ↔ (s.natAbs + d - 1) / d ≤ k))
    ∧ ∀ (u : ArmUnit) (node : Node) (p : Pos),
      let step : Tri Int := ⟨brakingStep u.placeGeom.x.decel u.last.step.x, brakingStep u.placeGeom.y.decel u.last.step.y,
        brakingStep u.placeGeom.z.decel u.last.step.z⟩
      let q : Pos := ⟨p.xyz.add step, p.w⟩
      u.brake node p = { u with
        toWs := u.toWs ++ [.forced q.xyz p.xyz step u.placeGeom],
        handed := u.handed ++ [frame .setpoint node (u.last.seq + 1) (posOctets q ++ [0, 0, 0])],
        last := ⟨some q, step, u.last.seq + 1⟩ }

/-- R7: the braking reach satisfies its recursion and its closed form, is 0 for a step no longer than d, and does not
decrease as the step grows. -/
def Obligations.BrakingReachRule : Prop :=
  ∀ d : Nat, 1 ≤ d →
    (∀ s : Nat, s ≤ d → brakingReach d s = 0)
    ∧ (∀ s : Nat, d < s → brakingReach d s = ((s : Int) - d) + brakingReach d (s - d))
    ∧ (∀ (s : Nat) (n : Int), n = ((s + d - 1) / d : Nat) - 1 → brakingReach d s = n * s - d * (n * (n + 1) / 2))
    ∧ ∀ s t : Nat, s ≤ t → brakingReach d s ≤ brakingReach d t

/-- R4: a grid coordinate is the floor of sign·(q − origin) / pitch, and a point's grid box is its three coordinates, each an
interval of one unit; with the rule's own examples. -/
def Obligations.GridCoordinateRule : Prop :=
  (∀ (g : AxisGeom) (q : Int), 1 ≤ g.pitch →
      g.grid q * g.pitch ≤ g.sign.apply (q - g.origin) ∧ g.sign.apply (q - g.origin) < (g.grid q + 1) * g.pitch)
    ∧ (∀ (geom : Geometry) (p : Tri Int),
        pointBox geom p = ⟨⟨geom.x.grid p.x, geom.y.grid p.y, geom.z.grid p.z⟩, ⟨geom.x.grid p.x, geom.y.grid p.y, geom.z.grid p.z⟩⟩)
    ∧ (∀ q : Int, (⟨10000, .plus, 200, 1⟩ : AxisGeom).grid q = 0 ↔ 10000 ≤ q ∧ q ≤ 10199)
    ∧ (∀ q : Int, (⟨10000, .plus, 200, 1⟩ : AxisGeom).grid q = -1 ↔ 9800 ≤ q ∧ q ≤ 9999)
    ∧ (∀ q : Int, (⟨10000, .minus, 200, 1⟩ : AxisGeom).grid q = 0 ↔ 9801 ≤ q ∧ q ≤ 10000)
    ∧ (∀ q : Int, (⟨10000, .minus, 200, 1⟩ : AxisGeom).grid q = -1 ↔ 10001 ≤ q ∧ q ≤ 10200)

/-- R5: a count interval converts to exactly the grid units that contain a point of it, ordered whatever the sign. -/
def Obligations.CountIntervalRule : Prop :=
  ∀ (g : AxisGeom) (q1 q2 : Int), 1 ≤ g.pitch → q1 ≤ q2 →
    (g.sign = .plus → g.grid q1 ≤ g.grid q2) ∧ (g.sign = .minus → g.grid q2 ≤ g.grid q1)
    ∧ (g.gridInterval ⟨q1, q2⟩).lo = min (g.grid q1) (g.grid q2) ∧ (g.gridInterval ⟨q1, q2⟩).hi = max (g.grid q1) (g.grid q2)
    ∧ ∀ c : Int, (g.gridInterval ⟨q1, q2⟩).lo ≤ c ∧ c ≤ (g.gridInterval ⟨q1, q2⟩).hi ↔ ∃ q, q1 ≤ q ∧ q ≤ q2 ∧ g.grid q = c

/-- The grid limit changes neither which boxes inside the world a box meets, nor whether it leaves the world, and it preserves
containment (R2); braking boxes nest: the motion part and the reach box of the forced placement that follows a setpoint lie
within those of that setpoint (1.7, R19). What these boxes are: the motion box (R8), its growth by an envelope and the grid limit
(R2, R10), the envelope composed from profile and stack (R9), and the geometry a profile holds (R3). -/
def Obligations.BoxesNest : Prop :=
  (∀ (d : Nat) (p p0 s : Int),
      (0 < s → motionCounts d p p0 s = ⟨min p0 p, max p0 p + brakingReach d s.natAbs⟩)
      ∧ (s < 0 → motionCounts d p p0 s = ⟨min p0 p - brakingReach d s.natAbs, max p0 p⟩)
      ∧ (s = 0 → motionCounts d p p0 s = ⟨p, p⟩))
    ∧ (∀ (g : Geometry) (p p0 s : Tri Int),
      let x := g.x.gridInterval (motionCounts g.x.decel p.x p0.x s.x)
      let y := g.y.gridInterval (motionCounts g.y.decel p.y p0.y s.y)
      let z := g.z.gridInterval (motionCounts g.z.decel p.z p0.z s.z)
      motionBox g p p0 s = ⟨⟨x.lo, y.lo, z.lo⟩, ⟨x.hi, y.hi, z.hi⟩⟩)
    ∧ (∀ (b : Box) (e : Envelope), b.grow e = ⟨⟨b.lo.x - e.lateral, b.lo.y - e.lateral, b.lo.z - e.below⟩,
        ⟨b.hi.x + e.lateral, b.hi.y + e.lateral, b.hi.z + e.above⟩⟩)
    ∧ (∀ b : Box,
      let held (c : Int) : Int := if c < -1 then -1 else if 1024 < c then 1024 else c
      b.limit = ⟨⟨held b.lo.x, held b.lo.y, held b.lo.z⟩, ⟨held b.hi.x, held b.hi.y, held b.hi.z⟩⟩)
    ∧ (∀ (g : Geometry) (e : Envelope) (p p0 s : Tri Int), reachBox g e p p0 s = ((motionBox g p p0 s).grow e).limit)
    ∧ (∀ p : Profile, composeEnvelope p [] = ⟨p.baseLateral, p.baseBelow, p.baseAbove⟩
      ∧ ∀ (top : Margin) (rest : List Margin), composeEnvelope p (top :: rest)
        = ⟨p.baseLateral + top.lateral, p.baseBelow + top.below, p.baseAbove⟩)
    ∧ (∀ p : Profile, p.geometry = ⟨⟨p.origin.x, p.sign.x, p.pitch.x, p.decel.x⟩, ⟨p.origin.y, p.sign.y, p.pitch.y, p.decel.y⟩,
        ⟨p.origin.z, p.sign.z, p.pitch.z, p.decel.z⟩⟩)
    ∧ (∀ b c : Box, b.within c = true ↔ (c.lo.x ≤ b.lo.x ∧ b.hi.x ≤ c.hi.x) ∧ (c.lo.y ≤ b.lo.y ∧ b.hi.y ≤ c.hi.y)
        ∧ (c.lo.z ≤ b.lo.z ∧ b.hi.z ≤ c.hi.z))
    ∧ (∀ b c : Box, b.within c = true → b.limit.within c.limit = true)
    ∧ (∀ b z : Box, (outsideWorld z).firstAxis = none → z.ordered = true → z.meets b.limit = z.meets b)
    ∧ (∀ b : Box, outsideWorld b.limit = outsideWorld b)
    ∧ (∀ (b : Box) (ax : Axis), ((outsideWorld b).get ax = true ↔ b.lo.get ax < 0 ∨ 1023 < b.hi.get ax)
      ∧ ((outsideWorld b).firstAxis = none ↔ ∀ other : Axis, (outsideWorld b).get other = false))
    ∧ ∀ (g : Geometry) (e : Envelope) (p0 s : Tri Int),
      1 ≤ g.x.pitch → 1 ≤ g.y.pitch → 1 ≤ g.z.pitch → 1 ≤ g.x.decel → 1 ≤ g.y.decel → 1 ≤ g.z.decel →
        let p := p0.add s
        let s' : Tri Int := ⟨brakingStep g.x.decel s.x, brakingStep g.y.decel s.y, brakingStep g.z.decel s.z⟩
        (motionBox g (p.add s') p s').limit.within (motionBox g p p0 s).limit = true
          ∧ (reachBox g e (p.add s') p s').within (reachBox g e p p0 s) = true

/-- A box lies within a union of boxes exactly when each of its grid units lies in one of them (R1, R18), so TRESPASS is what
3.3 says it is (R50). -/
def Obligations.CoveredByUnits : Prop :=
  ∀ (b : Box) (cs : List Box), b.ordered = true → (∀ c ∈ cs, c.ordered = true) →
    (b.coveredBy cs = true ↔ ∀ p : Tri Int, b.has p = true → ∃ c ∈ cs, c.has p = true)

/-! ### The queue, time, start-up -/

/-- A step takes the command at the front of the queue and runs it on the rest. The queue is the model's own (log entry 1). -/
def Obligations.StepTakesFrontCommand : Prop :=
  ∀ (c : Instr) (s : State) (rest : List Instr), s.pending = c :: rest → step s = exec c { s with pending := rest }

/-- On an empty queue (all of this the model's choice, log entry 2) a port first takes what waits for it there, an opportunity
that stands before a cadence expiry (9.3 R159, 9.6 R167). With nothing waiting 125 µs pass: every eighth unit a lease tick is
delivered, and at the end of its period each arm's cadence expiry, to the arm unit and its two ports (1.2 R3, 4.2 R69, R159,
11.1 R178). Only the channels and the timebase change then. That an arm unit's copy of an expiry comes before a loss of lock that
a port reports at its own copy is log entry 37, which of a tick and an expiry comes first log entry 10. -/
def Obligations.IdleStepPassesTime : Prop :=
  (∀ s : State, s.pending = [] → s.resetN = true → s.portDuty = none →
    ∃ t, step s = .next t
      ∧ t.ws = { s.ws with ticksDue := s.ws.ticksDue + (if 7 ≤ s.timebase.units then 1 else 0) }
      ∧ t.report = { s.report with ticksDue := s.report.ticksDue + (if 7 ≤ s.timebase.units then 1 else 0) }
      ∧ t.timebase.units = (if 7 ≤ s.timebase.units then 0 else s.timebase.units + 1)
      ∧ (∀ m, t.port m = { s.port m with expiryDue := decide ((s.timebase.timers.get m).left ≤ 1) })
      ∧ (∀ m, t.drivePort m = { s.drivePort m with expiryDue := decide ((s.timebase.timers.get m).left ≤ 1) })
      ∧ (∀ m, ∃ new, t.arm m = { s.arm m with arrivals := (s.arm m).arrivals ++ new }
          ∧ new.Perm ((if 7 ≤ s.timebase.units then [.tick] else []) ++ (if (s.timebase.timers.get m).left ≤ 1 then [.expiry] else [])))
      ∧ (∀ m, 1 < (s.timebase.timers.get m).left →
          t.timebase.timers.get m = { s.timebase.timers.get m with left := (s.timebase.timers.get m).left - 1 })
      ∧ (∀ m, (s.timebase.timers.get m).left ≤ 1 → ∀ period, period = (s.timebase.timers.get m).next.getD (s.timebase.timers.get m).period →
          t.timebase.timers.get m = ⟨period, none, period⟩)
      ∧ t.table = s.table ∧ t.req = s.req ∧ t.node = s.node ∧ t.resetN = true ∧ t.pending = [])
    ∧ (∀ (s : State) (c : Instr), s.pending = [] → s.portDuty = some c → step s = exec c s)
    ∧ (∀ (s : State) (c : Instr), s.portDuty = some c
      ↔ ∃ m, s.armPortDuty m = some c ∧ (m = .armB → s.armPortDuty .armA = none))
    ∧ ∀ (s : State) (m : Arm),
      let idle : Prop := (s.port m).opportunity = .closed
      (s.armPortDuty m = some (.insertionOpportunity m) ↔ (s.port m).opportunity = .offered)
      ∧ (s.armPortDuty m = some (.noticeSelection m) ↔ (s.port m).opportunity = .asked)
      ∧ (s.armPortDuty m = some (.portCadenceExpiry .ctrl m) ↔ idle ∧ (s.port m).expiryDue = true)
      ∧ (s.armPortDuty m = some (.portCadenceExpiry .drive m)
        ↔ idle ∧ (s.port m).expiryDue = false ∧ (s.drivePort m).expiryDue = true)
      ∧ (s.armPortDuty m = none ↔ idle ∧ (s.port m).expiryDue = false ∧ (s.drivePort m).expiryDue = false)

/-- POWER_ON (12.6, R191, R192), from any state: every field of every block at the value its chapter gives after power-on (R3, R12,
R24, R38, R39, R52, R66, R67, R69, R83, R93, R94, R97, R108, R113, R114, R124, R129, R138, R144, R147, R159, R163, R166, R170, R175,
R178, R180), nothing on its way, the node sampled from the straps; FAULT released, STO asserted, IDLE frames sent with the node; the
first lease tick after 8 units of 125 µs and the first cadence expiries after a period of 8. That it is taken in any state and
keeps the queue is the model's choice (log entry 3). -/
def Obligations.PowerOnLeaves : Prop :=
  ∀ (straps : Node) (s : State),
    let profile : Profile :=
      { origin := ⟨0, 0, 0⟩, sign := ⟨.plus, .plus, .plus⟩, pitch := ⟨1, 1, 1⟩, decel := ⟨1, 1, 1⟩, stepCap := ⟨1, 1, 1⟩,
        baseLateral := 0, baseBelow := 0, baseAbove := 0, cadence := 8, missLimit := 1, softLimit := 1, feedbackLimit := 1,
        trackingLimit := 1048575, settleWindow := 65535, settleLimit := 64 }
    let axis : AxisGeom := ⟨0, .plus, 1, 1⟩
    let unlocked : LinkLock := { locked := false, good := 0, bad := 0, silent := 0 }
    let shadow : Bank := { header := ⟨⟨false, false⟩, 0⟩, entries := List.replicate 24 .empty, profiles := ⟨profile, profile⟩ }
    ∃ t, exec (.powerOn straps) s = .next t
      ∧ t.resetN = true ∧ t.node = straps ∧ t.pending = s.pending ∧ t.faultPin = false ∧ t.idleLine = some (idleFrame straps)
      ∧ (∀ m, t.stoPin m = true ∧ t.sentUp m = [] ∧ t.sentDown m = [] ∧ t.req.get m = ⟨none, none⟩
        ∧ t.arm m =
          { state := .sync, stopCause := none, sto := true,
            ctx := { mask := ⟨false, false, false, false, false, false⟩, stack := [], softSeen := false, fault := none, carried := none,
                     soft := 0, miss := 0, feedback := 0, settleCount := 0, settleTimer := 0 },
            slotFilled := false, expected := none, last := ⟨none, ⟨0, 0, 0⟩, 0⟩, lastActual := none, feedbackSeen := false,
            substituted := false, outstanding := none, work := profile, placeGeom := ⟨axis, axis, axis⟩, bankKnown := false,
            present := false, newProfile := none, tickCopy := 0, ctrlLocked := false, driveLocked := false, awaitFeedback := false,
            arrivals := [], verdict := none, toWs := [], raises := [], handed := [] }
        ∧ t.port m =
          { lock := unlocked, buffer := .empty, fifo := [], insertCount := 0, forwarded := false, handed := [], opportunity := .closed,
            expiryDue := false, toWs := [], raises := [] }
        ∧ t.drivePort m = { lock := unlocked, node := none, expiryDue := false, raises := [] }
        ∧ (t.report.flagsOf m).length = 24 ∧ (∀ f ∈ t.report.flagsOf m, f = ⟨false, false, 0, none, none⟩)
        ∧ t.timebase.timers.get m = ⟨8, none, 8⟩)
      ∧ t.ws =
        { active := none, records := ⟨.unknown, .unknown⟩, cells := none, queue := [], outcomeCount := ⟨0, 0⟩, tick := 0, scan := 0,
          reported := ⟨.sync, .sync⟩, headerPresent := ⟨false, false⟩, ticksDue := 0, requests := [], toPort := ⟨[], []⟩, raises := [] }
      ∧ t.table =
        { shadow := shadow, digest := digestOf shadow, result := .passed, agreement := ⟨none, none⟩, outstanding := false,
          ctrlLocked := ⟨false, false⟩, arrivals := [], completion := none, toWs := [], raises := [] }
      ∧ t.report.tick = 0 ∧ t.report.ticksDue = 0 ∧ t.report.requests = [] ∧ t.report.settings.length = 24
      ∧ (∀ k : Nat, k < 24 → t.report.settings[k]? = some
        (if k ≤ 2 ∨ (9 ≤ k ∧ k ≤ 13) then ⟨true, 7⟩ else if 3 ≤ k ∧ k ≤ 8 then ⟨true, 6⟩
          else if k = 14 ∨ k = 15 ∨ k = 21 ∨ k = 22 then ⟨true, 4⟩ else ⟨false, 1⟩))
      ∧ t.timebase.units = 0

/-- RESET_ASSERT (12.6, R191): both STO lines and FAULT asserted, every transmitter silent, nothing on its way in any block, and
until the rise no other command and no time changes anything. What the blocks hold meanwhile is the model's choice (log entry 4).
That the queue of waiting commands is kept is log entry 3. -/
def Obligations.ResetAssertHolds : Prop :=
  ∀ s : State, ∃ t, exec .resetAssert s = .next t
    ∧ t.resetN = false ∧ t.faultPin = true ∧ t.idleLine = none ∧ t.pending = s.pending
    ∧ (∀ m, t.stoPin m = true ∧ t.sentUp m = [] ∧ t.sentDown m = []
        ∧ (t.arm m).arrivals = [] ∧ (t.arm m).outstanding = none ∧ (t.arm m).verdict = none ∧ (t.arm m).toWs = [] ∧ (t.arm m).newProfile = none
        ∧ (t.port m).buffer = .empty ∧ (t.port m).fifo = [] ∧ (t.port m).opportunity = .closed ∧ (t.port m).toWs = []
        ∧ t.ws.toPort.get m = [] ∧ t.req.get m = ⟨none, none⟩ ∧ ∀ side, t.expiryDue side m = false)
    ∧ (∀ b : Block, t.raisesOf b = [])
    ∧ t.ws.requests = [] ∧ t.ws.queue = [] ∧ t.ws.ticksDue = 0
    ∧ t.table.arrivals = [] ∧ t.table.toWs = [] ∧ t.table.completion = none ∧ t.table.outstanding = false
    ∧ t.report.requests = [] ∧ t.report.ticksDue = 0
    ∧ (∀ c : Instr, (∀ straps : Node, c ≠ .powerOn straps) → exec c t = .next t)
    ∧ step { t with pending := [] } = .next { t with pending := [] }

/-- Every law of the monitor holds right after reset, and after every POWER_ON. -/
def Obligations.LawsHoldAtReset : Prop :=
  State.reset.LawsHold ∧ ∀ (straps : Node) (draws : Nat) (pending : List Instr), (State.powerOn true straps draws pending).LawsHold

/-! ### The laws every step keeps -/

/-- A step keeps the laws of the arm units and of their box records: STO by state (R67), the stop cause (R66), the pending
and the carried fault (R69, R90), the outstanding placement and what is on its way for it (R13, R40, R46). That "also" never holds
the record's own kind, of a pending or a carried fault, is the model's reading (log entry 26). -/
def Obligations.StepKeepsArmLaws : Prop := ∀ s t : State, s.ArmsGood → step s = .next t → t.ArmsGood

/-- In a state that keeps the laws of the arm units no command stops with a fault or a refusal: each answers a next state. What
the model does in other states is log entry 7. -/
def Obligations.NoCommandStops : Prop := ∀ (c : Instr) (s : State), s.ArmsGood → ∃ t, exec c s = .next t

/-- A step keeps the table unit's law (8.1, R144; R34, R35): the digest and the validation result are those of the shadow as it
stands, and a record that holds a digest holds that digest, of a shadow that passes. What the two are is in ShadowWriteRule. -/
def Obligations.StepKeepsTableLaw : Prop :=
  (∀ s t : State, s.table.Good → step s = .next t → t.table.Good)
    ∧ ∀ u : TableUnit, u.Good ↔ u.digest = digestOf u.shadow ∧ u.result = validate u.shadow
      ∧ ∀ m d, u.agreement.get m = some d → d = u.digest ∧ u.result = .passed

/-- A step keeps the laws of the cell table, the claim queue, the quota and the outcome FIFOs (R92, R93, R113 to R115). -/
def Obligations.StepKeepsQueueLaws : Prop := ∀ s t : State, s.QueueGood → step s = .next t → t.QueueGood

/-- A step keeps the ranges of every port's lock counts (9.3, R159), the form of the flags and settings (R178 to R181), and
every envelope stack between 0 and 8 entries of margins 0 to 63 (R129). -/
def Obligations.StepKeepsRanges : Prop :=
  ∀ s t : State, step s = .next t →
    (s.LocksGood → t.LocksGood) ∧ (s.report.Good → t.report.Good) ∧ (s.StacksGood → t.StacksGood)

/-- A step keeps the four tick counts together (R69, R94, R178). -/
def Obligations.StepKeepsTickCounts : Prop := ∀ s t : State, s.TicksGood → step s = .next t → t.TicksGood

/-! ### The ports (chapter 9, 10.1, 10.5) -/

/-- R157, R158 (and the noise test of R156): the three tests in their order, on the octets as received, and the acceptance
table, outside which every frame is KIND_ERROR. That a delimiter with no octet after it is noise is the model's choice (log entry
29). -/
def Obligations.FrameTests : Prop :=
  (∀ f : RxFrame, isNoise f = true ↔ ∀ o ∈ f.octets.head?, o.extractLsb' 4 4 ≠ 5#4)
    ∧ ∀ (side : Side) (monitor : Node) (f : RxFrame),
      let kind := (f.octets.getD 0 0).toNat % 16
      let node : Node := (f.octets.getD 1 0).setWidth 4
      let len := (f.octets.getD 3 0).toNat
      let ends := f.ended = true ∧ len ≤ 64 ∧ f.octets.length = len + 6
      let checks := f.octets.drop (len + 4) = octets16 (check (f.octets.take (len + 4)))
      let accepted := kind = 0 ∨ (side = .ctrl ∧ kind = 1 ∧ node ≠ monitor ∧ len = 19)
        ∨ (side = .drive ∧ kind = 2 ∧ node ≠ monitor ∧ len = 18) ∨ (kind = 3 ∧ node ≠ monitor)
        ∨ (side = .ctrl ∧ kind = 4 ∧ node = monitor)
      (frameFailure side monitor f = some .endError ↔ ¬ends)
        ∧ (frameFailure side monitor f = some .checkError ↔ ends ∧ ¬checks)
        ∧ (frameFailure side monitor f = some .kindError ↔ ends ∧ checks ∧ ¬accepted)
        ∧ (frameFailure side monitor f = none ↔ ends ∧ checks ∧ accepted)

/-- FRAME_ARRIVAL (R156, R157, R161, R163, R170): noise and a frame in reset change nothing; a discarded frame counts against
lock and raises FRAME_ERROR; a well-formed frame counts toward lock and is routed by its kind. The node in the detail of a frame
cut before it is free (log entry 9); counting before routing is the model's choice (log entry 16). A short head reads 0 (log
entry 24); what a received frame is, is log entry 29. A cadence expiry delivered before the frame is taken before it (R159). -/
def Obligations.FrameArrivals : Prop :=
  ∀ (side : Side) (m : Arm) (f : RxFrame) (s : State),
    let s0 := s.settleExpiry side m
    let l := s0.lockOf side m
    let seq : SeqNo := f.octets.getD 2 0
    let run := exec (.frameArrival side m f) s
    rxKind f = (f.octets.getD 0 0).toNat % 16
    ∧ rxNode f = f.octets[1]?.map (BitVec.setWidth 4)
    ∧ (∀ (t : State) (k : EventKind) (d : Detail),
      t.portRaise .ctrl m k d = t.setPort m { t.port m with raises := (t.port m).raises ++ [⟨m, k, d⟩] }
        ∧ t.portRaise .drive m k d = t.setDrivePort m { t.drivePort m with raises := (t.drivePort m).raises ++ [⟨m, k, d⟩] })
    ∧ (∀ (t : State) (e : ArmEvent), t.toArm m e = t.setArm m { t.arm m with arrivals := (t.arm m).arrivals ++ [e] })
    ∧ ((s.resetN = false ∨ isNoise f = true) → run = .next s)
    ∧ (s.resetN = true → isNoise f = false →
      (∀ (c : FrameCause) (n : Node), frameFailure side s.node f = some c → rxNode f = some n →
        run = .next ((s0.putLock side m l.discarded).portRaise side m .frameError (.frameError side c (rxKind f) n)))
      ∧ (∀ c : FrameCause, frameFailure side s.node f = some c → rxNode f = none →
        ∃ n : Node, run = .next (({ s0.putLock side m l.discarded with draws := s.draws + 1 } : State).portRaise side m .frameError
          (.frameError side c (rxKind f) n)))
      ∧ (∀ n : Node, frameFailure side s.node f = none → rxNode f = some n →
        let u := s0.putLock side m l.wellFormed
        let payload := (f.octets.drop 4).take (f.octets.getD 3 0).toNat
        (rxKind f = 0 → run = .next u)
        ∧ (side = .ctrl → rxKind f = 1 → run = .next (u.toArm m (.setpoint (readSetpoint f.octets))))
        ∧ (side = .ctrl → rxKind f = 3 → run = .next (u.toArm m (.param f.octets seq)))
        ∧ (side = .ctrl → rxKind f = 4 → (s0.port m).buffer = .empty →
          let t := u.setPort m { u.port m with buffer := .awaiting }
          run = .next { t with req := u.req.set m { u.req.get m with incoming := some payload } })
        ∧ (side = .ctrl → rxKind f = 4 → (s0.port m).buffer ≠ .empty →
          run = .next (u.setPort m { u.port m with
            raises := (u.port m).raises ++ [⟨m, .requestOverrun, .overrun (payload.getD 0 0) (payload.getD 1 0)⟩] }))
        ∧ (side = .drive → rxKind f = 2 →
          run = .next ((u.setDrivePort m { u.drivePort m with node := some n }).toArm m (.feedback (readFeedback f.octets))))
        ∧ (side = .drive → rxKind f = 3 →
          run = .next ((u.setDrivePort m { u.drivePort m with node := some n }).forwardUp m f.octets))))

/-- Lock (R159, R160) and the quiet test (R167): what a well-formed frame, a discarded frame and a cadence expiry do to the
counts; the report of a change to the arm unit and the table unit; PORT_CADENCE_EXPIRY, and LOCK_LOSS_SILENCE as the expiry
that brings the silent periods to 16 (log entry 5). A copy that waits is taken before a later frame of the port, and a frame
forwarded upward gives an opportunity directly after it, what stood before it having been taken (R159, R167; log entry 15). A loss
of lock at an expiry is reported behind the arm unit's own copy of it (log entry 37). -/
def Obligations.PortLockRule : Prop :=
  (∀ l : LinkLock, l.wellFormed = if l.locked then ⟨true, l.good, 0, 0⟩
      else if l.good + 1 < 8 then ⟨false, l.good + 1, 0, 0⟩ else ⟨true, 0, 0, 0⟩)
    ∧ (∀ l : LinkLock, l.discarded = if l.locked then (if l.bad + 1 < 4 then ⟨true, 0, l.bad + 1, l.silent⟩ else ⟨false, 0, 0, 0⟩)
      else ⟨false, 0, l.bad, l.silent⟩)
    ∧ (∀ l : LinkLock, l.expiry = if l.locked then (if l.silent + 1 < 16 then { l with silent := l.silent + 1 }
      else ⟨false, l.good, 0, 0⟩) else l)
    ∧ (∀ (m : Arm) (s : State) (l : LinkLock), (s.port m).lock.locked = l.locked →
      s.putLock .ctrl m l = s.setPort m { s.port m with lock := l })
    ∧ (∀ (m : Arm) (s : State) (l : LinkLock), (s.drivePort m).lock.locked = l.locked →
      s.putLock .drive m l = s.setDrivePort m { s.drivePort m with lock := l })
    ∧ (∀ (m : Arm) (s : State) (l : LinkLock), (s.port m).lock.locked ≠ l.locked →
      s.putLock .ctrl m l = ((s.setPort m { s.port m with lock := l }).setArm m
        { s.arm m with arrivals := (s.arm m).arrivals ++ [.lock .ctrl l.locked] }).setTable
        { s.table with arrivals := s.table.arrivals ++ [.lock .ctrl m l.locked] })
    ∧ (∀ (m : Arm) (s : State) (l : LinkLock), (s.drivePort m).lock.locked ≠ l.locked →
      s.putLock .drive m l = ((s.setDrivePort m { s.drivePort m with lock := l }).setArm m
        { s.arm m with arrivals := (s.arm m).arrivals ++ [.lock .drive l.locked] }).setTable
        { s.table with arrivals := s.table.arrivals ++ [.lock .drive m l.locked] })
    ∧ (∀ (m : Arm) (s : State), (s.port m).expiryDue = true →
      let p := s.port m
      let c := s.closeOpportunity m
      let t := if p.forwarded then s.setPort m { p with expiryDue := false, forwarded := false }
        else c.setPort m { c.port m with expiryDue := false, opportunity := .offered }
      exec (.portCadenceExpiry .ctrl m) s = .next (t.putLock .ctrl m p.lock.expiry)
        ∧ s.settleExpiry .ctrl m = t.putLock .ctrl m p.lock.expiry
        ∧ (p.lock.locked = true → 15 ≤ p.lock.silent →
          exec (.lockLossSilence .ctrl m) s = .next (t.putLock .ctrl m ⟨false, p.lock.good, 0, 0⟩)))
    ∧ (∀ (m : Arm) (s : State), (s.drivePort m).expiryDue = true →
      let d := s.drivePort m
      let t := s.setDrivePort m { d with expiryDue := false }
      exec (.portCadenceExpiry .drive m) s = .next (t.putLock .drive m d.lock.expiry)
        ∧ s.settleExpiry .drive m = t.putLock .drive m d.lock.expiry
        ∧ (d.lock.locked = true → 15 ≤ d.lock.silent →
          exec (.lockLossSilence .drive m) s = .next (t.putLock .drive m ⟨false, d.lock.good, 0, 0⟩)))
    ∧ (∀ (side : Side) (m : Arm) (s : State), s.expiryDue side m = false → s.settleExpiry side m = s)
    ∧ ∀ (m : Arm) (s : State) (os : List Octet),
      let t := (s.settleExpiry .ctrl m).closeOpportunity m
      s.forwardUp m os
        = t.setPort m { t.port m with handed := (t.port m).handed ++ [os], forwarded := true, opportunity := .offered }

/-- A frame the monitor makes (R155, R166, R186) passes the end and check tests of R157, is no noise, and reads back as the
kind, node, sequence and payload it was made of; a setpoint the monitor makes reads back as its position with operation NONE
(R58, R187). The octets of a frame (R155, R186), the octet places of a SETPOINT and a FEEDBACK as received, and the octets of a
position (R186, R187). -/
def Obligations.MonitorFramesReadBack : Prop :=
  (∀ os : List Octet,
      let count (i : Nat) : Int := (os.getD i 0 ++ os.getD (i + 1) 0 ++ os.getD (i + 2) 0 ++ os.getD (i + 3) 0 : BitVec 32).toInt
      readSetpoint os = ⟨os, os.getD 2 0, ⟨⟨count 4, count 8, count 12⟩, count 16⟩, os.getD 20 0, os.getD 21 0, os.getD 22 0⟩
        ∧ readFeedback os = ⟨(os.getD 1 0).setWidth 4, os.getD 2 0, (os.drop 4).take 18, os.getD 4 0,
          ⟨⟨count 5, count 9, count 13⟩, count 17⟩, os.getD 21 0⟩)
    ∧ (∀ p : Pos, (∀ q ∈ [p.xyz.x, p.xyz.y, p.xyz.z, p.w], -2147483648 ≤ q ∧ q ≤ 2147483647) →
      posOctets p = [p.xyz.x, p.xyz.y, p.xyz.z, p.w].flatMap fun q => octets32 (BitVec.ofInt 32 q))
    ∧ (∀ (k : FrameKind) (node : Node) (seq : SeqNo) (payload : List Octet),
      let body := [octet (80 + k.code), node.setWidth 8, seq, octet payload.length] ++ payload
      frame k node seq payload = body ++ octets16 (check body))
    ∧ [FrameKind.idle, .setpoint, .feedback, .param, .request, .answer, .outcome, .notice].map FrameKind.code = List.range 8
    ∧ (∀ v : BitVec 32, octets32 v = [v.extractLsb' 24 8, v.extractLsb' 16 8, v.extractLsb' 8 8, v.extractLsb' 0 8])
    ∧ (∀ v : BitVec 16, octets16 v = [v.extractLsb' 8 8, v.extractLsb' 0 8])
    ∧ (∀ (k : FrameKind) (node : Node) (seq : SeqNo) (payload : List Octet), payload.length ≤ 64 →
      let f : RxFrame := ⟨frame k node seq payload, true⟩
      isNoise f = false ∧ rxEndGood f = true ∧ rxCheckGood f = true ∧ rxKind f = k.code ∧ rxNode f = some node
        ∧ f.octets.getD 2 0 = seq ∧ rxLength f = payload.length ∧ rxPayload f = payload)
    ∧ ∀ (node : Node) (seq : SeqNo) (p : Pos),
      (∀ q ∈ [p.xyz.x, p.xyz.y, p.xyz.z, p.w], -2147483648 ≤ q ∧ q ≤ 2147483647) →
        readSetpoint (setpointFrame node seq p) = ⟨setpointFrame node seq p, seq, p, 0, 0, 0⟩

/-- REQUEST_DECODE (R171) and ANSWER_PLACE (R173). A short head, an unknown code and a wrong argument length are answered by the
request unit; every other request goes to its owning block, behind what waits there. Those three at once (log entry
23). The codes and argument lengths are the table of R188. -/
def Obligations.DecodingAndPlacing : Prop :=
  (let table : List (Octet × ReqName × Nat) := [
        (0x01, .armEnable, 0), (0x02, .armHalt, 0), (0x03, .armCut, 0), (0x04, .armClear, 0), (0x05, .armReset, 0),
        (0x06, .armStatus, 0), (0x10, .envelopePush, 2), (0x11, .envelopePop, 0), (0x12, .maskSet, 2), (0x13, .contextSave, 0),
        (0x14, .contextLoad, 38), (0x20, .claim, 6), (0x21, .renew, 4), (0x22, .release, 3), (0x23, .cancel, 1),
        (0x24, .cellRead, 1), (0x30, .tableWrite, 20), (0x31, .headerWrite, 4), (0x32, .profileWrite, 47), (0x33, .tableRead, 2),
        (0x34, .digestRead, 0), (0x35, .tablesReset, 0), (0x36, .agree, 2), (0x37, .agreeWithdraw, 0), (0x40, .eventsRead, 0),
        (0x41, .eventsClear, 4), (0x42, .noticeSet, 3)]
   (∀ x ∈ table, ReqName.ofCode x.1 = some x.2.1 ∧ x.2.1.argLength = x.2.2)
        ∧ ∀ c : Octet, (∀ x ∈ table, x.1 ≠ c) → ReqName.ofCode c = none)
    ∧ (∀ (m : Arm) (s : State) (payload : List Octet), (s.req.get m).incoming = some payload →
      let t : State := { s with req := s.req.set m { s.req.get m with incoming := none } }
      let head : ReqHead := ⟨payload.getD 0 0, payload.getD 1 0⟩
      let refuse (why : Reason) (data : List Octet) : Host.Outcome State Fault Refusal :=
        .next (t.setPort m { t.port m with buffer := .holding ⟨head, .refused, some why, data⟩ 0 })
      let run := exec (.requestDecode m) s
      (payload.length < 2 → run = refuse .unknownRequest [])
      ∧ (2 ≤ payload.length → ReqName.ofCode head.code = none → run = refuse .unknownRequest [])
      ∧ ∀ n : ReqName, 2 ≤ payload.length → ReqName.ofCode head.code = some n →
        let args := payload.drop 2
        let r : Request := ⟨m, n, head, args⟩
        (args.length ≠ n.argLength → run = refuse .range [octet n.argLength])
        ∧ (args.length = n.argLength →
          (ownerOf n args = .armUnit → run = .next (t.setArm m { t.arm m with arrivals := (t.arm m).arrivals ++ [.request r] }))
          ∧ (ownerOf n args = .workspace → run = .next (t.setWs { t.ws with requests := t.ws.requests ++ [r] }))
          ∧ (ownerOf n args = .table → run = .next (t.setTable { t.table with arrivals := t.table.arrivals ++ [.request r] }))
          ∧ (ownerOf n args = .report → run = .next (t.setReport { t.report with requests := t.report.requests ++ [r] }))))
    ∧ (∀ args : List Octet, (ownerOf .tableRead args = .workspace ↔ args.getD 0 0 = 0)
        ∧ (ownerOf .tableRead args = .table ↔ args.getD 0 0 ≠ 0)
        ∧ (∀ n ∈ [ReqName.armEnable, .armHalt, .armCut, .armClear, .armReset, .armStatus, .envelopePush, .envelopePop, .maskSet,
          .contextSave, .contextLoad], ownerOf n args = .armUnit)
        ∧ (∀ n ∈ [ReqName.claim, .renew, .release, .cancel, .cellRead], ownerOf n args = .workspace)
        ∧ (∀ n ∈ [ReqName.tableWrite, .headerWrite, .profileWrite, .digestRead, .tablesReset, .agree, .agreeWithdraw],
          ownerOf n args = .table)
        ∧ (∀ n ∈ [ReqName.eventsRead, .eventsClear, .noticeSet], ownerOf n args = .report))
    ∧ (∀ (m : Arm) (s : State) (ans : Answer),
      s.answer m ans = { s with req := s.req.set m { s.req.get m with answer := some ans } })
    ∧ ∀ (m : Arm) (s : State) (ans : Answer), (s.req.get m).answer = some ans →
      let t : State := { s with req := s.req.set m { s.req.get m with answer := none } }
      exec (.answerPlace m) s = .next (t.setPort m { t.port m with buffer := .holding ans 0 })

/-- INSERTION_OPPORTUNITY (R166, R168, R189): an answer's next part goes first, then the oldest outcome, else the report unit is
asked; the inserted frame comes directly behind what was handed over before it, and the insert count rises. An opportunity that
stands is taken to its end before a later one or a later frame (R167; log entry 15): arbitrated, and with the report unit's choice
where that is asked. Each part of an answer carries its head, status, reason and part octet, and the parts carry its data whole.
That this holds for a long RENEW answer too is log entry 25. -/
def Obligations.InsertionArbitration : Prop :=
  (∀ (m : Arm) (s : State), (s.port m).opportunity = .offered →
      let p := s.port m
      let run := exec (.insertionOpportunity m) s
      (∀ (ans : Answer) (part : Nat), p.buffer = .holding ans part →
        run = .next (s.setPort m { p with
          handed := p.handed ++ [frame .answer s.node p.insertCount (ans.payload part)], insertCount := p.insertCount + 1,
          opportunity := .closed, buffer := if ans.data.length ≤ 59 * (part + 1) then .empty else .holding ans (part + 1) }))
      ∧ (∀ (o : ClaimOutcome) (os : List ClaimOutcome), p.buffer = .empty ∨ p.buffer = .awaiting → p.fifo = o :: os →
        run = .next (s.setPort m { p with
          handed := p.handed ++ [frame .outcome s.node p.insertCount
            [o.tag, o.result.code, octet o.run.bay, octet o.run.first, octet o.run.length]],
          insertCount := p.insertCount + 1, opportunity := .closed, fifo := os, toWs := p.toWs ++ [.sent] }))
      ∧ (p.buffer = .empty ∨ p.buffer = .awaiting → p.fifo = [] → run = .next (s.setPort m { p with opportunity := .asked })))
    ∧ (∀ (m : Arm) (s t : State),
      ((s.port m).opportunity = .closed → s.closeOpportunity m = s)
      ∧ ((s.port m).opportunity = .asked → exec (.noticeSelection m) s = .next (s.closeOpportunity m))
      ∧ ((s.port m).opportunity = .offered → exec (.insertionOpportunity m) s = .next t →
        ((t.port m).opportunity = .closed ∧ s.closeOpportunity m = t)
          ∨ ((t.port m).opportunity = .asked ∧ exec (.noticeSelection m) t = .next (s.closeOpportunity m))))
    ∧ [AnswerStatus.ok, .queued, .refused].map AnswerStatus.code = [0, 1, 2]
    ∧ [ClaimResult.granted, .waitExpired, .cancelled].map ClaimResult.code = [0, 1, 2]
    ∧ [Reason.state, .range, .noBank, .noBin, .absent, .busy, .queueFull, .quota, .duplicate, .notHeld, .lapsed, .inUse, .notFound,
      .invalid, .mismatch, .illegal, .faultPending, .stack, .unknownRequest].map Reason.code
        = [1, 2, 3, 4, 5, 6, 8, 9, 10, 11, 12, 13, 14, 15, 16, 17, 18, 19, 20]
    ∧ (∀ (ans : Answer) (part : Nat), part < 16 → (ans.payload part).take 5
        = [ans.head.code, ans.head.tag, ans.status.code, (ans.reason.map Reason.code).getD 0,
          octet (part + if ans.data.length ≤ 59 * (part + 1) then 128 else 0)])
    ∧ ∀ (ans : Answer) (last : Nat), ans.data.length ≤ 59 * (last + 1) →
      ((List.range (last + 1)).flatMap fun i => (ans.payload i).drop 5) = ans.data

/-- NOTICE_SELECTION (R180, R182): of the port's eligible flags the one of highest priority, and of those the lowest kind number,
is sent as a NOTICE and marked noticed; with none eligible the opportunity passes. The octets of a NOTICE, with the numbers of the
event kinds (R177) and the octets of each detail (11.2, R188; log entries 13 and 14). How an opportunity stands in the state is
log entry 15. -/
def Obligations.NoticeSelectionRule : Prop :=
  (∀ (m : Arm) (s : State), (s.port m).opportunity = .asked →
      let p := s.port m
      (∀ k : Nat, s.report.choose m = some k →
        let f := s.report.flag m k
        exec (.noticeSelection m) s = .next ((s.setReport { s.report with
            flags := s.report.flags.set m ((s.report.flagsOf m).set k { f with noticed := true }) }).setPort m { p with
            handed := p.handed ++ [frame .notice s.node p.insertCount (noticePayload m k f)],
            insertCount := p.insertCount + 1, opportunity := .closed }))
      ∧ (s.report.choose m = none → exec (.noticeSelection m) s = .next (s.setPort m { p with opportunity := .closed })))
    ∧ [EventKind.range, .forbidden, .proximity, .trespass, .speed, .sequence, .tracking, .feedbackLoss, .stack, .frameLoss, .softLimit,
      .settleTimeout, .driveFault, .linkLoss, .stateChange, .leaseLapsed, .frameError, .setpointEarly, .requestOverrun, .passRefused,
      .feedbackStale, .commitDone, .commitRefused, .agreementDropped].map EventKind.code = List.range 24
    ∧ (∀ (m : Arm) (k : Nat) (f : Flag) (d : Detail) (tick : Tick), f.detail = some d → f.tick = some tick →
      noticePayload m k f = [octet k, if m = .armA then 0 else 1, octet f.occurrences] ++ octets32 tick
        ++ [octet (detailOctets d).length] ++ detailOctets d)
    ∧ (∀ (q q' : SeqNo) (axis : Option Axis) (n n' n'' : Nat) (side : Side) (st st' : ArmState) (tick : Tick) (node : Node)
      (o o' : Octet) (g g' : Digest) (changed : Bool) (c : FrameCause),
      let port (x : Side) : Octet := if x = .ctrl then 1 else 2
      detailOctets (.seqAxis q axis) = [q, axisCode axis]
        ∧ detailOctets (.seqOnly q) = [q]
        ∧ detailOctets (.seqPair q q') = [q, q']
        ∧ detailOctets (.settleTimeout q n) = [q, octet n]
        ∧ detailOctets (.linkLoss side st) = [port side, octet st.code]
        ∧ detailOctets (.stateChange st st') = [octet st.code, octet st'.code]
        ∧ detailOctets (.leaseLapsed n n' n'' tick) = [octet n, octet n', octet n''] ++ octets32 tick
        ∧ detailOctets (.frameError side c n node) = [port side, c.code, octet n, node.setWidth 8]
        ∧ detailOctets (.overrun o o') = [o, o']
        ∧ detailOctets (.passRefused st q) = [octet st.code, q]
        ∧ detailOctets (.commitDone n g g' changed)
          = octets16 (BitVec.ofNat 16 n) ++ octets16 g ++ octets16 g' ++ [if changed then 1 else 0])
    ∧ (∀ (d : StackDetail) (c : DropCause) (g : Digest) (port : Option Side),
      detailOctets (.stack d) = [d.source.code, d.case.code, octet d.depth]
          ++ d.margin.elim [0, 0, 0] (fun x => [1, octet x.lateral, octet x.below]) ++ d.seq.elim [0, 0] (fun q => [1, q])
        ∧ detailOctets (.dropped c g port)
          = [c.code] ++ octets16 g ++ port.elim [0, 0] (fun x => [1, if x = .ctrl then 1 else 2]))
    ∧ (∀ (g : Digest) (cell : Nat) (a : Arm) (k : FaultKind),
      let arm : Octet := if a = .armA then 0 else 1
      detailOctets (.commitRefused (.leasesHeld cell a) g) = [0, 0, 0, 0, 0, 1, octet cell, 1, arm] ++ octets16 g
        ∧ detailOctets (.commitRefused (.illegalBox a k) g) = [1, 1, arm, 1, octet k.code, 0, 0, 0, 0] ++ octets16 g
        ∧ detailOctets (.commitRefused (.armActive a) g) = [2, 1, arm, 0, 0, 0, 0, 0, 0] ++ octets16 g)
    ∧ [StackSource.frame, .request].map StackSource.code = [0, 1]
    ∧ [StackCase.overflow, .underflow, .badOp].map StackCase.code = [0, 1, 2]
    ∧ [FrameCause.endError, .checkError, .kindError].map FrameCause.code = [0, 1, 2]
    ∧ [DropCause.write, .tablesReset, .lock].map DropCause.code = [0, 1, 2]
    ∧ ∀ (r : ReportUnit) (m : Arm),
      let waits (k : Nat) (priority : Nat) : Prop := ∃ f n, (r.flagsOf m)[k]? = some f ∧ r.settings[k]? = some n
        ∧ f.set = true ∧ n.enable = true ∧ f.noticed = false ∧ n.priority = priority
      (r.choose m = none ↔ ∀ k q, ¬waits k q)
        ∧ ∀ k : Nat, r.choose m = some k ↔ ∃ q, waits k q ∧ ∀ k' q', waits k' q' → q' < q ∨ (q' = q ∧ k ≤ k')

/-- OUTCOME_HANDOVER (R124), OUTCOME_DISCARD (R126), SENT_REPORT (R125) and DISCARD_REPORT (R114): the FIFO of the port and the
outcome count of the workspace unit. To take all that was sent (R103, R126) is to take each of it so, in order. When what was sent
is taken is log entry 6. -/
def Obligations.OutcomesAndReports : Prop :=
  ∀ (m : Arm) (s : State),
    (∀ (o : ClaimOutcome) (rest : List ToPort), s.ws.toPort.get m = .outcome o :: rest →
      exec (.outcomeHandover m) s
        = .next ((s.setWs { s.ws with toPort := s.ws.toPort.set m rest }).setPort m { s.port m with fifo := (s.port m).fifo ++ [o] }))
    ∧ (∀ rest : List ToPort, s.ws.toPort.get m = .discard :: rest →
      exec (.outcomeDiscard m) s = .next ((s.setWs { s.ws with toPort := s.ws.toPort.set m rest }).setPort m
        { s.port m with fifo := [], toWs := (s.port m).toWs ++ [.discarded (s.port m).fifo.length] }))
    ∧ (∀ rest : List PortReport, (s.port m).toWs = .sent :: rest →
      exec (.sentReport m) s = .next ((s.setPort m { s.port m with toWs := rest }).setWs
        { s.ws with outcomeCount := s.ws.outcomeCount.set m (s.ws.outcomeCount.get m - 1) }))
    ∧ (s.ws.toPort.get m = [] → s.takeAllFromWs m = s)
    ∧ (∀ (o : ClaimOutcome) (rest : List ToPort) (t : State), s.ws.toPort.get m = .outcome o :: rest →
      exec (.outcomeHandover m) s = .next t → s.takeAllFromWs m = t.takeAllFromWs m)
    ∧ (∀ (rest : List ToPort) (t : State), s.ws.toPort.get m = .discard :: rest →
      exec (.outcomeDiscard m) s = .next t → s.takeAllFromWs m = t.takeAllFromWs m)
    ∧ ∀ (n : Nat) (rest : List PortReport), (s.port m).toWs = .discarded n :: rest →
      exec (.discardReport m) s = .next ((s.setPort m { s.port m with toWs := rest }).setWs
        { s.ws with outcomeCount := s.ws.outcomeCount.set m (s.ws.outcomeCount.get m - n) })

/-! ### Setpoints (chapter 3) -/

/-- SETPOINT_ARRIVAL (R41 to R45): discarded outside RUN; SETPOINT_EARLY with the slot FILLED; else the slot is FILLED, the
expected sequence follows the frame's, the frame's envelope operation is applied, and the frame is hard at stage 3 or its
placement is sent. In RUN no fault is pending and the last forwarded position is known (StepKeepsArmLaws). The braking
setpoint carries the drive node (R163; log entry 7 where none is known). The order of raises is log entry 18; that a SEQUENCE or STACK found under its mask is not
raised at the arrival but with the outcome is log entry 19; that "also" leaves the record's own kind out is log entry 26. -/
def Obligations.SetpointArrivalRule : Prop :=
  ∀ (m : Arm) (s : State) (f : SetpointFrame) (rest : List ArmEvent), s.armTakes m (.setpoint f) rest →
    let u : ArmUnit := { s.arm m with arrivals := rest }
    let run := exec (.setpointArrival m) s
    (∀ node : Node, (s.drivePort m).node = some node → s.driveNode m = node)
    ∧ (u.state ≠ .run → run = .next (s.setArm m u))
    ∧ (u.state = .run → u.slotFilled = true →
      run = .next (s.setArm m { u with raises := u.raises ++ [⟨m, .setpointEarly, .seqOnly f.seq⟩] }))
    ∧ ∀ p0 : Pos, u.state = .run → u.slotFilled = false → u.last.pos = some p0 → u.ctx.fault = none → u.ctx.carried = none →
      let outOfOrder : Option SeqNo := if u.expected = some f.seq then none else u.expected
      let stacked := stage2 u.ctx.mask.stack f u.ctx.stack
      let v : ArmUnit := { u with ctx := { u.ctx with stack := stacked.1 }, slotFilled := true, expected := some (f.seq + 1) }
      let hard : Prop := (outOfOrder.isSome = true ∧ (u.ctx.mask.sequence = false ∨ f.op = 1))
        ∨ (stacked.2.isSome = true ∧ (u.ctx.mask.stack = false ∨ f.op = 1))
      let step := f.pos.xyz.sub p0.xyz
      (¬hard → run = .next (s.setArm m { v with
        toWs := v.toWs ++ [.checked ⟨f.pos.xyz, p0.xyz, step, composeEnvelope u.work stacked.1, u.work.geometry, u.work.stepCap⟩],
        outstanding := some (.setpoint f step u.work.geometry outOfOrder stacked.2) }))
      ∧ (hard →
        let found : List Raise := (outOfOrder.toList.map fun e => ⟨m, .sequence, .seqPair e f.seq⟩)
          ++ (stacked.2.toList.map fun d => ⟨m, .stack, .stack d⟩)
        let b := v.brake (s.driveNode m) p0
        run = .next (s.setArm m (({ b with substituted := true, raises := b.raises ++ found } : ArmUnit).opensFaultStop m
          { kind := if outOfOrder.isSome then .sequence else .stack,
            also := if outOfOrder.isSome ∧ stacked.2.isSome then KindSet.single .stack else KindSet.empty,
            seq := some f.seq, axis := none, port := none, tick := u.tickCopy, state := .run })))

/-- The envelope operations (R130, R131): the table of R130 under either mask, and at stage 2 of a setpoint BAD_OP for every
code that is none of NONE, PUSH and POP and for every PUSH with a margin above 63, which leaves the stack as it was. -/
def Obligations.EnvelopeOperations : Prop :=
  (∀ (masked : Bool) (g : Margin) (stack : List Margin), stack.length < 8 →
      applyEnvOp masked (.push g) stack = (g :: stack, none))
    ∧ (∀ (g top : Margin) (rest : List Margin), 8 ≤ rest.length + 1 →
      applyEnvOp false (.push g) (top :: rest) = (top :: rest, some .overflow)
        ∧ applyEnvOp true (.push g) (top :: rest)
          = (⟨max top.lateral g.lateral, max top.below g.below⟩ :: rest, some .overflow))
    ∧ (∀ (masked : Bool) (top : Margin) (rest : List Margin), applyEnvOp masked .pop (top :: rest) = (rest, none))
    ∧ (∀ masked : Bool, applyEnvOp masked .pop [] = ([], some .underflow))
    ∧ ∀ (masked : Bool) (f : SetpointFrame) (stack : List Margin),
      let g : Margin := ⟨f.lateral.toNat, f.below.toNat⟩
      let detail (c : StackCase) : StackDetail := ⟨.frame, c, stack.length, if f.op = 1 then some g else none, some f.seq⟩
      (f.op = 0 → stage2 masked f stack = (stack, none))
      ∧ (f.op = 1 → g.lateral ≤ 63 → g.below ≤ 63 →
        stage2 masked f stack = ((applyEnvOp masked (.push g) stack).1, (applyEnvOp masked (.push g) stack).2.map detail))
      ∧ (f.op = 2 → stage2 masked f stack = ((applyEnvOp masked .pop stack).1, (applyEnvOp masked .pop stack).2.map detail))
      ∧ (f.op ≠ 0 → f.op ≠ 2 → (f.op = 1 → 63 < g.lateral ∨ 63 < g.below) → stage2 masked f stack = (stack, some (detail .badOp)))

/-- SETPOINT_VERDICT (R53 to R57): forward on PLACED; on FAILED the soft outcome, which at the soft limit is the fault
SOFT_LIMIT, or the hard outcome. Both substitute the braking setpoint, which carries the drive node (R163; log entry 7 where none is known).
One raise for every kind found, the zone kinds first, in kind order; the first kind is the first of RANGE, FORBIDDEN, PROXIMITY,
TRESPASS, SPEED, SEQUENCE, STACK that was found; a set of kinds has one bit for each. The model's readings in it are log entries
18, 19, 20 and 26. -/
def Obligations.SetpointVerdictRule : Prop :=
  (∀ (m : Arm) (s : State) (f : SetpointFrame) (step : Tri Int) (geom : Geometry) (outOfOrder : Option SeqNo)
    (stack : Option StackDetail) (v : Verdict), s.verdictTakes m (.setpoint f step geom outOfOrder stack) v →
    let u : ArmUnit := { s.arm m with outstanding := none, verdict := none }
    let own : List Raise := (outOfOrder.toList.map fun e => ⟨m, .sequence, .seqPair e f.seq⟩)
      ++ (stack.toList.map fun d => ⟨m, .stack, .stack d⟩)
    let run := exec (.setpointVerdict m) s
    (∀ node : Node, (s.drivePort m).node = some node → s.driveNode m = node)
    ∧ (v = .placed → run = .next (s.setArm m { u with
      placeGeom := geom, last := ⟨some f.pos, step, f.seq⟩, substituted := false, handed := u.handed ++ [f.octets],
      raises := u.raises ++ own, ctx := { u.ctx with soft := 0, miss := 0 } }))
    ∧ ∀ (kinds : KindSet) (ra sa : Option Axis) (tick : Tick) (p0 : Pos), v = .failed kinds ra sa tick → u.last.pos = some p0 →
      u.state = .run → u.ctx.fault = none → u.ctx.carried = none →
      let has (k : FaultKind) : Prop := KindSet.has kinds k = true
      let soft : Prop := f.op ≠ 1 ∧ ¬has .range ∧ ¬has .forbidden ∧ ¬has .proximity
        ∧ (has .trespass → u.ctx.mask.trespass = true) ∧ (has .speed → u.ctx.mask.speed = true)
      let found : Found := ⟨kinds, ra, sa, outOfOrder, stack⟩
      let b : ArmUnit := { u.brake (s.driveNode m) p0 with substituted := true, raises := u.raises ++ (zoneRaises m f.seq found ++ own) }
      let softened : ArmUnit := { b with ctx := { u.ctx with softSeen := true, soft := u.ctx.soft + 1, miss := 0 } }
      (soft → u.ctx.soft + 1 < u.work.softLimit → run = .next (s.setArm m softened))
      ∧ (soft → u.work.softLimit ≤ u.ctx.soft + 1 →
        run = .next (s.setArm m (({ softened with raises := softened.raises ++ [⟨m, .softLimit, .seqOnly f.seq⟩] } :
          ArmUnit).opensFaultStop m ⟨.softLimit, KindSet.without found.kinds .softLimit, some f.seq, none, none, tick, .run⟩)))
      ∧ ∀ first : FaultKind, ¬soft → found.kinds.first = some first →
        run = .next (s.setArm m (b.opensFaultStop m
          { kind := first, also := KindSet.without found.kinds first, seq := some f.seq,
            axis := if first = .range then ra else if first = .speed then sa else none, port := none, tick := tick, state := .run })))
    ∧ (∀ (m : Arm) (seq : SeqNo) (f : Found),
      let raised : List (FaultKind × Raise) := [(.range, ⟨m, .range, .seqAxis seq f.rangeAxis⟩), (.forbidden, ⟨m, .forbidden, .seqOnly seq⟩),
        (.proximity, ⟨m, .proximity, .seqOnly seq⟩), (.trespass, ⟨m, .trespass, .seqOnly seq⟩), (.speed, ⟨m, .speed, .seqAxis seq f.speedAxis⟩)]
      zoneRaises m seq f = (raised.filter fun x => KindSet.has f.zone x.1).map Prod.snd)
    ∧ (∀ (w : KindSet) (k : FaultKind), KindSet.has w k = w.getLsbD k.code
      ∧ ∀ n : Nat, KindSet.empty.getLsbD n = false ∧ (KindSet.single k).getLsbD n = decide (n = k.code)
        ∧ (KindSet.add w k).getLsbD n = (w.getLsbD n || decide (n = k.code))
        ∧ (KindSet.without w k).getLsbD n = (w.getLsbD n && decide (n ≠ k.code)))
    ∧ (∀ (f : Found) (k : FaultKind), KindSet.has f.kinds k = true ↔
      KindSet.has f.zone k = true ∨ (k = .sequence ∧ f.expected.isSome = true) ∨ (k = .stack ∧ f.stack.isSome = true))
    ∧ ∀ (w : KindSet) (k : FaultKind), w.first = some k ↔
      KindSet.has w k = true ∧ ∀ j : FaultKind, j.code < k.code → KindSet.has w j = false

/-! ### Cadence expiries (R59, R60, R64, R76, R81, R84) -/

/-- The feedback count at a period's end (R64), and a missed period (R60), for an arm unit in the states the manual names. A
feedback fault found in the expiry of a missed period leaves the arm in HALTING until the next (log entry 33). That FRAME_LOSS and
FEEDBACK_LOSS are raised before the STATE_CHANGE they bring is log entry 18; that "also" never holds the record's own kind is log
entry 26. In an expiry with both losses the feedback count is stepped as in a stop (log entry 34). -/
def Obligations.PeriodEndParts : Prop :=
  (∀ (u : ArmUnit) (m : Arm), u.feedbackSeen = true → u.stepFeedback m = u)
    ∧ (∀ (u : ArmUnit) (m : Arm), u.feedbackSeen = false → u.ctx.feedback + 1 < u.work.feedbackLimit →
      u.stepFeedback m = { u with ctx := { u.ctx with feedback := u.ctx.feedback + 1 } })
    ∧ (∀ (u : ArmUnit) (m : Arm), u.feedbackSeen = false → u.work.feedbackLimit ≤ u.ctx.feedback + 1 →
      let v : ArmUnit := { u with
        ctx := { u.ctx with feedback := 0 }, raises := u.raises ++ [⟨m, .feedbackLoss, .seqOnly u.last.seq⟩] }
      (u.state = .run → u.ctx.mask.feedbackLoss = true → u.stepFeedback m = v)
      ∧ (u.state = .run → u.ctx.mask.feedbackLoss = false → u.ctx.fault = none → u.ctx.carried = none →
        u.stepFeedback m = v.haltsOn m ⟨.feedbackLoss, KindSet.empty, some u.last.seq, none, none, u.tickCopy, .run⟩)
      ∧ (u.state = .halting ∨ u.state = .settling → u.stopCause = some .requested → u.stepFeedback m = v)
      ∧ ∀ r : FaultRec, u.state = .halting ∨ u.state = .settling → u.stopCause = some .fault → u.ctx.fault = some r →
        u.stepFeedback m = { v with ctx := { v.ctx with fault := some { r with
          also := KindSet.without (KindSet.add r.also .feedbackLoss) r.kind } } })
    ∧ ∀ (u : ArmUnit) (m : Arm) (node : Node) (p : Pos),
      let b := u.brake node p
      let missed : ArmUnit := { b with substituted := true, ctx := { u.ctx with miss := u.ctx.miss + 1 } }
      (u.ctx.miss + 1 < u.work.missLimit → u.missedPeriod m node p = missed)
      ∧ (u.work.missLimit ≤ u.ctx.miss + 1 → u.state = .run → u.ctx.fault = none → u.ctx.carried = none →
        u.missedPeriod m node p
          = ({ missed with raises := u.raises ++ [⟨m, .frameLoss, .seqOnly (u.last.seq + 1)⟩] } : ArmUnit).opensFaultStop m
            ⟨.frameLoss, KindSet.empty, some (u.last.seq + 1), none, none, u.tickCopy, .run⟩)

/-- CADENCE_EXPIRY_RUN (R59): the profile, substituted, a missed period when the slot is EMPTY, the feedback count, the slot.
FRAME_LOSS and FEEDBACK_LOSS are the expiries in which these come about, each taken whole (log entry 5). After FRAME_LOSS the
feedback count is stepped as in a stop (log entry 34). The braking setpoint carries the drive node (R163; log entry 7 where none
is known). What the two parts do is in PeriodEndParts, with its readings (log entries 18, 26 and 33). -/
def Obligations.RunExpiryRule : Prop :=
  ∀ (m : Arm) (s : State) (rest : List ArmEvent) (p : Pos), s.armTakes m .expiry rest → (s.arm m).state = .run →
    (s.arm m).last.pos = some p →
    let a := s.arm m
    let u : ArmUnit := { a with arrivals := rest, work := a.newProfile.getD a.work, newProfile := none, substituted := false }
    let missed := if u.slotFilled then u else u.missedPeriod m (s.driveNode m) p
    let t := s.setArm m { missed.stepFeedback m with slotFilled := false, feedbackSeen := false }
    (∀ node : Node, (s.drivePort m).node = some node → s.driveNode m = node)
      ∧ exec (.cadenceExpiryRun m) s = .next t
      ∧ (u.slotFilled = false → u.work.missLimit ≤ u.ctx.miss + 1 → exec (.frameLoss m) s = .next t)
      ∧ (u.feedbackSeen = false → u.work.feedbackLimit ≤ u.ctx.feedback + 1 → exec (.feedbackLoss m) s = .next t)

/-- CADENCE_EXPIRY_HALTING (R81, R82), and FEEDBACK_LOSS in HALTING: the feedback count, the braking setpoint, and SETTLING when
it stands still. The setpoint carries the drive node (R163; log entry 7 where none is known). The feedback count is in
PeriodEndParts, with its readings (log entries 18 and 26). FEEDBACK_LOSS is the expiry in which it comes about, taken whole (log
entry 5). -/
def Obligations.HaltingExpiryRule : Prop :=
  ∀ (m : Arm) (s : State) (rest : List ArmEvent) (p : Pos), s.armTakes m .expiry rest → (s.arm m).state = .halting →
    (s.arm m).last.pos = some p →
    let a := s.arm m
    let u : ArmUnit := { a with arrivals := rest, work := a.newProfile.getD a.work, newProfile := none, substituted := false }
    let b := (u.stepFeedback m).brake (s.driveNode m) p
    let settled : ArmUnit := if b.last.step = Tri.zero then { b with
        state := .settling, ctx := { b.ctx with settleCount := 0, settleTimer := 0 }, toWs := b.toWs ++ [.stateReport .settling] }
      else b
    let t := s.setArm m { settled with slotFilled := false, feedbackSeen := false }
    (∀ node : Node, (s.drivePort m).node = some node → s.driveNode m = node)
      ∧ exec (.cadenceExpiryHalting m) s = .next t
      ∧ (u.feedbackSeen = false → u.work.feedbackLimit ≤ u.ctx.feedback + 1 → exec (.feedbackLoss m) s = .next t)

/-- CADENCE_EXPIRY_SETTLING (R84), SETTLE_TIMEOUT, and FEEDBACK_LOSS in SETTLING: the feedback count, the settle timer, then CUT
with SETTLE_TIMEOUT or the hold setpoint at the held position (R75), which carries the drive node (R163; log entry 7 where none is
known). Log entries 5 (the rows taken whole) and 18 (SETTLE_TIMEOUT raised before the STATE_CHANGE of the cut). What the passage
to CUT does is in CutRule, with its readings (log entries 18, 21, 26 and 28), the feedback count in PeriodEndParts. -/
def Obligations.SettlingExpiryRule : Prop :=
  ∀ (m : Arm) (s : State) (rest : List ArmEvent) (p : Pos), s.armTakes m .expiry rest → (s.arm m).state = .settling →
    (s.arm m).last.pos = some p →
    let a := s.arm m
    let u : ArmUnit := { a with arrivals := rest, work := a.newProfile.getD a.work, newProfile := none, substituted := false }
    let v := u.stepFeedback m
    let timed : ArmUnit := { v with ctx := { v.ctx with settleTimer := u.ctx.settleTimer + 1 } }
    let late : Prop := u.work.settleLimit ≤ u.ctx.settleTimer + 1
    let out : ArmUnit := if late then
        ({ timed with raises := timed.raises ++ [⟨m, .settleTimeout, .settleTimeout u.last.seq u.ctx.settleCount⟩] } : ArmUnit).cut m
          ⟨.settleTimeout, KindSet.empty, none, none, none, u.tickCopy⟩
      else { timed with
        handed := timed.handed ++ [frame .setpoint (s.driveNode m) (u.last.seq + 1) (posOctets p ++ [0, 0, 0])],
        last := ⟨some p, Tri.zero, u.last.seq + 1⟩ }
    let t := s.setArm m { out with feedbackSeen := false }
    (∀ node : Node, (s.drivePort m).node = some node → s.driveNode m = node)
      ∧ exec (.cadenceExpirySettling m) s = .next t
      ∧ (late → exec (.settleTimeout m) s = .next t)
      ∧ (u.feedbackSeen = false → u.work.feedbackLimit ≤ u.ctx.feedback + 1 → exec (.feedbackLoss m) s = .next t)

/-- CADENCE_EXPIRY_QUIET (R76) in SYNC, STANDBY, HELD and CUT, with the hold setpoint of STANDBY and HELD: at the last forwarded
position with STO released, at the last actual one with STO asserted, none where that is not known (R75). It carries the
drive node in its header (R163; log entry 7 where none is known). -/
def Obligations.QuietExpiryRule : Prop :=
  ∀ (m : Arm) (s : State) (rest : List ArmEvent), s.armTakes m .expiry rest →
    let a := s.arm m
    let q : ArmUnit := { a with
      arrivals := rest, work := a.newProfile.getD a.work, newProfile := none, ctx := { a.ctx with feedback := 0 },
      feedbackSeen := false, substituted := false }
    let run := exec (.cadenceExpiryQuiet m) s
    let hold (p : Pos) : Host.Outcome State Fault Refusal := .next (s.setArm m { q with
      handed := q.handed ++ [frame .setpoint (s.driveNode m) (q.last.seq + 1) (posOctets p ++ [0, 0, 0])],
      last := ⟨some p, Tri.zero, q.last.seq + 1⟩ })
    (∀ node : Node, (s.drivePort m).node = some node → s.driveNode m = node)
    ∧ (a.state = .sync ∨ a.state = .cut → run = .next (s.setArm m q))
    ∧ (a.state = .standby ∨ a.state = .held →
      (∀ p : Pos, a.sto = false → a.last.pos = some p → run = hold p)
      ∧ (∀ p : Pos, a.sto = true → a.lastActual = some p → run = hold p)
      ∧ (a.sto = true → a.lastActual = none → run = .next (s.setArm m q)))

/-! ### Feedback, PARAM, ticks and notices at the arm unit -/

/-- FEEDBACK_ARRIVAL (R61 to R65, R164): the last actual position, the rest update of the non-motion states, the echo, tracking in
RUN, DRIVE_FAULT, and the frame sent upward with the guard status octet of the arm as it then stands (R165, R187). The order of
the checks is the model's (log entry 17), and so is TRACKING and DRIVE_FAULT being raised before STATE_CHANGE (log entry 18). A
FAULT status with STO asserted is no event, unless it was waiting when another cause of CUT ended the stop (R86, log entry 28). A
matching FEEDBACK in SETTLING is the next statement's. Whether a notice waits is read as the frame is handed over, after an expiry
and an opportunity that come before it (R165; log entry 15). A rest update ends the wait for a first FEEDBACK (log entry 21); bits
the manual leaves unstated are log entry 22. What recording a fault and the passage to CUT do is in CutRule, with its readings
(log entries 18, 21, 26 and 28). -/
def Obligations.FeedbackRule : Prop :=
  (∀ (m : Arm) (s : State) (e : ArmEvent) (f : FeedbackFrame) (rest : List ArmEvent) (p : Pos), s.armTakes m e rest →
    e = .feedback f ∨ e = .faultSecond f →
    let u : ArmUnit := { s.arm m with arrivals := rest }
    let seen : ArmUnit := if u.state = .run ∨ u.state = .halting ∨ u.state = .settling then { u with lastActual := some f.actual }
      else { u with
        lastActual := some f.actual, awaitFeedback := false,
        toWs := u.toWs ++ [.rest f.actual.xyz (composeEnvelope u.work u.ctx.stack) u.work.geometry] }
    let echoed : ArmUnit := if f.echo = u.last.seq then { seen with feedbackSeen := true, ctx := { u.ctx with feedback := 0 } }
      else { seen with raises := u.raises ++ [⟨m, .feedbackStale, .seqPair f.echo u.last.seq⟩] }
    let cutIfFaulty (w : ArmUnit) : ArmUnit :=
      if f.status ≠ 0 ∧ (u.sto = false ∨ (e = .faultSecond f ∧ u.state = .cut)) then
        ({ w with raises := w.raises ++ [⟨m, .driveFault, .seqOnly f.echo⟩] } : ArmUnit).cut m
          ⟨.driveFault, KindSet.empty, none, none, none, u.tickCopy⟩
      else w
    let goesUp (v : ArmUnit) : Prop :=
      let t := ((s.setArm m v).settleExpiry .ctrl m).closeOpportunity m
      exec (.feedbackArrival m) s = .next ((s.setArm m v).forwardUp m
        (frame .feedback f.node f.seq (f.payload ++ [guardOctet v (t.report.noticeWaiting m)])))
    (u.state ≠ .run → u.state ≠ .settling → goesUp (cutIfFaulty echoed))
    ∧ (u.state = .run ∨ u.state = .settling → f.echo ≠ u.last.seq → goesUp (cutIfFaulty echoed))
    ∧ (u.state = .run → f.echo = u.last.seq → u.last.pos = some p →
      let far (a c : Int) : Prop := u.work.trackingLimit < (a - c).natAbs
      let strays : Option Axis := if far f.actual.xyz.x p.xyz.x then some .axisX else if far f.actual.xyz.y p.xyz.y then some .axisY
        else if far f.actual.xyz.z p.xyz.z then some .axisZ else none
      (strays = none → goesUp (cutIfFaulty echoed))
      ∧ ∀ ax : Axis, strays = some ax →
        let flagged : ArmUnit := { echoed with raises := u.raises ++ [⟨m, .tracking, .seqAxis f.echo (some ax)⟩] }
        (u.ctx.mask.tracking = true → goesUp (cutIfFaulty flagged))
        ∧ (u.ctx.mask.tracking = false → u.ctx.fault = none → u.ctx.carried = none →
          goesUp (cutIfFaulty (flagged.haltsOn m
            ⟨.tracking, KindSet.empty, some f.echo, some ax, none, u.tickCopy, .run⟩)))))
    ∧ (∀ (u : ArmUnit) (waiting : Bool),
      let g := guardOctet u waiting
      (g.extractLsb' 0 3).toNat = u.state.code ∧ g.getLsbD 3 = u.substituted ∧ g.getLsbD 4 = u.ctx.fault.isSome
        ∧ g.getLsbD 5 = u.ctx.carried.isSome ∧ g.getLsbD 6 = u.sto ∧ g.getLsbD 7 = waiting)
    ∧ [ArmState.sync, .standby, .run, .halting, .settling, .held, .cut].map ArmState.code = [0, 1, 2, 3, 4, 5, 6]
    ∧ ∀ (r : ReportUnit) (m : Arm), r.noticeWaiting m = (r.choose m).isSome

/-- A matching FEEDBACK in SETTLING (R83, R85): a FAULT status cuts before any comparison; an axis beyond the settle window
restarts the settle count; the second within it ends settling, in HELD, STANDBY, CUT or SYNC by the stop cause and the lock of the
controller port. The model's readings: the two rest updates of an end in CUT (log entry 31), a rest update sent before the state
report (log entry 18), the wait for a first FEEDBACK ended by it (log entry 21). Also the model's readings: the notice waiting bit
read after an expiry due and an opportunity that stands (log entry 15), header bits 7 to 4 sent as 0 (log entry 22), a FAULT
status that was waiting when another cause of CUT ended a stop (log entry 28), and, in what recording a fault and the passage to
CUT do (CutRule), "also" without the record's own kind (log entry 26). -/
def Obligations.SettlingRule : Prop :=
  ∀ (m : Arm) (s : State) (e : ArmEvent) (f : FeedbackFrame) (rest : List ArmEvent) (p : Pos), s.armTakes m e rest →
    e = .feedback f ∨ e = .faultSecond f → (s.arm m).state = .settling → f.echo = (s.arm m).last.seq →
    (s.arm m).last.pos = some p → (s.arm m).sto = false →
    let u : ArmUnit := { s.arm m with
      arrivals := rest, lastActual := some f.actual, feedbackSeen := true, ctx := { (s.arm m).ctx with feedback := 0 } }
    let goesUp (v : ArmUnit) : Prop :=
      let t := ((s.setArm m v).settleExpiry .ctrl m).closeOpportunity m
      exec (.feedbackArrival m) s = .next ((s.setArm m v).forwardUp m
        (frame .feedback f.node f.seq (f.payload ++ [guardOctet v (t.report.noticeWaiting m)])))
    let rested : ToWorkspace := .rest f.actual.xyz (composeEnvelope u.work u.ctx.stack) u.work.geometry
    let far (a c : Int) : Prop := u.work.settleWindow < (a - c).natAbs
    let strays : Prop := far f.actual.xyz.x p.xyz.x ∨ far f.actual.xyz.y p.xyz.y ∨ far f.actual.xyz.z p.xyz.z
    (f.status ≠ 0 → goesUp (({ u with raises := u.raises ++ [⟨m, .driveFault, .seqOnly f.echo⟩] } : ArmUnit).cut m
      ⟨.driveFault, KindSet.empty, none, none, none, u.tickCopy⟩))
    ∧ (f.status = 0 → strays → goesUp { u with ctx := { u.ctx with settleCount := 0 } })
    ∧ (f.status = 0 → ¬strays → u.ctx.settleCount = 0 → goesUp { u with ctx := { u.ctx with settleCount := 1 } })
    ∧ (f.status = 0 → ¬strays → 1 ≤ u.ctx.settleCount →
      let d : ArmUnit := { u with
        stopCause := none, awaitFeedback := false, ctx := { u.ctx with settleCount := u.ctx.settleCount + 1 } }
      (u.stopCause = some .fault → u.ctrlLocked = true → goesUp { d with
        state := .held, toWs := u.toWs ++ [rested, .stateReport .held],
        raises := u.raises ++ [⟨m, .stateChange, .stateChange .settling .held⟩] })
      ∧ (u.stopCause = some .fault → u.ctrlLocked = false → goesUp { d with
        state := .cut, sto := true, toWs := u.toWs ++ [rested, rested, .stateReport .cut],
        raises := u.raises ++ [⟨m, .stateChange, .stateChange .settling .cut⟩] })
      ∧ (u.stopCause = some .requested → u.ctrlLocked = true → goesUp { d with
        state := .standby, toWs := u.toWs ++ [rested, .stateReport .standby],
        raises := u.raises ++ [⟨m, .stateChange, .stateChange .settling .standby⟩] })
      ∧ (u.stopCause = some .requested → u.ctrlLocked = false → goesUp { d with
        state := .sync, sto := true, ctx := { d.ctx with carried := none }, toWs := u.toWs ++ [rested, .stateReport .sync] }))

/-- PARAM_ARRIVAL (R162), ARM_TICK_COPY (R69) and COMMIT_NOTICE (R3). -/
def Obligations.ParamTickAndNotice : Prop :=
  ∀ (m : Arm) (s : State) (rest : List ArmEvent),
    let u : ArmUnit := { s.arm m with arrivals := rest }
    (∀ (os : List Octet) (seq : SeqNo), s.armTakes m (.param os seq) rest →
      exec (.paramArrival m) s = .next (s.setArm m
        (if u.state = .standby ∨ u.state = .cut then { u with handed := u.handed ++ [os] }
          else { u with raises := u.raises ++ [⟨m, .passRefused, .passRefused u.state seq⟩] })))
    ∧ (s.armTakes m .tick rest → exec (.armTickCopy m) s = .next (s.setArm m { u with tickCopy := u.tickCopy + 1 }))
    ∧ ∀ (present : Bool) (profile : Profile), s.armTakes m (.commitNotice present profile) rest →
      exec (.commitNotice m) s
        = .next (s.setArm m { u with bankKnown := true, present := present, newProfile := some profile })

/-- LOCK_GAINED (R71), CONTROLLER_LOCK_LOSS (R72) and DRIVE_LOCK_LOSS (R74), by state, stop cause and STO. LINK_LOSS raised before
STATE_CHANGE, and UNKNOWN sent before the state report, are log entry 18. What recording a fault and the passage to CUT do is in
CutRule, with its readings (log entries 18, 21, 26 and 28); that the wait for a first FEEDBACK begins at the entry to STANDBY and
ends at a rest update is log entry 21. -/
def Obligations.LockChangeRule : Prop :=
  ∀ (m : Arm) (s : State) (rest : List ArmEvent),
    let a := s.arm m
    let at' (c d : Bool) : ArmUnit := { a with arrivals := rest, ctrlLocked := c, driveLocked := d }
    let lost (side : Side) : Finding := ⟨.linkLoss, KindSet.empty, none, none, some side, a.tickCopy⟩
    let flagged (side : Side) (u : ArmUnit) : ArmUnit := { u with raises := u.raises ++ [⟨m, .linkLoss, .linkLoss side a.state⟩] }
    let desynced (u : ArmUnit) : ArmUnit := { u with
      state := .sync, sto := true, stopCause := none, ctx := { u.ctx with carried := none }, toWs := u.toWs ++ [.stateReport .sync] }
    let stands (c d : Bool) : ArmUnit := if a.state = .sync ∧ c = true ∧ d = true then { at' c d with
        state := .standby, awaitFeedback := true, toWs := a.toWs ++ [.setUnknown, .stateReport .standby],
        raises := a.raises ++ [⟨m, .stateChange, .stateChange .sync .standby⟩] }
      else at' c d
    (s.armTakes m (.lock .ctrl true) rest → exec (.lockGained m) s = .next (s.setArm m (stands true a.driveLocked)))
    ∧ (s.armTakes m (.lock .drive true) rest → exec (.lockGained m) s = .next (s.setArm m (stands a.ctrlLocked true)))
    ∧ (s.armTakes m (.lock .ctrl false) rest →
      let u := at' false a.driveLocked
      let v := flagged .ctrl u
      let run := exec (.controllerLockLoss m) s
      (a.state = .sync → run = .next (s.setArm m u))
      ∧ (a.state = .standby → run = .next (s.setArm m (desynced v)))
      ∧ (a.state = .run → a.ctx.fault = none → a.ctx.carried = none →
        run = .next (s.setArm m (v.haltsOn m ⟨.linkLoss, KindSet.empty, none, none, some .ctrl, a.tickCopy, .run⟩)))
      ∧ (a.state = .halting ∨ a.state = .settling →
        run = .next (s.setArm m (if a.stopCause = some .fault then v.record (lost .ctrl) else v)))
      ∧ (a.state = .held → run = .next (s.setArm m (v.cut m (lost .ctrl))))
      ∧ (a.state = .cut → run = .next (s.setArm m (v.record (lost .ctrl)))))
    ∧ (s.armTakes m (.lock .drive false) rest →
      let u := at' a.ctrlLocked false
      let v := flagged .drive u
      let run := exec (.driveLockLoss m) s
      (a.state = .sync → run = .next (s.setArm m u))
      ∧ (a.state = .standby → a.sto = true → run = .next (s.setArm m (desynced v)))
      ∧ (a.state = .standby ∨ a.state = .held → a.sto = false → run = .next (s.setArm m (v.cut m (lost .drive))))
      ∧ (a.state = .run ∨ a.state = .halting ∨ a.state = .settling → run = .next (s.setArm m (v.cut m (lost .drive))))
      ∧ (a.state = .held → a.sto = true → run = .next (s.setArm m (v.record (lost .drive))))
      ∧ (a.state = .cut → run = .next (s.setArm m (v.record (lost .drive)))))

/-! ### The arm-state requests (chapter 4) -/

/-- ARM_ENABLE (R77, R90) and ENABLE_VERDICT (R78): the refusals in their order, delivery of a carried fault, the zero-step
placement; entry to RUN on PLACED, else a refusal that leaves the arm in STANDBY. The axis
of the ILLEGAL data is log entry 32. -/
def Obligations.EnableRule : Prop :=
  (∀ (m : Arm) (s : State) (r : Request) (rest : List ArmEvent), s.armTakes m (.request r) rest → r.name = .armEnable →
      let u : ArmUnit := { s.arm m with arrivals := rest }
      let refuse (v : ArmUnit) (why : Reason) : Prop :=
        exec (.armEnable m) s = .next ((s.setArm m v).answer m (answerRefused r.head why []))
      (u.state ≠ .standby → refuse u .state)
      ∧ (u.state = .standby → u.bankKnown = false → refuse u .noBank)
      ∧ (u.state = .standby → u.bankKnown = true → u.present = false → refuse u .absent)
      ∧ (u.state = .standby → u.bankKnown = true → u.present = true → u.lastActual = none → refuse u .state)
      ∧ ∀ p : Pos, u.state = .standby → u.bankKnown = true → u.present = true → u.lastActual = some p →
        (∀ c : FaultRec, u.ctx.carried = some c → refuse { u with
          state := .held, ctx := { u.ctx with fault := some c, carried := none }, toWs := u.toWs ++ [.stateReport .held],
          raises := u.raises ++ [⟨m, .stateChange, .stateChange .standby .held⟩] } .faultPending)
        ∧ (u.ctx.carried = none → exec (.armEnable m) s = .next (s.setArm m { u with
          toWs := u.toWs ++ [.checked ⟨p.xyz, p.xyz, ⟨0, 0, 0⟩, composeEnvelope u.work u.ctx.stack, u.work.geometry, u.work.stepCap⟩],
          outstanding := some (.enable r.head u.work.geometry) })))
    ∧ ∀ (m : Arm) (s : State) (h : ReqHead) (geom : Geometry) (v : Verdict), s.verdictTakes m (.enable h geom) v →
      (s.arm m).state = .standby →
      let u : ArmUnit := { s.arm m with outstanding := none, verdict := none }
      let run := exec (.enableVerdict m) s
      (v = .placed → run = .next ((s.setArm m { u with
        state := .run, sto := false, last := ⟨u.lastActual, ⟨0, 0, 0⟩, u.last.seq⟩, slotFilled := false, expected := none,
        ctx := { u.ctx with soft := 0, miss := 0, feedback := 0, settleCount := 0, settleTimer := 0 }, feedbackSeen := false,
        substituted := false, placeGeom := geom, toWs := u.toWs ++ [.stateReport .run] }).answer m (answerOk h [])))
      ∧ (∀ (kinds : KindSet) (ra sa : Option Axis) (tick : Tick), v = .failed kinds ra sa tick →
        let axis := if kinds.first = some .range then ra else if kinds.first = some .speed then sa else none
        run = .next ((s.setArm m u).answer m (answerRefused h .illegal (octets16 kinds ++ [axisCode axis]))))
      ∧ (v = .absent → run = .next ((s.setArm m u).answer m (answerRefused h .absent [])))
      ∧ (v = .unknown → run = .next ((s.setArm m u).answer m (answerRefused h .state [])))

/-- R80, ARM_HALT: in RUN the arm enters HALTING with stop cause REQUESTED and no braking setpoint; in STANDBY, HALTING, SETTLING
and HELD OK and nothing changes; in SYNC and CUT refused with STATE. -/
def Obligations.HaltRule : Prop :=
  ∀ (m : Arm) (s : State) (r : Request) (rest : List ArmEvent), s.armTakes m (.request r) rest → r.name = .armHalt →
    let u : ArmUnit := { s.arm m with arrivals := rest }
    let run := exec (.armHalt m) s
    (u.state = .run → run = .next ((s.setArm m { u with
      state := .halting, stopCause := some .requested, toWs := u.toWs ++ [.stateReport .halting],
      raises := u.raises ++ [⟨m, .stateChange, .stateChange .run .halting⟩] }).answer m (answerOk r.head [])))
    ∧ (u.state = .standby ∨ u.state = .halting ∨ u.state = .settling ∨ u.state = .held →
      run = .next ((s.setArm m u).answer m (answerOk r.head [])))
    ∧ (u.state = .sync ∨ u.state = .cut → run = .next ((s.setArm m u).answer m (answerRefused r.head .state [])))

/-- Recording a fault (R70), the passage to CUT (R73), and ARM_CUT (R87). In CUT nothing changes, unless the ARM_CUT was waiting when
another cause of CUT ended the stop: then it joins the record (R86; log entry 28, the model's reading). A rest update ends
the wait for a first FEEDBACK (log entry 21). The rest update or UNKNOWN before the state report is log entry 18; that "also" never
holds the record's own kind is log entry 26. -/
def Obligations.CutRule : Prop :=
  (∀ (u : ArmUnit) (f : Finding),
      (∀ r : FaultRec, u.ctx.fault = some r → ∃ also : KindSet, u.record f = { u with ctx := { u.ctx with fault := some { r with also := also } } }
        ∧ ∀ k : FaultKind, KindSet.has also k = true ↔ k ≠ r.kind ∧ (KindSet.has r.also k = true ∨ KindSet.has f.also k = true ∨ k = f.kind))
      ∧ (∀ c : FaultRec, u.ctx.fault = none → u.ctx.carried = some c → ∃ also : KindSet,
        u.record f = { u with ctx := { u.ctx with fault := some { c with also := also }, carried := none } }
        ∧ ∀ k : FaultKind, KindSet.has also k = true ↔ k ≠ c.kind ∧ (KindSet.has c.also k = true ∨ KindSet.has f.also k = true ∨ k = f.kind))
      ∧ (u.ctx.fault = none → u.ctx.carried = none → u.record f = { u with ctx := { u.ctx with
        fault := some ⟨f.kind, KindSet.without f.also f.kind, f.seq, f.axis, f.port, f.tick, u.state⟩ } }))
    ∧ (∀ (u : ArmUnit) (m : Arm) (f : Finding), u.state = .cut → u.cut m f = u.record f)
    ∧ (∀ (u : ArmUnit) (m : Arm) (f : Finding), u.state ≠ .cut → u.cut m f = { u.record f with
        state := .cut, sto := true, stopCause := none, awaitFeedback := u.awaitFeedback && u.lastActual.isNone,
        toWs := u.toWs ++ (if u.lastActual = none then [.setUnknown] else u.lastActual.toList.map fun p =>
          .rest p.xyz (composeEnvelope u.work u.ctx.stack) u.work.geometry) ++ [.stateReport .cut],
        raises := u.raises ++ [⟨m, .stateChange, .stateChange u.state .cut⟩],
        arrivals := if u.state = .halting ∨ u.state = .settling then u.arrivals.map ArmEvent.asSecond else u.arrivals })
    ∧ (∀ e : ArmEvent,
      (∀ r : Request, e = .request r → r.name = .armCut → e.asSecond = .cutSecond r)
      ∧ (∀ f : FeedbackFrame, e = .feedback f → f.status ≠ 0 → e.asSecond = .faultSecond f)
      ∧ ((∀ r : Request, e = .request r → r.name ≠ .armCut) → (∀ f : FeedbackFrame, e = .feedback f → f.status = 0) → e.asSecond = e))
    ∧ (∀ (m : Arm) (s : State) (r : Request) (rest : List ArmEvent), s.armTakes m (.cutSecond r) rest →
      let u : ArmUnit := { s.arm m with arrivals := rest }
      (u.state ≠ .sync → exec (.armCut m) s = .next ((s.setArm m
        (u.cut m ⟨.cutRequested, KindSet.empty, none, none, none, u.tickCopy⟩)).answer m (answerOk r.head [])))
      ∧ (u.state = .sync → exec (.armCut m) s = .next ((s.setArm m u).answer m (answerRefused r.head .state []))))
    ∧ ∀ (m : Arm) (s : State) (r : Request) (rest : List ArmEvent), s.armTakes m (.request r) rest → r.name = .armCut →
      let u : ArmUnit := { s.arm m with arrivals := rest }
      (u.state ≠ .sync → u.state ≠ .cut → exec (.armCut m) s = .next ((s.setArm m
        (u.cut m ⟨.cutRequested, KindSet.empty, none, none, none, u.tickCopy⟩)).answer m (answerOk r.head [])))
      ∧ (u.state = .cut → exec (.armCut m) s = .next ((s.setArm m u).answer m (answerOk r.head [])))
      ∧ (u.state = .sync → exec (.armCut m) s = .next ((s.setArm m u).answer m (answerRefused r.head .state [])))

/-- R88, ARM_CLEAR: from HELD to STANDBY or, with a port unlocked, SYNC; in STANDBY a carried fault becomes absent; refused
elsewhere. The FAULT output follows R68, and the STO lines R67. -/
def Obligations.ClearRule : Prop :=
  ∀ (m : Arm) (s : State) (r : Request) (rest : List ArmEvent), s.armTakes m (.request r) rest → r.name = .armClear →
    let u : ArmUnit := { s.arm m with arrivals := rest }
    let c : ArmUnit := { u with ctx := { u.ctx with fault := none, softSeen := false } }
    let run := exec (.armClear m) s
    (u.state = .held → u.ctrlLocked = true → u.driveLocked = true → run = .next ((s.setArm m { c with
      state := .standby, toWs := u.toWs ++ [.stateReport .standby],
      raises := u.raises ++ [⟨m, .stateChange, .stateChange .held .standby⟩] }).answer m (answerOk r.head [])))
    ∧ (u.state = .held → u.ctrlLocked = false ∨ u.driveLocked = false → run = .next ((s.setArm m { c with
      state := .sync, sto := true, stopCause := none, ctx := { c.ctx with carried := none },
      toWs := u.toWs ++ [.stateReport .sync] }).answer m (answerOk r.head [])))
    ∧ (u.state = .standby → run = .next ((s.setArm m { u with
      ctx := { u.ctx with carried := none, softSeen := false } }).answer m (answerOk r.head [])))
    ∧ (u.state = .sync ∨ u.state = .run ∨ u.state = .halting ∨ u.state = .settling ∨ u.state = .cut →
      run = .next ((s.setArm m u).answer m (answerRefused r.head .state [])))
    ∧ ∀ t : State, run = .next t →
      (t.faultPin = true ↔ s.resetN = false ∨ ∃ n : Arm, (t.arm n).state = .held ∨ (t.arm n).state = .cut)
        ∧ ∀ n : Arm, t.stoPin n = true ↔ s.resetN = false ∨ (t.arm n).sto = true

/-- ARM_RESET (R89): the context at its power-on values, STO asserted, STANDBY or SYNC, the box record, the removal of the arm's
claims; refused in the motion states. The last forwarded setpoint, the last actual position, the working profile and the placement
geometry keep their values. A rest update ends the wait for a first FEEDBACK (log entry 21); it or UNKNOWN is sent before the state
report (log entry 18). What waits is no longer a second cause of the stop that is over (R86, log entry 28). -/
def Obligations.ResetRule : Prop :=
  ∀ (m : Arm) (s : State) (r : Request) (rest : List ArmEvent), s.armTakes m (.request r) rest → r.name = .armReset →
    let u : ArmUnit := { s.arm m with arrivals := rest }
    let c : ArmUnit := { u with
      ctx := ArmContext.powerOn, expected := none, sto := true, stopCause := none, arrivals := rest.map ArmEvent.asFirst }
    let ok (v : ArmUnit) : Prop := exec (.armReset m) s = .next ((s.setArm m v).answer m (answerOk r.head []))
    let both : Prop := u.ctrlLocked = true ∧ u.driveLocked = true
    let rests : List ToWorkspace := u.lastActual.toList.map fun p =>
      .rest p.xyz ⟨u.work.baseLateral, u.work.baseBelow, u.work.baseAbove⟩ u.work.geometry
    (u.state = .run ∨ u.state = .halting ∨ u.state = .settling →
      exec (.armReset m) s = .next ((s.setArm m u).answer m (answerRefused r.head .state [])))
    ∧ (both → u.state = .sync → ok { c with
      state := .standby, awaitFeedback := true, toWs := u.toWs ++ [.setUnknown, .stateReport .standby, .claimRemoval],
      raises := u.raises ++ [⟨m, .stateChange, .stateChange .sync .standby⟩] })
    ∧ (both → u.state = .standby → ok { c with
      awaitFeedback := u.awaitFeedback && u.lastActual.isNone, toWs := u.toWs ++ rests ++ [.claimRemoval] })
    ∧ (both → u.state = .held ∨ u.state = .cut → ok { c with
      state := .standby, awaitFeedback := u.awaitFeedback && u.lastActual.isNone,
      toWs := u.toWs ++ rests ++ [.stateReport .standby, .claimRemoval],
      raises := u.raises ++ [⟨m, .stateChange, .stateChange u.state .standby⟩] })
    ∧ (¬both → u.state = .sync → ok { c with toWs := u.toWs ++ [.claimRemoval] })
    ∧ (¬both → u.state = .standby ∨ u.state = .held ∨ u.state = .cut → ok { c with
      state := .sync, toWs := u.toWs ++ [.stateReport .sync, .claimRemoval] })
    ∧ ∀ e : ArmEvent, (∀ q : Request, e = .cutSecond q → e.asFirst = .request q)
      ∧ (∀ f : FeedbackFrame, e = .faultSecond f → e.asFirst = .feedback f)
      ∧ ((∀ q : Request, e ≠ .cutSecond q) → (∀ f : FeedbackFrame, e ≠ .faultSecond f) → e.asFirst = e)

/-- ARM_STATUS and STATUS_READ (R175): the arm unit records its part and sends it on; the workspace unit adds its own and answers.
Both parts field by field, in the order of R175. They take 83 and 38 octets, so the answer goes in three parts (R189). The octet
forms are log entry 12, the octets of STO, lock, stop cause, carried fault, slot and mode log entry 14. -/
def Obligations.StatusRule : Prop :=
  (∀ (m : Arm) (s : State) (r : Request) (rest : List ArmEvent), s.armTakes m (.request r) rest → r.name = .armStatus →
      exec (.armStatus m) s = .next (s.setArm m { s.arm m with
        arrivals := rest, toWs := (s.arm m).toWs ++ [.statusRead r.head { s.arm m with arrivals := rest }.statusOctets] }))
    ∧ (∀ (m : Arm) (s : State) (h : ReqHead) (part : List Octet) (rest : List ToWorkspace), s.wsTakes m (.statusRead h part) rest →
      exec (.statusRead m) s
        = .next ((s.setArm m { s.arm m with toWs := rest }).answer m (answerOk h (part ++ s.ws.statusOctets m))))
    ∧ (∀ u : ArmUnit,
      let optional (width : Nat) (v : Option (List Octet)) : List Octet := v.elim (0 :: List.replicate width 0) (1 :: ·)
      let flag (b : Bool) : Octet := if b then 1 else 0
      let envelope := composeEnvelope u.work u.ctx.stack
      u.statusOctets.length = 83
        ∧ u.statusOctets = [octet u.state.code] ++ optional 1 (u.stopCause.map fun c => [if c = .fault then 0 else 1])
          ++ [flag !u.sto, flag !u.ctrlLocked, flag !u.driveLocked]
          ++ optional 13 (u.ctx.fault.map fun f => [1, octet f.kind.code] ++ octets16 f.also
            ++ [f.seq.getD 0, flag f.seq.isSome, axisCode f.axis, sideCode f.port] ++ octets32 f.tick ++ [octet f.state.code])
          ++ [flag u.ctx.carried.isSome, octet u.ctx.soft, octet u.ctx.miss, octet u.ctx.feedback, octet u.ctx.settleCount,
            octet u.ctx.settleTimer, flag u.slotFilled, flag u.substituted, flag u.feedbackSeen]
          ++ optional 1 (u.expected.map fun e => [e]) ++ optional 16 (u.last.pos.map posOctets)
          ++ (posOctets ⟨u.last.step, 0⟩).take 12 ++ [u.last.seq] ++ optional 16 (u.lastActual.map posOctets)
          ++ [octet u.ctx.stack.length, octet envelope.lateral, octet envelope.below, octet envelope.above, octet u.work.cadence])
    ∧ [none, some Axis.axisX, some .axisY, some .axisZ].map axisCode = [0, 1, 2, 3]
    ∧ [none, some Side.ctrl, some .drive].map sideCode = [0, 1, 2]
    ∧ [FaultKind.range, .forbidden, .proximity, .trespass, .speed, .sequence, .tracking, .feedbackLoss, .stack, .frameLoss, .softLimit,
      .settleTimeout, .driveFault, .linkLoss, .cutRequested].map FaultKind.code = List.range 15
    ∧ ∀ (w : Workspace) (m : Arm),
      let coords (b : Box) : List Octet := [b.lo.x, b.lo.y, b.lo.z, b.hi.x, b.hi.y, b.hi.z].flatMap fun c => octets16 (BitVec.ofInt 16 c)
      let used (e : Envelope) : List Octet := [1, octet e.lateral, octet e.below, octet e.above]
      let unseen : Prop := w.active = none ∧ w.headerPresent.get m = false
      let gives (record : List Octet) : Prop := w.statusOctets m = record
        ++ [octet (w.reported.get m).code, octet (w.queue.filter fun e => e.arm == m).length, octet (w.outcomeCount.get m)]
        ++ octets32 w.tick
      (w.statusOctets m).length = 38
        ∧ (unseen ∨ w.record m = .absent → gives (0 :: List.replicate 30 0))
        ∧ (¬unseen → w.record m = .unknown → gives (1 :: List.replicate 30 0))
        ∧ (∀ (box : Box) (env : Envelope), ¬unseen → w.record m = .rest box env →
          gives ([2, 1] ++ coords box ++ List.replicate 13 0 ++ used env))
        ∧ ∀ (box motion : Box) (env : Envelope), ¬unseen → w.record m = .motion box motion env →
          gives ([3, 1] ++ coords box ++ [1] ++ coords motion ++ used env)

/-! ### Envelope requests, masks and contexts (chapter 7) -/

/-- ENVELOPE_PUSH and ENVELOPE_POP (R133, R134, R136): the refusals; an unmasked STACK violation; an envelope left as it was; a
changed one carried to the box record by a rest update in STANDBY and a checked placement in RUN. And ENVELOPE_VERDICT (R136):
PLACED, or the hard fault of a FAILED verdict, with no braking setpoint in the event. Log entries 18 (STACK and the zone kinds
raised before STATE_CHANGE, the zone kinds once each in kind order: the list in SetpointVerdictRule), 21 (no rest update while a first FEEDBACK is awaited), 26 ("also" leaves the
record's own kind out) and 32 (the axis of the ILLEGAL data). -/
def Obligations.EnvelopeRequestRule : Prop :=
  (∀ (m : Arm) (s : State) (r : Request) (rest : List ArmEvent) (c : Instr) (op : EnvOp) (pushed : Option Margin),
      s.armTakes m (.request r) rest →
      let g : Margin := ⟨(r.args.getD 0 0).toNat, (r.args.getD 1 0).toNat⟩
      (r.name = .envelopePush ∧ c = .envelopePush m ∧ op = .push g ∧ pushed = some g
        ∨ r.name = .envelopePop ∧ c = .envelopePop m ∧ op = .pop ∧ pushed = none) →
      let u : ArmUnit := { s.arm m with arrivals := rest }
      let after := applyEnvOp u.ctx.mask.stack op u.ctx.stack
      let before := composeEnvelope u.work u.ctx.stack
      let composed := composeEnvelope u.work after.1
      let data : List Octet := [octet after.1.length, octet composed.lateral, octet composed.below, octet composed.above]
      let v : ArmUnit := { u with
        ctx := { u.ctx with stack := after.1 },
        raises := u.raises ++ after.2.toList.map fun x => ⟨m, .stack, .stack ⟨.request, x, u.ctx.stack.length, pushed, none⟩⟩ }
      let wide : Prop := c = .envelopePush m ∧ (63 < g.lateral ∨ 63 < g.below)
      let failed : Prop := after.2.isSome = true ∧ u.ctx.mask.stack = false
      let run := exec c s
      (u.state ≠ .standby → u.state ≠ .run → run = .next ((s.setArm m u).answer m (answerRefused r.head .state [])))
      ∧ (u.state = .standby ∨ u.state = .run → wide → run = .next ((s.setArm m u).answer m (answerRefused r.head .range [])))
      ∧ (u.state = .standby → ¬wide → failed → run = .next ((s.setArm m v).answer m (answerRefused r.head .stack [])))
      ∧ (u.state = .run → ¬wide → failed → u.ctx.fault = none → u.ctx.carried = none →
        run = .next ((s.setArm m (v.haltsOn m ⟨.stack, KindSet.empty, some u.last.seq, none, none, u.tickCopy, .run⟩)).answer m
          (answerRefused r.head .stack [])))
      ∧ (u.state = .standby ∨ u.state = .run → ¬wide → ¬failed → composed = before →
        run = .next ((s.setArm m v).answer m (answerOk r.head data)))
      ∧ (u.state = .standby → ¬wide → ¬failed → composed ≠ before →
        (u.awaitFeedback = true ∨ u.lastActual = none → run = .next ((s.setArm m v).answer m (answerOk r.head data)))
        ∧ ∀ p : Pos, u.awaitFeedback = false → u.lastActual = some p →
          run = .next ((s.setArm m { v with toWs := u.toWs ++ [.rest p.xyz composed u.work.geometry] }).answer m
            (answerOk r.head data)))
      ∧ ∀ p : Pos, u.state = .run → ¬wide → ¬failed → composed ≠ before → u.last.pos = some p →
        run = .next (s.setArm m { v with
          toWs := u.toWs ++ [.checked ⟨p.xyz, p.xyz.sub u.last.step, u.last.step, composed, u.work.geometry, u.work.stepCap⟩],
          outstanding := some (.envelope r.head u.work.geometry) }))
    ∧ ∀ (m : Arm) (s : State) (h : ReqHead) (geom : Geometry) (v : Verdict), s.verdictTakes m (.envelope h geom) v →
      let u : ArmUnit := { s.arm m with outstanding := none, verdict := none }
      let env := composeEnvelope u.work u.ctx.stack
      (v = .placed → exec (.envelopeVerdict m) s = .next ((s.setArm m { u with placeGeom := geom }).answer m
        (answerOk h [octet u.ctx.stack.length, octet env.lateral, octet env.below, octet env.above])))
      ∧ ∀ (kinds : KindSet) (ra sa : Option Axis) (tick : Tick) (first : FaultKind), v = .failed kinds ra sa tick →
        kinds.first = some first → u.state = .run → u.ctx.fault = none → u.ctx.carried = none →
        let axis := if first = .range then ra else if first = .speed then sa else none
        exec (.envelopeVerdict m) s = .next ((s.setArm m
          (({ u with raises := u.raises ++ zoneRaises m u.last.seq ⟨kinds, ra, sa, none, none⟩ } : ArmUnit).haltsOn m
            ⟨first, KindSet.without kinds first, some u.last.seq, axis, none, tick, .run⟩)).answer m
          (answerRefused h .illegal (octets16 kinds ++ [axisCode axis])))

/-- MASK_SET (R137), CONTEXT_SAVE (R140) and CONTEXT_LOAD (R141, R142): the tests of R141 in their order, the first that fails
naming the field, and what a record that passes them loads. The octets of the fields are the model's reading of R188 (log entry
11). No rest update while a first FEEDBACK is awaited is log entry 21. -/
def Obligations.ContextRequestRule : Prop :=
  (∀ (m : Arm) (s : State) (r : Request) (rest : List ArmEvent), s.armTakes m (.request r) rest →
    let u : ArmUnit := { s.arm m with arrivals := rest }
    let gives (c : Instr) (v : ArmUnit) (ans : Answer) : Prop := exec c s = .next ((s.setArm m v).answer m ans)
    let word : BitVec 16 := r.args.getD 0 0 ++ r.args.getD 1 0
    let mask : Mask := ⟨word.getLsbD 3, word.getLsbD 4, word.getLsbD 5, word.getLsbD 6, word.getLsbD 7, word.getLsbD 8⟩
    (r.name = .maskSet →
      (u.state ≠ .standby → gives (.maskSet m) u (answerRefused r.head .state []))
      ∧ (u.state = .standby → word.getLsbD 0 = true ∨ word.getLsbD 1 = true ∨ word.getLsbD 2 = true →
        gives (.maskSet m) u (answerRefused r.head .range []))
      ∧ (u.state = .standby → word.getLsbD 0 = false → word.getLsbD 1 = false → word.getLsbD 2 = false →
        gives (.maskSet m) { u with ctx := { u.ctx with mask := mask } } (answerOk r.head (octets16 (word &&& 0x01F8#16)))))
    ∧ (r.name = .contextSave → gives (.contextSave m) u (answerOk r.head (contextOctets u.ctx)))
    ∧ (r.name = .contextLoad →
      (u.state ≠ .standby → gives (.contextLoad m) u (answerRefused r.head .state []))
      ∧ (∀ field : ContextField, u.state = .standby → readContext r.args = .error field →
        gives (.contextLoad m) u (answerRefused r.head .invalid [field.code]))
      ∧ ∀ c : LoadedContext, u.state = .standby → readContext r.args = .ok c →
        let v : ArmUnit := { u with
          ctx := { u.ctx with mask := c.mask, stack := c.stack, softSeen := c.softSeen, carried := c.fault } }
        let composed := composeEnvelope u.work c.stack
        (composed = composeEnvelope u.work u.ctx.stack ∨ u.awaitFeedback = true ∨ u.lastActual = none →
          gives (.contextLoad m) v (answerOk r.head []))
        ∧ ∀ p : Pos, composed ≠ composeEnvelope u.work u.ctx.stack → u.awaitFeedback = false → u.lastActual = some p →
          gives (.contextLoad m) { v with toWs := u.toWs ++ [.rest p.xyz composed u.work.geometry] } (answerOk r.head [])))
    ∧ (∀ os : List Octet,
      let at' (i : Nat) : Nat := (os.getD i 0).toNat
      let also : BitVec 16 := os.getD 22 0 ++ os.getD 23 0
      let present : Prop := at' 20 ≠ 0
      let tests : List (ContextField × Prop) := [
        (.depth, 8 < at' 2),
        (.entries, ∃ i, i < at' 2 ∧ (63 < at' (3 + 2 * i) ∨ 63 < at' (4 + 2 * i))),
        (.softSeen, 1 < at' 19),
        (.faultSource, present ∧ 2 < at' 20),
        (.faultKind, present ∧ 14 < at' 21),
        (.faultAlso, present ∧ (also.getLsbD 15 = true ∨ also.getLsbD (at' 21) = true)),
        (.faultSequence, present ∧ 1 < at' 25),
        (.faultAxis, present ∧ 3 < at' 26),
        (.faultPort, present ∧ if at' 21 = 13 then at' 27 ≠ 1 ∧ at' 27 ≠ 2 else at' 27 ≠ 0),
        (.faultArmState, present ∧ 6 < at' 32)]
      ((∃ c, readContext os = .ok c) ↔ ∀ x ∈ tests, ¬x.2)
      ∧ ∀ (pre post : List (ContextField × Prop)) (field : ContextField) (fails : Prop), tests = pre ++ (field, fails) :: post →
        (readContext os = .error field ↔ fails ∧ ∀ x ∈ pre, ¬x.2))
    ∧ (∀ (os : List Octet) (c : LoadedContext), readContext os = .ok c →
      let word : BitVec 16 := os.getD 0 0 ++ os.getD 1 0
      c.mask = ⟨word.getLsbD 3, word.getLsbD 4, word.getLsbD 5, word.getLsbD 6, word.getLsbD 7, word.getLsbD 8⟩
        ∧ c.stack = ((List.range (os.getD 2 0).toNat).map fun i =>
          (⟨(os.getD (3 + 2 * i) 0).toNat, (os.getD (4 + 2 * i) 0).toNat⟩ : Margin)).reverse
        ∧ c.softSeen = decide (os.getD 19 0 = 1)
        ∧ (os.getD 20 0 = 0 → c.fault = none)
        ∧ (os.getD 20 0 ≠ 0 → ∃ f : FaultRec, c.fault = some f ∧ f.kind.code = (os.getD 21 0).toNat
          ∧ f.also = os.getD 22 0 ++ os.getD 23 0 ∧ f.seq = (if os.getD 25 0 = 1 then some (os.getD 24 0) else none)
          ∧ axisCode f.axis = os.getD 26 0 ∧ sideCode f.port = os.getD 27 0
          ∧ f.tick = os.getD 28 0 ++ os.getD 29 0 ++ os.getD 30 0 ++ os.getD 31 0 ∧ f.state.code = (os.getD 32 0).toNat))
    ∧ [ContextField.depth, .entries, .softSeen, .faultSource, .faultKind, .faultAlso, .faultSequence, .faultAxis, .faultPort,
      .faultArmState].map ContextField.code = [0, 1, 2, 4, 5, 6, 7, 8, 9, 10]

/-- The records of R190 read back as what they were made of: a header, a zone entry and a profile within the ranges a write
accepts (R27 to R29), and a context record, which loads the mask, the stack, the soft-seen mark and the fault it was saved with
(R139 to R142). The octets of each record (R190): a context record carries the pending fault with source 1, else the carried one
with source 2, and the five counts in octets 33 to 37. -/
def Obligations.RecordsReadBack : Prop :=
  (∀ h : Header, headerOctets h
      = [if h.present.a then 1 else 0, if h.present.b then 1 else 0] ++ octets16 (BitVec.ofNat 16 h.label))
    ∧ (∀ (b : Box) (bays cells : Nat) (caps : Tri Nat),
      let box : List Octet := [b.lo.x, b.lo.y, b.lo.z, b.hi.x, b.hi.y, b.hi.z].flatMap fun c => octets16 (BitVec.ofInt 16 c)
      entryOctets .empty = List.replicate 19 0
        ∧ entryOctets (.home .armA b) = 1 :: (box ++ List.replicate 6 0)
        ∧ entryOctets (.home .armB b) = 2 :: (box ++ List.replicate 6 0)
        ∧ entryOctets (.bin b bays cells) = 3 :: (box ++ [octet bays, octet cells, 0, 0, 0, 0])
        ∧ entryOctets (.forbidden b) = 4 :: (box ++ List.replicate 6 0)
        ∧ entryOctets (.slow b caps) = 5 :: (box ++ [caps.x, caps.y, caps.z].flatMap fun c => octets16 (BitVec.ofNat 16 c)))
    ∧ (∀ p : Profile, (∀ q ∈ [p.origin.x, p.origin.y, p.origin.z], -2147483648 ≤ q ∧ q ≤ 2147483647) →
      let limit : BitVec 24 := BitVec.ofNat 24 p.trackingLimit
      profileOctets p = ([p.origin.x, p.origin.y, p.origin.z].flatMap fun q => octets32 (BitVec.ofInt 32 q))
        ++ ([p.sign.x, p.sign.y, p.sign.z].map fun x => if x = .plus then 0 else 1)
        ++ ([p.pitch.x, p.pitch.y, p.pitch.z, p.decel.x, p.decel.y, p.decel.z, p.stepCap.x, p.stepCap.y, p.stepCap.z].flatMap
          fun v => octets16 (BitVec.ofNat 16 v))
        ++ [octet p.baseLateral, octet p.baseBelow, octet p.baseAbove, octet p.cadence, octet p.missLimit, octet p.softLimit,
          octet p.feedbackLimit, limit.extractLsb' 16 8, limit.extractLsb' 8 8, limit.extractLsb' 0 8]
        ++ octets16 (BitVec.ofNat 16 p.settleWindow) ++ [octet p.settleLimit])
    ∧ (∀ c : ArmContext, ∃ word : BitVec 16,
      let fault (source : Octet) (r : Option FaultRec) : List Octet := r.elim (List.replicate 13 0) fun f =>
        [source, octet f.kind.code] ++ octets16 f.also ++ [f.seq.getD 0, if f.seq.isSome then 1 else 0, axisCode f.axis,
          sideCode f.port] ++ octets32 f.tick ++ [octet f.state.code]
      contextOctets c = octets16 word ++ [octet c.stack.length] ++ (c.stack.reverse.flatMap fun x => [octet x.lateral, octet x.below])
          ++ List.replicate (16 - 2 * c.stack.length) 0 ++ [if c.softSeen then 1 else 0]
          ++ (if c.fault.isSome then fault 1 c.fault else fault 2 c.carried)
          ++ [octet c.soft, octet c.miss, octet c.feedback, octet c.settleCount, octet c.settleTimer]
        ∧ ∀ n : Nat, word.getLsbD n = ((n == 3 && c.mask.trespass) || (n == 4 && c.mask.speed) || (n == 5 && c.mask.sequence)
          || (n == 6 && c.mask.tracking) || (n == 7 && c.mask.feedbackLoss) || (n == 8 && c.mask.stack)))
    ∧ (∀ (os : List Octet) (e : ZoneEntry),
      let n (i : Nat) : Nat := (os.getD i 0 ++ os.getD (i + 1) 0 : BitVec 16).toNat
      let box : Box := ⟨⟨n 2, n 4, n 6⟩, ⟨n 8, n 10, n 12⟩⟩
      readEntry os 1 = some e →
        (os.getD 1 0 = 0 ∧ e = .empty) ∨ (os.getD 1 0 = 1 ∧ e = .home .armA box) ∨ (os.getD 1 0 = 2 ∧ e = .home .armB box)
        ∨ (os.getD 1 0 = 3 ∧ e = .bin box (os.getD 14 0).toNat (os.getD 15 0).toNat) ∨ (os.getD 1 0 = 4 ∧ e = .forbidden box)
        ∨ (os.getD 1 0 = 5 ∧ e = .slow box ⟨n 14, n 16, n 18⟩))
    ∧ (∀ h : Header, h.label < 65536 → readHeader (headerOctets h) = some h)
    ∧ (∀ (index : Octet) (e : ZoneEntry),
      let coords (b : Box) : Prop := ∀ q ∈ [b.lo.x, b.lo.y, b.lo.z, b.hi.x, b.hi.y, b.hi.z], 0 ≤ q ∧ q ≤ 1023
      (e = .empty ∨ (∃ a b, e = .home a b ∧ coords b) ∨ (∃ b bays cells, e = .bin b bays cells ∧ coords b ∧ bays < 256 ∧ cells < 256)
        ∨ (∃ b, e = .forbidden b ∧ coords b)
        ∨ (∃ b caps, e = .slow b caps ∧ coords b ∧ ∀ c ∈ [caps.x, caps.y, caps.z], 1 ≤ c ∧ c ≤ 65535)) →
      readEntry (index :: entryOctets e) 1 = some e)
    ∧ (∀ (index : Octet) (p : Profile),
      (∀ q ∈ [p.origin.x, p.origin.y, p.origin.z], -2147483648 ≤ q ∧ q ≤ 2147483647) →
      (∀ v ∈ [p.pitch.x, p.pitch.y, p.pitch.z, p.decel.x, p.decel.y, p.decel.z, p.stepCap.x, p.stepCap.y, p.stepCap.z,
        p.settleWindow], v < 65536) →
      (∀ v ∈ [p.baseLateral, p.baseBelow, p.baseAbove, p.cadence, p.missLimit, p.softLimit, p.feedbackLimit, p.settleLimit], v < 256) →
      p.trackingLimit < 16777216 → readProfile (index :: profileOctets p) 1 = some p)
    ∧ ∀ c : ArmContext, stackGood c.stack →
      (∀ f : FaultRec, c.fault = some f ∨ (c.fault = none ∧ c.carried = some f) →
        f.also.getLsbD 15 = false ∧ KindSet.has f.also f.kind = false ∧ (f.port.isSome = true ↔ f.kind = .linkLoss)) →
      (contextOctets c).length = 38
        ∧ readContext (contextOctets c) = .ok ⟨c.mask, c.stack, c.softSeen, if c.fault = none then c.carried else c.fault⟩

/-! ### Placements and records at the workspace unit (1.5, 3.3) -/

/-- CHECKED_PLACEMENT (R46 to R51, R105): a record ABSENT or UNKNOWN is answered so and nothing is judged; else the five zone
violation kinds of the reach box, PLACED writing the record and renewing what the box covers, FAILED leaving everything. How a
record is read and which cells it covers: R15 to R17. -/
def Obligations.CheckedPlacementRule : Prop :=
  ∀ (m : Arm) (s : State) (pl : Placement) (rest : List ToWorkspace) (bank : Bank), s.wsTakes m (.checked pl) rest →
    s.ws.active = some bank →
    let b := reachBox pl.geom pl.env pl.p pl.p0 pl.step
    let out := (outsideWorld b).firstAxis
    let slow := bank.entries.filterMap (ZoneEntry.slowCaps b)
    let limit : Tri Nat := slow.foldl (Tri.map2 min) pl.caps
    let fast := (overSpeed limit pl.step).firstAxis
    let other := (s.ws.record m.other).readAs bank.bin
    let space := bank.homes m ++ heldSpace bank.bin s.ws.cellList m
    let outside : Prop := b.lo.x < 0 ∨ 1023 < b.hi.x ∨ b.lo.y < 0 ∨ 1023 < b.hi.y ∨ b.lo.z < 0 ∨ 1023 < b.hi.z
    let forbidden : Prop := ∃ box ∈ bank.forbiddens, b.meets box = true
    let near : Prop := ∃ box ∈ other, b.meets box = true
    let trespass : Prop := b.coveredBy space = false
    let speeding : Prop := limit.x < pl.step.x.natAbs ∨ limit.y < pl.step.y.natAbs ∨ limit.z < pl.step.z.natAbs
    let gives (w : Workspace) (v : Verdict) : Prop := exec (.checkedPlacement m) s
      = .next ((s.setArm m { s.arm m with toWs := rest, verdict := some v }).setWs w)
    (s.ws.record m = .absent → gives s.ws .absent)
    ∧ (s.ws.record m = .unknown → gives s.ws .unknown)
    ∧ (s.ws.record m ≠ .absent → s.ws.record m ≠ .unknown →
      (¬outside → ¬forbidden → ¬near → ¬trespass → ¬speeding → gives { s.ws with
        records := s.ws.records.set m (.motion b (motionBox pl.geom pl.p pl.p0 pl.step).limit pl.env),
        cells := s.ws.cells.map fun cells => if bank.bin = none then cells else
          mapCells (fun i c => if c.heldBy m ∧ (bank.bin.any fun g => b.meets (g.columnAt i)) then c.renew s.ws.tick else c) 0 cells }
        .placed)
      ∧ (outside ∨ forbidden ∨ near ∨ trespass ∨ speeding → ∃ kinds : KindSet, gives s.ws (.failed kinds out fast s.ws.tick)
        ∧ ∀ k : FaultKind, KindSet.has kinds k = true ↔ (k = .range ∧ outside) ∨ (k = .forbidden ∧ forbidden)
          ∨ (k = .proximity ∧ near) ∨ (k = .trespass ∧ trespass) ∨ (k = .speed ∧ speeding)))
    ∧ (∀ ax : Axis, out = some ax ↔ (outsideWorld b).get ax = true ∧ ∀ prior : Axis, prior.place < ax.place → (outsideWorld b).get prior = false)
    ∧ (∀ c : Box, c ∈ space ↔ ZoneEntry.home m c ∈ bank.entries
      ∨ ∃ g i, bank.bin = some g ∧ (∃ rec, s.ws.cellList[i]? = some rec ∧ rec.heldBy m = true) ∧ c = g.columnAt i)
    ∧ (∀ ax : Axis, fast = some ax ↔ (limit.get ax < (pl.step.get ax).natAbs
      ∧ ∀ prior : Axis, prior.place < ax.place → (pl.step.get prior).natAbs ≤ limit.get prior))
    ∧ [Axis.axisX, .axisY, .axisZ].map Axis.place = [0, 1, 2]
    ∧ (∀ (e : ZoneEntry) (caps : Tri Nat), ZoneEntry.slowCaps b e = some caps ↔ ∃ box, e = .slow box caps ∧ b.meets box = true)
    ∧ (∀ box : Box, box ∈ bank.forbiddens ↔ .forbidden box ∈ bank.entries)
    ∧ (∀ g : BinGeom, bank.bin = some g ↔ ∃ pre post, bank.entries = pre ++ .bin g.box g.bays g.cells :: post
      ∧ ∀ (box : Box) (bays cells : Nat), .bin box bays cells ∉ pre)
    ∧ (∀ (now : Tick) (owner : Arm) (lease : Nat) (deadline : Tick), CellRec.renew now .free = .free
      ∧ CellRec.renew now (.held owner lease deadline) = .held owner lease (now + BitVec.ofNat 32 lease))
    ∧ (∀ (bin : Option BinGeom) (box part : Box) (env : Envelope),
      BoxRecord.absent.readAs bin = none ∧ BoxRecord.unknown.readAs bin = bin.map (·.box)
        ∧ (BoxRecord.rest box env).readAs bin = some box ∧ (BoxRecord.motion box part env).readAs bin = some box)
    ∧ (∀ (g : BinGeom) (i : Nat) (box part : Box) (env : Envelope),
      BoxRecord.absent.covers g i = false ∧ BoxRecord.unknown.covers g i = true
        ∧ (BoxRecord.rest box env).covers g i = box.meets (g.columnAt i)
        ∧ (BoxRecord.motion box part env).covers g i = box.meets (g.columnAt i))
    ∧ (∀ (g : BinGeom) (bay cell : Nat), cell < g.cells →
      let pitch := (g.box.hi.x - g.box.lo.x + 1) / (g.bays : Int)
      let width := (g.box.hi.y - g.box.lo.y + 1) / (g.cells : Int)
      g.columnAt (bay * g.cells + cell)
        = ⟨⟨g.box.lo.x + bay * pitch, g.box.lo.y + cell * width, g.box.lo.z⟩,
          ⟨g.box.lo.x + (bay + 1) * pitch - 1, g.box.lo.y + (cell + 1) * width - 1, g.box.hi.z⟩⟩)
    ∧ ∀ b c : Box, b.meets c = true ↔ b.lo.x ≤ c.hi.x ∧ c.lo.x ≤ b.hi.x ∧ b.lo.y ≤ c.hi.y ∧ c.lo.y ≤ b.hi.y
      ∧ b.lo.z ≤ c.hi.z ∧ c.lo.z ≤ b.hi.z

/-- FORCED_PLACEMENT (R13), REST_UPDATE (R11, R14), SET_RECORD_UNKNOWN (R71, R73), STATE_REPORT (R97) and
HEADER_PRESENCE_REPORT (R175). A forced placement finds the record MOTION (StepKeepsArmLaws). -/
def Obligations.RecordUpdateRule : Prop :=
  ∀ (m : Arm) (s : State) (rest : List ToWorkspace),
    let t := s.setArm m { s.arm m with toWs := rest }
    let record (r : BoxRecord) : State := t.setWs { s.ws with records := s.ws.records.set m r }
    (∀ (p p0 step : Tri Int) (geom : Geometry) (old part : Box) (env : Envelope), s.wsTakes m (.forced p p0 step geom) rest →
      s.ws.record m = .motion old part env →
      let b := reachBox geom env p p0 step
      exec (.forcedPlacement m) s = .next (t.setWs { s.ws with
        records := s.ws.records.set m (.motion b (motionBox geom p p0 step).limit env),
        cells := s.ws.cells.map fun cells => if s.ws.bin = none then cells else
          mapCells (fun i c => if c.heldBy m ∧ (s.ws.bin.any fun g => b.meets (g.columnAt i)) then c.renew s.ws.tick else c) 0 cells }))
    ∧ (∀ (p : Tri Int) (env : Envelope) (geom : Geometry), s.wsTakes m (.rest p env geom) rest →
      exec (.restUpdate m) s = .next (record (if s.ws.record m = .absent then .absent
        else .rest ((pointBox geom p).grow env).limit env)))
    ∧ (s.wsTakes m .setUnknown rest →
      exec (.setRecordUnknown m) s = .next (record (if s.ws.record m = .absent then .absent else .unknown)))
    ∧ (∀ st : ArmState, s.wsTakes m (.stateReport st) rest →
      exec (.stateReport m) s = .next (t.setWs { s.ws with reported := s.ws.reported.set m st }))
    ∧ (∀ (present : PerArm Bool) (later : List FromTable), s.table.toWs = .presence present :: later →
      exec .headerPresenceReport s
        = .next ((s.setTable { s.table with toWs := later }).setWs { s.ws with headerPresent := present }))
    ∧ ∀ (now : Tick) (owner : Arm) (lease : Nat) (deadline : Tick), CellRec.renew now .free = .free
      ∧ CellRec.renew now (.held owner lease deadline) = .held owner lease (now + BitVec.ofNat 32 lease)

/-! ### Bin cells and claims (chapters 5 and 6) -/

/-- CLAIM (R98 to R101, R113 to R115): the refusals in their order, the grant test of R99, the grant, and the queue. The codes of
the causes of R101 are log entry 14. -/
def Obligations.ClaimGrantedQueuedOrRefused : Prop :=
  [ClaimCause.heldByOther, .occupied, .queuedBefore].map ClaimCause.code = [0, 1, 2]
  ∧ ∀ (m : Arm) (s : State) (r : Request) (rest : List Request), s.wsTakesRequest m .claim r rest →
    let w : Workspace := { s.ws with requests := rest }
    let run : Run := ⟨(r.args.getD 0 0).toNat, (r.args.getD 1 0).toNat, (r.args.getD 2 0).toNat⟩
    let lease := (r.args.getD 3 0).toNat
    let wait := (r.args.getD 4 0).toNat
    let tag := r.args.getD 5 0
    let gives (v : Workspace) (ans : Answer) : Prop := exec (.claim m) s = .next ((s.setWs v).answer m ans)
    let refuse (why : Reason) (data : List Octet) : Prop := gives w (answerRefused r.head why data)
    (w.bin = none → refuse .noBin [])
    ∧ ∀ (bank : Bank) (g : BinGeom), w.active = some bank → w.bin = some g →
      let able : Prop := w.reported.get m = .standby ∨ w.reported.get m = .run
      let ranged : Prop := run.bay < g.bays ∧ 1 ≤ run.length ∧ run.length ≤ 16 ∧ run.first + run.length ≤ g.cells ∧ 1 ≤ lease
      let index (c : Nat) : Nat := run.bay * g.cells + c
      let held (c : Nat) : Prop := (cellAt w.cellList (index c)).heldBy m.other = true
      let occupied (c : Nat) : Prop := (w.record m.other).covers g (index c) = true
      let queued (c : Nat) : Prop := ∃ e ∈ w.queue, e.arm = m.other ∧ e.run.bay = run.bay ∧ e.run.first ≤ c ∧ c < e.run.first + e.run.length
      let mine (c : Nat) : Prop := run.first ≤ c ∧ c < run.first + run.length
      let free (c : Nat) : Prop := ¬held c ∧ ¬occupied c ∧ ¬queued c
      (bank.present m = false → refuse .absent [])
      ∧ (bank.present m = true → ¬able → refuse .state [])
      ∧ (bank.present m = true → able → ¬ranged → refuse .range [])
      ∧ (bank.present m = true → able → ranged → (∀ c, mine c → free c) → gives { w with
          cells := w.cells.map (mapCells (fun i c => if index run.first ≤ i ∧ i < index run.first + run.length then .held m lease (w.tick + BitVec.ofNat 32 lease) else c) 0) }
        (answerOk r.head ([0, octet run.bay, octet run.first, octet run.length, tag] ++ octets32 (w.tick + BitVec.ofNat 32 lease))))
      ∧ ∀ (c : Nat) (cause : ClaimCause), bank.present m = true → able → ranged → mine c → (∀ j, mine j → j < c → free j) →
        (held c ∧ cause = .heldByOther ∨ ¬held c ∧ occupied c ∧ cause = .occupied
          ∨ ¬held c ∧ ¬occupied c ∧ queued c ∧ cause = .queuedBefore) →
        let blocking : List Octet := [cause.code, octet run.bay, octet c]
        let clashes (e : QueueEntry) : Prop := e.arm = m ∧ (e.tag = tag ∨ (e.run.bay = run.bay
          ∧ e.run.first < run.first + run.length ∧ run.first < e.run.first + e.run.length))
        let claims := (w.queue.filter fun e => e.arm == m).length
        (wait = 0 → refuse .busy blocking)
        ∧ (∀ (pre post : List QueueEntry) (e : QueueEntry), 1 ≤ wait → w.queue = pre ++ e :: post → clashes e →
          (∀ x ∈ pre, ¬clashes x) → refuse .duplicate [e.tag])
        ∧ (1 ≤ wait → (∀ e ∈ w.queue, ¬clashes e) → 8 ≤ w.queue.length → refuse .queueFull [])
        ∧ (1 ≤ wait → (∀ e ∈ w.queue, ¬clashes e) → w.queue.length < 8 → 4 ≤ claims + w.outcomeCount.get m →
          refuse .quota [octet claims, octet (w.outcomeCount.get m)])
        ∧ (1 ≤ wait → (∀ e ∈ w.queue, ¬clashes e) → w.queue.length < 8 → claims + w.outcomeCount.get m < 4 →
          gives { w with queue := w.queue ++ [⟨m, tag, run, lease, w.tick + BitVec.ofNat 32 wait⟩] }
            ⟨r.head, .queued, none, [tag, octet run.bay, octet run.first, octet run.length] ++ blocking
              ++ octets32 (w.tick + BitVec.ofNat 32 wait) ++ [octet (w.queue.length + 1)]⟩)

/-- RENEW (R102), RELEASE (R103), CANCEL (R122) and CELL_READ (R104, R190). The outcomes a RELEASE makes are in their FIFOs when
its event ends. When a port takes what was sent to it is log entry 6; a RENEW to a lease length of 1 just before a scan visit is
log entry 36. -/
def Obligations.RunRequestRule : Prop :=
  (∀ (m : Arm) (s : State) (r : Request) (rest : List Request),
    let w : Workspace := { s.ws with requests := rest }
    let run : Run := ⟨(r.args.getD 0 0).toNat, (r.args.getD 1 0).toNat, (r.args.getD 2 0).toNat⟩
    let lease := (r.args.getD 3 0).toNat
    let gives (i : Instr) (v : Workspace) (ans : Answer) : Prop := exec i s = .next ((s.setWs v).answer m ans)
    let refuse (i : Instr) (why : Reason) (data : List Octet) : Prop := gives i w (answerRefused r.head why data)
    (w.cells = none → (s.wsTakesRequest m .renew r rest → refuse (.renew m) .noBin [])
      ∧ (s.wsTakesRequest m .release r rest → refuse (.release m) .noBin [])
      ∧ (s.wsTakesRequest m .cancel r rest → refuse (.cancel m) .noBin [])
      ∧ (s.wsTakesRequest m .cellRead r rest → refuse (.cellRead m) .noBin []))
    ∧ ∀ (cells : List CellRec) (g : BinGeom), w.cells = some cells → w.bin = some g →
      let ranged : Prop := run.bay < g.bays ∧ 1 ≤ run.length ∧ run.length ≤ 16 ∧ run.first + run.length ≤ g.cells
      let index (c : Nat) : Nat := run.bay * g.cells + c
      let mine (c : Nat) : Prop := run.first ≤ c ∧ c < run.first + run.length
      let held (c : Nat) : Prop := (cellAt cells (index c)).heldBy m = true
      let covered (c : Nat) : Prop := (w.record m).covers g (index c) = true
      (s.wsTakesRequest m .renew r rest →
        (¬ranged → refuse (.renew m) .range [])
        ∧ (∀ c, ranged → mine c → ¬held c → (∀ j, mine j → j < c → held j) → refuse (.renew m) .lapsed [octet run.bay, octet c])
        ∧ (ranged → (∀ c, mine c → held c) →
          let renewed := mapCells (fun i c => if index run.first ≤ i ∧ i < index run.first + run.length then c.renewWith lease w.tick else c) 0 cells
          gives (.renew m) { w with cells := some renewed } (answerOk r.head ([octet run.bay, octet run.first, octet run.length]
            ++ ((List.range run.length).map fun j => (cellAt renewed (index (run.first + j))).deadlineOctets).flatten))))
      ∧ (s.wsTakesRequest m .release r rest →
        (¬ranged → refuse (.release m) .range [])
        ∧ (∀ c, ranged → mine c → ¬held c → (∀ j, mine j → j < c → held j) → refuse (.release m) .notHeld [octet run.bay, octet c])
        ∧ (∀ c, ranged → (∀ j, mine j → held j) → mine c → covered c → (∀ j, mine j → j < c → ¬covered j) →
          refuse (.release m) .inUse [octet run.bay, octet c])
        ∧ (ranged → (∀ j, mine j → held j) → (∀ j, mine j → ¬covered j) →
          let v := ({ w with
            cells := some (mapCells (fun i c => if index run.first ≤ i ∧ i < index run.first + run.length then .free else c) 0 cells) } : Workspace).reevaluate
          let enters (t : State) (n : Arm) : State :=
            if (w.toPort.get n).length < (v.toPort.get n).length then t.takeAllFromWs n else t
          exec (.release m) s = .next (enters (enters ((s.setWs v).answer m (answerOk r.head [])) .armA) .armB)))
      ∧ (s.wsTakesRequest m .cancel r rest →
        let tag := r.args.getD 0 0
        ((∀ e ∈ w.queue, ¬(e.arm = m ∧ e.tag = tag)) → refuse (.cancel m) .notFound [])
        ∧ ∀ (pre post : List QueueEntry) (e : QueueEntry), w.queue = pre ++ e :: post → e.arm = m → e.tag = tag →
          (∀ x ∈ pre ++ post, ¬(x.arm = m ∧ x.tag = tag)) →
          gives (.cancel m) ({ w with queue := pre ++ post } : Workspace).reevaluate
            (answerOk r.head [tag, octet e.run.bay, octet e.run.first, octet e.run.length]))
      ∧ (s.wsTakesRequest m .cellRead r rest →
        let bay := (r.args.getD 0 0).toNat
        (g.bays ≤ bay → refuse (.cellRead m) .range [])
        ∧ (bay < g.bays → gives (.cellRead m) w (answerOk r.head (octets32 w.tick ++ [octet w.scan, octet g.bays, octet g.cells]
          ++ ((List.range g.cells).map fun c => w.cellOctets g (bay * g.cells + c)).flatten)))))
    ∧ (∀ (lease : Nat) (now : Tick) (owner : Arm) (old : Nat) (deadline : Tick), CellRec.renewWith lease now .free = .free
      ∧ CellRec.renewWith lease now (.held owner old deadline)
        = .held owner (if lease = 0 then old else lease) (now + BitVec.ofNat 32 (if lease = 0 then old else lease))
      ∧ CellRec.deadlineOctets (.held owner old deadline) = octets32 deadline)
    ∧ ∀ (w : Workspace) (g : BinGeom) (i : Nat),
      let cover (n : Arm) : Nat := if (w.record n).covers g i then 1 else 0
      (cellAt w.cellList i = .free → w.cellOctets g i = [octet (4 * cover .armA + 8 * cover .armB), 0, 0])
      ∧ ∀ (owner : Arm) (lease : Nat) (deadline : Tick), cellAt w.cellList i = .held owner lease deadline →
        w.cellOctets g i = [octet (1 + (if owner = .armB then 2 else 0) + 4 * cover .armA + 8 * cover .armB), octet lease,
          octet (if 0 ≤ (w.tick - deadline).toInt then 0 else (deadline - w.tick).toNat)]

/-- The lease tick (R94, R106 to R108, R120): LEASE_TICK, and LEASE_LAPSE and WAIT_EXPIRED as the ticks in which a cell lapses or
a wait runs out (log entry 5), which change nothing where that does not come about. Each cell that lapses is raised once, in cell
order; a FREE cell stays FREE. Each expired claim hands its claimant's port
WAIT_EXPIRED, in queue order, and raises that arm's outcome count (R114, R120). Without a cell table the count rises and nothing
else is done. A cell renewed with a lease length of 1 just before its visit: log entry 36. -/
def Obligations.LeaseTickRule : Prop :=
  (∀ (now d : Tick), reached now d = true ↔ 0 ≤ (now - d).toInt)
    ∧ (∀ (s : State), s.ws.ticksDue ≠ 0 → s.ws.cells = none →
      exec .leaseTick s = .next (s.setWs { s.ws with tick := s.ws.tick + 1, ticksDue := s.ws.ticksDue - 1 })
        ∧ exec .leaseLapse s = .next s ∧ exec .waitExpired s = .next s)
    ∧ (∀ (f : Nat → CellRec → CellRec) (cells : List CellRec) (i : Nat), (mapCells f 0 cells)[i]? = cells[i]?.map (f i))
    ∧ ∀ (s : State) (cells : List CellRec) (g : BinGeom), s.ws.ticksDue ≠ 0 → s.ws.cells = some cells → s.ws.bin = some g →
      let now := s.ws.tick + 1
      let visited (i : Nat) : Prop := i / g.cells = s.ws.scan
      let after1 (i : Nat) (c : CellRec) : CellRec := if visited i then s.ws.riseTick.visitCell g i c else c
      let lapses (i : Nat) : Prop := ∃ owner lease d, cells[i]? = some (.held owner lease d) ∧ visited i
        ∧ (s.ws.record owner).covers g i = false ∧ reached now d = true
      ∃ raiseOf : Nat → List Raise,
        let raised := (List.range cells.length).flatMap raiseOf
        let part3 := ({ s.ws with
          tick := now, ticksDue := s.ws.ticksDue - 1, cells := some (mapCells after1 0 cells),
          raises := s.ws.raises ++ raised } : Workspace).reevaluate
        let expiring := part3.queue.filter fun e => reached now e.deadline
        let outcomes (n : Arm) : List ToPort := (expiring.filter fun e => e.arm == n).map fun e => .outcome ⟨e.tag, .waitExpired, e.run⟩
        let t := s.setWs { part3 with
          queue := part3.queue.filter fun e => !reached now e.deadline,
          toPort := ⟨part3.toPort.a ++ outcomes .armA, part3.toPort.b ++ outcomes .armB⟩,
          outcomeCount := ⟨part3.outcomeCount.a + (outcomes .armA).length, part3.outcomeCount.b + (outcomes .armB).length⟩,
          scan := if s.ws.scan + 1 < g.bays then s.ws.scan + 1 else 0 }
        exec .leaseTick s = .next t
          ∧ ((∃ i, lapses i) → exec .leaseLapse s = .next t)
          ∧ ((∀ i, ¬lapses i) → exec .leaseLapse s = .next s)
          ∧ (expiring ≠ [] → exec .waitExpired s = .next t)
          ∧ (expiring = [] → exec .waitExpired s = .next s)
          ∧ (∀ i : Nat, ¬lapses i → raiseOf i = [])
          ∧ (∀ (i : Nat) (owner : Arm) (lease : Nat) (d : Tick), cells[i]? = some (.held owner lease d) → lapses i →
            raiseOf i = [⟨owner, .leaseLapsed, .leaseLapsed (i / g.cells) (i % g.cells) lease now⟩])
          ∧ (∀ i : Nat, s.ws.riseTick.visitCell g i .free = .free)
          ∧ (∀ (i : Nat) (owner : Arm) (lease : Nat) (d : Tick),
            s.ws.riseTick.visitCell g i (.held owner lease d)
              = if (s.ws.record owner).covers g i then .held owner lease (now + BitVec.ofNat 32 lease)
                else if reached now d then .free else .held owner lease d)

/-- Re-evaluation (R117, R118) and CLAIM_REMOVAL (R89, R126): at a removal the port first takes what was handed to it before, so
that the discard is the next thing it takes and no outcome of the arm enters the FIFO between; the re-evaluation is the walk over
the queue, oldest first; a grantable claim is granted and its outcome handed over, every other stays, and the claims kept so far
are what a younger claim of the other arm may not overtake. When a port takes what was sent to it is log entry 6. -/
def Obligations.ReevaluationRule : Prop :=
  (∀ w : Workspace, w.bin = none → w.reevaluate = w)
    ∧ (∀ (w : Workspace) (g : BinGeom), w.bin = some g → w.reevaluate = Workspace.walk g [] w w.queue)
    ∧ (∀ (w : Workspace) (g : BinGeom) (kept : List QueueEntry), Workspace.walk g kept w [] = { w with queue := kept })
    ∧ (∀ (w : Workspace) (g : BinGeom) (kept : List QueueEntry) (e : QueueEntry) (rest : List QueueEntry),
      let index (c : Nat) : Nat := e.run.bay * g.cells + c
      let mine (c : Nat) : Prop := e.run.first ≤ c ∧ c < e.run.first + e.run.length
      let free (c : Nat) : Prop := (cellAt w.cellList (index c)).heldBy e.arm.other = false
        ∧ (w.record e.arm.other).covers g (index c) = false
        ∧ ∀ x ∈ kept, x.arm = e.arm.other → x.run.bay = e.run.bay → ¬(x.run.first ≤ c ∧ c < x.run.first + x.run.length)
      ((∀ c, mine c → free c) → Workspace.walk g kept w (e :: rest) = Workspace.walk g kept { w with
          cells := w.cells.map (mapCells (fun i c =>
            if index e.run.first ≤ i ∧ i < index e.run.first + e.run.length then .held e.arm e.lease (w.tick + BitVec.ofNat 32 e.lease) else c) 0),
          toPort := w.toPort.set e.arm (w.toPort.get e.arm ++ [.outcome ⟨e.tag, .granted, e.run⟩]),
          outcomeCount := w.outcomeCount.set e.arm (w.outcomeCount.get e.arm + 1) } rest)
      ∧ ((∃ c, mine c ∧ ¬free c) → Workspace.walk g kept w (e :: rest) = Workspace.walk g (kept ++ [e]) w rest))
    ∧ ∀ (m : Arm) (s : State) (rest : List ToWorkspace), s.wsTakes m .claimRemoval rest →
      let t := (s.setArm m { s.arm m with toWs := rest }).takeAllFromWs m
      let w := ({ s.ws with
        queue := s.ws.queue.filter fun e => decide (e.arm ≠ m), toPort := s.ws.toPort.set m [.discard] } : Workspace).reevaluate
      exec (.claimRemoval m) s = .next (t.setWs w) ∧ w.toPort.get m = [.discard]

/-! ### The report unit (chapter 11) -/

/-- EVENT_RAISE (R179), REPORT_TICK (R178), EVENTS_READ (R184), EVENTS_CLEAR (R185) and NOTICE_SET (R181). Octet forms: log entries 12
and 13; the order of the occurrences in an EVENTS_CLEAR answer is log entry 35. The octets of each flag of an EVENTS_READ answer,
in kind order, with the width of its detail; those of a detail are in NoticeSelectionRule. -/
def Obligations.ReportUnitRule : Prop :=
  (∀ (b : Block) (s : State) (x : Raise) (rest : List Raise), s.raisesOf b = x :: rest →
      let f := ((s.report.flagsOf x.arm).getD x.kind.code Flag.clear)
      exec (.eventRaise b) s = .next ((s.setRaises b rest).setReport { s.report with
        flags := s.report.flags.set x.arm ((s.report.flagsOf x.arm).set x.kind.code
          ⟨true, false, if f.occurrences < 255 then f.occurrences + 1 else 255, some x.detail, some s.report.tick⟩) }))
    ∧ (∀ s : State, s.report.ticksDue ≠ 0 → exec .reportTick s = .next (s.setReport { s.report with
        tick := s.report.tick + 1, ticksDue := s.report.ticksDue - 1 }))
    ∧ ∀ (m : Arm) (s : State) (r : Request) (rest : List Request),
      let u : ReportUnit := { s.report with requests := rest }
      let flag (b : Bool) : Octet := if b then 1 else 0
      let gives (c : Instr) (v : ReportUnit) (ans : Answer) : Prop := exec c s = .next ((s.setReport v).answer m ans)
      (s.reportTakes m .eventsRead r rest → ∃ flags : List Octet, gives (.eventsRead m) u (answerOk r.head
          (flags ++ octets32 u.tick ++ (u.settings.map fun n => [flag n.enable, octet n.priority]).flatten))
        ∧ flags = (List.zipWith (fun width f => [flag f.set, flag f.noticed, octet f.occurrences]
            ++ f.detail.elim (0 :: List.replicate width 0) (fun d => 1 :: detailOctets d)
            ++ f.tick.elim [0, 0, 0, 0, 0] (fun tick => 1 :: octets32 tick))
          [2, 1, 1, 1, 2, 2, 2, 1, 8, 1, 1, 2, 1, 2, 2, 7, 4, 1, 2, 2, 2, 7, 11, 5] (u.flagsOf m)).flatten)
      ∧ (s.reportTakes m .eventsClear r rest →
        let marks : BitVec 32 := r.args.getD 0 0 ++ r.args.getD 1 0 ++ r.args.getD 2 0 ++ r.args.getD 3 0
        ((∃ n : Nat, 24 ≤ n ∧ n < 32 ∧ marks.getLsbD n = true) → gives (.eventsClear m) u (answerRefused r.head .range []))
        ∧ ((∀ n : Nat, 24 ≤ n → n < 32 → marks.getLsbD n = false) → ∃ cleared : List Flag, ∃ counts : List Octet,
          gives (.eventsClear m) { u with flags := u.flags.set m cleared } (answerOk r.head counts)
          ∧ cleared.length = (u.flagsOf m).length
          ∧ (∀ n : Nat, n < cleared.length → cleared[n]? = if marks.getLsbD n then some ⟨false, false, 0, none, none⟩ else (u.flagsOf m)[n]?)
          ∧ counts = ((List.range (u.flagsOf m).length).filter fun n => marks.getLsbD n).map fun n =>
            octet ((u.flagsOf m).getD n Flag.clear).occurrences))
      ∧ (s.reportTakes m .noticeSet r rest →
        let kind := (r.args.getD 0 0).toNat
        let enable := (r.args.getD 1 0).toNat
        let priority := (r.args.getD 2 0).toNat
        let before := u.settings.getD kind ⟨false, 0⟩
        (23 < kind ∨ 1 < enable ∨ 7 < priority → gives (.noticeSet m) u (answerRefused r.head .range []))
        ∧ (kind ≤ 23 → enable ≤ 1 → priority ≤ 7 → gives (.noticeSet m) { u with
            settings := u.settings.set kind ⟨decide (enable = 1), priority⟩ }
          (answerOk r.head [flag before.enable, octet before.priority, octet enable, octet priority])))

/-! ### Tables, agreement and commit (chapters 2 and 8) -/

/-- TABLE_WRITE (R27), HEADER_WRITE (R28), PROFILE_WRITE (R29) and TABLES_RESET (R31), with the effects of R26: the new shadow, its
digest and validation result, both records emptied with AGREEMENT_DROPPED for each that held a digest, arm A's raised first (log
entry 18). What the digest is: the check of R34, bit by bit, over the canonical form. What the validation result is: the first
of the tests of R36 and R37 that fails, in the order of R35, or passed; its octets are log entries 12 and 14. -/
def Obligations.ShadowWriteRule : Prop :=
  (∀ (m : Arm) (s : State) (r : Request) (rest : List TableEvent),
      let t : TableUnit := { s.table with arrivals := rest }
      let dropped (cause : DropCause) : List Raise :=
        (t.agreement.a.toList.map fun d => ⟨.armA, .agreementDropped, .dropped cause d none⟩)
          ++ (t.agreement.b.toList.map fun d => ⟨.armB, .agreementDropped, .dropped cause d none⟩)
      let written (cause : DropCause) (b : Bank) : TableUnit := { t with
        shadow := b, digest := digestOf b, result := validate b, agreement := ⟨none, none⟩, raises := t.raises ++ dropped cause }
      let ok (c : Instr) (v : TableUnit) : Prop :=
        exec c s = .next ((s.setTable v).answer m (answerOk r.head (octets16 v.digest ++ validationOctets v.result)))
      let refuse (c : Instr) : Prop := exec c s = .next ((s.setTable t).answer m (answerRefused r.head .range []))
      let index := (r.args.getD 0 0).toNat
      (s.tableTakes m .tableWrite r rest →
        (23 < index ∨ readEntry r.args 1 = none → refuse (.tableWrite m))
        ∧ ∀ e : ZoneEntry, index ≤ 23 → readEntry r.args 1 = some e →
          ok (.tableWrite m) (written .write { t.shadow with entries := t.shadow.entries.set index e }))
      ∧ (s.tableTakes m .headerWrite r rest →
        (readHeader r.args = none → refuse (.headerWrite m))
        ∧ ∀ h : Header, readHeader r.args = some h →
          ok (.headerWrite m) { written .write { t.shadow with header := h } with toWs := t.toWs ++ [.presence h.present] })
      ∧ (s.tableTakes m .profileWrite r rest →
        (1 < index ∨ readProfile r.args 1 = none → refuse (.profileWrite m))
        ∧ ∀ p : Profile, index ≤ 1 → readProfile r.args 1 = some p →
          ok (.profileWrite m) (written .write { t.shadow with
            profiles := if index = 0 then ⟨p, t.shadow.profiles.b⟩ else ⟨t.shadow.profiles.a, p⟩ }))
      ∧ (s.tableTakes m .tablesReset r rest →
        ok (.tablesReset m) { written .tablesReset Bank.powerOn with toWs := t.toWs ++ [.presence ⟨false, false⟩] }))
    ∧ (∀ os : List Octet, readHeader os = none ↔ 1 < (os.getD 0 0).toNat ∨ 1 < (os.getD 1 0).toNat)
    ∧ (∀ os : List Octet, readProfile os 1 = none
      ↔ 1 < (os.getD 13 0).toNat ∨ 1 < (os.getD 14 0).toNat ∨ 1 < (os.getD 15 0).toNat)
    ∧ (∀ os : List Octet,
      let n (i : Nat) : Nat := (os.getD i 0 ++ os.getD (i + 1) 0 : BitVec 16).toNat
      readEntry os 1 = none ↔ 5 < (os.getD 1 0).toNat
        ∨ (1 ≤ (os.getD 1 0).toNat ∧ ∃ j : Nat, j < 6 ∧ 1023 < n (2 + 2 * j))
        ∨ (os.getD 1 0 = 5 ∧ ∃ j : Nat, j < 3 ∧ n (14 + 2 * j) = 0))
    ∧ check [] = 0xFFFF#16
    ∧ (∀ (os : List Octet) (o : Octet),
      let bit (r : BitVec 16) (n : Nat) : BitVec 16 := if r.getLsbD 15 = o.getLsbD n then r <<< 1 else (r <<< 1) ^^^ 0x1021#16
      check (os ++ [o]) = [7, 6, 5, 4, 3, 2, 1, 0].foldl bit (check os))
    ∧ (∀ b : Bank, digestOf b = check (headerOctets b.header ++ b.entries.flatMap entryOctets ++ profileOctets b.profiles.a
      ++ profileOctets b.profiles.b))
    ∧ (∀ b : Bank,
      let shape (e : ZoneEntry) (box : Box) : Prop := (∃ a, e = .home a box) ∨ (∃ bays cells, e = .bin box bays cells)
        ∨ e = .forbidden box ∨ ∃ caps, e = .slow box caps
      let homeless (a : Arm) : Prop := b.header.present.get a = true ∧ ∀ box, .home a box ∉ b.entries
      let entry (i : Nat) : List (ValFailure × Prop) :=
        let e := b.entries.getD i .empty
        [(⟨.entry i, .badBox, none⟩, ∃ box, shape e box ∧ (box.hi.x < box.lo.x ∨ box.hi.y < box.lo.y ∨ box.hi.z < box.lo.z)),
          (⟨.entry i, .absentHome, none⟩, ∃ a box, e = .home a box ∧ b.header.present.get a = false),
          (⟨.entry i, .homeInBin, none⟩, ∃ a box other bays cells,
            e = .home a box ∧ .bin other bays cells ∈ b.entries ∧ box.meets other = true),
          (⟨.entry i, .twoBins, none⟩, (∃ box bays cells, e = .bin box bays cells)
            ∧ ∃ j box bays cells, j < i ∧ b.entries[j]? = some (.bin box bays cells)),
          (⟨.entry i, .badGrid, none⟩, ∃ box bays cells, e = .bin box bays cells ∧ (bays < 1 ∨ 8 < bays ∨ cells < 1 ∨ 16 < cells
            ∨ (box.hi.x - box.lo.x + 1) % (bays : Int) ≠ 0 ∨ (box.hi.y - box.lo.y + 1) % (cells : Int) ≠ 0))]
      let profile (a : Arm) : List (ValFailure × Prop) :=
        let p := b.profiles.get a
        let fields : List (ProfileField × Nat × Nat × Nat) := [
          (.pitch .axisX, p.pitch.x, 1, 65535), (.pitch .axisY, p.pitch.y, 1, 65535), (.pitch .axisZ, p.pitch.z, 1, 65535),
          (.decel .axisX, p.decel.x, 1, 65535), (.decel .axisY, p.decel.y, 1, 65535), (.decel .axisZ, p.decel.z, 1, 65535),
          (.stepCap .axisX, p.stepCap.x, 1, 65535), (.stepCap .axisY, p.stepCap.y, 1, 65535), (.stepCap .axisZ, p.stepCap.z, 1, 65535),
          (.baseLateral, p.baseLateral, 0, 63), (.baseBelow, p.baseBelow, 0, 63), (.baseAbove, p.baseAbove, 0, 63),
          (.cadence, p.cadence, 1, 32), (.missLimit, p.missLimit, 1, 8), (.softLimit, p.softLimit, 1, 15),
          (.feedbackLimit, p.feedbackLimit, 1, 8), (.trackingLimit, p.trackingLimit, 1, 1048575), (.settleLimit, p.settleLimit, 1, 64)]
        fields.map fun x => (⟨.profile a, .badProfile, some x.1⟩, x.2.1 < x.2.2.1 ∨ x.2.2.2 < x.2.1)
      let tests : List (ValFailure × Prop) := [(⟨.header, .noHome, none⟩, homeless .armA ∨ homeless .armB)]
        ++ (List.range b.entries.length).flatMap entry ++ profile .armA ++ profile .armB
      ((∀ x ∈ tests, ¬x.2) → validate b = .passed)
        ∧ ∀ (pre post : List (ValFailure × Prop)) (failure : ValFailure) (fails : Prop), tests = pre ++ (failure, fails) :: post →
          fails → (∀ x ∈ pre, ¬x.2) → validate b = .failed failure)
    ∧ validationOctets .passed = [0, 0, 0, 0, 0]
    ∧ (∀ (item : BankItem) (why : ValReason) (field : ProfileField),
      validationOctets (.failed ⟨item, why, none⟩) = [1, item.code, why.code, 0, 0]
        ∧ validationOctets (.failed ⟨item, why, some field⟩) = [1, item.code, why.code, 1, field.code])
    ∧ BankItem.header.code = 0 ∧ (∀ i : Nat, (BankItem.entry i).code = octet (i + 1))
    ∧ (BankItem.profile .armA).code = 25 ∧ (BankItem.profile .armB).code = 26
    ∧ [ValReason.badBox, .twoBins, .badGrid, .homeInBin, .absentHome, .noHome, .badProfile].map ValReason.code = [0, 1, 2, 3, 4, 5, 6]
    ∧ [ProfileField.pitch .axisX, .pitch .axisY, .pitch .axisZ, .decel .axisX, .decel .axisY, .decel .axisZ, .stepCap .axisX,
      .stepCap .axisY, .stepCap .axisZ, .baseLateral, .baseBelow, .baseAbove, .cadence, .missLimit, .softLimit, .feedbackLimit,
      .trackingLimit, .settleLimit].map ProfileField.code
        = [6, 7, 8, 9, 10, 11, 12, 13, 14, 15, 16, 17, 18, 19, 20, 21, 22, 24]

/-- TABLE_READ (R32) and DIGEST_READ (R33), also while a commit is outstanding, when they are taken ahead of what waits for it
(R30, R149). The octet forms of the records and of the validation result are log entries 12 and 14. -/
def Obligations.TableReadRule : Prop :=
  (∀ (m : Arm) (s : State) (r : Request) (rest : List Request), s.wsTakesRequest m .tableRead r rest →
      let item := (r.args.getD 1 0).toNat
      let gives (ans : Answer) : Prop :=
        exec (.tableRead m) s = .next ((s.setWs { s.ws with requests := rest }).answer m ans)
      (26 < item → gives (answerRefused r.head .range []))
      ∧ (item ≤ 26 → s.ws.active = none → gives (answerRefused r.head .noBank []))
      ∧ ∀ b : Bank, item ≤ 26 → s.ws.active = some b → gives (answerOk r.head (b.item item)))
    ∧ (∀ (m : Arm) (s : State) (r : Request) (pre post : List TableEvent),
      s.table.arrivals = pre ++ .request r :: post → r.arm = m →
      let ready (n : ReqName) : Prop := r.name = n ∧ (pre = [] ∨ (s.table.outstanding = true
        ∧ ∀ e ∈ pre, e.isRequest m n = false))
      let t : State := s.setTable { s.table with arrivals := pre ++ post }
      let item := (r.args.getD 1 0).toNat
      (ready .tableRead → s.ws.readWaits m = false →
        (r.args.getD 0 0 ≠ 1 ∨ 26 < item → exec (.tableRead m) s = .next (t.answer m (answerRefused r.head .range [])))
        ∧ (r.args.getD 0 0 = 1 → item ≤ 26 →
          exec (.tableRead m) s = .next (t.answer m (answerOk r.head (s.table.shadow.item item)))))
      ∧ (ready .digestRead → exec (.digestRead m) s
        = .next (t.answer m (answerOk r.head (octets16 s.table.digest ++ validationOctets s.table.result)))))
    ∧ ∀ b : Bank, b.item 0 = headerOctets b.header ∧ (∀ i : Nat, i < 24 → b.item (i + 1) = entryOctets (b.entries.getD i .empty))
      ∧ b.item 25 = profileOctets b.profiles.a ∧ b.item 26 = profileOctets b.profiles.b

/-- AGREE (R145, R148): the refusals in their order; else the record takes the digest, and the commit is requested exactly when
the record of every required arm holds the current digest. TABLE_LOCK_REPORT (R147): a report of UNLOCKED empties the record of
the port's arm, with AGREEMENT_DROPPED if it held a digest; the last lock of each controller port is kept. The active bank's
presence flags are read directly (log entry 27). The octets of the INVALID data are log entries 12 and 14. -/
def Obligations.AgreementRule : Prop :=
  (∀ (m : Arm) (s : State) (r : Request) (rest : List TableEvent), s.tableTakes m .agree r rest →
    let t : TableUnit := { s.table with arrivals := rest }
    let d : Digest := r.args.getD 0 0 ++ r.args.getD 1 0
    let gives (v : TableUnit) (ans : Answer) : Prop := exec (.agree m) s = .next ((s.setTable v).answer m ans)
    let agreed : TableUnit := { t with agreement := t.agreement.set m (some d) }
    let required (n : Arm) : Prop := t.shadow.present n = true ∨ ∃ b, s.ws.active = some b ∧ b.present n = true
    let passes : Prop := ∀ n : Arm, required n → agreed.agreement.get n = some t.digest
    (t.ctrlLocked.get m = false → gives t (answerRefused r.head .state []))
    ∧ (t.ctrlLocked.get m = true → d ≠ t.digest → gives t (answerRefused r.head .mismatch (octets16 t.digest)))
    ∧ (∀ f : ValFailure, t.ctrlLocked.get m = true → d = t.digest → t.result = .failed f →
      gives t (answerRefused r.head .invalid ([f.item.code, f.reason.code] ++ f.field.elim [0, 0] (fun x => [1, x.code]))))
    ∧ (t.ctrlLocked.get m = true → d = t.digest → t.result = .passed → ¬passes → gives agreed (answerOk r.head (octets16 d ++ [0])))
    ∧ (t.ctrlLocked.get m = true → d = t.digest → t.result = .passed → passes →
      gives { agreed with outstanding := true, toWs := t.toWs ++ [.commit t.shadow t.digest] } (answerOk r.head (octets16 d ++ [1]))))
    ∧ ∀ (m : Arm) (side : Side) (locked : Bool) (s : State) (rest : List TableEvent), s.table.outstanding = false →
    s.table.arrivals = .lock side m locked :: rest →
    let kept := if side = .ctrl then s.table.ctrlLocked.set m locked else s.table.ctrlLocked
    exec .tableLockReport s = .next (s.setTable { s.table with
      arrivals := rest, ctrlLocked := kept,
      agreement := if locked then s.table.agreement else s.table.agreement.set m none,
      raises := s.table.raises ++ (if locked then [] else (s.table.agreement.get m).toList.map fun d =>
        ⟨m, .agreementDropped, .dropped .lock d (some side)⟩) })

/-- R146, AGREE_WITHDRAW: the sender's record is emptied; the data says whether a digest was held, and which. -/
def Obligations.WithdrawRule : Prop :=
  (∀ (m : Arm) (s : State) (r : Request) (rest : List TableEvent), s.tableTakes m .agreeWithdraw r rest →
      let gone : State := s.setTable { s.table with arrivals := rest, agreement := s.table.agreement.set m none }
      (s.table.agreement.get m = none →
        exec (.agreeWithdraw m) s = .next (gone.answer m (answerOk r.head [0, 0, 0])))
      ∧ ∀ d : Digest, s.table.agreement.get m = some d →
        exec (.agreeWithdraw m) s = .next (gone.answer m (answerOk r.head (1 :: octets16 d))))
    ∧ (∀ (m : Arm) (s : State), s.table.outstanding = true → exec (.agreeWithdraw m) s = .next s)
    ∧ ∀ (t : TableUnit) (c : Completion) (m : Arm), (t.complete c).agreement.get m = none

/-- COMMIT (R150, R151, with R93, R127 and R128): the check, whose first failing test is the reason, and the commit done: the
bank, the records, the cell table and scan pointer, the queue, the notices and cadence periods, the completion. Each claim that
leaves the queue hands its claimant's port CANCELLED, in queue order, and raises that arm's outcome count (R114, R127, R128). -/
def Obligations.CommitRule : Prop :=
  (∀ (s : State) (new : Bank) (digest : Digest) (rest : List FromTable), s.table.toWs = .commit new digest :: rest →
      let w := s.ws
      let t := s.setTable { s.table with toWs := rest }
      let recut : Prop := new.bin ≠ w.bin
      (∀ why : CommitRefusal, w.commitRefusal new = some why →
        exec .commit s = .next (t.setTable { t.table with completion := some (.refused why) }))
      ∧ (w.commitRefusal new = none →
        let record (n : Arm) : BoxRecord := if new.present n = false then .absent
          else if ∃ old ∈ w.active, old.present n = true then w.record n else .unknown
        let cells : Option (List CellRec) := if recut then new.bin.map fun g => List.replicate (g.bays * g.cells) .free
          else if new.bin = none then none else w.cells
        let goes (e : QueueEntry) : Bool := decide recut || !(new.present e.arm)
        let outcomes (n : Arm) : List ToPort := (w.queue.filter fun e => goes e && e.arm == n).map fun e => .outcome ⟨e.tag, .cancelled, e.run⟩
        let notice (n : Arm) : ArmUnit := { s.arm n with
          arrivals := (s.arm n).arrivals ++ [.commitNotice (new.present n) (new.profiles.get n)] }
        let timer (n : Arm) : CadenceTimer := { s.timebase.timers.get n with next := some (new.profiles.get n).cadence }
        exec .commit s = .next { s with
          arms := ⟨notice .armA, notice .armB⟩, timebase := { s.timebase with timers := ⟨timer .armA, timer .armB⟩ },
          table := { s.table with
            toWs := rest, completion := some (.done w.active new.header.label digest (decide recut)) },
          ws := ({ w with
            active := some new, records := ⟨record .armA, record .armB⟩, cells := cells,
            scan := if recut ∨ new.bin = none then 0 else w.scan, queue := w.queue.filter fun e => !(goes e),
            toPort := ⟨w.toPort.a ++ outcomes .armA, w.toPort.b ++ outcomes .armB⟩,
            outcomeCount := ⟨w.outcomeCount.a + (outcomes .armA).length, w.outcomeCount.b + (outcomes .armB).length⟩ } :
              Workspace).reevaluate }))
    ∧ ∀ (w : Workspace) (new : Bank),
      let recut : Prop := new.bin ≠ w.bin
      let heldBy (n : Arm) : Prop := ∃ c ∈ w.cellList, c.heldBy n = true
      let space (n : Arm) : List Box := new.homes n ++ (if recut then [] else heldSpace new.bin w.cellList n)
      let bad (b : Box) (n : Arm) (k : FaultKind) : Prop :=
        if (outsideWorld b).firstAxis.isSome then k = .range
        else if ∃ z ∈ new.forbiddens, b.meets z = true then k = .forbidden
        else b.coveredBy (space n) = false ∧ k = .trespass
      let illegal (n : Arm) (k : FaultKind) : Prop := new.present n = true ∧ ∃ box part env, w.record n = .motion box part env ∧ bad box n k
      let active (n : Arm) : Prop := (∃ old ∈ w.active, old.present n = true) ∧ new.present n = false
        ∧ (heldBy n ∨ (w.reported.get n).moving = true ∨ (w.record n).isMotion = true)
      let held : Prop := recut ∧ (heldBy .armA ∨ heldBy .armB)
      (∀ (i : Nat) (owner : Arm), w.commitRefusal new = some (.leasesHeld i owner) ↔ recut
        ∧ (∃ c, w.cellList[i]? = some c ∧ c.heldBy owner = true) ∧ ∀ (j : Nat) (c : CellRec), j < i → w.cellList[j]? = some c → c = .free)
      ∧ (∀ (n : Arm) (k : FaultKind), w.commitRefusal new = some (.illegalBox n k) ↔ ¬held ∧ illegal n k
        ∧ (n = .armB → ∀ j, ¬illegal .armA j))
      ∧ (∀ n : Arm, w.commitRefusal new = some (.armActive n) ↔ ¬held ∧ (∀ a j, ¬illegal a j) ∧ active n ∧ (n = .armB → ¬active .armA))

/-- COMMIT_COMPLETION (R153): done, the shadow is the old active bank (power-on contents at the first commit); refused, it is
unchanged; in both the records are empty, the commit is no longer outstanding, and both controller ports are told, CA first (log
entry 18). -/
def Obligations.CompletionRule : Prop :=
  ∀ s : State,
    let t := s.table
    let both (k : EventKind) (d : Detail) : List Raise := t.raises ++ [⟨.armA, k, d⟩, ⟨.armB, k, d⟩]
    (∀ (old : Option Bank) (label : Nat) (digest : Digest) (changed : Bool), t.completion = some (.done old label digest changed) →
      let b := old.getD Bank.powerOn
      exec .commitCompletion s = .next (s.setTable { t with
        shadow := b, digest := digestOf b, result := validate b, agreement := ⟨none, none⟩, outstanding := false, completion := none,
        toWs := t.toWs ++ [.presence b.header.present],
        raises := both .commitDone (.commitDone label digest (digestOf b) changed) }))
    ∧ ∀ why : CommitRefusal, t.completion = some (.refused why) →
      exec .commitCompletion s = .next (s.setTable { t with
        agreement := ⟨none, none⟩, outstanding := false, completion := none,
        raises := both .commitRefused (.commitRefused why t.digest) })

/-- A command whose event is not the one its block takes next changes nothing (the model's choice, log entry 1): the channel is
empty, or holds another event at its front, or the block waits for a verdict or a completion. FRAME_LOSS, FEEDBACK_LOSS,
SETTLE_TIMEOUT and LOCK_LOSS_SILENCE also where what they name does not come about in the expiry (log entry 5); LEASE_LAPSE and
WAIT_EXPIRED likewise in LeaseTickRule. -/
def Obligations.NothingWaitsNothingChanges : Prop :=
  ∀ (m : Arm) (s : State),
    let idle (c : Instr) : Prop := exec c s = .next s
    let a := s.arm m
    let work := a.newProfile.getD a.work
    let waits (e : ArmEvent) : Prop := ∃ rest, s.armTakes m e rest
    let found (o : Outstanding) : Prop := ∃ v, s.verdictTakes m o v
    let sent (x : ToWorkspace) : Prop := ∃ rest, s.wsTakes m x rest
    let tableTakesRequest (n : ReqName) : Prop := ∃ r rest, s.tableTakes m n r rest
    let noShadowRead (n : ReqName) : Prop := (s.table.outstanding = false → ¬tableTakesRequest n)
      ∧ (s.table.outstanding = true → ∀ r : Request, .request r ∈ s.table.arrivals → ¬(r.arm = m ∧ r.name = n))
    ((∀ f, ¬waits (.setpoint f)) → idle (.setpointArrival m))
    ∧ ((∀ f, ¬waits (.feedback f)) → (∀ f, ¬waits (.faultSecond f)) → idle (.feedbackArrival m))
    ∧ ((∀ os seq, ¬waits (.param os seq)) → idle (.paramArrival m))
    ∧ (¬waits .tick → idle (.armTickCopy m))
    ∧ ((∀ side, ¬waits (.lock side true)) → idle (.lockGained m))
    ∧ (¬waits (.lock .ctrl false) → idle (.controllerLockLoss m))
    ∧ (¬waits (.lock .drive false) → idle (.driveLockLoss m))
    ∧ ((∀ present profile, ¬waits (.commitNotice present profile)) → idle (.commitNotice m))
    ∧ (¬waits .expiry ∨ a.state ≠ .run → idle (.cadenceExpiryRun m))
    ∧ (¬waits .expiry ∨ a.state ≠ .halting → idle (.cadenceExpiryHalting m))
    ∧ (¬waits .expiry ∨ a.state ≠ .settling → idle (.cadenceExpirySettling m))
    ∧ (¬waits .expiry ∨ a.state = .run ∨ a.state = .halting ∨ a.state = .settling → idle (.cadenceExpiryQuiet m))
    ∧ (¬waits .expiry ∨ a.state ≠ .run ∨ a.slotFilled = true ∨ a.ctx.miss + 1 < work.missLimit → idle (.frameLoss m))
    ∧ (¬waits .expiry ∨ (a.state ≠ .run ∧ a.state ≠ .halting ∧ a.state ≠ .settling) ∨ a.feedbackSeen = true
        ∨ a.ctx.feedback + 1 < work.feedbackLimit → idle (.feedbackLoss m))
    ∧ (¬waits .expiry ∨ a.state ≠ .settling ∨ a.ctx.settleTimer + 1 < work.settleLimit → idle (.settleTimeout m))
    ∧ (∀ x ∈ [(ReqName.armEnable, Instr.armEnable m), (.armHalt, .armHalt m), (.armClear, .armClear m), (.armReset, .armReset m),
        (.armStatus, .armStatus m), (.envelopePush, .envelopePush m), (.envelopePop, .envelopePop m), (.maskSet, .maskSet m),
        (.contextSave, .contextSave m), (.contextLoad, .contextLoad m)],
      (∀ r : Request, r.name = x.1 → ¬waits (.request r)) → idle x.2)
    ∧ ((∀ r : Request, r.name = .armCut → ¬waits (.request r)) → (∀ r, ¬waits (.cutSecond r)) → idle (.armCut m))
    ∧ ((∀ f step geom expected stack, ¬found (.setpoint f step geom expected stack)) → idle (.setpointVerdict m))
    ∧ ((∀ head geom, ¬found (.enable head geom)) → idle (.enableVerdict m))
    ∧ ((∀ head geom, ¬found (.envelope head geom)) → idle (.envelopeVerdict m))
    ∧ ((∀ pl, ¬sent (.checked pl)) → idle (.checkedPlacement m))
    ∧ ((∀ p p0 step geom, ¬sent (.forced p p0 step geom)) → idle (.forcedPlacement m))
    ∧ ((∀ p env geom, ¬sent (.rest p env geom)) → idle (.restUpdate m))
    ∧ (¬sent .setUnknown → idle (.setRecordUnknown m))
    ∧ ((∀ st, ¬sent (.stateReport st)) → idle (.stateReport m))
    ∧ (¬sent .claimRemoval → idle (.claimRemoval m))
    ∧ ((∀ head part, ¬sent (.statusRead head part)) → idle (.statusRead m))
    ∧ (∀ x ∈ [(ReqName.claim, Instr.claim m), (.renew, .renew m), (.release, .release m), (.cancel, .cancel m),
        (.cellRead, .cellRead m)], (∀ r rest, ¬s.wsTakesRequest m x.1 r rest) → idle x.2)
    ∧ (∀ x ∈ [(ReqName.eventsRead, Instr.eventsRead m), (.eventsClear, .eventsClear m), (.noticeSet, .noticeSet m)],
      (∀ r rest, ¬s.reportTakes m x.1 r rest) → idle x.2)
    ∧ (∀ x ∈ [(ReqName.tableWrite, Instr.tableWrite m), (.headerWrite, .headerWrite m), (.profileWrite, .profileWrite m),
        (.tablesReset, .tablesReset m), (.agree, .agree m), (.agreeWithdraw, .agreeWithdraw m)], ¬tableTakesRequest x.1 → idle x.2)
    ∧ (noShadowRead .digestRead → idle (.digestRead m))
    ∧ (noShadowRead .tableRead → (∀ r rest, ¬s.wsTakesRequest m .tableRead r rest) → idle (.tableRead m))
    ∧ (s.table.outstanding = true ∨ (∀ side n locked rest, s.table.arrivals ≠ .lock side n locked :: rest) → idle .tableLockReport)
    ∧ (s.ws.ticksDue = 0 → idle .leaseTick ∧ idle .leaseLapse ∧ idle .waitExpired)
    ∧ (s.report.ticksDue = 0 → idle .reportTick)
    ∧ ((∀ bank digest rest, s.table.toWs ≠ .commit bank digest :: rest) → idle .commit)
    ∧ ((∀ present rest, s.table.toWs ≠ .presence present :: rest) → idle .headerPresenceReport)
    ∧ (s.table.completion = none → idle .commitCompletion)
    ∧ (∀ side, s.expiryDue side m = false → idle (.portCadenceExpiry side m) ∧ idle (.lockLossSilence side m))
    ∧ ((s.port m).lock.locked = false ∨ (s.port m).lock.silent < 15 → idle (.lockLossSilence .ctrl m))
    ∧ ((s.drivePort m).lock.locked = false ∨ (s.drivePort m).lock.silent < 15 → idle (.lockLossSilence .drive m))
    ∧ ((s.req.get m).incoming = none → idle (.requestDecode m))
    ∧ ((s.req.get m).answer = none → idle (.answerPlace m))
    ∧ ((s.port m).opportunity ≠ .offered → idle (.insertionOpportunity m))
    ∧ ((s.port m).opportunity ≠ .asked → idle (.noticeSelection m))
    ∧ ((∀ o rest, s.ws.toPort.get m ≠ .outcome o :: rest) → idle (.outcomeHandover m))
    ∧ ((∀ rest, s.ws.toPort.get m ≠ .discard :: rest) → idle (.outcomeDiscard m))
    ∧ ((∀ rest, (s.port m).toWs ≠ .sent :: rest) → idle (.sentReport m))
    ∧ ((∀ n rest, (s.port m).toWs ≠ .discarded n :: rest) → idle (.discardReport m))
    ∧ ∀ b : Block, s.raisesOf b = [] → idle (.eventRaise b)
end

