-- ==== Sys2Proof/Laws/Cells.lean ====
section
/-! SUPPORT. Cells by index: which cells a run names, which columns an arm holds, what the grant test says of a run, and
the first HELD cell. -/

namespace Sys2Proof.Machine

theorem mapCells_getElem? (f : Nat → CellRec → CellRec) (cells : List CellRec) (i j : Nat) :
    (mapCells f i cells)[j]? = (cells[j]?).map (f (i + j)) := by
  induction cells generalizing i j with
  | nil => simp [mapCells]
  | cons c rest ih =>
    cases j with
    | zero => simp [mapCells]
    | succ j => simp [mapCells, ih, Nat.add_assoc, Nat.add_comm 1 j]

@[simp] theorem mapCells_length (f : Nat → CellRec → CellRec) (cells : List CellRec) (i : Nat) :
    (mapCells f i cells).length = cells.length := by
  induction cells generalizing i with
  | nil => rfl
  | cons c rest ih => simp [mapCells, ih]

theorem Run.mem_cellNumbers (r : Run) (c : Nat) : c ∈ r.cellNumbers ↔ r.first ≤ c ∧ c < r.first + r.length := by
  simp only [Run.cellNumbers, List.mem_map, List.mem_range]
  constructor
  · rintro ⟨k, hk, rfl⟩
    omega
  · intro h
    exact ⟨c - r.first, by omega, by omega⟩

/-- The single indexes of a run are an interval (R16, R96). -/
theorem Run.contains_indexes (r : Run) (g : BinGeom) (i : Nat) : (r.indexes g).contains i = true
    ↔ r.bay * g.cells + r.first ≤ i ∧ i < r.bay * g.cells + r.first + r.length := by
  simp [Run.indexes, Run.cellNumbers, BinGeom.index]
  constructor
  · rintro ⟨a, h, rfl⟩
    omega
  · rintro ⟨h1, h2⟩
    exact ⟨i - (r.bay * g.cells + r.first), by omega, by omega⟩

theorem Run.inRange_iff (r : Run) (g : BinGeom) : r.inRange g = true
    ↔ r.bay < g.bays ∧ 1 ≤ r.length ∧ r.length ≤ 16 ∧ r.first + r.length ≤ g.cells := by
  simp only [Run.inRange, Bool.and_eq_true, decide_eq_true_eq]
  omega

theorem mem_heldColumns (g : BinGeom) (m : Arm) (i0 : Nat) (cells : List CellRec) (c : Box) : c ∈ heldColumns g m i0 cells
    ↔ ∃ i, (∃ x, cells[i]? = some x ∧ x.heldBy m = true) ∧ c = g.columnAt (i0 + i) := by
  induction cells generalizing i0 with
  | nil => simp [heldColumns]
  | cons x rest ih =>
    have hx : (∃ i, (∃ y, (x :: rest)[i]? = some y ∧ y.heldBy m = true) ∧ c = g.columnAt (i0 + i))
        ↔ (x.heldBy m = true ∧ c = g.columnAt i0)
          ∨ ∃ i, (∃ y, rest[i]? = some y ∧ y.heldBy m = true) ∧ c = g.columnAt (i0 + 1 + i) := by
      constructor
      · rintro ⟨i, ⟨y, h1, h2⟩, h3⟩
        cases i with
        | zero => simp at h1; subst h1; exact .inl ⟨h2, h3⟩
        | succ i => exact .inr ⟨i, ⟨y, by simpa using h1, h2⟩, by rw [h3]; congr 1; omega⟩
      · rintro (⟨h1, h2⟩ | ⟨i, ⟨y, h1, h2⟩, h3⟩)
        · exact ⟨0, ⟨x, by simp, h1⟩, h2⟩
        · exact ⟨i + 1, ⟨y, by simpa using h1, h2⟩, by rw [h3]; congr 1; omega⟩
    rw [hx, ← ih]
    simp only [heldColumns]
    cases x.heldBy m <;> simp

/-- The held-cell space of an arm: the columns of the cells it holds (R18). -/
theorem mem_heldSpace (bin : Option BinGeom) (cells : List CellRec) (m : Arm) (c : Box) : c ∈ heldSpace bin cells m
    ↔ ∃ g i, bin = some g ∧ (∃ x, cells[i]? = some x ∧ x.heldBy m = true) ∧ c = g.columnAt i := by
  cases bin with
  | none => simp [heldSpace]
  | some g => simp [heldSpace, mem_heldColumns]

theorem mem_homes (b : Bank) (m : Arm) (c : Box) : c ∈ b.homes m ↔ ZoneEntry.home m c ∈ b.entries := by
  simp only [Bank.homes, List.mem_filterMap]
  constructor
  · rintro ⟨e, h1, h2⟩
    cases e <;> simp [ZoneEntry.homeBox] at h2
    obtain ⟨rfl, rfl⟩ := h2
    exact h1
  · intro h
    exact ⟨_, h, by simp [ZoneEntry.homeBox]⟩

/-! ### The grant test (R99, R101) -/

theorem GrantView.cause_eq (v : GrantView) (m : Arm) (bay c : Nat) : v.cause m bay c
    = if (cellAt v.cells (v.bin.index bay c)).heldBy m.other = true then some .heldByOther
      else if v.other.covers v.bin (v.bin.index bay c) = true then some .occupied
      else if (v.before.any fun e => e.run.holds bay c) = true then some .queuedBefore
      else none := rfl

theorem GrantView.cause_none (v : GrantView) (m : Arm) (bay c : Nat) : v.cause m bay c = none
    ↔ (cellAt v.cells (v.bin.index bay c)).heldBy m.other = false ∧ v.other.covers v.bin (v.bin.index bay c) = false
      ∧ ∀ e ∈ v.before, e.run.holds bay c = false := by
  rw [GrantView.cause_eq]
  by_cases h1 : (cellAt v.cells (v.bin.index bay c)).heldBy m.other = true
  · rw [if_pos h1]
    simp [h1]
  · rw [if_neg h1]
    by_cases h2 : v.other.covers v.bin (v.bin.index bay c) = true
    · rw [if_pos h2]
      simp [h2]
    · rw [if_neg h2]
      simp [h1, h2]

/-- A run is grantable when no cell of it has a cause. -/
theorem GrantView.blocking_none (v : GrantView) (m : Arm) (r : Run) : v.blocking m r = none
    ↔ ∀ c, r.first ≤ c ∧ c < r.first + r.length → v.cause m r.bay c = none := by
  simp only [GrantView.blocking, List.findSome?_eq_none_iff, Option.map_eq_none_iff, Run.mem_cellNumbers]

theorem findSome?_range {α : Type} (f : Nat → Option α) (n a : Nat) (x : α) (k : Nat) (hk : k < n) (hx : f (a + k) = some x)
    (hn : ∀ j, j < k → f (a + j) = none) : ((List.range n).map (a + ·)).findSome? f = some x := by
  induction n generalizing a k with
  | zero => omega
  | succ n ih =>
    rw [List.range_succ_eq_map]
    cases k with
    | zero => simp at hx; simp [hx]
    | succ k =>
      have h0 := hn 0 (by omega)
      simp at h0
      simp only [List.map_cons, Nat.add_zero, List.findSome?_cons, h0, List.map_map, Function.comp_def]
      have := ih (a + 1) k (by omega) (by rw [← hx]; congr 1; omega) (fun j hj => by
        have := hn (j + 1) (by omega)
        rw [← this]; congr 1; omega)
      rw [← this]
      congr 1
      apply List.map_congr_left
      intro j _
      show a + (j + 1) = a + 1 + j
      omega

/-- The blocking cell is the first with a cause, and the cause is its own. -/
theorem GrantView.blocking_some (v : GrantView) (m : Arm) (r : Run) (c : Nat) (cause : ClaimCause)
    (hc : r.first ≤ c ∧ c < r.first + r.length) (hx : v.cause m r.bay c = some cause)
    (hn : ∀ j, r.first ≤ j → j < c → v.cause m r.bay j = none) : v.blocking m r = some (cause, c) := by
  unfold GrantView.blocking Run.cellNumbers
  refine findSome?_range _ r.length r.first (cause, c) (c - r.first) (by omega) ?_ ?_
  · rw [show r.first + (c - r.first) = c by omega, hx]
    rfl
  · intro j hj
    rw [hn _ (by omega) (by omega)]
    rfl

/-! ### Re-evaluation, and outcomes handed over (R114, R118) -/

/-- Each arm's port gets the outcomes of its own entries, in order, and its outcome count rises by their number; nothing else
changes. -/
theorem handAll_eq (w : Workspace) (r : ClaimResult) (es : List QueueEntry) : w.handAll r es = { w with
    toPort := ⟨w.toPort.a ++ (claimsOf .armA es).map fun e => .outcome (e.outcome r),
      w.toPort.b ++ (claimsOf .armB es).map fun e => .outcome (e.outcome r)⟩
    outcomeCount := ⟨w.outcomeCount.a + (claimsOf .armA es).length, w.outcomeCount.b + (claimsOf .armB es).length⟩ } := by
  induction es generalizing w with
  | nil => simp [Workspace.handAll, claimsOf]
  | cons e es ih =>
    have h := ih (w.handOutcome e.arm (e.outcome r))
    simp only [Workspace.handAll, List.foldl_cons] at h ⊢
    rw [h]
    rcases e with ⟨_ | _, tag, run, lease, d⟩ <;>
      simp [claimsOf, Workspace.handOutcome, PerArm.get, PerArm.set, Nat.add_assoc, Nat.add_comm 1]

theorem walk_fixed (g : BinGeom) (kept : List QueueEntry) (w : Workspace) (q : List QueueEntry) :
    (Workspace.walk g kept w q).tick = w.tick ∧ (Workspace.walk g kept w q).scan = w.scan := by
  induction q generalizing kept w with
  | nil => exact ⟨rfl, rfl⟩
  | cons e q ih => simp only [Workspace.walk]; split <;> (rw [(ih _ _).1, (ih _ _).2]; exact ⟨rfl, rfl⟩)

/-- A walk over claims of the other arm hands this arm's port nothing. -/
theorem walk_toPort {m : Arm} (g : BinGeom) (kept : List QueueEntry) (w : Workspace) (q : List QueueEntry)
    (h : ∀ e ∈ q, e.arm ≠ m) : (Workspace.walk g kept w q).toPort.get m = w.toPort.get m := by
  induction q generalizing kept w with
  | nil => rfl
  | cons e q ih =>
    have he : e.arm ≠ m := h e (by simp)
    simp only [Workspace.walk]
    split <;> rw [ih _ _ fun e he => h e (by simp [he])]
    rcases e with ⟨_ | _, _⟩ <;> cases m <;> simp_all [Workspace.handOutcome, PerArm.get, PerArm.set]

/-- After a removal the discard is the last thing sent to the arm's port: no outcome follows it (R89, R126). -/
theorem removeClaims_toPort (w : Workspace) (m : Arm) : (w.removeClaims m).toPort.get m = w.toPort.get m ++ [.discard] := by
  unfold Workspace.removeClaims Workspace.reevaluate
  split
  · rw [walk_toPort]
    · cases m <;> rfl
    · intro e he
      simpa using (List.mem_filter.1 he).2
  · cases m <;> rfl

@[simp] theorem reevaluate_tick (w : Workspace) : w.reevaluate.tick = w.tick := by
  unfold Workspace.reevaluate
  split
  · exact (walk_fixed _ _ _ _).1
  · rfl

@[simp] theorem reevaluate_scan (w : Workspace) : w.reevaluate.scan = w.scan := by
  unfold Workspace.reevaluate
  split
  · exact (walk_fixed _ _ _ _).2
  · rfl

/-! ### The scan visit (R107) and the BIN of a bank (R16) -/

/-- The raises of a scan visit, in cell order: at most one for each cell. -/
theorem lapseRaises_eq (w : Workspace) (g : BinGeom) (i0 : Nat) (cells : List CellRec) :
    w.lapseRaises g i0 cells = (List.range cells.length).flatMap fun i =>
      if w.visits g (i0 + i) && w.lapses g (i0 + i) (cellAt cells i) then lapseRaise g w.tick (i0 + i) (cellAt cells i) else [] := by
  induction cells generalizing i0 with
  | nil => rfl
  | cons c rest ih =>
    have hs (i : Nat) : i0 + 1 + i = i0 + (i + 1) := by omega
    have hc (i : Nat) : cellAt (c :: rest) (i + 1) = cellAt rest i := rfl
    rw [List.length_cons, List.range_succ_eq_map, List.flatMap_cons, List.flatMap_map]
    simp only [Workspace.lapseRaises, ih (i0 + 1), hs, hc, Nat.add_zero, show cellAt (c :: rest) 0 = c from rfl,
      Nat.succ_eq_add_one]
    split <;> simp

/-- The raises of a scan visit: one for each HELD cell of the visited bay, outside its owner's box, its deadline reached. -/
theorem mem_lapseRaises (w : Workspace) (g : BinGeom) (i0 : Nat) (cells : List CellRec) (x : Raise) :
    x ∈ w.lapseRaises g i0 cells ↔ ∃ i owner lease d, cells[i]? = some (.held owner lease d) ∧ (i0 + i) / g.cells = w.scan
      ∧ (w.record owner).covers g (i0 + i) = false ∧ reached w.tick d = true
      ∧ x = ⟨owner, .leaseLapsed, .leaseLapsed ((i0 + i) / g.cells) ((i0 + i) % g.cells) lease w.tick⟩ := by
  induction cells generalizing i0 with
  | nil => simp [Workspace.lapseRaises]
  | cons c rest ih =>
    let P (i0 : Nat) (c : CellRec) : Prop := ∃ owner lease d, c = .held owner lease d ∧ i0 / g.cells = w.scan
      ∧ (w.record owner).covers g i0 = false ∧ reached w.tick d = true
      ∧ x = ⟨owner, .leaseLapsed, .leaseLapsed (i0 / g.cells) (i0 % g.cells) lease w.tick⟩
    have hsplit (l : List CellRec) (i0 : Nat) : (∃ i owner lease d, l[i]? = some (.held owner lease d)
        ∧ (i0 + i) / g.cells = w.scan ∧ (w.record owner).covers g (i0 + i) = false ∧ reached w.tick d = true
        ∧ x = ⟨owner, .leaseLapsed, .leaseLapsed ((i0 + i) / g.cells) ((i0 + i) % g.cells) lease w.tick⟩)
        ↔ ∃ i c, l[i]? = some c ∧ P (i0 + i) c := by
      constructor
      · rintro ⟨i, o, le, d, h1, h2⟩
        exact ⟨i, _, h1, o, le, d, rfl, h2⟩
      · rintro ⟨i, c, h1, o, le, d, rfl, h2⟩
        exact ⟨i, o, le, d, h1, h2⟩
    have hcons : (∃ i y, (c :: rest)[i]? = some y ∧ P (i0 + i) y) ↔ P i0 c ∨ ∃ i y, rest[i]? = some y ∧ P (i0 + 1 + i) y := by
      constructor
      · rintro ⟨i, y, h1, h2⟩
        cases i with
        | zero => simp at h1; subst h1; exact .inl h2
        | succ i => exact .inr ⟨i, y, by simpa using h1, by rw [Nat.add_right_comm, Nat.add_assoc]; exact h2⟩
      · rintro (h | ⟨i, y, h1, h2⟩)
        · exact ⟨0, c, rfl, h⟩
        · exact ⟨i + 1, y, by simpa using h1, by rw [Nat.add_right_comm, Nat.add_assoc] at h2; exact h2⟩
    rw [hsplit, hcons, ← hsplit, ← ih]
    cases c with
    | free => simp [Workspace.lapseRaises, Workspace.lapses, P]
    | held o le d =>
      by_cases hv : i0 / g.cells = w.scan <;> by_cases hc : (w.record o).covers g i0 = true <;>
        by_cases hr : reached w.tick d = true <;>
        simp [Workspace.lapseRaises, Workspace.lapses, Workspace.visits, lapseRaise, P, hv, hc, hr]

/-- The BIN is the first BIN entry. -/
theorem binOf_some (l : List ZoneEntry) (g : BinGeom) : binOf l = some g ↔ ∃ pre post, l = pre ++ .bin g.box g.bays g.cells :: post
    ∧ ∀ (box : Box) (bays cells : Nat), .bin box bays cells ∉ pre := by
  have hskip (e : ZoneEntry) (l : List ZoneEntry) (he : ∀ b x y, e ≠ .bin b x y)
      (ih : binOf l = some g ↔ ∃ pre post, l = pre ++ .bin g.box g.bays g.cells :: post
        ∧ ∀ (box : Box) (bays cells : Nat), .bin box bays cells ∉ pre) :
      binOf (e :: l) = some g ↔ ∃ pre post, e :: l = pre ++ .bin g.box g.bays g.cells :: post
        ∧ ∀ (box : Box) (bays cells : Nat), .bin box bays cells ∉ pre := by
    rw [show binOf (e :: l) = binOf l by cases e <;> simp_all [binOf], ih]
    constructor
    · rintro ⟨pre, post, rfl, h⟩
      refine ⟨e :: pre, post, rfl, fun b x y hm => ?_⟩
      rcases List.mem_cons.1 hm with hm | hm
      · exact he b x y hm.symm
      · exact h b x y hm
    · rintro ⟨pre, post, h1, h2⟩
      cases pre with
      | nil => simp at h1; exact absurd h1.1 (he _ _ _)
      | cons a pre => simp at h1; exact ⟨pre, post, h1.2, fun b x y hm => h2 b x y (by simp [hm])⟩
  induction l with
  | nil => simp [binOf]
  | cons e l ih =>
    cases e with
    | bin b x y =>
      constructor
      · intro h
        simp [binOf] at h
        subst h
        exact ⟨[], l, rfl, by simp⟩
      · rintro ⟨pre, post, h1, h2⟩
        cases pre with
        | nil => simp at h1; obtain ⟨⟨rfl, rfl, rfl⟩, _⟩ := h1; rfl
        | cons a pre => simp at h1; exact absurd (by rw [h1.1]; simp) (h2 b x y)
    | _ => exact hskip _ l (by simp) ih

/-! ### The first HELD cell (R150) -/

theorem firstHeld_some (cells : List CellRec) (i0 i : Nat) (o : Arm) : firstHeld i0 cells = some (i, o)
    ↔ ∃ k, i = i0 + k ∧ (∃ c, cells[k]? = some c ∧ c.heldBy o = true) ∧ ∀ j c, j < k → cells[j]? = some c → c = .free := by
  induction cells generalizing i0 with
  | nil => simp [firstHeld]
  | cons c rest ih =>
    cases c with
    | free =>
      simp only [firstHeld]
      rw [ih]
      constructor
      · rintro ⟨k, rfl, h1, h2⟩
        refine ⟨k + 1, by omega, by simpa using h1, ?_⟩
        intro j c hj hc
        cases j with
        | zero => simpa using hc.symm
        | succ j => exact h2 j c (by omega) (by simpa using hc)
      · rintro ⟨k, rfl, ⟨c, h1, h3⟩, h2⟩
        cases k with
        | zero => simp at h1; subst h1; simp [CellRec.heldBy] at h3
        | succ k =>
          exact ⟨k, by omega, ⟨c, by simpa using h1, h3⟩, fun j c hj hc => h2 (j + 1) c (by omega) (by simpa using hc)⟩
    | held a l d =>
      simp only [firstHeld]
      constructor
      · intro h
        simp at h
        obtain ⟨rfl, rfl⟩ := h
        exact ⟨0, rfl, ⟨.held a l d, by simp, by simp [CellRec.heldBy]⟩, by intro j c hj; omega⟩
      · rintro ⟨k, rfl, ⟨c, h1, h3⟩, h2⟩
        cases k with
        | zero => simp at h1; subst h1; simp [CellRec.heldBy] at h3; simp [h3]
        | succ k => have := h2 0 (.held a l d) (by omega) (by simp); cases this

end Sys2Proof.Machine
end

