-- ==== Sys2Proof/Laws/Kinds.lean ====
section
/-! SUPPORT. Kind sets read kind by kind, the axes of a judgement, and what the judgement of a reach box answers. -/

namespace Sys2Proof.Machine

/-! ### Kind sets -/

@[simp] theorem KindSet.has_empty (k : FaultKind) : KindSet.has KindSet.empty k = false := by
  cases k <;> rfl

theorem KindSet.has_single (k j : FaultKind) : KindSet.has (KindSet.single k) j = decide (j = k) := by
  cases k <;> cases j <;> decide

theorem KindSet.has_union (s t : KindSet) (j : FaultKind) :
    KindSet.has (KindSet.union s t) j = (KindSet.has s j || KindSet.has t j) := by
  simp [KindSet.has, KindSet.union]

theorem KindSet.has_add (s : KindSet) (k j : FaultKind) : KindSet.has (KindSet.add s k) j = (KindSet.has s j || decide (j = k)) := by
  have h := KindSet.has_single k j
  simp only [KindSet.has, KindSet.add, BitVec.getLsbD_or] at *
  rw [h]

theorem KindSet.has_addIf (s : KindSet) (b : Bool) (k j : FaultKind) :
    KindSet.has (KindSet.addIf s b k) j = (KindSet.has s j || (b && decide (j = k))) := by
  cases b <;> simp [KindSet.addIf, KindSet.has_add]

theorem KindSet.has_without (s : KindSet) (k j : FaultKind) :
    KindSet.has (KindSet.without s k) j = (KindSet.has s j && decide (j ≠ k)) := by
  have h := KindSet.has_single k j
  have hj : j.code < 16 := by cases j <;> decide
  simp only [KindSet.has, KindSet.without, BitVec.getLsbD_and, BitVec.getLsbD_not] at *
  rw [h]; simp [hj]

@[simp] theorem KindSet.without_empty (k : FaultKind) : KindSet.without KindSet.empty k = KindSet.empty := by
  cases k <;> decide

theorem KindSet.single_bit (k : FaultKind) (n : Nat) : (KindSet.single k).getLsbD n = decide (n = k.code) := by
  have hk : k.code < 16 := by cases k <;> decide
  simp only [KindSet.single, BitVec.getLsbD_shiftLeft]
  by_cases h : n = k.code
  · subst h
    simp [hk]
  · simp [h]
    intros
    omega

theorem KindSet.add_bit (s : KindSet) (k : FaultKind) (n : Nat) :
    (KindSet.add s k).getLsbD n = (s.getLsbD n || decide (n = k.code)) := by
  simp [KindSet.add, KindSet.single_bit]

theorem KindSet.without_bit (s : KindSet) (k : FaultKind) (n : Nat) :
    (KindSet.without s k).getLsbD n = (s.getLsbD n && decide (n ≠ k.code)) := by
  simp only [KindSet.without, BitVec.getLsbD_and, BitVec.getLsbD_not, KindSet.single_bit]
  by_cases hn : n < 16
  · simp [hn]
  · rw [BitVec.getLsbD_of_ge _ _ (by omega)]
    simp

/-! ### Axes -/

/-- The first axis is the earliest of X, Y, Z at which the test holds. -/
theorem Tri.firstAxis_eq_some (t : Tri Bool) (ax : Axis) :
    t.firstAxis = some ax ↔ t.get ax = true ∧ ∀ prior : Axis, prior.place < ax.place → t.get prior = false := by
  obtain ⟨x, y, z⟩ := t
  have h : ∀ P : Axis → Prop, (∀ p, P p) ↔ P .axisX ∧ P .axisY ∧ P .axisZ :=
    fun P => ⟨fun h => ⟨h _, h _, h _⟩, fun h p => by cases p; exacts [h.1, h.2.1, h.2.2]⟩
  rw [h]
  cases x <;> cases y <;> cases z <;> cases ax <;> decide

theorem Tri.firstAxis_isSome (t : Tri Bool) : t.firstAxis.isSome = true ↔ t.x = true ∨ t.y = true ∨ t.z = true := by
  obtain ⟨x, y, z⟩ := t
  cases x <;> cases y <;> cases z <;> decide

theorem outsideWorld_isSome (b : Box) : (outsideWorld b).firstAxis.isSome = true
    ↔ b.lo.x < 0 ∨ 1023 < b.hi.x ∨ b.lo.y < 0 ∨ 1023 < b.hi.y ∨ b.lo.z < 0 ∨ 1023 < b.hi.z := by
  rw [Tri.firstAxis_isSome]
  simp only [outsideWorld, decide_eq_true_eq]
  tauto

theorem overSpeed_isSome (limit : Tri Nat) (step : Tri Int) : (overSpeed limit step).firstAxis.isSome = true
    ↔ limit.x < step.x.natAbs ∨ limit.y < step.y.natAbs ∨ limit.z < step.z.natAbs := by
  rw [Tri.firstAxis_isSome]
  simp [overSpeed, Tri.map2]

theorem violatesForbidden_iff (bank : Bank) (b : Box) :
    violatesForbidden bank b = true ↔ ∃ box ∈ bank.forbiddens, b.meets box = true := by
  simp [violatesForbidden]

theorem violatesProximity_iff (other : Option Box) (b : Box) :
    violatesProximity other b = true ↔ ∃ box ∈ other, b.meets box = true := by
  cases other <;> simp [violatesProximity]

theorem violatesTrespass_iff (space : List Box) (b : Box) : violatesTrespass space b = true ↔ b.coveredBy space = false := by
  simp [violatesTrespass]

/-! ### The judgement (R46 to R51) -/

/-- The five zone kinds as a set. -/
theorem zoneKinds_has (r f p t s : Bool) (k : FaultKind) :
    KindSet.has (KindSet.empty |> (KindSet.addIf · r .range) |> (KindSet.addIf · f .forbidden) |> (KindSet.addIf · p .proximity)
      |> (KindSet.addIf · t .trespass) |> (KindSet.addIf · s .speed)) k = true
    ↔ (k = .range ∧ r = true) ∨ (k = .forbidden ∧ f = true) ∨ (k = .proximity ∧ p = true) ∨ (k = .trespass ∧ t = true)
      ∨ (k = .speed ∧ s = true) := by
  simp only [KindSet.has_addIf, KindSet.has_empty]
  simp
  tauto

theorem zoneKinds_empty (r f p t s : Bool) :
    (KindSet.empty |> (KindSet.addIf · r .range) |> (KindSet.addIf · f .forbidden) |> (KindSet.addIf · p .proximity)
      |> (KindSet.addIf · t .trespass) |> (KindSet.addIf · s .speed)) = KindSet.empty
    ↔ r = false ∧ f = false ∧ p = false ∧ t = false ∧ s = false := by
  constructor
  · intro h
    have hk := fun k => zoneKinds_has r f p t s k
    rw [h] at hk
    simp only [KindSet.has_empty] at hk
    have h1 := hk .range
    have h2 := hk .forbidden
    have h3 := hk .proximity
    have h4 := hk .trespass
    have h5 := hk .speed
    simp at h1 h2 h3 h4 h5
    exact ⟨h1, h2, h3, h4, h5⟩
  · rintro ⟨rfl, rfl, rfl, rfl, rfl⟩
    rfl

/-- The judgement of a box with every test passed. -/
theorem judge_placed (bank : Bank) (other : Option Box) (space : List Box) (caps : Tri Nat) (step : Tri Int) (now : Tick) (b : Box)
    (hr : (outsideWorld b).firstAxis.isSome = false) (hf : violatesForbidden bank b = false) (hp : violatesProximity other b = false)
    (ht : violatesTrespass space b = false) (hs : (overSpeed (bank.speedLimit b caps) step).firstAxis.isSome = false) :
    judge bank other space caps step now b = .placed := by
  unfold judge
  exact if_pos ((zoneKinds_empty _ _ _ _ _).mpr ⟨hr, hf, hp, ht, hs⟩)

/-- The judgement of a box with a test failed: FAILED with exactly the kinds that failed. -/
theorem judge_failed (bank : Bank) (other : Option Box) (space : List Box) (caps : Tri Nat) (step : Tri Int) (now : Tick) (b : Box)
    (h : (outsideWorld b).firstAxis.isSome = true ∨ violatesForbidden bank b = true ∨ violatesProximity other b = true
      ∨ violatesTrespass space b = true ∨ (overSpeed (bank.speedLimit b caps) step).firstAxis.isSome = true) :
    ∃ kinds : KindSet, judge bank other space caps step now b
        = .failed kinds (outsideWorld b).firstAxis (overSpeed (bank.speedLimit b caps) step).firstAxis now
      ∧ ∀ k : FaultKind, KindSet.has kinds k = true ↔ (k = .range ∧ (outsideWorld b).firstAxis.isSome = true)
        ∨ (k = .forbidden ∧ violatesForbidden bank b = true) ∨ (k = .proximity ∧ violatesProximity other b = true)
        ∨ (k = .trespass ∧ violatesTrespass space b = true)
        ∨ (k = .speed ∧ (overSpeed (bank.speedLimit b caps) step).firstAxis.isSome = true) := by
  unfold judge
  refine ⟨_, if_neg (mt (zoneKinds_empty _ _ _ _ _).mp ?_), fun k => zoneKinds_has _ _ _ _ _ k⟩
  rintro ⟨h1, h2, h3, h4, h5⟩
  simp [h1, h2, h3, h4, h5] at h

end Sys2Proof.Machine
end

