-- ==== Sys2Proof/Laws/State.lean ====
section
/-! SUPPORT. What each update of the state leaves of each field: one lemma per field per update, each by rfl, so that no
proof unfolds a record update; and reading a block after writing one. -/

namespace Sys2Proof.Machine

/-! ### One value per arm -/

@[simp] theorem PerArm.get_set_same {α : Type} (p : PerArm α) (m : Arm) (v : α) : (p.set m v).get m = v := by
  cases m <;> rfl

@[simp] theorem PerArm.get_set_other {α : Type} (p : PerArm α) (m : Arm) (v : α) : (p.set m v).get m.other = p.get m.other := by
  cases m <;> rfl

theorem PerArm.get_set {α : Type} (p : PerArm α) (m n : Arm) (v : α) : (p.set m v).get n = if n = m then v else p.get n := by
  cases m <;> cases n <;> rfl

@[simp] theorem PerArm.set_get {α : Type} (p : PerArm α) (m : Arm) : p.set m (p.get m) = p := by
  cases m <;> rfl

@[simp] theorem PerArm.set_set {α : Type} (p : PerArm α) (m : Arm) (v w : α) : (p.set m v).set m w = p.set m w := by
  cases m <;> rfl

/-! ### The fields -/

@[simp] theorem State.setArm_resetN (s : State) (m : Arm) (u : ArmUnit) : (s.setArm m u).resetN = s.resetN := rfl
@[simp] theorem State.setArm_node (s : State) (m : Arm) (u : ArmUnit) : (s.setArm m u).node = s.node := rfl
@[simp] theorem State.setArm_arms (s : State) (m : Arm) (u : ArmUnit) : (s.setArm m u).arms = s.arms.set m u := rfl
@[simp] theorem State.setArm_ctrl (s : State) (m : Arm) (u : ArmUnit) : (s.setArm m u).ctrl = s.ctrl := rfl
@[simp] theorem State.setArm_drive (s : State) (m : Arm) (u : ArmUnit) : (s.setArm m u).drive = s.drive := rfl
@[simp] theorem State.setArm_req (s : State) (m : Arm) (u : ArmUnit) : (s.setArm m u).req = s.req := rfl
@[simp] theorem State.setArm_ws (s : State) (m : Arm) (u : ArmUnit) : (s.setArm m u).ws = s.ws := rfl
@[simp] theorem State.setArm_table (s : State) (m : Arm) (u : ArmUnit) : (s.setArm m u).table = s.table := rfl
@[simp] theorem State.setArm_report (s : State) (m : Arm) (u : ArmUnit) : (s.setArm m u).report = s.report := rfl
@[simp] theorem State.setArm_timebase (s : State) (m : Arm) (u : ArmUnit) : (s.setArm m u).timebase = s.timebase := rfl
@[simp] theorem State.setArm_draws (s : State) (m : Arm) (u : ArmUnit) : (s.setArm m u).draws = s.draws := rfl
@[simp] theorem State.setArm_pending (s : State) (m : Arm) (u : ArmUnit) : (s.setArm m u).pending = s.pending := rfl

@[simp] theorem State.setPort_resetN (s : State) (m : Arm) (p : CtrlPort) : (s.setPort m p).resetN = s.resetN := rfl
@[simp] theorem State.setPort_node (s : State) (m : Arm) (p : CtrlPort) : (s.setPort m p).node = s.node := rfl
@[simp] theorem State.setPort_arms (s : State) (m : Arm) (p : CtrlPort) : (s.setPort m p).arms = s.arms := rfl
@[simp] theorem State.setPort_ctrl (s : State) (m : Arm) (p : CtrlPort) : (s.setPort m p).ctrl = s.ctrl.set m p := rfl
@[simp] theorem State.setPort_drive (s : State) (m : Arm) (p : CtrlPort) : (s.setPort m p).drive = s.drive := rfl
@[simp] theorem State.setPort_req (s : State) (m : Arm) (p : CtrlPort) : (s.setPort m p).req = s.req := rfl
@[simp] theorem State.setPort_ws (s : State) (m : Arm) (p : CtrlPort) : (s.setPort m p).ws = s.ws := rfl
@[simp] theorem State.setPort_table (s : State) (m : Arm) (p : CtrlPort) : (s.setPort m p).table = s.table := rfl
@[simp] theorem State.setPort_report (s : State) (m : Arm) (p : CtrlPort) : (s.setPort m p).report = s.report := rfl
@[simp] theorem State.setPort_timebase (s : State) (m : Arm) (p : CtrlPort) : (s.setPort m p).timebase = s.timebase := rfl
@[simp] theorem State.setPort_draws (s : State) (m : Arm) (p : CtrlPort) : (s.setPort m p).draws = s.draws := rfl
@[simp] theorem State.setPort_pending (s : State) (m : Arm) (p : CtrlPort) : (s.setPort m p).pending = s.pending := rfl

@[simp] theorem State.setDrivePort_resetN (s : State) (m : Arm) (p : DrivePort) : (s.setDrivePort m p).resetN = s.resetN := rfl
@[simp] theorem State.setDrivePort_node (s : State) (m : Arm) (p : DrivePort) : (s.setDrivePort m p).node = s.node := rfl
@[simp] theorem State.setDrivePort_arms (s : State) (m : Arm) (p : DrivePort) : (s.setDrivePort m p).arms = s.arms := rfl
@[simp] theorem State.setDrivePort_ctrl (s : State) (m : Arm) (p : DrivePort) : (s.setDrivePort m p).ctrl = s.ctrl := rfl
@[simp] theorem State.setDrivePort_drive (s : State) (m : Arm) (p : DrivePort) : (s.setDrivePort m p).drive = s.drive.set m p := rfl
@[simp] theorem State.setDrivePort_req (s : State) (m : Arm) (p : DrivePort) : (s.setDrivePort m p).req = s.req := rfl
@[simp] theorem State.setDrivePort_ws (s : State) (m : Arm) (p : DrivePort) : (s.setDrivePort m p).ws = s.ws := rfl
@[simp] theorem State.setDrivePort_table (s : State) (m : Arm) (p : DrivePort) : (s.setDrivePort m p).table = s.table := rfl
@[simp] theorem State.setDrivePort_report (s : State) (m : Arm) (p : DrivePort) : (s.setDrivePort m p).report = s.report := rfl
@[simp] theorem State.setDrivePort_timebase (s : State) (m : Arm) (p : DrivePort) : (s.setDrivePort m p).timebase = s.timebase := rfl
@[simp] theorem State.setDrivePort_draws (s : State) (m : Arm) (p : DrivePort) : (s.setDrivePort m p).draws = s.draws := rfl
@[simp] theorem State.setDrivePort_pending (s : State) (m : Arm) (p : DrivePort) : (s.setDrivePort m p).pending = s.pending := rfl

@[simp] theorem State.setWs_resetN (s : State) (w : Workspace) : (s.setWs w).resetN = s.resetN := rfl
@[simp] theorem State.setWs_node (s : State) (w : Workspace) : (s.setWs w).node = s.node := rfl
@[simp] theorem State.setWs_arms (s : State) (w : Workspace) : (s.setWs w).arms = s.arms := rfl
@[simp] theorem State.setWs_ctrl (s : State) (w : Workspace) : (s.setWs w).ctrl = s.ctrl := rfl
@[simp] theorem State.setWs_drive (s : State) (w : Workspace) : (s.setWs w).drive = s.drive := rfl
@[simp] theorem State.setWs_req (s : State) (w : Workspace) : (s.setWs w).req = s.req := rfl
@[simp] theorem State.setWs_ws (s : State) (w : Workspace) : (s.setWs w).ws = w := rfl
@[simp] theorem State.setWs_table (s : State) (w : Workspace) : (s.setWs w).table = s.table := rfl
@[simp] theorem State.setWs_report (s : State) (w : Workspace) : (s.setWs w).report = s.report := rfl
@[simp] theorem State.setWs_timebase (s : State) (w : Workspace) : (s.setWs w).timebase = s.timebase := rfl
@[simp] theorem State.setWs_draws (s : State) (w : Workspace) : (s.setWs w).draws = s.draws := rfl
@[simp] theorem State.setWs_pending (s : State) (w : Workspace) : (s.setWs w).pending = s.pending := rfl

@[simp] theorem State.setTable_resetN (s : State) (t : TableUnit) : (s.setTable t).resetN = s.resetN := rfl
@[simp] theorem State.setTable_node (s : State) (t : TableUnit) : (s.setTable t).node = s.node := rfl
@[simp] theorem State.setTable_arms (s : State) (t : TableUnit) : (s.setTable t).arms = s.arms := rfl
@[simp] theorem State.setTable_ctrl (s : State) (t : TableUnit) : (s.setTable t).ctrl = s.ctrl := rfl
@[simp] theorem State.setTable_drive (s : State) (t : TableUnit) : (s.setTable t).drive = s.drive := rfl
@[simp] theorem State.setTable_req (s : State) (t : TableUnit) : (s.setTable t).req = s.req := rfl
@[simp] theorem State.setTable_ws (s : State) (t : TableUnit) : (s.setTable t).ws = s.ws := rfl
@[simp] theorem State.setTable_table (s : State) (t : TableUnit) : (s.setTable t).table = t := rfl
@[simp] theorem State.setTable_report (s : State) (t : TableUnit) : (s.setTable t).report = s.report := rfl
@[simp] theorem State.setTable_timebase (s : State) (t : TableUnit) : (s.setTable t).timebase = s.timebase := rfl
@[simp] theorem State.setTable_draws (s : State) (t : TableUnit) : (s.setTable t).draws = s.draws := rfl
@[simp] theorem State.setTable_pending (s : State) (t : TableUnit) : (s.setTable t).pending = s.pending := rfl

@[simp] theorem State.setReport_resetN (s : State) (r : ReportUnit) : (s.setReport r).resetN = s.resetN := rfl
@[simp] theorem State.setReport_node (s : State) (r : ReportUnit) : (s.setReport r).node = s.node := rfl
@[simp] theorem State.setReport_arms (s : State) (r : ReportUnit) : (s.setReport r).arms = s.arms := rfl
@[simp] theorem State.setReport_ctrl (s : State) (r : ReportUnit) : (s.setReport r).ctrl = s.ctrl := rfl
@[simp] theorem State.setReport_drive (s : State) (r : ReportUnit) : (s.setReport r).drive = s.drive := rfl
@[simp] theorem State.setReport_req (s : State) (r : ReportUnit) : (s.setReport r).req = s.req := rfl
@[simp] theorem State.setReport_ws (s : State) (r : ReportUnit) : (s.setReport r).ws = s.ws := rfl
@[simp] theorem State.setReport_table (s : State) (r : ReportUnit) : (s.setReport r).table = s.table := rfl
@[simp] theorem State.setReport_report (s : State) (r : ReportUnit) : (s.setReport r).report = r := rfl
@[simp] theorem State.setReport_timebase (s : State) (r : ReportUnit) : (s.setReport r).timebase = s.timebase := rfl
@[simp] theorem State.setReport_draws (s : State) (r : ReportUnit) : (s.setReport r).draws = s.draws := rfl
@[simp] theorem State.setReport_pending (s : State) (r : ReportUnit) : (s.setReport r).pending = s.pending := rfl

@[simp] theorem State.toArm_resetN (s : State) (m : Arm) (e : ArmEvent) : (s.toArm m e).resetN = s.resetN := rfl
@[simp] theorem State.toArm_node (s : State) (m : Arm) (e : ArmEvent) : (s.toArm m e).node = s.node := rfl
@[simp] theorem State.toArm_arms (s : State) (m : Arm) (e : ArmEvent) : (s.toArm m e).arms = s.arms.set m { s.arm m with arrivals := (s.arm m).arrivals ++ [e] } := rfl
@[simp] theorem State.toArm_ctrl (s : State) (m : Arm) (e : ArmEvent) : (s.toArm m e).ctrl = s.ctrl := rfl
@[simp] theorem State.toArm_drive (s : State) (m : Arm) (e : ArmEvent) : (s.toArm m e).drive = s.drive := rfl
@[simp] theorem State.toArm_req (s : State) (m : Arm) (e : ArmEvent) : (s.toArm m e).req = s.req := rfl
@[simp] theorem State.toArm_ws (s : State) (m : Arm) (e : ArmEvent) : (s.toArm m e).ws = s.ws := rfl
@[simp] theorem State.toArm_table (s : State) (m : Arm) (e : ArmEvent) : (s.toArm m e).table = s.table := rfl
@[simp] theorem State.toArm_report (s : State) (m : Arm) (e : ArmEvent) : (s.toArm m e).report = s.report := rfl
@[simp] theorem State.toArm_timebase (s : State) (m : Arm) (e : ArmEvent) : (s.toArm m e).timebase = s.timebase := rfl
@[simp] theorem State.toArm_draws (s : State) (m : Arm) (e : ArmEvent) : (s.toArm m e).draws = s.draws := rfl
@[simp] theorem State.toArm_pending (s : State) (m : Arm) (e : ArmEvent) : (s.toArm m e).pending = s.pending := rfl

@[simp] theorem State.answer_resetN (s : State) (m : Arm) (a : Answer) : (s.answer m a).resetN = s.resetN := rfl
@[simp] theorem State.answer_node (s : State) (m : Arm) (a : Answer) : (s.answer m a).node = s.node := rfl
@[simp] theorem State.answer_arms (s : State) (m : Arm) (a : Answer) : (s.answer m a).arms = s.arms := rfl
@[simp] theorem State.answer_ctrl (s : State) (m : Arm) (a : Answer) : (s.answer m a).ctrl = s.ctrl := rfl
@[simp] theorem State.answer_drive (s : State) (m : Arm) (a : Answer) : (s.answer m a).drive = s.drive := rfl
@[simp] theorem State.answer_req (s : State) (m : Arm) (a : Answer) : (s.answer m a).req = s.req.set m { s.req.get m with answer := some a } := rfl
@[simp] theorem State.answer_ws (s : State) (m : Arm) (a : Answer) : (s.answer m a).ws = s.ws := rfl
@[simp] theorem State.answer_table (s : State) (m : Arm) (a : Answer) : (s.answer m a).table = s.table := rfl
@[simp] theorem State.answer_report (s : State) (m : Arm) (a : Answer) : (s.answer m a).report = s.report := rfl
@[simp] theorem State.answer_timebase (s : State) (m : Arm) (a : Answer) : (s.answer m a).timebase = s.timebase := rfl
@[simp] theorem State.answer_draws (s : State) (m : Arm) (a : Answer) : (s.answer m a).draws = s.draws := rfl
@[simp] theorem State.answer_pending (s : State) (m : Arm) (a : Answer) : (s.answer m a).pending = s.pending := rfl

/-! ### The blocks of an arm -/

@[simp] theorem State.setArm_arm_same (s : State) (m : Arm) (u : ArmUnit) : (s.setArm m u).arm m = u := PerArm.get_set_same _ _ _
@[simp] theorem State.setArm_arm_other (s : State) (m : Arm) (u : ArmUnit) : (s.setArm m u).arm m.other = s.arm m.other :=
  PerArm.get_set_other _ _ _
theorem State.setArm_arm (s : State) (m : Arm) (u : ArmUnit) (n : Arm) : (s.setArm m u).arm n = if n = m then u else s.arm n :=
  PerArm.get_set _ _ _ _
@[simp] theorem State.setArm_port (s : State) (m : Arm) (u : ArmUnit) (n : Arm) : (s.setArm m u).port n = s.port n := rfl
@[simp] theorem State.setArm_drivePort (s : State) (m : Arm) (u : ArmUnit) (n : Arm) : (s.setArm m u).drivePort n = s.drivePort n := rfl

@[simp] theorem State.setPort_arm (s : State) (m : Arm) (p : CtrlPort) (n : Arm) : (s.setPort m p).arm n = s.arm n := rfl
@[simp] theorem State.setPort_port_same (s : State) (m : Arm) (p : CtrlPort) : (s.setPort m p).port m = p := PerArm.get_set_same _ _ _
@[simp] theorem State.setPort_port_other (s : State) (m : Arm) (p : CtrlPort) : (s.setPort m p).port m.other = s.port m.other :=
  PerArm.get_set_other _ _ _
theorem State.setPort_port (s : State) (m : Arm) (p : CtrlPort) (n : Arm) : (s.setPort m p).port n = if n = m then p else s.port n :=
  PerArm.get_set _ _ _ _
@[simp] theorem State.setPort_drivePort (s : State) (m : Arm) (p : CtrlPort) (n : Arm) : (s.setPort m p).drivePort n = s.drivePort n := rfl

@[simp] theorem State.setDrivePort_arm (s : State) (m : Arm) (p : DrivePort) (n : Arm) : (s.setDrivePort m p).arm n = s.arm n := rfl
@[simp] theorem State.setDrivePort_port (s : State) (m : Arm) (p : DrivePort) (n : Arm) : (s.setDrivePort m p).port n = s.port n := rfl
@[simp] theorem State.setDrivePort_drivePort_same (s : State) (m : Arm) (p : DrivePort) : (s.setDrivePort m p).drivePort m = p := PerArm.get_set_same _ _ _
@[simp] theorem State.setDrivePort_drivePort_other (s : State) (m : Arm) (p : DrivePort) : (s.setDrivePort m p).drivePort m.other = s.drivePort m.other :=
  PerArm.get_set_other _ _ _
theorem State.setDrivePort_drivePort (s : State) (m : Arm) (p : DrivePort) (n : Arm) : (s.setDrivePort m p).drivePort n = if n = m then p else s.drivePort n :=
  PerArm.get_set _ _ _ _

@[simp] theorem State.setWs_arm (s : State) (w : Workspace) (n : Arm) : (s.setWs w).arm n = s.arm n := rfl
@[simp] theorem State.setWs_port (s : State) (w : Workspace) (n : Arm) : (s.setWs w).port n = s.port n := rfl
@[simp] theorem State.setWs_drivePort (s : State) (w : Workspace) (n : Arm) : (s.setWs w).drivePort n = s.drivePort n := rfl

@[simp] theorem State.setTable_arm (s : State) (t : TableUnit) (n : Arm) : (s.setTable t).arm n = s.arm n := rfl
@[simp] theorem State.setTable_port (s : State) (t : TableUnit) (n : Arm) : (s.setTable t).port n = s.port n := rfl
@[simp] theorem State.setTable_drivePort (s : State) (t : TableUnit) (n : Arm) : (s.setTable t).drivePort n = s.drivePort n := rfl

@[simp] theorem State.setReport_arm (s : State) (r : ReportUnit) (n : Arm) : (s.setReport r).arm n = s.arm n := rfl
@[simp] theorem State.setReport_port (s : State) (r : ReportUnit) (n : Arm) : (s.setReport r).port n = s.port n := rfl
@[simp] theorem State.setReport_drivePort (s : State) (r : ReportUnit) (n : Arm) : (s.setReport r).drivePort n = s.drivePort n := rfl

@[simp] theorem State.toArm_arm_same (s : State) (m : Arm) (e : ArmEvent) :
    (s.toArm m e).arm m = { s.arm m with arrivals := (s.arm m).arrivals ++ [e] } := PerArm.get_set_same _ _ _
@[simp] theorem State.toArm_arm_other (s : State) (m : Arm) (e : ArmEvent) : (s.toArm m e).arm m.other = s.arm m.other :=
  PerArm.get_set_other _ _ _
@[simp] theorem State.toArm_port (s : State) (m : Arm) (e : ArmEvent) (n : Arm) : (s.toArm m e).port n = s.port n := rfl
@[simp] theorem State.toArm_drivePort (s : State) (m : Arm) (e : ArmEvent) (n : Arm) : (s.toArm m e).drivePort n = s.drivePort n := rfl

@[simp] theorem State.answer_arm (s : State) (m : Arm) (a : Answer) (n : Arm) : (s.answer m a).arm n = s.arm n := rfl
@[simp] theorem State.answer_port (s : State) (m : Arm) (a : Answer) (n : Arm) : (s.answer m a).port n = s.port n := rfl
@[simp] theorem State.answer_drivePort (s : State) (m : Arm) (a : Answer) (n : Arm) : (s.answer m a).drivePort n = s.drivePort n := rfl

@[simp] theorem State.setArm_self (s : State) (m : Arm) : s.setArm m (s.arm m) = s := by
  unfold State.setArm State.arm; rw [PerArm.set_get]

@[simp] theorem State.setPort_self (s : State) (m : Arm) : s.setPort m (s.port m) = s := by
  unfold State.setPort State.port; rw [PerArm.set_get]

@[simp] theorem State.setWs_self (s : State) : s.setWs s.ws = s := rfl

@[simp] theorem State.setTable_self (s : State) : s.setTable s.table = s := rfl

@[simp] theorem State.setReport_self (s : State) : s.setReport s.report = s := rfl

@[simp] theorem State.answer?_none (s : State) (m : Arm) : s.answer? m none = s := rfl

@[simp] theorem State.answer?_some (s : State) (m : Arm) (a : Answer) : s.answer? m (some a) = s.answer m a := rfl

end Sys2Proof.Machine
end

