-- ==== Sys2Proof/Laws/Ops.lean ====
section
/-! SUPPORT. What each shared operation can do: the form it takes when its event waits (`…_take`), and everything a next
state of it can be (`…_next`). -/

namespace Sys2Proof.Machine

/-! ### The arm unit -/

theorem takeArm_take {m : Arm} {s : State} {k : ArmEvent → ArmUnit → Option Result} {e : ArmEvent} {rest : List ArmEvent}
    (ho : (s.arm m).outstanding = none) (ha : (s.arm m).arrivals = e :: rest) :
    takeArm m s k = (k e { s.arm m with arrivals := rest }).getD (.next s) := by
  simp [takeArm, ho, ha]

theorem takeArm_next {m : Arm} {s t : State} {k : ArmEvent → ArmUnit → Option Result} (h : takeArm m s k = .next t) :
    t = s ∨ ∃ e rest, (s.arm m).outstanding = none ∧ (s.arm m).arrivals = e :: rest
      ∧ k e { s.arm m with arrivals := rest } = some (.next t) := by
  unfold takeArm at h
  split at h
  · rename_i e rest ho ha
    cases hk : k e { s.arm m with arrivals := rest } with
    | none => rw [hk] at h; left; simpa using h.symm
    | some r =>
      rw [hk] at h
      right
      exact ⟨e, rest, ho, ha, by rw [hk]; simpa using h⟩
  · left; simpa using h.symm

/-- Where the event in front is not the one meant, nothing changes. -/
theorem takeArm_idle {m : Arm} {s : State} {k : ArmEvent → ArmUnit → Option Result}
    (h : ∀ e rest, (s.arm m).outstanding = none → (s.arm m).arrivals = e :: rest → k e { s.arm m with arrivals := rest } = none) :
    takeArm m s k = .next s := by
  unfold takeArm
  split
  · rename_i e rest ho ha
    rw [h e rest ho ha]
    rfl
  · rfl

theorem takeArmRequest_take {m : Arm} {n : ReqName} {s : State} {k : Request → ArmUnit → Result} {r : Request}
    {rest : List ArmEvent} (ho : (s.arm m).outstanding = none) (ha : (s.arm m).arrivals = .request r :: rest) (hn : r.name = n) :
    takeArmRequest m n s k = k r { s.arm m with arrivals := rest } := by
  simp [takeArmRequest, takeArm_take ho ha, hn]

theorem takeArmRequest_next {m : Arm} {n : ReqName} {s t : State} {k : Request → ArmUnit → Result}
    (h : takeArmRequest m n s k = .next t) :
    t = s ∨ ∃ r rest, (s.arm m).outstanding = none ∧ (s.arm m).arrivals = .request r :: rest ∧ r.name = n
      ∧ k r { s.arm m with arrivals := rest } = .next t := by
  rcases takeArm_next h with h | ⟨e, rest, ho, ha, hk⟩
  · exact .inl h
  · right
    cases e <;> simp at hk
    rename_i r
    exact ⟨r, rest, ho, ha, hk.1, hk.2⟩

theorem takeArmRequest_idle {m : Arm} {n : ReqName} {s : State} {k : Request → ArmUnit → Result}
    (h : ∀ r rest, (s.arm m).outstanding = none → (s.arm m).arrivals = .request r :: rest → r.name ≠ n) :
    takeArmRequest m n s k = .next s := by
  refine takeArm_idle fun e rest ho ha => ?_
  cases e <;> simp
  exact h _ _ ho ha

theorem takeVerdict_take {m : Arm} {s : State} {k : Outstanding → Verdict → ArmUnit → Option Result} {o : Outstanding}
    {v : Verdict} (ho : (s.arm m).outstanding = some o) (hv : (s.arm m).verdict = some v) :
    takeVerdict m s k = (k o v { s.arm m with outstanding := none, verdict := none }).getD (.next s) := by
  simp [takeVerdict, ho, hv]

theorem takeVerdict_next {m : Arm} {s t : State} {k : Outstanding → Verdict → ArmUnit → Option Result}
    (h : takeVerdict m s k = .next t) :
    t = s ∨ ∃ o v, (s.arm m).outstanding = some o ∧ (s.arm m).verdict = some v
      ∧ k o v { s.arm m with outstanding := none, verdict := none } = some (.next t) := by
  unfold takeVerdict at h
  split at h
  · rename_i o v ho hv
    cases hk : k o v { s.arm m with outstanding := none, verdict := none } with
    | none => rw [hk] at h; left; simpa using h.symm
    | some r =>
      rw [hk] at h
      right
      exact ⟨o, v, ho, hv, by rw [hk]; simpa using h⟩
  · left; simpa using h.symm

theorem takeVerdict_idle {m : Arm} {s : State} {k : Outstanding → Verdict → ArmUnit → Option Result}
    (h : ∀ o v, (s.arm m).outstanding = some o → (s.arm m).verdict = some v →
      k o v { s.arm m with outstanding := none, verdict := none } = none) : takeVerdict m s k = .next s := by
  unfold takeVerdict
  split
  · rename_i o v ho hv
    rw [h o v ho hv]
    rfl
  · rfl

theorem takeExpiry_take {m : Arm} {s : State} {ok : ArmState → Bool} {cond : ArmUnit → Bool} {k : ArmUnit → Result}
    {rest : List ArmEvent} (ho : (s.arm m).outstanding = none) (ha : (s.arm m).arrivals = .expiry :: rest)
    (hs : ok (s.arm m).state = true) (hc : cond ({ s.arm m with arrivals := rest } : ArmUnit).takeProfile = true) :
    takeExpiry m s ok cond k = k ({ s.arm m with arrivals := rest } : ArmUnit).takeProfile := by
  simp [takeExpiry, takeArm_take ho ha, hs, hc]

theorem takeExpiry_next {m : Arm} {s t : State} {ok : ArmState → Bool} {cond : ArmUnit → Bool} {k : ArmUnit → Result}
    (h : takeExpiry m s ok cond k = .next t) :
    t = s ∨ ∃ rest, (s.arm m).outstanding = none ∧ (s.arm m).arrivals = .expiry :: rest ∧ ok (s.arm m).state = true
      ∧ cond ({ s.arm m with arrivals := rest } : ArmUnit).takeProfile = true
      ∧ k ({ s.arm m with arrivals := rest } : ArmUnit).takeProfile = .next t := by
  rcases takeArm_next h with h | ⟨e, rest, ho, ha, hk⟩
  · exact .inl h
  · right
    cases e <;> simp at hk
    exact ⟨rest, ho, ha, hk.1.1, hk.1.2, hk.2⟩

theorem takeExpiry_idle {m : Arm} {s : State} {ok : ArmState → Bool} {cond : ArmUnit → Bool} {k : ArmUnit → Result}
    (h : ∀ rest, (s.arm m).outstanding = none → (s.arm m).arrivals = .expiry :: rest →
      (ok (s.arm m).state && cond ({ s.arm m with arrivals := rest } : ArmUnit).takeProfile) = false) :
    takeExpiry m s ok cond k = .next s := by
  refine takeArm_idle fun e rest ho ha => ?_
  cases e <;> simp
  simpa using h rest ho ha

theorem finishArm_eq (m : Arm) (s : State) (u : ArmUnit) (a : Option Answer) :
    finishArm m s (u, a) = .next ((s.setArm m u).answer? m a) := rfl

theorem withForwarded_some {u : ArmUnit} {k : Pos → Result} {p : Pos} (h : u.last.pos = some p) : withForwarded u k = k p := by
  simp [withForwarded, h]

theorem withForwarded_next {u : ArmUnit} {k : Pos → Result} {t : State} (h : withForwarded u k = .next t) :
    ∃ p, u.last.pos = some p ∧ k p = .next t := by
  unfold withForwarded at h
  split at h
  · exact ⟨_, by assumption, h⟩
  · cases h

theorem driveNode_known {s : State} {m : Arm} {n : Node} (h : (s.drivePort m).node = some n) : s.driveNode m = n := by
  simp [State.driveNode, h]

/-! ### The workspace, table and report units -/

theorem takeFromArm_take {m : Arm} {s : State} {k : ToWorkspace → State → Option Result} {msg : ToWorkspace}
    {rest : List ToWorkspace} (h : (s.arm m).toWs = msg :: rest) :
    takeFromArm m s k = (k msg (s.setArm m { s.arm m with toWs := rest })).getD (.next s) := by
  simp [takeFromArm, h]

theorem takeFromArm_next {m : Arm} {s t : State} {k : ToWorkspace → State → Option Result} (h : takeFromArm m s k = .next t) :
    t = s ∨ ∃ msg rest, (s.arm m).toWs = msg :: rest
      ∧ k msg (s.setArm m { s.arm m with toWs := rest }) = some (.next t) := by
  unfold takeFromArm at h
  split at h
  · rename_i msg rest hm
    cases hk : k msg (s.setArm m { s.arm m with toWs := rest }) with
    | none => rw [hk] at h; left; simpa using h.symm
    | some r => rw [hk] at h; right; exact ⟨msg, rest, hm, by rw [hk]; simpa using h⟩
  · left; simpa using h.symm

theorem takeFromArm_idle {m : Arm} {s : State} {k : ToWorkspace → State → Option Result}
    (h : ∀ msg rest, (s.arm m).toWs = msg :: rest → ∀ t, k msg t = none) : takeFromArm m s k = .next s := by
  unfold takeFromArm
  split
  · rename_i msg rest hm
    rw [h msg rest hm]
    rfl
  · rfl

theorem takeWsRequest_take {m : Arm} {n : ReqName} {s : State} {k : Request → Workspace → Workspace × Answer} {r : Request}
    {rest : List Request} (h : s.ws.requests = r :: rest) (hm : r.arm = m) (hn : r.name = n) :
    takeWsRequest m n s k
      = .next ((s.setWs (k r { s.ws with requests := rest }).1).answer m (k r { s.ws with requests := rest }).2) := by
  simp [takeWsRequest, h, hm, hn]

theorem takeWsRequest_next {m : Arm} {n : ReqName} {s t : State} {k : Request → Workspace → Workspace × Answer}
    (h : takeWsRequest m n s k = .next t) :
    t = s ∨ ∃ r rest, s.ws.requests = r :: rest ∧ r.arm = m ∧ r.name = n
      ∧ t = (s.setWs (k r { s.ws with requests := rest }).1).answer m (k r { s.ws with requests := rest }).2 := by
  unfold takeWsRequest at h
  split at h
  · rename_i r rest hr
    split at h
    · rename_i hc
      right; exact ⟨r, rest, hr, hc.1, hc.2, by simpa using h.symm⟩
    · left; simpa using h.symm
  · left; simpa using h.symm

theorem takeWsRequest_idle {m : Arm} {n : ReqName} {s : State} {k : Request → Workspace → Workspace × Answer}
    (h : ∀ r rest, s.ws.requests = r :: rest → ¬(r.arm = m ∧ r.name = n)) : takeWsRequest m n s k = .next s := by
  unfold takeWsRequest
  split
  · rename_i r rest hr
    rw [if_neg (h r rest hr)]
  · rfl

theorem takeReportRequest_take {m : Arm} {n : ReqName} {s : State} {k : Request → ReportUnit → ReportUnit × Answer} {r : Request}
    {rest : List Request} (h : s.report.requests = r :: rest) (hm : r.arm = m) (hn : r.name = n) :
    takeReportRequest m n s k
      = .next ((s.setReport (k r { s.report with requests := rest }).1).answer m (k r { s.report with requests := rest }).2) := by
  simp [takeReportRequest, h, hm, hn]

theorem takeReportRequest_next {m : Arm} {n : ReqName} {s t : State} {k : Request → ReportUnit → ReportUnit × Answer}
    (h : takeReportRequest m n s k = .next t) :
    t = s ∨ ∃ r rest, s.report.requests = r :: rest ∧ r.arm = m ∧ r.name = n
      ∧ t = (s.setReport (k r { s.report with requests := rest }).1).answer m (k r { s.report with requests := rest }).2 := by
  unfold takeReportRequest at h
  split at h
  · rename_i r rest hr
    split at h
    · rename_i hc
      right; exact ⟨r, rest, hr, hc.1, hc.2, by simpa using h.symm⟩
    · left; simpa using h.symm
  · left; simpa using h.symm

theorem takeReportRequest_idle {m : Arm} {n : ReqName} {s : State} {k : Request → ReportUnit → ReportUnit × Answer}
    (h : ∀ r rest, s.report.requests = r :: rest → ¬(r.arm = m ∧ r.name = n)) : takeReportRequest m n s k = .next s := by
  unfold takeReportRequest
  split
  · rename_i r rest hr
    rw [if_neg (h r rest hr)]
  · rfl

theorem takeTable_take {s : State} {k : TableEvent → TableUnit → Option Result} {e : TableEvent} {rest : List TableEvent}
    (ho : s.table.outstanding = false) (ha : s.table.arrivals = e :: rest) :
    takeTable s k = (k e { s.table with arrivals := rest }).getD (.next s) := by
  simp [takeTable, ho, ha]

theorem takeTable_next {s t : State} {k : TableEvent → TableUnit → Option Result} (h : takeTable s k = .next t) :
    t = s ∨ ∃ e rest, s.table.outstanding = false ∧ s.table.arrivals = e :: rest
      ∧ k e { s.table with arrivals := rest } = some (.next t) := by
  unfold takeTable at h
  split at h
  · rename_i e rest ho ha
    cases hk : k e { s.table with arrivals := rest } with
    | none => rw [hk] at h; left; simpa using h.symm
    | some r => rw [hk] at h; right; exact ⟨e, rest, ho, ha, by rw [hk]; simpa using h⟩
  · left; simpa using h.symm

theorem takeTableRequest_take {m : Arm} {n : ReqName} {s : State} {k : Request → TableUnit → TableUnit × Answer} {r : Request}
    {rest : List TableEvent} (ho : s.table.outstanding = false) (ha : s.table.arrivals = .request r :: rest) (hm : r.arm = m)
    (hn : r.name = n) :
    takeTableRequest m n s k
      = .next ((s.setTable (k r { s.table with arrivals := rest }).1).answer m (k r { s.table with arrivals := rest }).2) := by
  simp [takeTableRequest, takeTable_take ho ha, hm, hn]

theorem takeTableRequest_next {m : Arm} {n : ReqName} {s t : State} {k : Request → TableUnit → TableUnit × Answer}
    (h : takeTableRequest m n s k = .next t) :
    t = s ∨ ∃ r rest, s.table.outstanding = false ∧ s.table.arrivals = .request r :: rest ∧ r.arm = m ∧ r.name = n
      ∧ t = (s.setTable (k r { s.table with arrivals := rest }).1).answer m (k r { s.table with arrivals := rest }).2 := by
  rcases takeTable_next h with h | ⟨e, rest, ho, ha, hk⟩
  · exact .inl h
  · cases e with
    | lock side a l => simp at hk
    | request r =>
      simp only at hk
      split at hk
      · rename_i hc
        right; exact ⟨r, rest, ho, ha, hc.1, hc.2, by simpa using hk.symm⟩
      · cases hk

theorem takeTableRequest_idle {m : Arm} {n : ReqName} {s : State} {k : Request → TableUnit → TableUnit × Answer}
    (h : ∀ r rest, s.table.outstanding = false → s.table.arrivals = .request r :: rest → ¬(r.arm = m ∧ r.name = n)) :
    takeTableRequest m n s k = .next s := by
  unfold takeTableRequest takeTable
  split
  · rename_i e rest ho ha
    cases e with
    | request r => simp [h r rest ho ha]
    | lock => rfl
  · rfl

theorem takeFirst_none {p : TableEvent → Bool} {l : List TableEvent} (h : ∀ e ∈ l, p e = false) : takeFirst p l = none := by
  induction l with
  | nil => rfl
  | cons a l ih => simp [takeFirst, h a (by simp), ih (fun e he => h e (by simp [he]))]

/-- While a completion is awaited a read of the shadow is taken past what waits (R167). -/
theorem takeTableRead_idle {m : Arm} {n : ReqName} {s : State} {k : Request → TableUnit → Answer}
    (hf : ∀ r rest, s.table.outstanding = false → s.table.arrivals = .request r :: rest → ¬(r.arm = m ∧ r.name = n))
    (hw : s.table.outstanding = true → ∀ r : Request, .request r ∈ s.table.arrivals → ¬(r.arm = m ∧ r.name = n)) :
    takeTableRead m n s k = .next s := by
  unfold takeTableRead
  split
  · rename_i ho
    rw [takeFirst_none]
    intro e he
    cases e with
    | request r => simpa [TableEvent.isRequest] using hw ho r he
    | lock => rfl
  · exact takeTableRequest_idle hf

theorem takeTableRead_next {m : Arm} {n : ReqName} {s t : State} {k : Request → TableUnit → Answer}
    (h : takeTableRead m n s k = .next t) :
    t = s ∨ ∃ rest a, t = (s.setTable { s.table with arrivals := rest }).answer m a := by
  unfold takeTableRead at h
  split at h
  · split at h
    · rename_i r rest _
      right; exact ⟨rest, _, by simpa using h.symm⟩
    · left; simpa using h.symm
  · rcases takeTableRequest_next h with h | ⟨r, rest, _, _, _, _, ht⟩
    · exact .inl h
    · exact .inr ⟨rest, _, ht⟩

theorem takeLeaseTick_take {s : State} {cond : Bool} (hd : s.ws.ticksDue ≠ 0) (hc : cond = true) :
    takeLeaseTick s cond = .next (s.setWs s.ws.leaseTick) := by
  simp [takeLeaseTick, hd, hc]

theorem takeLeaseTick_next {s t : State} {cond : Bool} (h : takeLeaseTick s cond = .next t) :
    t = s ∨ (s.ws.ticksDue ≠ 0 ∧ cond = true ∧ t = s.setWs s.ws.leaseTick) := by
  unfold takeLeaseTick at h
  split at h
  · rename_i hc
    right; exact ⟨hc.1, hc.2, by simpa using h.symm⟩
  · left; simpa using h.symm

theorem takePortExpiry_take {side : Side} {m : Arm} {s : State} {cond : Bool} (hd : s.expiryDue side m = true)
    (hc : cond = true) : takePortExpiry side m s cond = .next (s.takeExpiry side m) := by
  simp [takePortExpiry, hd, hc]

theorem takePortExpiry_next {side : Side} {m : Arm} {s t : State} {cond : Bool} (h : takePortExpiry side m s cond = .next t) :
    t = s ∨ (s.expiryDue side m = true ∧ cond = true ∧ t = s.takeExpiry side m) := by
  unfold takePortExpiry at h
  split at h
  · rename_i hc
    simp only [Bool.and_eq_true] at hc
    right; exact ⟨hc.1, hc.2, by simpa using h.symm⟩
  · left; simpa using h.symm

/-! ### The ports -/

theorem settleExpiry_due {s : State} {side : Side} {m : Arm} (h : s.expiryDue side m = true) :
    s.settleExpiry side m = s.takeExpiry side m := by
  simp [State.settleExpiry, h]

theorem settleExpiry_not_due {s : State} {side : Side} {m : Arm} (h : s.expiryDue side m = false) : s.settleExpiry side m = s := by
  simp [State.settleExpiry, h]

theorem closeOpportunity_closed {s : State} {m : Arm} (h : (s.port m).opportunity = .closed) : s.closeOpportunity m = s := by
  simp [State.closeOpportunity, h]

theorem closeOpportunity_asked {s : State} {m : Arm} (h : (s.port m).opportunity = .asked) :
    s.closeOpportunity m = s.selectNotice m := by
  simp [State.closeOpportunity, h]

theorem closeOpportunity_offered {s : State} {m : Arm} (h : (s.port m).opportunity = .offered) :
    s.closeOpportunity m
      = if ((s.arbitrate m).port m).opportunity = .asked then (s.arbitrate m).selectNotice m else s.arbitrate m := by
  simp [State.closeOpportunity, h]

/-- The three outcomes of an arbitration (R168). -/
theorem arbitrate_cases (p : CtrlPort) (node : Node) :
    (∃ ans part, p.buffer = .holding ans part ∧ p.arbitrate node = { p.insert .answer node (ans.payload part) with
        buffer := if ans.lastPart part then .empty else .holding ans (part + 1) })
      ∨ (∃ o rest, p.fifo = o :: rest
        ∧ p.arbitrate node = { p.insert .outcome node (outcomePayload o) with fifo := rest, toWs := p.toWs ++ [.sent] })
      ∨ (p.fifo = [] ∧ p.arbitrate node = { p with opportunity := .asked }) := by
  unfold CtrlPort.arbitrate
  split
  · exact .inl ⟨_, _, by assumption, rfl⟩
  · exact .inr (.inl ⟨_, _, by assumption, rfl⟩)
  · exact .inr (.inr ⟨by assumption, rfl⟩)

/-- After an arbitration no opportunity is left to arbitrate. -/
theorem arbitrate_not_offered (p : CtrlPort) (node : Node) : (p.arbitrate node).opportunity ≠ .offered := by
  rcases arbitrate_cases p node with ⟨ans, part, _, h⟩ | ⟨o, rest, _, h⟩ | ⟨_, h⟩ <;> rw [h] <;> simp [CtrlPort.insert]

@[simp] theorem takeAllFromWs_port (s : State) (m : Arm) :
    (s.takeAllFromWs m).port m = (s.ws.toPort.get m).foldl CtrlPort.take (s.port m) := by
  simp [State.takeAllFromWs]

@[simp] theorem takeAllFromWs_ws (s : State) (m : Arm) :
    (s.takeAllFromWs m).ws = { s.ws with toPort := s.ws.toPort.set m [] } := rfl

theorem takeNewFromWs_cases (s : State) (before : PerArm (List ToPort)) (m : Arm) :
    s.takeNewFromWs before m = s ∨ s.takeNewFromWs before m = s.takeAllFromWs m := by
  unfold State.takeNewFromWs
  split
  · exact .inr rfl
  · exact .inl rfl

/-- What waits at no port: no opportunity stands, and no expiry is due at either side. -/
theorem armPortDuty_none {s : State} {m : Arm} : s.armPortDuty m = none
    ↔ (s.port m).opportunity = .closed ∧ s.expiryDue .ctrl m = false ∧ s.expiryDue .drive m = false := by
  simp only [State.armPortDuty, State.expiryDue]
  cases (s.port m).opportunity <;> cases (s.port m).expiryDue <;> cases (s.drivePort m).expiryDue <;> simp

/-- What a frame handed upward leaves: an expiry due and a standing opportunity taken, the frame, an opportunity after it. -/
theorem forwardUp_eq (s : State) (m : Arm) (os : List Octet) :
    s.forwardUp m os = (s.readyUp m).setPort m { (s.readyUp m).port m with
      handed := ((s.readyUp m).port m).handed ++ [os], forwarded := true, opportunity := .offered } := rfl

/-- With nothing due before it, a frame handed upward follows nothing. -/
theorem readyUp_idle {s : State} {m : Arm} (hd : s.expiryDue .ctrl m = false) (ho : (s.port m).opportunity = .closed) :
    s.readyUp m = s := by
  rw [State.readyUp, settleExpiry_not_due hd, closeOpportunity_closed ho]

/-! ### Second causes of CUT (R86) -/

@[simp] theorem asSecond_isTick (e : ArmEvent) : e.asSecond.isTick = e.isTick := by
  cases e <;> simp only [ArmEvent.asSecond] <;> (try split) <;> rfl

@[simp] theorem asFirst_isTick (e : ArmEvent) : e.asFirst.isTick = e.isTick := by
  cases e <;> rfl

@[simp] theorem asSecond_isNotice (e : ArmEvent) : e.asSecond.isNotice = e.isNotice := by
  cases e <;> simp only [ArmEvent.asSecond] <;> (try split) <;> rfl

@[simp] theorem asFirst_isNotice (e : ArmEvent) : e.asFirst.isNotice = e.isNotice := by
  cases e <;> rfl

/-- No mark changes how many of the waiting events are of a kind the mark does not touch. -/
theorem filter_map_length {α : Type} (f : α → α) (p : α → Bool) (h : ∀ a, p (f a) = p a) (l : List α) :
    ((l.map f).filter p).length = (l.filter p).length := by
  induction l with
  | nil => rfl
  | cons a l ih => simp only [List.map_cons, List.filter_cons, h a]; split <;> simp [ih]

@[simp] theorem asFirst_asSecond (e : ArmEvent) : e.asSecond.asFirst = e.asFirst := by
  cases e <;> simp only [ArmEvent.asSecond] <;> (try split) <;> rfl

theorem cut_inCut {u : ArmUnit} {m : Arm} {f : Finding} (h : u.state = .cut) : u.cut m f = u.record f := by
  simp [ArmUnit.cut, h]

theorem cut_inStop {u : ArmUnit} {m : Arm} {f : Finding} (h : u.state = .halting ∨ u.state = .settling) :
    u.cut m f = { (u.record f).cutNow m with arrivals := u.arrivals.map ArmEvent.asSecond } := by
  rcases h with h | h <;> simp [ArmUnit.cut, h]

theorem cut_elsewhere {u : ArmUnit} {m : Arm} {f : Finding} (hc : u.state ≠ .cut) (hh : u.state ≠ .halting)
    (hs : u.state ≠ .settling) : u.cut m f = (u.record f).cutNow m := by
  simp [ArmUnit.cut, hc, hh, hs]

/-! ### The queue -/

@[simp] theorem step_cons (s : State) (c : Instr) (rest : List Instr) (h : s.pending = c :: rest) :
    step s = exec c { s with pending := rest } := by
  simp [step, h]

theorem step_nil (s : State) (h : s.pending = []) (hd : s.portDuty = none) : step s = .next s.timePasses := by
  simp [step, h, hd]

theorem step_port {s : State} {c : Instr} (h : s.pending = []) (hd : s.portDuty = some c) : step s = exec c s := by
  simp [step, h, hd]

end Sys2Proof.Machine
end

