-- ==== Sys2Proof/WellFormed.lean ====
section
/-! DEFINITION. The check of a command. The operand types already exclude every other ill-formed operand. -/

namespace Sys2Proof

/-- A received frame has the octet that follows its start delimiter (R156 reads the frame mark there). -/
def RxFrame.wf (f : RxFrame) : Bool := !f.octets.isEmpty

/-- The well-formed commands. -/
def Instr.wf : Instr → Bool
  | .frameArrival _ _ f => f.wf
  | _ => true

end Sys2Proof
end

