-- ==== Sys2Proof/Tests/Slice0.lean ====
section
/-! SUPPORT. Tests: the smoke test of well-formedness, the manual's worked examples, and, for every statement with
hypotheses, a state and operands that meet them, clause by clause at the edges of each range. -/

namespace Sys2Proof.Tests

open Sys2Proof Sys2Proof.Machine

/-! ### The small states the tests start from -/

/-- Whether a command answers a next state with a property. -/
def leads (r : Result) (f : State → Bool) : Bool :=
  match r with
  | .next t => f t
  | _ => false

/-- The profile of the worked example of 1.8, with small limits. -/
def profileA : Profile :=
  { Profile.default with
    origin := ⟨10000, 0, 60000⟩, sign := ⟨.plus, .plus, .minus⟩, pitch := ⟨200, 200, 100⟩, decel := ⟨40, 40, 25⟩,
    stepCap := ⟨300, 300, 300⟩, baseLateral := 2, baseBelow := 3, baseAbove := 1, missLimit := 2, softLimit := 2,
    feedbackLimit := 2, trackingLimit := 1000, settleWindow := 50, settleLimit := 3 }

def geomA : Geometry := profileA.geometry

/-- The BIN of the example of 1.6. -/
def binBox : Box := ⟨⟨400, 180, 520⟩, ⟨415, 203, 579⟩⟩

def homeA : Box := ⟨⟨280, 100, 500⟩, ⟨399, 300, 650⟩⟩

/-- A bank with both arms, a home each, a bin, and a forbidden region. -/
def bank : Bank :=
  { header := ⟨⟨true, true⟩, 7⟩,
    entries := [.home .armA homeA, .home .armB ⟨⟨600, 100, 500⟩, ⟨700, 300, 650⟩⟩, .bin binBox 4 6,
      .forbidden ⟨⟨0, 0, 0⟩, ⟨9, 9, 9⟩⟩] ++ List.replicate 20 .empty,
    profiles := ⟨profileA, Profile.default⟩ }

def binGeom : BinGeom := ⟨binBox, 4, 6⟩

/-- p0 of 1.8, and the setpoint after it. -/
def start : Pos := ⟨⟨70100, 40050, 3040⟩, 12⟩

def target : Pos := ⟨⟨70400, 40050, 2990⟩, 12⟩

def record (k : FaultKind) : FaultRec := ⟨k, KindSet.empty, some 3, none, none, 9, .run⟩

/-- Whether an arm state has a fault pending in `unitIn`. -/
def stopping : ArmState → Bool
  | .halting | .settling | .held | .cut => true
  | _ => false

/-- An arm unit that has been commanded and stands in a state, a stop being a fault stop. -/
def unitIn (st : ArmState) (arrivals : List ArmEvent) : ArmUnit :=
  { ArmUnit.powerOn with
    state := st
    sto := decide (st = .sync ∨ st = .cut ∨ st = .standby)
    stopCause := if st = .halting ∨ st = .settling then some .fault else none
    ctx := { ArmContext.powerOn with fault := if stopping st then some (record .trespass) else none }
    last := ⟨some start, ⟨300, 0, -50⟩, 4⟩
    lastActual := some start
    work := profileA
    placeGeom := geomA
    bankKnown := true
    present := true
    ctrlLocked := true
    driveLocked := true
    arrivals := arrivals }

/-- The monitor with `bank` active, arm A's unit as given, and arm A's record MOTION. -/
def withArmA (u : ArmUnit) : State :=
  let s := State.powerOn true 15 0 []
  { s with
    arms := ⟨u, ArmUnit.powerOn⟩
    drive := ⟨{ DrivePort.powerOn with node := some 5 }, DrivePort.powerOn⟩
    ws := { s.ws with
      active := some bank, records := ⟨.motion homeA homeA ⟨3, 7, 1⟩, .unknown⟩, cells := some (List.replicate 24 .free),
      reported := ⟨u.state, .sync⟩ } }

def armIn (st : ArmState) (e : ArmEvent) : State := withArmA (unitIn st [e])

def request (n : ReqName) (code : Octet) (args : List Octet) : Request := ⟨.armA, n, ⟨code, 77⟩, args⟩

/-- The workspace unit about to take a request of arm A, arm A's record as given. -/
def wsTaking (r : Request) (cells : List CellRec) (queue : List QueueEntry) (own other : BoxRecord) : State :=
  let s := withArmA (unitIn .standby [])
  { s with ws := { s.ws with requests := [r], cells := some cells, queue := queue, records := ⟨own, other⟩ } }

/-- The table unit about to take an event. -/
def tableTaking (e : TableEvent) : State :=
  let s := withArmA (unitIn .standby [])
  { s with table := { s.table with arrivals := [e], ctrlLocked := ⟨true, true⟩ } }

/-- A frame as a receiver has it: header, payload and a good check. -/
def received (k : FrameKind) (node : Node) (payload : List Octet) : RxFrame := ⟨frame k node 8 payload, true⟩

def setpointFrom (seq : SeqNo) (p : Pos) (op : Octet) : SetpointFrame :=
  ⟨[], seq, p, op, 1, 4⟩

def feedbackWith (echo : SeqNo) (actual : Pos) (status : Octet) : FeedbackFrame := ⟨5, 6, [], echo, actual, status⟩

/-! ### Well-formedness -/

theorem test_wf_empty_frame_refused : Instr.wf (.frameArrival .ctrl .armA ⟨[], true⟩) = false := by decide

theorem test_wf_accepted : (Instr.wf (.frameArrival .drive .armB ⟨[0x50], false⟩) && Instr.wf (.powerOn 3)
    && Instr.wf (.claim .armA) && Instr.wf .leaseTick) = true := by decide

/-! ### The manual's worked examples -/

/-- 2.6: the check value. -/
theorem test_check_value : check [49, 50, 51, 52, 53, 54, 55, 56, 57] = 10673#16 := by decide +kernel

/-- 1.3: the table of braking reaches, and the braking step at the edges of R6. -/
theorem test_braking : ([40, 41, 100, 300, 0].map fun s => brakingReach 40 s) = [0, 1, 80, 980, 0]
    ∧ ([300, 41, 40, -41, -40, 0].map fun s => brakingStep 40 s) = [260, 1, 0, -1, 0, 0] := by decide

/-- R4's examples: premises `1 ≤ pitch`, `q1 ≤ q2`, both signs. -/
theorem test_grid_coordinates :
    ([10000, 10199, 9800, 9999].map fun q => (⟨10000, .plus, 200, 1⟩ : AxisGeom).grid q) = [0, 0, -1, -1]
    ∧ ([9801, 10000, 10001, 10200].map fun q => (⟨10000, .minus, 200, 1⟩ : AxisGeom).grid q) = [0, 0, -1, -1]
    ∧ (⟨10000, .minus, 200, 1⟩ : AxisGeom).gridInterval ⟨9801, 10001⟩ = ⟨-1, 0⟩ := by decide

/-- 1.8: the motion box and the reach box of the setpoint, and of its braking setpoint. -/
theorem test_reach_box :
    motionBox geomA target.xyz start.xyz ⟨300, 0, -50⟩ = ⟨⟨300, 200, 569⟩, ⟨306, 200, 570⟩⟩
    ∧ reachBox geomA ⟨3, 7, 1⟩ target.xyz start.xyz ⟨300, 0, -50⟩ = ⟨⟨297, 197, 562⟩, ⟨309, 203, 571⟩⟩
    ∧ reachBox geomA ⟨3, 7, 1⟩ ⟨70660, 40050, 2965⟩ target.xyz ⟨260, 0, -25⟩ = ⟨⟨299, 197, 563⟩, ⟨309, 203, 571⟩⟩ := by decide

/-- BoxesNest: its premises, on the example of 1.8. -/
theorem test_boxes_nest_premises :
    1 ≤ geomA.x.pitch ∧ 1 ≤ geomA.y.pitch ∧ 1 ≤ geomA.z.pitch ∧ 1 ≤ geomA.x.decel ∧ 1 ≤ geomA.y.decel ∧ 1 ≤ geomA.z.decel
    ∧ binBox.within ⟨⟨-5, 180, 520⟩, ⟨2000, 203, 579⟩⟩ = true ∧ (outsideWorld binBox).firstAxis = none
    ∧ binBox.ordered = true := by decide

/-- 1.6: the cells a box covers. -/
theorem test_cells_covered :
    ((List.range 24).filter fun i => (BoxRecord.rest ⟨⟨402, 188, 560⟩, ⟨405, 195, 590⟩⟩ ⟨0, 0, 0⟩).covers binGeom i) = [2, 3, 8, 9]
    ∧ ((List.range 24).filter fun i => (BoxRecord.rest ⟨⟨402, 188, 580⟩, ⟨405, 195, 590⟩⟩ ⟨0, 0, 0⟩).covers binGeom i) = [] := by
  decide

/-- CheckedPlacementRule: a cell index within each bay, and boxes that meet at one cell and miss by one. -/
theorem test_columns :
    (5 < binGeom.cells ∧ binGeom.columnAt (3 * binGeom.cells + 5) = ⟨⟨412, 200, 520⟩, ⟨415, 203, 579⟩⟩)
    ∧ homeA.meets ⟨⟨399, 300, 650⟩, ⟨410, 310, 660⟩⟩ = true ∧ homeA.meets ⟨⟨400, 300, 650⟩, ⟨410, 310, 660⟩⟩ = false
    ∧ BoxRecord.unknown.readAs (some binGeom) = some binBox ∧ BoxRecord.unknown.readAs none = none := by decide

/-- CoveredByUnits: ordered boxes, one covering, one not. -/
theorem test_covered_by : homeA.ordered = true ∧ (∀ c ∈ [homeA, binBox], c.ordered = true)
    ∧ (⟨⟨390, 190, 530⟩, ⟨405, 195, 560⟩⟩ : Box).coveredBy [homeA, binBox] = true
    ∧ (⟨⟨390, 190, 530⟩, ⟨416, 195, 560⟩⟩ : Box).coveredBy [homeA, binBox] = false := by decide

/-! ### The queue, time, and the laws -/

/-- StepTakesFrontCommand: a queue with a command at its front. -/
theorem test_step_takes_front : ({ State.reset with pending := [.leaseTick, .commit] } : State).pending = .leaseTick :: [.commit] := by
  decide

/-- IdleStepPassesTime: an empty queue with RESET_N high, a timer with more than one unit left, and one with its last. -/
theorem test_idle_premises : State.reset.pending = [] ∧ State.reset.resetN = true ∧ 1 < (State.reset.timebase.timers.get .armA).left
    ∧ (({ State.reset with timebase := ⟨7, ⟨⟨8, some 5, 1⟩, CadenceTimer.powerOn⟩⟩ } : State).timebase.timers.get .armA).left ≤ 1
    ∧ leads (step { State.reset with timebase := ⟨7, ⟨⟨8, some 5, 1⟩, CadenceTimer.powerOn⟩⟩ })
      (fun t => t.ws.ticksDue == 1 && (t.port .armA).expiryDue && t.timebase == ⟨0, ⟨⟨5, none, 5⟩, ⟨8, none, 7⟩⟩⟩) = true := by
  decide

/-- IdleStepPassesTime: what a port takes first, clause by clause, at arm A and at arm B, and nothing waiting at all. -/
theorem test_port_duty :
    State.reset.portDuty = none
    ∧ (State.reset.setPort .armA { CtrlPort.powerOn with opportunity := .offered, expiryDue := true }).portDuty
      = some (.insertionOpportunity .armA)
    ∧ (State.reset.setPort .armB { CtrlPort.powerOn with opportunity := .asked }).portDuty = some (.noticeSelection .armB)
    ∧ (State.reset.setPort .armA { CtrlPort.powerOn with expiryDue := true }).portDuty = some (.portCadenceExpiry .ctrl .armA)
    ∧ (State.reset.setDrivePort .armB { DrivePort.powerOn with expiryDue := true }).portDuty
      = some (.portCadenceExpiry .drive .armB)
    ∧ ((State.reset.setDrivePort .armA { DrivePort.powerOn with expiryDue := true }).setPort .armB
        { CtrlPort.powerOn with opportunity := .offered }).portDuty = some (.portCadenceExpiry .drive .armA) := by decide

/-- PowerOnLeaves and ResetAssertHolds: a running monitor with an answer, an outcome and an expiry on their way. -/
theorem test_power_on_and_reset :
    leads (exec (.powerOn 9) (armIn .run .expiry)) (fun t =>
      t.resetN && t.node == 9 && (t.arm .armA).state == .sync && t.ws.active == none) = true
    ∧ leads (exec .resetAssert ((armIn .run .expiry).setPort .armA { CtrlPort.powerOn with
        buffer := .awaiting, opportunity := .offered, expiryDue := true, toWs := [.sent] })) (fun t =>
      t.faultPin && t.stoPin .armA && t.idleLine == none && t.portDuty == none && (t.port .armA).toWs.isEmpty
        && leads (exec (.frameArrival .ctrl .armA ⟨[0x51], false⟩) t) (fun u =>
          u.port .armA == t.port .armA && u.draws == t.draws)) = true := by decide +kernel

/-- An arm in RUN whose cadence expiry is the command in front. -/
def running : State := { armIn .run .expiry with pending := [.cadenceExpiryRun .armA] }

/-- StepKeepsArmLaws, NoCommandStops: a state in RUN that keeps the laws of the arm units, and a step of it. -/
theorem test_running_arms_good : running.ArmsGood ∧ ∃ t, step running = .next t := by
  refine ⟨?_, _, rfl⟩
  intro m
  cases m
  · refine ⟨⟨by decide, by decide, by decide, by decide, by decide, by decide, by decide, ?_, by decide, ?_, ?_⟩,
      ⟨by decide, by decide, by decide, ?_, by decide, ?_, trivial, by decide⟩⟩
    · exact trivial
    · rintro r ⟨⟩
    · rintro r ⟨⟩
    · rintro ⟨msg, hm, _⟩; cases hm
    · refine ⟨?_, by decide⟩; intro msg hm; cases hm
  · refine ⟨⟨by decide, by decide, by decide, by decide, by decide, by decide, by decide, ?_, by decide, ?_, ?_⟩,
      ⟨by decide, by decide, by decide, ?_, by decide, ?_, trivial, by decide⟩⟩
    · exact trivial
    · rintro r ⟨⟩
    · rintro r ⟨⟩
    · rintro ⟨msg, hm, _⟩; cases hm
    · refine ⟨?_, by decide⟩; intro msg hm; cases hm

/-- A monitor whose table unit holds arm A's agreement, a withdrawal in front. -/
def agreed : State :=
  { tableTaking (.request (request .agreeWithdraw 0x37 [])) with
    table := { TableUnit.powerOn with
      agreement := ⟨some TableUnit.powerOn.digest, none⟩, arrivals := [.request (request .agreeWithdraw 0x37 [])] },
    pending := [.agreeWithdraw .armA] }

/-- StepKeepsTableLaw: a state with a digest held, and a step that empties the record. -/
theorem test_agreed_table_good : agreed.table.Good ∧ ∃ t, step agreed = .next t := by
  constructor
  · constructor
    · simp only [agreed, TableUnit.powerOn]
    · simp only [agreed, TableUnit.powerOn]
    · intro m d hd
      cases m
      · simp only [agreed, PerArm.get, Option.mem_def, Option.some.injEq] at hd
        refine ⟨?_, by decide +kernel⟩
        simp only [agreed]
        exact hd.symm
      · cases hd
  · exact ⟨_, rfl⟩

def waiting : QueueEntry := ⟨.armA, 3, ⟨1, 2, 2⟩, 20, 900⟩

/-- A held cell, a queued claim, and a lease tick in front. -/
def ticking : State :=
  let s := wsTaking (request .cellRead 0x24 [0]) (List.replicate 8 .free ++ .held .armB 9 4 :: List.replicate 15 .free) [waiting]
    .unknown .unknown
  { s with
    ws := { s.ws with ticksDue := 1 }
    report := { s.report with ticksDue := 1 }
    arms := ⟨{ (s.arm .armA) with arrivals := [.tick] }, { (s.arm .armB) with arrivals := [.tick] }⟩
    pending := [.leaseTick] }

/-- StepKeepsQueueLaws: a held cell, a claim queued, and the tick taken. -/
theorem test_ticking_queue_good : ticking.QueueGood ∧ ∃ t, step ticking = .next t := by
  refine ⟨⟨?_, by decide, ?_, ?_, ?_⟩, _, rfl⟩
  · refine ⟨by decide, by decide, ?_, by decide⟩
    intro c hc
    change c ∈ List.replicate 8 CellRec.free ++ .held .armB 9 4 :: List.replicate 15 .free at hc
    rcases List.mem_append.mp hc with h | h
    · rw [List.eq_of_mem_replicate h]; trivial
    · rcases List.mem_cons.mp h with rfl | h
      · exact ⟨by decide, by decide, by decide⟩
      · rw [List.eq_of_mem_replicate h]; trivial
  · intro m; cases m <;> decide
  · intro m; cases m <;> rfl
  · exact List.pairwise_singleton _ _

/-- StepKeepsTickCounts and StepKeepsRanges: the same step, with a tick due everywhere. -/
theorem test_ticking_ticks_good : ticking.TicksGood ∧ ticking.LocksGood ∧ ticking.StacksGood := by
  refine ⟨⟨rfl, ?_⟩, ?_, ?_⟩
  · intro m; cases m <;> rfl
  · intro side m; cases side <;> cases m <;> exact ⟨by decide, by decide, by decide, by decide, by decide⟩
  · intro m; cases m <;> exact ⟨by decide, by intro x hx; cases hx⟩

theorem test_ticking_report_good : ticking.report.Good := by
  refine ⟨?_, by decide⟩
  intro m
  refine ⟨by cases m <;> rfl, ?_⟩
  intro f hf
  have h : f = Flag.clear := by cases m <;> exact List.eq_of_mem_replicate hf
  subst h
  exact ⟨rfl, rfl, by decide, by decide⟩

/-! ### Ports, requests and the upward slot -/

def octets (n : Nat) : List Octet := List.replicate n 1

/-- FrameTests: one frame for each test it can fail, at the edges: a length of 65, a cut frame, a wrong check, a REQUEST to
another node, a SETPOINT of 18 octets; and frames accepted at each side. -/
theorem test_frame_tests :
    isNoise ⟨[0x60], true⟩ = true ∧ isNoise ⟨[0x5f], false⟩ = false
    ∧ frameFailure .ctrl 15 ⟨frame .param 3 8 (octets 65), true⟩ = some .endError
    ∧ frameFailure .ctrl 15 ⟨frame .param 3 8 (octets 2), false⟩ = some .endError
    ∧ frameFailure .ctrl 15 ⟨[0x50, 3, 0, 0, 0, 0], true⟩ = some .checkError
    ∧ frameFailure .ctrl 15 (received .request 3 [1, 2]) = some .kindError
    ∧ frameFailure .ctrl 15 (received .setpoint 3 (octets 18)) = some .kindError
    ∧ frameFailure .ctrl 15 (received .setpoint 3 (octets 19)) = none
    ∧ frameFailure .drive 15 (received .feedback 3 (octets 18)) = none
    ∧ frameFailure .ctrl 15 (received .request 15 [1, 2]) = none := by decide +kernel

/-- FrameArrivals: reset, noise, and the two ways a discarded frame has a node. -/
theorem test_frame_discards :
    (State.powerOn false 15 0 []).resetN = false ∧ isNoise ⟨[0x60], true⟩ = true
    ∧ rxNode ⟨[0x51], false⟩ = none ∧ frameFailure .ctrl 15 ⟨[0x51], false⟩ = some .endError
    ∧ leads (exec (.frameArrival .drive .armA ⟨[0x52, 3], false⟩) State.reset) (fun t =>
      (t.drivePort .armA).raises == [⟨.armA, .frameError, .frameError .drive .endError 2 3⟩]) = true
    ∧ leads (exec (.frameArrival .ctrl .armA ⟨[0x51], false⟩) State.reset) (fun t =>
      t.draws == 1 && (t.port .armA).raises.length == 1) = true := by decide +kernel

/-- FrameArrivals: the routing of each kind. -/
theorem test_frame_routing :
    leads (exec (.frameArrival .ctrl .armA (received .idle 3 [])) State.reset) (fun t =>
      (t.arm .armA).arrivals.isEmpty && (t.port .armA).lock.good == 1) = true
    ∧ leads (exec (.frameArrival .ctrl .armA (received .setpoint 3 (octets 19))) State.reset) (fun t =>
      (t.arm .armA).arrivals.length == 1) = true
    ∧ leads (exec (.frameArrival .ctrl .armB (received .param 3 [])) State.reset) (fun t =>
      (t.arm .armB).arrivals == [.param (frame .param 3 8 []) 8]) = true
    ∧ leads (exec (.frameArrival .ctrl .armA (received .request 15 [6, 9])) State.reset) (fun t =>
      (t.req.get .armA).incoming == some [6, 9] && (t.port .armA).buffer == .awaiting) = true
    ∧ leads (exec (.frameArrival .ctrl .armA (received .request 15 [6, 9]))
        (State.reset.setPort .armA { CtrlPort.powerOn with buffer := .awaiting })) (fun t =>
      (t.port .armA).raises == [⟨.armA, .requestOverrun, .overrun 6 9⟩]) = true
    ∧ leads (exec (.frameArrival .drive .armA (received .feedback 3 (octets 18))) State.reset) (fun t =>
      (t.drivePort .armA).node == some 3 && (t.arm .armA).arrivals.length == 1) = true
    ∧ leads (exec (.frameArrival .drive .armA (received .param 3 [])) State.reset) (fun t =>
      (t.port .armA).handed == [frame .param 3 8 []] && (t.port .armA).opportunity == .offered) = true := by decide +kernel

/-- PortLockRule: the counts at their edges: the seventh and eighth good frame, the third and fourth bad, the fifteenth and
sixteenth silent period. -/
theorem test_lock_edges :
    (⟨false, 6, 0, 0⟩ : LinkLock).wellFormed = ⟨false, 7, 0, 0⟩ ∧ (⟨false, 7, 0, 0⟩ : LinkLock).wellFormed = ⟨true, 0, 0, 0⟩
    ∧ (⟨true, 0, 2, 5⟩ : LinkLock).discarded = ⟨true, 0, 3, 5⟩ ∧ (⟨true, 0, 3, 5⟩ : LinkLock).discarded = ⟨false, 0, 0, 0⟩
    ∧ (⟨true, 0, 0, 14⟩ : LinkLock).expiry = ⟨true, 0, 0, 15⟩ ∧ (⟨true, 0, 0, 15⟩ : LinkLock).expiry = ⟨false, 0, 0, 0⟩
    ∧ (⟨false, 5, 0, 0⟩ : LinkLock).discarded = ⟨false, 0, 0, 0⟩ := by decide

/-- PortLockRule: an expiry waits at each port; the silent periods reach 16; a lock that changes and one that does not. -/
theorem test_port_expiries :
    (State.reset.port .armA).lock.locked = (⟨false, 1, 0, 0⟩ : LinkLock).locked
    ∧ (State.reset.port .armA).lock.locked ≠ (⟨true, 0, 0, 0⟩ : LinkLock).locked
    ∧ leads (exec (.lockLossSilence .ctrl .armA)
        (State.reset.setPort .armA { CtrlPort.powerOn with lock := ⟨true, 0, 0, 15⟩, expiryDue := true })) (fun t =>
      (t.port .armA).lock == ⟨false, 0, 0, 0⟩ && (t.arm .armA).arrivals == [.lock .ctrl false]
        && t.table.arrivals == [.lock .ctrl .armA false] && (t.port .armA).opportunity == .offered) = true
    ∧ leads (exec (.portCadenceExpiry .drive .armA)
        (State.reset.setDrivePort .armA { DrivePort.powerOn with lock := ⟨true, 0, 0, 14⟩, expiryDue := true })) (fun t =>
      (t.drivePort .armA).lock == ⟨true, 0, 0, 15⟩ && (t.arm .armA).arrivals.isEmpty) = true
    ∧ leads (exec (.lockLossSilence .drive .armA)
        (State.reset.setDrivePort .armA { DrivePort.powerOn with lock := ⟨true, 0, 0, 15⟩, expiryDue := true })) (fun t =>
      (t.arm .armA).arrivals == [.lock .drive false]) = true := by decide

/-- PortLockRule and FrameArrivals: an expiry that was delivered before a frame is taken before it, so its sixteenth silent
period unlocks the port and the frame is the first good one; and an opportunity that stands is used before a later frame. -/
theorem test_taken_before_a_frame :
    leads (exec (.frameArrival .ctrl .armA (received .idle 3 []))
        (State.reset.setPort .armA { CtrlPort.powerOn with lock := ⟨true, 0, 0, 15⟩, expiryDue := true, forwarded := true })) (fun t =>
      (t.port .armA).lock == ⟨false, 1, 0, 0⟩ && !(t.port .armA).expiryDue && (t.port .armA).opportunity == .closed) = true
    ∧ leads (exec (.frameArrival .drive .armA (received .param 3 []))
        (State.reset.setPort .armA { CtrlPort.powerOn with
          buffer := .holding (answerOk ⟨2, 9⟩ []) 0, opportunity := .offered })) (fun t =>
      (t.port .armA).handed == [frame .answer 15 0 [2, 9, 0, 0, 128], frame .param 3 8 []]
        && (t.port .armA).opportunity == .offered) = true := by decide +kernel

/-- MonitorFramesReadBack: a payload of 64 octets, and positions at both ends of 32 signed bits. -/
theorem test_frames_read_back :
    (octets 64).length ≤ 64 ∧ rxPayload (received .answer 15 (octets 64)) = octets 64
    ∧ (∀ q ∈ [(-2147483648 : Int), 2147483647, 0, -1], -2147483648 ≤ q ∧ q ≤ 2147483647)
    ∧ (readSetpoint (setpointFrame 5 9 ⟨⟨-2147483648, 2147483647, 0⟩, -1⟩)).pos = ⟨⟨-2147483648, 2147483647, 0⟩, -1⟩ := by
  decide +kernel

/-- MonitorFramesReadBack: each octet of a SETPOINT and of a FEEDBACK in its place. -/
theorem test_octet_places :
    (let f := readSetpoint ((List.range 23).map fun i => BitVec.ofNat 8 i)
     f.seq = 2 ∧ f.pos = ⟨⟨0x04050607, 0x08090a0b, 0x0c0d0e0f⟩, 0x10111213⟩ ∧ f.op = 20 ∧ f.lateral = 21 ∧ f.below = 22)
    ∧ (let f := readFeedback ((List.range 22).map fun i => BitVec.ofNat 8 i)
       f.node = 1 ∧ f.seq = 2 ∧ f.echo = 4 ∧ f.actual = ⟨⟨0x05060708, 0x090a0b0c, 0x0d0e0f10⟩, 0x11121314⟩ ∧ f.status = 21) := by
  decide

def decoding (payload : List Octet) : State := { State.reset with req := State.reset.req.set .armA ⟨some payload, none⟩ }

/-- DecodingAndPlacing: a payload of one octet and of two, an unknown code, a wrong length, and a request for each owner. -/
theorem test_decoding :
    ([[1], [7, 9]].all fun p => leads (exec (.requestDecode .armA) (decoding p)) fun t =>
      (t.port .armA).buffer == .holding (answerRefused (headOf p) .unknownRequest []) 0) = true
    ∧ leads (exec (.requestDecode .armA) (decoding [0x23, 9])) (fun t =>
      (t.port .armA).buffer == .holding (answerRefused ⟨0x23, 9⟩ .range [1]) 0) = true
    ∧ leads (exec (.requestDecode .armA) (decoding [0x02, 9])) (fun t =>
      (t.arm .armA).arrivals == [.request ⟨.armA, .armHalt, ⟨2, 9⟩, []⟩]) = true
    ∧ leads (exec (.requestDecode .armA) (decoding [0x33, 9, 0, 26])) (fun t => t.ws.requests.length == 1) = true
    ∧ leads (exec (.requestDecode .armA) (decoding [0x33, 9, 1, 26])) (fun t => t.table.arrivals.length == 1) = true
    ∧ leads (exec (.requestDecode .armA) (decoding [0x40, 9])) (fun t => t.report.requests.length == 1) = true
    ∧ leads (exec (.answerPlace .armA) { State.reset with req := State.reset.req.set .armA ⟨none, some (answerOk ⟨2, 9⟩ [])⟩ })
        (fun t => (t.port .armA).buffer == .holding (answerOk ⟨2, 9⟩ []) 0 && (t.req.get .armA).answer == none) = true := by
  decide

def outcome : ClaimOutcome := ⟨3, .granted, ⟨1, 2, 2⟩⟩

def portWith (buffer : AnswerBuffer) (fifo : List ClaimOutcome) (opportunity : Opportunity) : State :=
  State.reset.setPort .armA { CtrlPort.powerOn with buffer := buffer, fifo := fifo, handed := [[1]], opportunity := opportunity }

/-- InsertionArbitration: an answer of 60 octets has a first part that is not the last, one of 59 has one part; then an outcome,
then the report unit is asked. -/
theorem test_insertion :
    leads (exec (.insertionOpportunity .armA) (portWith (.holding (answerOk ⟨2, 9⟩ (octets 60)) 0) [outcome] .offered)) (fun t =>
      (t.port .armA).buffer == .holding (answerOk ⟨2, 9⟩ (octets 60)) 1 && (t.sentUp .armA).length == 2) = true
    ∧ leads (exec (.insertionOpportunity .armA) (portWith (.holding (answerOk ⟨2, 9⟩ (octets 59)) 0) [outcome] .offered)) (fun t =>
      (t.port .armA).buffer == .empty && (t.port .armA).insertCount == 1) = true
    ∧ leads (exec (.insertionOpportunity .armA) (portWith .awaiting [outcome] .offered)) (fun t =>
      (t.port .armA).handed == [[1], frame .outcome 15 0 [3, 0, 1, 2, 2]] && (t.port .armA).toWs == [.sent]) = true
    ∧ leads (exec (.insertionOpportunity .armA) (portWith .empty [] .offered)) (fun t =>
      (t.port .armA).handed == [[1]] && (t.port .armA).opportunity == .asked) = true := by decide +kernel

/-- InsertionArbitration: an opportunity closed, one already asked, and one offered that ends closed and one that ends asked. -/
theorem test_close_opportunity :
    ((portWith .empty [outcome] .closed).port .armA).opportunity = .closed
    ∧ (((portWith .empty [] .asked).closeOpportunity .armA).port .armA).opportunity = .closed
    ∧ leads (exec (.insertionOpportunity .armA) (portWith .empty [outcome] .offered)) (fun t =>
      (t.port .armA).opportunity == .closed
        && ((portWith .empty [outcome] .offered).closeOpportunity .armA).port .armA == t.port .armA) = true
    ∧ leads (exec (.insertionOpportunity .armA) (portWith .empty [] .offered)) (fun t =>
      (t.port .armA).opportunity == .asked
        && leads (exec (.noticeSelection .armA) t) fun u =>
          u.port .armA == ((portWith .empty [] .offered).closeOpportunity .armA).port .armA) = true := by
  decide +kernel

/-- NoticeSelectionRule: two eligible flags of one priority, and none. -/
theorem test_notice_selection :
    leads (exec (.noticeSelection .armA) ({ portWith .empty [] .asked with
        report := (ReportUnit.powerOn.takeRaise ⟨.armA, .trespass, .seqOnly 4⟩).takeRaise ⟨.armA, .speed, .seqAxis 4 none⟩ })) (fun t =>
      (t.report.flag .armA 3).noticed && !(t.report.flag .armA 4).noticed && (t.port .armA).insertCount == 1) = true
    ∧ leads (exec (.noticeSelection .armA) (portWith .empty [] .asked)) (fun t =>
      (t.port .armA).handed == [[1]] && (t.port .armA).opportunity == .closed) = true := by
  decide +kernel

/-- NoticeSelectionRule: the octets of a NOTICE, its detail with an absent and a present part, and of details of each shape. -/
theorem test_notice_octets :
    noticePayload .armB 8 ⟨true, false, 3, some (.stack ⟨.request, .underflow, 2, none, some 9⟩), some 513⟩
      = [8, 1, 3, 0, 0, 2, 1, 8, 1, 1, 2, 0, 0, 0, 1, 9]
    ∧ ([Detail.seqAxis 4 (some .axisZ), .leaseLapsed 1 2 20 15, .frameError .drive .checkError 3 7,
        .commitRefused (.leasesHeld 9 .armB) 0x1234, .commitRefused (.illegalBox .armA .trespass) 0x1234,
        .dropped .lock 0x1234 (some .drive)].map detailOctets)
      = [[4, 3], [1, 2, 20, 0, 0, 0, 15], [2, 1, 3, 7], [0, 0, 0, 0, 0, 1, 9, 1, 1, 0x12, 0x34],
        [1, 1, 0, 1, 3, 0, 0, 0, 0, 0x12, 0x34], [2, 0x12, 0x34, 1, 2]] := by decide

/-- OutcomesAndReports: each message at the front of its channel. -/
theorem test_outcomes_and_reports :
    leads (exec (.outcomeHandover .armA) (State.reset.setWs { Workspace.powerOn with toPort := ⟨[.outcome outcome], []⟩ })) (fun t =>
      (t.port .armA).fifo == [outcome]) = true
    ∧ leads (exec (.outcomeDiscard .armA) ((portWith .empty [outcome] .offered).setWs { Workspace.powerOn with toPort := ⟨[.discard], []⟩ }))
      (fun t => (t.port .armA).fifo.isEmpty && (t.port .armA).toWs == [.discarded 1]) = true
    ∧ leads (exec (.sentReport .armA) ((State.reset.setPort .armA { CtrlPort.powerOn with toWs := [.sent] }).setWs
        { Workspace.powerOn with outcomeCount := ⟨3, 0⟩ })) (fun t => t.ws.outcomeCount.get .armA == 2) = true
    ∧ leads (exec (.discardReport .armA) ((State.reset.setPort .armA { CtrlPort.powerOn with toWs := [.discarded 2] }).setWs
        { Workspace.powerOn with outcomeCount := ⟨3, 0⟩ })) (fun t => t.ws.outcomeCount.get .armA == 1) = true := by decide

/-! ### Setpoints and expiries: the premises of each clause, and what comes of them -/

/-- SetpointArrivalRule: outside RUN; with the slot FILLED; in order; out of order unmasked. -/
theorem test_setpoint_arrival_premises :
    (armIn .standby (.setpoint (setpointFrom 5 target 0))).armTakes .armA (.setpoint (setpointFrom 5 target 0)) []
    ∧ ((armIn .standby (.setpoint (setpointFrom 5 target 0))).arm .armA).state ≠ .run
    ∧ (armIn .run (.setpoint (setpointFrom 5 target 0))).armTakes .armA (.setpoint (setpointFrom 5 target 0)) []
    ∧ ((armIn .run (.setpoint (setpointFrom 5 target 0))).arm .armA).state = .run
    ∧ ((armIn .run (.setpoint (setpointFrom 5 target 0))).arm .armA).slotFilled = false
    ∧ ((armIn .run (.setpoint (setpointFrom 5 target 0))).arm .armA).last.pos = some start
    ∧ ((armIn .run (.setpoint (setpointFrom 5 target 0))).arm .armA).ctx.fault = none
    ∧ ((armIn .run (.setpoint (setpointFrom 5 target 0))).arm .armA).ctx.carried = none
    ∧ (withArmA { unitIn .run [.setpoint (setpointFrom 5 target 0)] with slotFilled := true }).armTakes .armA
      (.setpoint (setpointFrom 5 target 0)) [] := by decide

/-- The same states taken: discarded; early; sent for checking with a push; hard by SEQUENCE with a push. -/
theorem test_setpoint_arrival :
    leads (exec (.setpointArrival .armA) (armIn .standby (.setpoint (setpointFrom 5 target 0)))) (fun t =>
      (t.arm .armA).arrivals.isEmpty && (t.arm .armA).toWs.isEmpty) = true
    ∧ leads (exec (.setpointArrival .armA) (withArmA { unitIn .run [.setpoint (setpointFrom 5 target 0)] with slotFilled := true }))
      (fun t => (t.arm .armA).raises == [⟨.armA, .setpointEarly, .seqOnly 5⟩]) = true
    ∧ leads (exec (.setpointArrival .armA) (armIn .run (.setpoint (setpointFrom 5 target 1)))) (fun t =>
      (t.arm .armA).toWs == [.checked ⟨target.xyz, start.xyz, ⟨300, 0, -50⟩, ⟨3, 7, 1⟩, geomA, ⟨300, 300, 300⟩⟩]
        && (t.arm .armA).expected == some 6 && (t.arm .armA).ctx.stack == [⟨1, 4⟩]) = true
    ∧ leads (exec (.setpointArrival .armA) (withArmA { unitIn .run [.setpoint (setpointFrom 5 target 1)] with
        expected := some 4, ctx := { ArmContext.powerOn with mask := ⟨false, false, true, false, false, false⟩ } })) (fun t =>
      (t.arm .armA).state == .halting && (t.arm .armA).last.step == ⟨260, 0, -25⟩
        && (t.arm .armA).ctx.fault.map (·.kind) == some .sequence) = true := by decide

/-- EnvelopeOperations at the edges: seven entries and eight; margins 63 and 64; codes 2 and 3. -/
theorem test_envelope_operations :
    (applyEnvOp false (.push ⟨1, 1⟩) (List.replicate 7 ⟨2, 2⟩)).1.length = 8
    ∧ applyEnvOp false (.push ⟨1, 3⟩) (List.replicate 8 ⟨2, 2⟩) = (List.replicate 8 ⟨2, 2⟩, some .overflow)
    ∧ applyEnvOp true (.push ⟨1, 3⟩) (List.replicate 8 ⟨2, 2⟩) = (⟨2, 3⟩ :: List.replicate 7 ⟨2, 2⟩, some .overflow)
    ∧ (stage2 false { setpointFrom 5 target 1 with lateral := 63, below := 63 } []).1 = [⟨63, 63⟩]
    ∧ ((stage2 false { setpointFrom 5 target 1 with lateral := 64 } []).2.map (·.case)) = some .badOp
    ∧ ((stage2 false (setpointFrom 5 target 2) []).2.map (·.case)) = some .underflow
    ∧ ((stage2 false (setpointFrom 5 target 3) []).2.map (·.case)) = some .badOp := by decide

/-- An arm in RUN with a verdict on the setpoint of 1.8. -/
def judged (v : Verdict) (ctx : ArmContext) : State :=
  withArmA { unitIn .run [] with
    slotFilled := true, ctx := ctx,
    outstanding := some (.setpoint (setpointFrom 5 target 0) ⟨300, 0, -50⟩ geomA none none), verdict := some v }

def maskedTrespass : Mask := ⟨true, false, false, false, false, false⟩

/-- SetpointVerdictRule: PLACED; soft below the limit and at it; hard with a first kind. -/
theorem test_setpoint_verdict_premises :
    (judged .placed ArmContext.powerOn).verdictTakes .armA (.setpoint (setpointFrom 5 target 0) ⟨300, 0, -50⟩ geomA none none) .placed
    ∧ (KindSet.add (KindSet.single .speed) .trespass).first = some .trespass
    ∧ (Found.kinds ⟨KindSet.add (KindSet.single .speed) .trespass, none, some .axisX, none, none⟩).first = some .trespass
    ∧ 0 + 1 < profileA.softLimit ∧ profileA.softLimit ≤ 1 + 1 := by decide

theorem test_setpoint_verdict :
    leads (exec (.setpointVerdict .armA) (judged .placed ArmContext.powerOn)) (fun t =>
      (t.arm .armA).last == ⟨some target, ⟨300, 0, -50⟩, 5⟩ && (t.arm .armA).state == .run) = true
    ∧ leads (exec (.setpointVerdict .armA) (judged (.failed (KindSet.single .trespass) none none 9)
        { ArmContext.powerOn with mask := maskedTrespass })) (fun t =>
      (t.arm .armA).ctx.soft == 1 && (t.arm .armA).state == .run && (t.arm .armA).last.step == ⟨260, 0, -25⟩) = true
    ∧ leads (exec (.setpointVerdict .armA) (judged (.failed (KindSet.single .trespass) none none 9)
        { ArmContext.powerOn with mask := maskedTrespass, soft := 1 })) (fun t =>
      (t.arm .armA).ctx.fault.map (·.kind) == some .softLimit && (t.arm .armA).state == .halting) = true
    ∧ leads (exec (.setpointVerdict .armA) (judged (.failed (KindSet.add (KindSet.single .speed) .trespass) none (some .axisX) 9)
        ArmContext.powerOn)) (fun t => (t.arm .armA).ctx.fault
          == some ⟨.trespass, KindSet.single .speed, some 5, none, none, 9, .run⟩) = true := by decide

/-- RunExpiryRule and PeriodEndParts in RUN: an EMPTY slot below the miss limit and at it; no FEEDBACK below the limit and at it. -/
theorem test_run_expiry :
    (armIn .run .expiry).armTakes .armA .expiry [] ∧ ((armIn .run .expiry).arm .armA).state = .run
    ∧ leads (exec (.cadenceExpiryRun .armA) (armIn .run .expiry)) (fun t =>
      (t.arm .armA).ctx.miss == 1 && (t.arm .armA).ctx.feedback == 1 && (t.arm .armA).state == .run
        && (t.arm .armA).last.step == ⟨260, 0, -25⟩) = true
    ∧ leads (exec (.frameLoss .armA) (withArmA { unitIn .run [.expiry] with
        feedbackSeen := true, ctx := { ArmContext.powerOn with miss := 1 } })) (fun t =>
      (t.arm .armA).ctx.fault.map (·.kind) == some .frameLoss && (t.arm .armA).state == .halting) = true
    ∧ leads (exec (.feedbackLoss .armA) (withArmA { unitIn .run [.expiry] with
        slotFilled := true, ctx := { ArmContext.powerOn with feedback := 1 } })) (fun t =>
      (t.arm .armA).ctx.fault.map (·.kind) == some .feedbackLoss && (t.arm .armA).last.step == ⟨300, 0, -50⟩) = true := by decide

/-- PeriodEndParts in a stop: FEEDBACK_LOSS joins a fault stop and leaves a requested one. -/
theorem test_feedback_loss_in_stops :
    (({ unitIn .halting [] with ctx := { (unitIn .halting []).ctx with feedback := 1 } } : ArmUnit).stepFeedback .armA).ctx.fault
      = some { record .trespass with also := KindSet.single .feedbackLoss }
    ∧ (({ unitIn .settling [] with stopCause := some .requested, ctx := { ArmContext.powerOn with feedback := 1 } } :
      ArmUnit).stepFeedback .armA).ctx.fault = none
    ∧ (({ unitIn .run [] with ctx := { ArmContext.powerOn with feedback := 1, mask := ⟨false, false, false, false, true, false⟩ } } :
      ArmUnit).stepFeedback .armA).state = .run := by decide

/-- PeriodEndParts: a FEEDBACK_LOSS in the stop of a FEEDBACK_LOSS leaves the record, its own kind not among the also kinds. -/
theorem test_feedback_loss_again :
    (({ unitIn .halting [] with ctx := { (unitIn .halting []).ctx with feedback := 1, fault := some (record .feedbackLoss) } } :
      ArmUnit).stepFeedback .armA).ctx.fault = some (record .feedbackLoss) := by decide

/-- HaltingExpiryRule and SettlingExpiryRule: a step left and none left; the settle limit not reached and reached. -/
theorem test_stop_expiries :
    (armIn .halting .expiry).armTakes .armA .expiry [] ∧ (armIn .settling .expiry).armTakes .armA .expiry []
    ∧ leads (exec (.cadenceExpiryHalting .armA) (armIn .halting .expiry)) (fun t => (t.arm .armA).state == .halting) = true
    ∧ leads (exec (.cadenceExpiryHalting .armA) (withArmA { unitIn .halting [.expiry] with last := ⟨some start, ⟨40, 0, -25⟩, 4⟩ }))
      (fun t => (t.arm .armA).state == .settling && (t.arm .armA).toWs.length == 2) = true
    ∧ leads (exec (.cadenceExpirySettling .armA) (armIn .settling .expiry)) (fun t =>
      (t.arm .armA).ctx.settleTimer == 1 && (t.arm .armA).handed.length == 1) = true
    ∧ leads (exec (.settleTimeout .armA) (withArmA { unitIn .settling [.expiry] with
        ctx := { (unitIn .settling []).ctx with settleTimer := 2 } })) (fun t =>
      (t.arm .armA).state == .cut && t.stoPin .armA && (t.arm .armA).handed.isEmpty) = true := by decide

/-- QuietExpiryRule: each of the four states, STO asserted and released, the actual position known and not. -/
theorem test_quiet_expiry :
    ([ArmState.sync, .cut, .standby, .held].all fun st => leads (exec (.cadenceExpiryQuiet .armA) (armIn st .expiry)) fun t =>
      (t.arm .armA).state == st && (t.arm .armA).handed.length == (if st = .standby ∨ st = .held then 1 else 0)) = true
    ∧ leads (exec (.cadenceExpiryQuiet .armA) (withArmA { unitIn .standby [.expiry] with lastActual := none })) (fun t =>
      (t.arm .armA).handed.isEmpty) = true := by decide

def everyState : List ArmState := [.sync, .standby, .run, .halting, .settling, .held, .cut]

/-- The status of the answer a command leaves with the request unit. -/
def answered (t : State) (status : AnswerStatus) (why : Option Reason) : Bool :=
  (t.req.get .armA).answer.any fun a => a.status == status && a.reason == why

/-! ### Feedback, lock changes, ticks -/

def beyond : Pos := ⟨⟨72000, 40050, 3040⟩, 0⟩

/-- FeedbackRule: a quiet state; a stale echo; within and beyond the tracking limit, masked and not; a FAULT status. -/
theorem test_feedback :
    (armIn .run (.feedback (feedbackWith 4 start 0))).armTakes .armA (.feedback (feedbackWith 4 start 0)) []
    ∧ leads (exec (.feedbackArrival .armA) (armIn .standby (.feedback (feedbackWith 4 start 0)))) (fun t =>
      (t.arm .armA).toWs.length == 1 && (t.port .armA).handed.length == 1) = true
    ∧ leads (exec (.feedbackArrival .armA) (armIn .run (.feedback (feedbackWith 3 start 0)))) (fun t =>
      (t.arm .armA).raises == [⟨.armA, .feedbackStale, .seqPair 3 4⟩]) = true
    ∧ leads (exec (.feedbackArrival .armA) (armIn .run (.feedback (feedbackWith 4 start 0)))) (fun t =>
      (t.arm .armA).feedbackSeen && (t.arm .armA).state == .run) = true
    ∧ leads (exec (.feedbackArrival .armA) (armIn .run (.feedback (feedbackWith 4 beyond 0)))) (fun t =>
      (t.arm .armA).state == .halting && (t.arm .armA).ctx.fault.map (·.axis) == some (some .axisX)) = true
    ∧ leads (exec (.feedbackArrival .armA) (withArmA { unitIn .run [.feedback (feedbackWith 4 beyond 0)] with
        ctx := { ArmContext.powerOn with mask := ⟨false, false, false, true, false, false⟩ } })) (fun t =>
      (t.arm .armA).state == .run && (t.arm .armA).raises.length == 1) = true
    ∧ leads (exec (.feedbackArrival .armA) (armIn .run (.feedback (feedbackWith 4 start 1)))) (fun t =>
      (t.arm .armA).state == .cut && t.stoPin .armA) = true := by decide +kernel

def settlingWith (cause : StopCause) (count : Nat) (ctrl : Bool) (actual : Pos) (status : Octet) : State :=
  withArmA { unitIn .settling [.feedback (feedbackWith 4 actual status)] with
    stopCause := some cause, ctrlLocked := ctrl,
    ctx := { ArmContext.powerOn with settleCount := count, fault := if cause = .fault then some (record .trespass) else none } }

/-- SettlingRule: a FAULT status, beyond the window, the first within it, and the four ends. -/
theorem test_settling :
    (settlingWith .fault 1 true start 0).armTakes .armA (.feedback (feedbackWith 4 start 0)) []
    ∧ ((settlingWith .fault 1 true start 0).arm .armA).sto = false
    ∧ ([(settlingWith .fault 1 true start 1, ArmState.cut), (settlingWith .fault 1 true beyond 0, .settling),
        (settlingWith .fault 0 true start 0, .settling), (settlingWith .fault 1 true start 0, .held),
        (settlingWith .fault 1 false start 0, .cut), (settlingWith .requested 1 true start 0, .standby),
        (settlingWith .requested 1 false start 0, .sync)].all fun x =>
      leads (exec (.feedbackArrival .armA) x.1) fun t => (t.arm .armA).state == x.2) = true := by decide +kernel

/-- FeedbackRule: the guard status octet, bit by bit. -/
theorem test_guard_octet :
    guardOctet { unitIn .standby [] with substituted := true } true = 0xC9
    ∧ guardOctet { unitIn .held [] with ctx := { (unitIn .held []).ctx with carried := some (record .speed) } } false = 0x35
    ∧ guardOctet (unitIn .cut []) false = 0x56 := by decide

/-- FeedbackRule: the notice that waits goes up before the frame where an opportunity stands, and the octet shows none waiting;
else the octet shows it. -/
theorem test_notice_waiting :
    ([(Opportunity.offered, 2, (0x02 : Octet)), (.asked, 2, 0x02), (.closed, 1, 0x82)].all fun x =>
      let s := armIn .run (.feedback (feedbackWith 4 start 0))
      leads (exec (.feedbackArrival .armA) ({ s with
          report := ReportUnit.powerOn.takeRaise ⟨.armA, .trespass, .seqOnly 4⟩ }.setPort .armA { s.port .armA with
            opportunity := x.1 })) fun t =>
        (t.port .armA).handed.length == x.2.1 && ((t.port .armA).handed.getLast?.bind fun os => os[os.length - 3]?) == some x.2.2)
      = true := by decide +kernel

/-- Two causes of CUT that wait together in a stop, taken one after the other (R86). -/
def cutTwice (st : ArmState) (cause : Option StopCause) (fault : Option FaultRec) (first second : Instr) (events : List ArmEvent) :
    Option FaultRec :=
  let s := withArmA { unitIn st events with stopCause := cause, ctx := { ArmContext.powerOn with fault := fault } }
  match exec first s with
  | .next t =>
    match exec second t with
    | .next v => if (v.arm .armA).state = .cut then (v.arm .armA).ctx.fault else none
    | _ => none
  | _ => none

def cutAsked : ArmEvent := .request (request .armCut 3 [])

def driveFaulted : ArmEvent := .feedback (feedbackWith 3 start 1)

/-- R86: ARM_CUT and a FAULT status waiting together in a stop join in either order, in a fault stop and in a requested one. From
RUN the second is taken by R65 or R87. -/
theorem test_second_cause :
    ([ArmState.halting, .settling].all fun st =>
      ((cutTwice st (some .fault) (some (record .trespass)) (.armCut .armA) (.feedbackArrival .armA) [cutAsked, driveFaulted]).map (·.also)
          == some (KindSet.add (KindSet.single .cutRequested) .driveFault))
        && ((cutTwice st (some .fault) (some (record .trespass)) (.feedbackArrival .armA) (.armCut .armA) [driveFaulted, cutAsked]).map
            (·.also) == some (KindSet.add (KindSet.single .cutRequested) .driveFault))
        && ((cutTwice st (some .requested) none (.armCut .armA) (.feedbackArrival .armA) [cutAsked, driveFaulted]).map
            (fun f => (f.kind, f.also)) == some (.cutRequested, KindSet.single .driveFault))
        && ((cutTwice st (some .requested) none (.feedbackArrival .armA) (.armCut .armA) [driveFaulted, cutAsked]).map
            (fun f => (f.kind, f.also)) == some (.driveFault, KindSet.single .cutRequested))) = true
    ∧ ((cutTwice .run none none (.armCut .armA) (.feedbackArrival .armA) [cutAsked, driveFaulted]).map (·.also)) = some KindSet.empty
    ∧ ((cutTwice .run none none (.feedbackArrival .armA) (.armCut .armA) [driveFaulted, cutAsked]).map (·.also)) = some KindSet.empty := by
  decide +kernel

/-- FeedbackRule, SettlingRule, CutRule: the premises with a second cause, and what it does in CUT, and elsewhere. -/
theorem test_second_cause_premises :
    (armIn .cut (.faultSecond (feedbackWith 3 start 1))).armTakes .armA (.faultSecond (feedbackWith 3 start 1)) []
    ∧ (armIn .settling (.faultSecond (feedbackWith 4 start 1))).armTakes .armA (.faultSecond (feedbackWith 4 start 1)) []
    ∧ (armIn .cut (.cutSecond (request .armCut 3 []))).armTakes .armA (.cutSecond (request .armCut 3 [])) []
    ∧ leads (exec (.feedbackArrival .armA) (armIn .cut (.faultSecond (feedbackWith 4 start 1)))) (fun t =>
      (t.arm .armA).raises == [⟨.armA, .driveFault, .seqOnly 4⟩]) = true
    ∧ leads (exec (.feedbackArrival .armA) (armIn .settling (.faultSecond (feedbackWith 4 start 1)))) (fun t =>
      (t.arm .armA).state == .cut) = true
    ∧ (everyState.all fun st => leads (exec (.armCut .armA) (armIn st (.cutSecond (request .armCut 3 [])))) fun t =>
      (t.arm .armA).state == (if st = .sync then .sync else .cut)
        && (if st = .sync then answered t .refused (some .state) else answered t .ok none)) = true
    ∧ [cutAsked, driveFaulted, .tick].map ArmEvent.asSecond
      = [.cutSecond (request .armCut 3 []), .faultSecond (feedbackWith 3 start 1), .tick]
    ∧ [cutAsked, driveFaulted, .tick].map (fun e => e.asSecond.asFirst) = [cutAsked, driveFaulted, .tick] := by
  decide +kernel

/-- ParamTickAndNotice: a PARAM in a state that passes it and in one that does not, a tick, a commit notice. -/
theorem test_param_tick_notice :
    (armIn .cut (.param [1] 8)).armTakes .armA (.param [1] 8) []
    ∧ leads (exec (.paramArrival .armA) (armIn .cut (.param [1] 8))) (fun t => (t.sentDown .armA) == [[1]]) = true
    ∧ leads (exec (.paramArrival .armA) (armIn .run (.param [1] 8))) (fun t =>
      (t.arm .armA).raises == [⟨.armA, .passRefused, .passRefused .run 8⟩]) = true
    ∧ leads (exec (.armTickCopy .armA) (armIn .run .tick)) (fun t => (t.arm .armA).tickCopy == 1) = true
    ∧ leads (exec (.commitNotice .armA) (armIn .run (.commitNotice false Profile.default))) (fun t =>
      !(t.arm .armA).present && (t.arm .armA).newProfile == some Profile.default) = true := by decide

def lockEvent (st : ArmState) (sto : Bool) (side : Side) (locked : Bool) : State :=
  withArmA { unitIn st [.lock side locked] with sto := sto }

/-- LockChangeRule: both gains in SYNC, and each loss in each state. -/
theorem test_lock_changes :
    (lockEvent .run false .ctrl false).armTakes .armA (.lock .ctrl false) []
    ∧ ([(lockEvent .sync true .ctrl true), (lockEvent .sync true .drive true)].all fun s =>
      leads (exec (.lockGained .armA) s) fun t => (t.arm .armA).state == .standby && (t.arm .armA).awaitFeedback) = true
    ∧ ([(ArmState.sync, true, ArmState.sync), (.standby, true, .sync), (.run, false, .halting), (.halting, false, .halting),
        (.settling, false, .settling), (.held, false, .cut), (.cut, true, .cut)].all fun x =>
      leads (exec (.controllerLockLoss .armA) (lockEvent x.1 x.2.1 .ctrl false)) fun t => (t.arm .armA).state == x.2.2) = true
    ∧ ([(ArmState.sync, true, ArmState.sync), (.standby, true, .sync), (.standby, false, .cut), (.run, false, .cut),
        (.halting, false, .cut), (.settling, false, .cut), (.held, false, .cut), (.held, true, .held), (.cut, true, .cut)].all fun x =>
      leads (exec (.driveLockLoss .armA) (lockEvent x.1 x.2.1 .drive false)) fun t => (t.arm .armA).state == x.2.2) = true := by decide

/-! ### The requests of an arm unit -/

def asked (u : ArmUnit) (n : ReqName) (code : Octet) (args : List Octet) : State :=
  withArmA { u with arrivals := [.request (request n code args)] }

/-- EnableRule: each refusal, the delivery of a carried fault, the placement, and each verdict. -/
theorem test_arm_enable :
    (asked (unitIn .standby []) .armEnable 1 []).armTakes .armA (.request (request .armEnable 1 [])) []
    ∧ ([(unitIn .held [], Reason.state), ({ unitIn .standby [] with bankKnown := false }, .noBank),
        ({ unitIn .standby [] with present := false }, .absent), ({ unitIn .standby [] with lastActual := none }, .state),
        ({ unitIn .standby [] with ctx := { ArmContext.powerOn with carried := some (record .trespass) } }, .faultPending)].all
      fun x => leads (exec (.armEnable .armA) (asked x.1 .armEnable 1 [])) fun t => answered t .refused (some x.2)) = true
    ∧ leads (exec (.armEnable .armA) (asked (unitIn .standby []) .armEnable 1 [])) (fun t =>
      (t.arm .armA).outstanding == some (.enable ⟨1, 77⟩ geomA)) = true := by decide

theorem test_enable_verdict :
    (withArmA { unitIn .standby [] with outstanding := some (.enable ⟨1, 77⟩ geomA), verdict := some .placed }).verdictTakes .armA
      (.enable ⟨1, 77⟩ geomA) .placed
    ∧ leads (exec (.enableVerdict .armA) (withArmA { unitIn .standby [] with
        outstanding := some (.enable ⟨1, 77⟩ geomA), verdict := some .placed })) (fun t =>
      (t.arm .armA).state == .run && !t.stoPin .armA && (t.arm .armA).expected == none && answered t .ok none) = true
    ∧ ([(Verdict.failed (KindSet.single .range) (some .axisZ) none 9, Reason.illegal), (.absent, .absent), (.unknown, .state)].all
      fun x => leads (exec (.enableVerdict .armA) (withArmA { unitIn .standby [] with
        outstanding := some (.enable ⟨1, 77⟩ geomA), verdict := some x.1 })) fun t =>
          (t.arm .armA).state == .standby && answered t .refused (some x.2)) = true := by decide

/-- HaltRule: every state. -/
theorem test_arm_halt :
    (asked (unitIn .run []) .armHalt 2 []).armTakes .armA (.request (request .armHalt 2 [])) []
    ∧ (everyState.all fun st => leads (exec (.armHalt .armA) (asked (unitIn st []) .armHalt 2 [])) fun t =>
      (t.arm .armA).state == (if st = .run then .halting else st)
        && (if st = .sync ∨ st = .cut then answered t .refused (some .state) else answered t .ok none)) = true := by decide

/-- CutRule: every state, and the three ways a fault is recorded. -/
theorem test_arm_cut :
    (everyState.all fun st => leads (exec (.armCut .armA) (asked (unitIn st []) .armCut 3 [])) fun t =>
      (t.arm .armA).state == (if st = .sync then .sync else .cut)
        && (if st = .sync then answered t .refused (some .state) else answered t .ok none)) = true
    ∧ (((unitIn .held []).record ⟨.linkLoss, KindSet.empty, none, none, some .ctrl, 9⟩).ctx.fault.map (·.also))
      = some (KindSet.single .linkLoss)
    ∧ ((({ unitIn .standby [] with ctx := { ArmContext.powerOn with carried := some (record .trespass) } } : ArmUnit).record
      ⟨.cutRequested, KindSet.empty, none, none, none, 9⟩).ctx.fault.map (·.kind)) = some .trespass
    ∧ (((unitIn .run []).record ⟨.cutRequested, KindSet.empty, none, none, none, 9⟩).ctx.fault.map (·.kind)) = some .cutRequested := by
  decide

/-- ClearRule: every state, HELD with and without both ports LOCKED. -/
theorem test_arm_clear :
    (asked (unitIn .held []) .armClear 4 []).armTakes .armA (.request (request .armClear 4 [])) []
    ∧ (everyState.all fun st => leads (exec (.armClear .armA) (asked (unitIn st []) .armClear 4 [])) fun t =>
      (t.arm .armA).state == (if st = .held then .standby else st)
        && (if st = .held ∨ st = .standby then answered t .ok none else answered t .refused (some .state))) = true
    ∧ leads (exec (.armClear .armA) (asked { unitIn .held [] with driveLocked := false, sto := true } .armClear 4 [])) (fun t =>
      (t.arm .armA).state == .sync && t.stoPin .armA && !t.faultPin) = true := by decide

/-- ResetRule: every state with both ports LOCKED, and with one not. -/
theorem test_arm_reset :
    (asked (unitIn .cut []) .armReset 5 []).armTakes .armA (.request (request .armReset 5 [])) []
    ∧ (everyState.all fun st => leads (exec (.armReset .armA) (asked (unitIn st []) .armReset 5 [])) fun t =>
      if st.moving then (t.arm .armA).state == st && answered t .refused (some .state)
      else (t.arm .armA).state == .standby && t.stoPin .armA && (t.arm .armA).ctx == ArmContext.powerOn) = true
    ∧ ([ArmState.sync, .standby, .held, .cut].all fun st => leads (exec (.armReset .armA)
        (asked { unitIn st [] with ctrlLocked := false } .armReset 5 [])) fun t =>
      (t.arm .armA).state == .sync && (t.arm .armA).toWs.getLast? == some .claimRemoval) = true
    ∧ leads (exec (.armReset .armA) (withArmA (unitIn .cut [.request (request .armReset 5 []), cutAsked.asSecond]))) (fun t =>
      (t.arm .armA).arrivals == [cutAsked]) = true := by decide

/-- StatusRule: the request, and the read at the workspace unit. -/
theorem test_arm_status :
    (asked (unitIn .run []) .armStatus 6 []).armTakes .armA (.request (request .armStatus 6 [])) []
    ∧ leads (exec (.armStatus .armA) (asked (unitIn .run []) .armStatus 6 [])) (fun t =>
      (t.arm .armA).toWs == [.statusRead ⟨6, 77⟩ { unitIn .run [] with arrivals := [] }.statusOctets]) = true
    ∧ (withArmA { unitIn .run [] with toWs := [.statusRead ⟨6, 77⟩ [1]] }).wsTakes .armA (.statusRead ⟨6, 77⟩ [1]) []
    ∧ leads (exec (.statusRead .armA) (withArmA { unitIn .run [] with toWs := [.statusRead ⟨6, 77⟩ [1]] })) (fun t =>
      (t.req.get .armA).answer.map (fun a => a.data.length) == some 39) = true := by decide

def placement : Placement := ⟨target.xyz, start.xyz, ⟨300, 0, -50⟩, ⟨3, 7, 1⟩, geomA, ⟨300, 300, 300⟩⟩

def placing (own other : BoxRecord) (msg : ToWorkspace) : State :=
  let s := withArmA { unitIn .run [] with toWs := [msg] }
  { s with ws := { s.ws with records := ⟨own, other⟩ } }

/-- StatusRule: a record in each mode with a bank active, and no bank and no header; a box at both ends of its coordinates. -/
theorem test_status_octets :
    ([(BoxRecord.absent, (0 : Octet)), (.unknown, 1), (.rest ⟨⟨-1, 0, 1⟩, ⟨1024, 1023, 1⟩⟩ ⟨3, 7, 1⟩, 2), (.motion homeA homeA ⟨3, 7, 1⟩, 3)].all
      fun x => ((placing x.1 .unknown .setUnknown).ws.statusOctets .armA)[0]? == some x.2) = true
    ∧ (((placing (.rest ⟨⟨-1, 0, 1⟩, ⟨1024, 1023, 1⟩⟩ ⟨3, 7, 1⟩) .unknown .setUnknown).ws.statusOctets .armA).drop 1).take 12
      = [1, 0xFF, 0xFF, 0, 0, 0, 1, 4, 0, 3, 0xFF, 0]
    ∧ (State.reset.ws.active = none ∧ State.reset.ws.headerPresent.get .armA = false ∧ State.reset.ws.statusOctets .armA
      = List.replicate 38 0) := by decide

/-- EnvelopeRequestRule: a wrong state, margins of 64 and 63, an underflow in STANDBY and in RUN, an envelope left as it was, and
a changed one in STANDBY and in RUN. -/
theorem test_envelope_requests :
    (asked (unitIn .standby []) .envelopePush 0x10 [63, 0]).armTakes .armA (.request (request .envelopePush 0x10 [63, 0])) []
    ∧ leads (exec (.envelopePush .armA) (asked (unitIn .held []) .envelopePush 0x10 [63, 0])) (fun t => answered t .refused (some .state))
      = true
    ∧ leads (exec (.envelopePush .armA) (asked (unitIn .run []) .envelopePush 0x10 [0, 64])) (fun t => answered t .refused (some .range))
      = true
    ∧ leads (exec (.envelopePop .armA) (asked (unitIn .standby []) .envelopePop 0x11 [])) (fun t =>
      answered t .refused (some .stack) && (t.arm .armA).state == .standby) = true
    ∧ leads (exec (.envelopePop .armA) (asked (unitIn .run []) .envelopePop 0x11 [])) (fun t =>
      answered t .refused (some .stack) && (t.arm .armA).state == .halting) = true
    ∧ leads (exec (.envelopePush .armA) (asked (unitIn .run []) .envelopePush 0x10 [0, 0])) (fun t =>
      answered t .ok none && (t.arm .armA).ctx.stack == [⟨0, 0⟩] && (t.arm .armA).outstanding == none) = true
    ∧ leads (exec (.envelopePush .armA) (asked (unitIn .standby []) .envelopePush 0x10 [63, 63])) (fun t =>
      (t.arm .armA).toWs == [.rest start.xyz ⟨65, 66, 1⟩ geomA]) = true
    ∧ leads (exec (.envelopePush .armA) (asked (unitIn .run []) .envelopePush 0x10 [1, 4])) (fun t =>
      (t.arm .armA).outstanding == some (.envelope ⟨0x10, 77⟩ geomA) && (t.req.get .armA).answer == none) = true := by decide

/-- EnvelopeRequestRule: a changed envelope in STANDBY while a first FEEDBACK is awaited, and with no actual position. -/
theorem test_envelope_without_rest :
    ([{ unitIn .standby [] with awaitFeedback := true }, { unitIn .standby [] with lastActual := none }].all fun u =>
      leads (exec (.envelopePush .armA) (asked u .envelopePush 0x10 [63, 63])) fun t =>
        answered t .ok none && (t.arm .armA).toWs.isEmpty && (t.arm .armA).ctx.stack == [⟨63, 63⟩]) = true
    ∧ composeEnvelope profileA [⟨63, 63⟩] ≠ composeEnvelope profileA [] := by decide

theorem test_envelope_verdict :
    (withArmA { unitIn .run [] with outstanding := some (.envelope ⟨0x10, 77⟩ geomA), verdict := some .placed }).verdictTakes .armA
      (.envelope ⟨0x10, 77⟩ geomA) .placed
    ∧ leads (exec (.envelopeVerdict .armA) (withArmA { unitIn .run [] with
        outstanding := some (.envelope ⟨0x10, 77⟩ geomA), verdict := some .placed })) (fun t => answered t .ok none) = true
    ∧ (KindSet.single .trespass).first = some .trespass
    ∧ leads (exec (.envelopeVerdict .armA) (withArmA { unitIn .run [] with
        outstanding := some (.envelope ⟨0x10, 77⟩ geomA), verdict := some (.failed (KindSet.single .trespass) none none 9) })) (fun t =>
      answered t .refused (some .illegal) && (t.arm .armA).state == .halting) = true := by decide

/-- ContextRequestRule: MASK_SET in and out of STANDBY, with and without a kind that cannot be masked; a context loaded, one that
changes the envelope, and one whose depth is 9. -/
theorem test_mask_and_context :
    (asked (unitIn .standby []) .maskSet 0x12 [1, 0xF8]).armTakes .armA (.request (request .maskSet 0x12 [1, 0xF8])) []
    ∧ leads (exec (.maskSet .armA) (asked (unitIn .run []) .maskSet 0x12 [1, 0xF8])) (fun t => answered t .refused (some .state)) = true
    ∧ leads (exec (.maskSet .armA) (asked (unitIn .standby []) .maskSet 0x12 [0, 4])) (fun t => answered t .refused (some .range)) = true
    ∧ leads (exec (.maskSet .armA) (asked (unitIn .standby []) .maskSet 0x12 [1, 0xF8])) (fun t =>
      (t.arm .armA).ctx.mask == ⟨true, true, true, true, true, true⟩) = true
    ∧ leads (exec (.contextSave .armA) (asked (unitIn .held []) .contextSave 0x13 [])) (fun t =>
      (t.req.get .armA).answer.map (fun a => a.data.length) == some 38) = true := by decide

theorem test_context_load :
    leads (exec (.contextLoad .armA) (asked (unitIn .standby []) .contextLoad 0x14 (contextOctets (unitIn .held []).ctx))) (fun t =>
      (t.arm .armA).ctx.carried == some (record .trespass) && (t.arm .armA).toWs.isEmpty) = true
    ∧ leads (exec (.contextLoad .armA) (asked (unitIn .standby []) .contextLoad 0x14
        (contextOctets { ArmContext.powerOn with stack := [⟨1, 4⟩] }))) (fun t =>
      (t.arm .armA).toWs == [.rest start.xyz ⟨3, 7, 1⟩ geomA]) = true
    ∧ leads (exec (.contextLoad .armA) (asked (unitIn .standby []) .contextLoad 0x14 ([0, 0, 9] ++ List.replicate 35 0))) (fun t =>
      answered t .refused (some .invalid)) = true
    ∧ leads (exec (.contextLoad .armA) (asked (unitIn .cut []) .contextLoad 0x14 (contextOctets ArmContext.powerOn))) (fun t =>
      answered t .refused (some .state)) = true := by decide

/-- The octets of a context record that differ from zeros: pairs of a place and an octet. -/
def recordWith (changes : List (Nat × Octet)) : List Octet :=
  changes.foldl (fun os c => os.set c.1 c.2) (List.replicate 38 0)

/-- ContextRequestRule: each test of R141 at the value that just fails it, all before it passing; and the same record at the
values that just pass. -/
theorem test_context_fields :
    ([([(2, 9)], ContextField.depth), ([(2, 1), (3, 64)], .entries), ([(2, 1), (4, 64)], .entries), ([(19, 2)], .softSeen),
        ([(20, 3)], .faultSource), ([(20, 1), (21, 15)], .faultKind), ([(20, 1), (22, 0x80)], .faultAlso),
        ([(20, 1), (21, 3), (23, 8)], .faultAlso), ([(20, 1), (25, 2)], .faultSequence), ([(20, 1), (26, 4)], .faultAxis),
        ([(20, 1), (21, 13)], .faultPort), ([(20, 1), (27, 1)], .faultPort), ([(20, 1), (32, 7)], .faultArmState),
        ([(2, 9), (19, 2)], .depth)].all fun x =>
      match readContext (recordWith x.1) with
      | .error field => field == x.2
      | .ok _ => false) = true
    ∧ (readContext (recordWith [(2, 8), (3, 63), (19, 1), (20, 2), (21, 13), (22, 0x5F), (25, 1), (26, 3), (27, 2), (32, 6)])).toOption.isSome
    ∧ leads (exec (.contextLoad .armA) (asked (unitIn .standby []) .contextLoad 0x14 (recordWith [(20, 1), (26, 4)]))) (fun t =>
      (t.req.get .armA).answer.map (fun a => a.data) == some [8]) = true := by decide +kernel

/-- RecordsReadBack: each kind of entry at the edges of its fields, a profile, a header, and a context with a LINK_LOSS fault. -/
theorem test_records_read_back :
    ([ZoneEntry.empty, .home .armB homeA, .bin ⟨⟨0, 0, 0⟩, ⟨1023, 1023, 1023⟩⟩ 255 0, .forbidden homeA,
        .slow homeA ⟨1, 65535, 300⟩].all fun e => readEntry (7 :: entryOctets e) 1 == some e) = true
    ∧ readHeader (headerOctets ⟨⟨true, false⟩, 65535⟩) = some ⟨⟨true, false⟩, 65535⟩
    ∧ readProfile (1 :: profileOctets { profileA with origin := ⟨-2147483648, 2147483647, 0⟩, trackingLimit := 16777215 }) 1
      = some { profileA with origin := ⟨-2147483648, 2147483647, 0⟩, trackingLimit := 16777215 }
    ∧ stackGood (List.replicate 8 ⟨63, 63⟩) := by
  refine ⟨by decide +kernel, by decide +kernel, by decide +kernel, by decide, ?_⟩
  intro m hm
  rw [List.eq_of_mem_replicate hm]
  decide

theorem test_context_reads_back :
    (readContext (contextOctets { ArmContext.powerOn with
      stack := [⟨63, 0⟩, ⟨0, 63⟩], softSeen := true,
      fault := some ⟨.linkLoss, KindSet.single .driveFault, none, some .axisZ, some .drive, 9, .held⟩ })).toOption
    = some ⟨Mask.powerOn, [⟨63, 0⟩, ⟨0, 63⟩], true,
      some ⟨.linkLoss, KindSet.single .driveFault, none, some .axisZ, some .drive, 9, .held⟩⟩ := by decide +kernel

/-- RecordsReadBack: octets 19 to 37 of the context record of a pending and of a carried fault, with the five counts. -/
theorem test_context_octets :
    (contextOctets { ArmContext.powerOn with
        fault := some (record .trespass), soft := 1, miss := 2, feedback := 3, settleCount := 4, settleTimer := 5 }).drop 19
      = [0, 1, 3, 0, 0, 3, 1, 0, 0, 0, 0, 0, 9, 2, 1, 2, 3, 4, 5]
    ∧ ((contextOctets { ArmContext.powerOn with carried := some (record .trespass) }).drop 19).take 3 = [0, 2, 3] := by decide +kernel

/-! ### Placements and records at the workspace unit -/

def atRest : BoxRecord := .rest homeA ⟨3, 7, 1⟩

/-- CheckedPlacementRule: an ABSENT record, an UNKNOWN one, the placement of 1.8, and one that breaks each rule. -/
theorem test_checked_placement :
    (placing atRest .unknown (.checked placement)).wsTakes .armA (.checked placement) []
    ∧ (placing atRest .unknown (.checked placement)).ws.active = some bank
    ∧ ([(BoxRecord.absent, Verdict.absent), (.unknown, .unknown), (atRest, .placed)].all fun x =>
      leads (exec (.checkedPlacement .armA) (placing x.1 .unknown (.checked placement))) fun t => (t.arm .armA).verdict == some x.2)
      = true
    ∧ leads (exec (.checkedPlacement .armA) (placing atRest .unknown (.checked placement))) (fun t =>
      t.ws.record .armA == .motion ⟨⟨297, 197, 562⟩, ⟨309, 203, 571⟩⟩ ⟨⟨300, 200, 569⟩, ⟨306, 200, 570⟩⟩ ⟨3, 7, 1⟩) = true := by
  decide +kernel

/-- Each zone kind alone: out of the world, in the forbidden region, near the other arm, outside the space, too fast. -/
theorem test_zone_kinds :
    ([(({ placement with p := ⟨400000, 40050, 2990⟩, p0 := ⟨400000, 40050, 2990⟩, step := Tri.zero } : Placement), atRest,
          [FaultKind.range, .trespass]),
        ({ placement with p := ⟨10500, 500, 59900⟩, p0 := ⟨10500, 500, 59900⟩, step := Tri.zero, env := ⟨0, 0, 0⟩ }, atRest,
          [.forbidden, .trespass]),
        (placement, .rest ⟨⟨309, 203, 571⟩, ⟨320, 210, 580⟩⟩ ⟨0, 0, 0⟩, [.proximity]),
        ({ placement with caps := ⟨299, 300, 300⟩ }, .absent, [.speed])].all fun x =>
      leads (exec (.checkedPlacement .armA) (placing atRest x.2.1 (.checked x.1))) fun t =>
        (t.arm .armA).verdict.any fun v => match v with
          | .failed kinds _ _ _ => FaultKind.all.filter (KindSet.has kinds) == x.2.2
          | _ => false) = true := by decide +kernel

/-- RecordUpdateRule: a forced placement that finds MOTION, the other messages, and an ABSENT record that stays so. -/
theorem test_record_updates :
    (withArmA { unitIn .run [] with toWs := [.forced target.xyz start.xyz ⟨300, 0, -50⟩ geomA] }).wsTakes .armA
      (.forced target.xyz start.xyz ⟨300, 0, -50⟩ geomA) []
    ∧ leads (exec (.forcedPlacement .armA) (withArmA { unitIn .run [] with
        toWs := [.forced target.xyz start.xyz ⟨300, 0, -50⟩ geomA] })) (fun t => t.ws.record .armA
          == .motion ⟨⟨297, 197, 562⟩, ⟨309, 203, 571⟩⟩ ⟨⟨300, 200, 569⟩, ⟨306, 200, 570⟩⟩ ⟨3, 7, 1⟩) = true
    ∧ leads (exec (.restUpdate .armA) (placing .unknown .unknown (.rest start.xyz ⟨3, 7, 1⟩ geomA))) (fun t =>
      t.ws.record .armA == .rest ⟨⟨297, 197, 562⟩, ⟨303, 203, 570⟩⟩ ⟨3, 7, 1⟩) = true
    ∧ leads (exec (.restUpdate .armA) (placing .absent .unknown (.rest start.xyz ⟨3, 7, 1⟩ geomA))) (fun t =>
      t.ws.record .armA == .absent) = true
    ∧ leads (exec (.setRecordUnknown .armA) (placing atRest .unknown .setUnknown)) (fun t => t.ws.record .armA == .unknown) = true
    ∧ leads (exec (.stateReport .armA) (placing atRest .unknown (.stateReport .held))) (fun t => t.ws.reported.get .armA == .held) = true
    ∧ leads (exec .headerPresenceReport (State.reset.setTable { TableUnit.powerOn with toWs := [.presence ⟨true, false⟩] })) (fun t =>
      t.ws.headerPresent.get .armA) = true := by decide +kernel

/-! ### Cells and claims -/

def free24 : List CellRec := List.replicate 24 .free

/-- Cells 2 to 5 of bay 0 held by arm A. -/
def held4 : List CellRec := List.replicate 2 .free ++ List.replicate 4 (.held .armA 20 15) ++ List.replicate 18 .free

/-- Arm A's record covering cells (0, 2), (0, 3), (1, 2) and (1, 3). -/
def inBin : BoxRecord := .rest ⟨⟨402, 188, 560⟩, ⟨405, 195, 590⟩⟩ ⟨0, 0, 0⟩

/-- A claim of two cells of bay 0 from cell 2 on. -/
def claimArgs (lease wait tag : Octet) : List Octet := [0, 2, 2, lease, wait, tag]

def claiming (args : List Octet) (cells : List CellRec) (queue : List QueueEntry) (other : BoxRecord) : State :=
  wsTaking (request .claim 0x20 args) cells queue atRest other

/-- ClaimGrantedQueuedOrRefused: its premises, and the refusals before the grant test: no bin, an arm that may not claim, a run out of range. -/
theorem test_claim_refusals :
    (claiming (claimArgs 20 5 1) free24 [] .absent).wsTakesRequest .armA .claim (request .claim 0x20 (claimArgs 20 5 1)) []
    ∧ (claiming (claimArgs 20 5 1) free24 [] .absent).ws.active = some bank
    ∧ (claiming (claimArgs 20 5 1) free24 [] .absent).ws.bin = some binGeom
    ∧ leads (exec (.claim .armA) (State.reset.setWs { Workspace.powerOn with requests := [request .claim 0x20 (claimArgs 20 5 1)] }))
      (fun t => answered t .refused (some .noBin)) = true
    ∧ ([[0, 2, 2, 0, 5, 1], [4, 2, 2, 20, 5, 1], [0, 5, 2, 20, 5, 1], [0, 2, 0, 20, 5, 1], [0, 0, 17, 20, 5, 1]].all fun args =>
      leads (exec (.claim .armA) (claiming args free24 [] .absent)) fun t => answered t .refused (some .range)) = true := by decide

/-- ClaimGrantedQueuedOrRefused: granted; each cause of a refusal; queued; a claim of the arm with the tag; a full queue; the quota. -/
theorem test_claim_grant_and_queue :
    leads (exec (.claim .armA) (claiming (claimArgs 20 0 1) free24 [] .absent)) (fun t =>
      answered t .ok none && t.ws.cellList[2]? == some (.held .armA 20 20) && t.ws.cellList[4]? == some .free) = true
    ∧ ([(List.replicate 3 .free ++ .held .armB 9 4 :: List.replicate 20 .free, ([] : List QueueEntry), BoxRecord.absent, (0 : Octet), (3 : Octet)),
        (free24, [], inBin, 1, 2), (free24, [⟨.armB, 1, ⟨0, 3, 1⟩, 5, 9⟩], .absent, 2, 3)].all fun x =>
      leads (exec (.claim .armA) (claiming (claimArgs 20 0 1) x.1 x.2.1 x.2.2.1)) fun t =>
        (t.req.get .armA).answer.map (fun a => a.data) == some [x.2.2.2.1, 0, x.2.2.2.2]) = true
    ∧ leads (exec (.claim .armA) (claiming (claimArgs 20 5 1) free24 [] inBin)) (fun t =>
      answered t .queued none && t.ws.queue == [⟨.armA, 1, ⟨0, 2, 2⟩, 20, 5⟩]) = true
    ∧ leads (exec (.claim .armA) (claiming (claimArgs 20 5 3) free24 [waiting] inBin)) (fun t => answered t .refused (some .duplicate)) = true
    ∧ leads (exec (.claim .armA) (claiming (claimArgs 20 5 1) free24 (List.replicate 8 ⟨.armB, 1, ⟨3, 0, 1⟩, 5, 9⟩) inBin)) (fun t =>
      answered t .refused (some .queueFull)) = true
    ∧ leads (exec (.claim .armA) (let s := claiming (claimArgs 20 5 1) free24 [waiting] inBin
        s.setWs { s.ws with outcomeCount := ⟨3, 0⟩ })) (fun t => answered t .refused (some .quota)) = true := by decide +kernel

/-- RunRequestRule: RENEW of cells held, of one not held, and out of range. -/
theorem test_renew :
    ([([0, 2, 4, 0], AnswerStatus.ok, (none : Option Reason)), ([0, 2, 5, 0], .refused, some .range), ([0, 1, 2, 0], .refused, some .lapsed)].all
      fun x => leads (exec (.renew .armA) (wsTaking (request .renew 0x21 x.1) held4 [] atRest .absent)) fun t =>
        answered t x.2.1 x.2.2) = true
    ∧ leads (exec (.renew .armA) (wsTaking (request .renew 0x21 [0, 2, 1, 9]) held4 [] atRest .absent)) (fun t =>
      t.ws.cellList[2]? == some (.held .armA 9 9) && t.ws.cellList[3]? == some (.held .armA 20 15)) = true := by decide

/-- RunRequestRule: RELEASE of cells held, of one not held, of one in the arm's own box; with no cell table. -/
theorem test_release :
    leads (exec (.release .armA) (wsTaking (request .release 0x22 [0, 4, 2]) held4 [] inBin .absent)) (fun t =>
      answered t .ok none && t.ws.cellList[4]? == some .free && t.ws.cellList[3]? == some (.held .armA 20 15)) = true
    ∧ leads (exec (.release .armA) (wsTaking (request .release 0x22 [0, 1, 2]) held4 [] inBin .absent)) (fun t =>
      answered t .refused (some .notHeld)) = true
    ∧ leads (exec (.release .armA) (wsTaking (request .release 0x22 [0, 2, 4]) held4 [] inBin .absent)) (fun t =>
      answered t .refused (some .inUse)) = true
    ∧ leads (exec (.release .armA) (State.reset.setWs { Workspace.powerOn with requests := [request .release 0x22 [0, 2, 4]] }))
      (fun t => answered t .refused (some .noBin)) = true := by decide +kernel

/-- RunRequestRule and OutcomesAndReports: a RELEASE that makes a queued claim of the other arm grantable leaves the outcome in
that arm's FIFO; what else was sent to the port before is taken with it. -/
theorem test_release_enters_fifo :
    leads (exec (.release .armA) (let s := wsTaking (request .release 0x22 [0, 2, 2]) held4 [⟨.armB, 3, ⟨0, 2, 1⟩, 20, 900⟩] atRest .absent
        s.setWs { s.ws with toPort := ⟨[], [.discard]⟩ })) (fun t =>
      answered t .ok none && t.ws.cellList[2]? == some (.held .armB 20 20) && t.ws.cellList[3]? == some .free
        && (t.port .armB).fifo == [⟨3, .granted, ⟨0, 2, 1⟩⟩] && (t.port .armB).toWs == [.discarded 0] && t.ws.toPort == ⟨[], []⟩) = true := by
  decide +kernel

/-- RunRequestRule: the octets of a free cell, a held one with its deadline ahead, and one past it. -/
theorem test_cell_octets :
    (fun w : Workspace => (w.cellOctets binGeom 0, w.cellOctets binGeom 2, ({ w with tick := 15 } : Workspace).cellOctets binGeom 4))
        (wsTaking (request .cellRead 0x24 [0]) held4 [] inBin .absent).ws
      = ([0, 0, 0], [5, 20, 15], [1, 20, 0])
    ∧ CellRec.renewWith 0 7 (.held .armA 20 15) = .held .armA 20 27 := by decide +kernel

/-- RunRequestRule: CANCEL of a claim that waits and of none; CELL_READ of the last bay and of one beyond it. -/
theorem test_cancel_and_cell_read :
    leads (exec (.cancel .armA) (wsTaking (request .cancel 0x23 [3]) free24 [waiting] atRest .unknown)) (fun t =>
      answered t .ok none && t.ws.queue.isEmpty && t.ws.toPort.get .armA == []) = true
    ∧ leads (exec (.cancel .armA) (wsTaking (request .cancel 0x23 [4]) free24 [waiting] atRest .unknown)) (fun t =>
      answered t .refused (some .notFound) && t.ws.queue.length == 1) = true
    ∧ leads (exec (.cellRead .armA) (wsTaking (request .cellRead 0x24 [3]) held4 [] atRest .absent)) (fun t =>
      (t.req.get .armA).answer.map (fun a => a.data.length) == some 25) = true
    ∧ leads (exec (.cellRead .armA) (wsTaking (request .cellRead 0x24 [4]) held4 [] atRest .absent)) (fun t =>
      answered t .refused (some .range)) = true := by decide +kernel

def tickState (tick : Tick) (scan : Nat) (cells : List CellRec) (queue : List QueueEntry) (own other : BoxRecord) : State :=
  let s := wsTaking (request .cellRead 0x24 [0]) cells queue own other
  s.setWs { s.ws with tick := tick, scan := scan, ticksDue := 1 }

/-- LeaseTickRule: a deadline just reached and just not; a covered cell; the scan pointer at the last bay; a wait just reached. -/
theorem test_lease_tick :
    reached 4 4 = true ∧ reached 3 4 = false ∧ reached 2 4294967295 = true
    ∧ leads (exec .leaseLapse (tickState 14 0 held4 [] atRest .absent)) (fun t =>
      t.ws.cellList[2]? == some .free && t.ws.raises.length == 4 && t.ws.scan == 1) = true
    ∧ leads (exec .leaseTick (tickState 13 0 held4 [] atRest .absent)) (fun t =>
      t.ws.cells == some held4 && t.ws.raises.isEmpty && t.ws.tick == 14) = true
    ∧ leads (exec .leaseTick (tickState 14 0 held4 [] inBin .absent)) (fun t =>
      t.ws.cellList[2]? == some (.held .armA 20 35) && t.ws.cellList[4]? == some .free) = true
    ∧ leads (exec .leaseTick (tickState 14 3 held4 [] atRest .absent)) (fun t => t.ws.scan == 0 && t.ws.cells == some held4) = true := by
  decide +kernel

theorem test_wait_expired :
    leads (exec .waitExpired (tickState 899 0 free24 [waiting] atRest .unknown)) (fun t =>
      t.ws.queue.isEmpty && t.ws.toPort.get .armA == [.outcome ⟨3, .waitExpired, ⟨1, 2, 2⟩⟩]) = true
    ∧ leads (exec .waitExpired (tickState 898 0 free24 [waiting] atRest .unknown)) (fun t => t.ws.tick == 898) = true
    ∧ leads (exec .leaseTick ({ State.reset with ws := { Workspace.powerOn with ticksDue := 1 } })) (fun t => t.ws.tick == 1) = true := by
  decide +kernel

/-- LeaseTickRule and RunRequestRule: a RENEW leaving a lease length of 1, and then the visit of the next tick (log entry 36); of 2. -/
theorem test_renewed_then_visited :
    ([(1, true), (2, false)].all fun x => leads (exec (.renew .armA) (wsTaking (request .renew 0x21 [0, 2, 1, x.1]) held4 [] atRest .absent))
      fun t => leads (exec .leaseTick (t.setWs { t.ws with ticksDue := 1 })) fun v =>
        (v.ws.cellList[2]? == some .free) == x.2) = true := by decide +kernel

/-- LeaseTickRule: two waits run out in one tick, of both arms, each counted; and a tick in which nothing lapses. -/
theorem test_two_waits_expire :
    leads (exec .waitExpired (tickState 899 0 free24 [waiting, ⟨.armB, 4, ⟨2, 0, 1⟩, 20, 900⟩, { waiting with tag := 5 }] .unknown .unknown))
      (fun t => t.ws.queue.isEmpty && t.ws.outcomeCount == ⟨2, 1⟩
        && t.ws.toPort == ⟨[.outcome ⟨3, .waitExpired, ⟨1, 2, 2⟩⟩, .outcome ⟨5, .waitExpired, ⟨1, 2, 2⟩⟩],
          [.outcome ⟨4, .waitExpired, ⟨2, 0, 1⟩⟩]⟩) = true
    ∧ leads (exec .leaseLapse (tickState 13 0 held4 [] atRest .absent)) (fun t => t.ws.ticksDue == 1) = true := by decide +kernel

/-- ReevaluationRule: a queued claim granted, one kept behind an older claim of the other arm; and the removal of an arm's claims. -/
theorem test_reevaluation :
    (Workspace.walk binGeom [] (wsTaking (request .cellRead 0x24 [0]) free24 [] atRest .absent).ws [waiting]).cellList[8]?
      = some (.held .armA 20 20)
    ∧ (Workspace.walk binGeom [⟨.armB, 1, ⟨1, 3, 1⟩, 5, 9⟩] (wsTaking (request .cellRead 0x24 [0]) free24 [] atRest .absent).ws
      [waiting]).queue.length = 2
    ∧ leads (exec (.claimRemoval .armA) (let s := placing atRest .unknown .claimRemoval
        s.setWs { s.ws with queue := [waiting, { waiting with arm := .armB }] })) (fun t =>
      t.ws.queue.all (fun e => e.arm == .armB) && t.ws.toPort.get .armA == [.discard]) = true := by decide +kernel

/-- ReevaluationRule: an outcome handed over before a removal is in the FIFO when it ends, and the discard is what the port takes
next; the discard then empties the FIFO (R89, R126). -/
theorem test_removal_before_discard :
    leads (exec (.claimRemoval .armA) (let s := placing atRest .unknown .claimRemoval
        s.setWs { s.ws with toPort := ⟨[.outcome outcome], []⟩ })) (fun t =>
      (t.port .armA).fifo == [outcome] && t.ws.toPort.get .armA == [.discard]
        && leads (exec (.outcomeHandover .armA) t) (fun v => (v.port .armA).fifo == [outcome] && v.ws.toPort.get .armA == [.discard])
        && leads (exec (.outcomeDiscard .armA) t) (fun v => (v.port .armA).fifo.isEmpty && (v.port .armA).toWs == [.discarded 1])) = true := by
  decide +kernel

/-- LeaseTickRule: two cells lapse in one visit, raised once each in cell order, with a free cell before them. -/
theorem test_lapses_in_cell_order :
    leads (exec .leaseTick (tickState 14 0 (.free :: .held .armA 20 15 :: .held .armB 7 15 :: List.replicate 21 .free) [] .absent .absent))
      (fun t => t.ws.raises == [⟨.armA, .leaseLapsed, .leaseLapsed 0 1 20 15⟩, ⟨.armB, .leaseLapsed, .leaseLapsed 0 2 7 15⟩]
        && t.ws.cells == some free24) = true := by decide +kernel

/-- SetpointVerdictRule: the raises of three zone kinds, once each, in kind order; the node of a known drive. -/
theorem test_zone_raises :
    zoneRaises .armA 4 ⟨KindSet.add (KindSet.add (KindSet.single .speed) .range) .trespass, some .axisZ, some .axisX, none, none⟩
      = [⟨.armA, .range, .seqAxis 4 (some .axisZ)⟩, ⟨.armA, .trespass, .seqOnly 4⟩, ⟨.armA, .speed, .seqAxis 4 (some .axisX)⟩]
    ∧ ((armIn .run .expiry).drivePort .armA).node = some 5 ∧ (armIn .run .expiry).driveNode .armA = 5 := by decide

/-! ### The report unit -/

def reporting (r : Request) : State := State.reset.setReport { ReportUnit.powerOn with requests := [r] }

/-- ReportUnitRule: a raise at 254 and at 255 occurrences; a tick; a read; a clear in and out of range; a setting in and out of
range. -/
theorem test_report_unit :
    ([254, 255].all fun n => leads (exec (.eventRaise .workspace) ((State.reset.setWs { Workspace.powerOn with
        raises := [⟨.armA, .leaseLapsed, .leaseLapsed 0 2 20 15⟩] }).setReport
          (ReportUnit.powerOn.setFlag .armA 15 { Flag.clear with occurrences := n }))) fun t =>
      (t.report.flag .armA 15).occurrences == 255 && (t.report.flag .armA 15).set && t.ws.raises.isEmpty) = true
    ∧ leads (exec .reportTick (State.reset.setReport { ReportUnit.powerOn with ticksDue := 1 })) (fun t => t.report.tick == 1) = true
    ∧ (reporting (request .eventsRead 0x40 [])).reportTakes .armA .eventsRead (request .eventsRead 0x40 []) []
    ∧ leads (exec (.eventsRead .armA) (reporting (request .eventsRead 0x40 []))) (fun t => answered t .ok none) = true := by
  decide +kernel

/-- ReportUnitRule: the octets of a clear flag, with the width of its kind, and of a set one. -/
theorem test_flag_octets :
    flagOctets .range Flag.clear = [0, 0, 0, 0, 0, 0, 0, 0, 0, 0, 0]
    ∧ flagOctets .range ⟨true, true, 2, some (.seqAxis 4 (some .axisX)), some 513⟩ = [1, 1, 2, 1, 4, 1, 1, 0, 0, 2, 1]
    ∧ EventKind.all.map EventKind.code = List.range 24 := by decide

theorem test_events_clear_and_notice_set :
    leads (exec (.eventsClear .armA) (reporting (request .eventsClear 0x41 [0, 0x80, 0, 1]))) (fun t =>
      (t.req.get .armA).answer.map (fun a => a.data) == some [0, 0]) = true
    ∧ leads (exec (.eventsClear .armA) (reporting (request .eventsClear 0x41 [1, 0, 0, 1]))) (fun t => answered t .refused (some .range))
      = true
    ∧ leads (exec (.noticeSet .armA) (reporting (request .noticeSet 0x42 [23, 1, 7]))) (fun t =>
      t.report.setting 23 == ⟨true, 7⟩ && (t.req.get .armA).answer.map (fun a => a.data) == some [0, 1, 1, 7]) = true
    ∧ ([[24, 1, 7], [23, 2, 7], [23, 1, 8]].all fun args => leads (exec (.noticeSet .armA) (reporting (request .noticeSet 0x42 args)))
      fun t => answered t .refused (some .range)) = true := by decide

/-! ### Tables, agreement, commit -/

/-- `bank` with arm A absent. -/
def withoutA : Bank := { bank with header := ⟨⟨false, true⟩, 8⟩ }

/-- ShadowWriteRule: the premises, an index of 23 and of 24, a coordinate of 1024, a flag of 2, an arm of 2, a sign of 2. -/
theorem test_shadow_write_refusals :
    (tableTaking (.request (request .tableWrite 0x30 (23 :: entryOctets (.home .armA homeA))))).tableTakes .armA .tableWrite
      (request .tableWrite 0x30 (23 :: entryOctets (.home .armA homeA))) []
    ∧ readEntry (23 :: entryOctets (.home .armA homeA)) 1 = some (.home .armA homeA)
    ∧ ([24 :: entryOctets (.home .armA homeA), 0 :: entryOctets (.home .armA ⟨⟨0, 0, 0⟩, ⟨1024, 0, 0⟩⟩), 0 :: 6 :: List.replicate 18 0,
        0 :: entryOctets (.slow homeA ⟨0, 1, 1⟩)].all fun args =>
      leads (exec (.tableWrite .armA) (tableTaking (.request (request .tableWrite 0x30 args)))) fun t => answered t .refused (some .range))
      = true
    ∧ leads (exec (.headerWrite .armA) (tableTaking (.request (request .headerWrite 0x31 [2, 0, 0, 1])))) (fun t =>
      answered t .refused (some .range)) = true
    ∧ ([2 :: profileOctets profileA, 0 :: (List.replicate 12 0 ++ [2] ++ List.replicate 33 0)].all fun args =>
      leads (exec (.profileWrite .armA) (tableTaking (.request (request .profileWrite 0x32 args)))) fun t =>
        answered t .refused (some .range)) = true := by decide +kernel

theorem test_shadow_writes :
    leads (exec (.tableWrite .armA) (tableTaking (.request (request .tableWrite 0x30 (23 :: entryOctets (.home .armA homeA)))))) (fun t =>
      answered t .ok none && t.table.shadow.entries[23]? == some (.home .armA homeA)
        && t.table.result == .failed ⟨.entry 23, .absentHome, none⟩) = true
    ∧ leads (exec (.headerWrite .armA) (tableTaking (.request (request .headerWrite 0x31 [1, 0, 0, 9])))) (fun t =>
      t.table.shadow.header == ⟨⟨true, false⟩, 9⟩ && t.table.toWs == [.presence ⟨true, false⟩]) = true
    ∧ leads (exec (.profileWrite .armA) (tableTaking (.request (request .profileWrite 0x32 (1 :: profileOctets profileA))))) (fun t =>
      t.table.shadow.profiles.get .armB == profileA && t.table.result == .passed) = true
    ∧ leads (exec (.tablesReset .armA) (let s := tableTaking (.request (request .tablesReset 0x35 []))
        s.setTable { s.table with agreement := ⟨some 1, none⟩, shadow := bank })) (fun t =>
      t.table.shadow == Bank.powerOn && t.table.raises == [⟨.armA, .agreementDropped, .dropped .tablesReset 1 none⟩]) = true := by
  decide +kernel

/-- ShadowWriteRule: each test of R36 and R37 failed alone, an earlier one before a later, and a bank that passes. -/
theorem test_validation :
    let entry (i : Nat) (e : ZoneEntry) : Bank := { bank with entries := bank.entries.set i e }
    let flat : Box := ⟨⟨5, 5, 5⟩, ⟨4, 9, 9⟩⟩
    ([(bank, Validation.passed), (Bank.powerOn, .passed),
        (entry 0 .empty, .failed ⟨.header, .noHome, none⟩),
        (entry 5 (.slow flat ⟨1, 1, 1⟩), .failed ⟨.entry 5, .badBox, none⟩),
        (withoutA, .failed ⟨.entry 0, .absentHome, none⟩),
        (entry 4 (.home .armA binBox), .failed ⟨.entry 4, .homeInBin, none⟩),
        (entry 4 (.bin ⟨⟨0, 0, 0⟩, ⟨3, 5, 0⟩⟩ 4 6), .failed ⟨.entry 4, .twoBins, none⟩),
        (entry 2 (.bin binBox 4 7), .failed ⟨.entry 2, .badGrid, none⟩),
        (entry 2 (.bin binBox 9 6), .failed ⟨.entry 2, .badGrid, none⟩),
        ({ bank with profiles := ⟨profileA, { Profile.default with missLimit := 9, decel := ⟨1, 0, 1⟩ }⟩ },
          .failed ⟨.profile .armB, .badProfile, some (.decel .axisY)⟩),
        ({ entry 5 (.forbidden flat) with profiles := ⟨{ profileA with cadence := 33 }, Profile.default⟩ },
          .failed ⟨.entry 5, .badBox, none⟩)].all fun x => validate x.1 == x.2) = true
    ∧ validationOctets (.failed ⟨.profile .armB, .badProfile, some (.decel .axisY)⟩) = [1, 26, 6, 1, 10] := by decide +kernel

/-- TableReadRule: the active bank's first and last item and one beyond; no bank; the shadow, also behind another request while a
commit is outstanding. -/
theorem test_table_reads :
    ([([0, 0], AnswerStatus.ok, (none : Option Reason)), ([0, 26], .ok, none), ([0, 27], .refused, some .range)].all fun x =>
      leads (exec (.tableRead .armA) (wsTaking (request .tableRead 0x33 x.1) free24 [] atRest .absent)) fun t => answered t x.2.1 x.2.2)
      = true
    ∧ leads (exec (.tableRead .armA) (State.reset.setWs { Workspace.powerOn with requests := [request .tableRead 0x33 [0, 0]] })) (fun t =>
      answered t .refused (some .noBank)) = true
    ∧ ([([1, 26], AnswerStatus.ok, (none : Option Reason)), ([2, 0], .refused, some .range)].all fun x =>
      leads (exec (.tableRead .armA) (tableTaking (.request (request .tableRead 0x33 x.1)))) fun t => answered t x.2.1 x.2.2) = true
    ∧ leads (exec (.digestRead .armA) (let s := tableTaking (.request (request .digestRead 0x34 []))
        s.setTable { s.table with outstanding := true, arrivals := .lock .ctrl .armA false :: s.table.arrivals })) (fun t =>
      answered t .ok none && t.table.arrivals == [.lock .ctrl .armA false]) = true := by decide +kernel

/-- A valid bank in the shadow, with its digest. -/
def agreeing (locked : Bool) (digest : Digest) (result : Validation) (other : Option Digest) : State :=
  let s := tableTaking (.request (request .agree 0x36 [0x12, 0x34]))
  s.setTable { s.table with
    shadow := bank, digest := digest, result := result, ctrlLocked := ⟨locked, true⟩, agreement := ⟨none, other⟩ }

/-- AgreementRule: each refusal, an agreement before the other arm's, and the one that asks for the commit. -/
theorem test_agree :
    (agreeing true 0x1234 .passed none).tableTakes .armA .agree (request .agree 0x36 [0x12, 0x34]) []
    ∧ ([(agreeing false 0x1234 .passed none, Reason.state), (agreeing true 0x1235 .passed none, .mismatch),
        (agreeing true 0x1234 (.failed ⟨.header, .noHome, none⟩) none, .invalid)].all fun x =>
      leads (exec (.agree .armA) x.1) fun t => answered t .refused (some x.2)) = true
    ∧ leads (exec (.agree .armA) (agreeing true 0x1234 .passed none)) (fun t =>
      answered t .ok none && t.table.agreement == ⟨some 0x1234, none⟩ && !t.table.outstanding) = true
    ∧ leads (exec (.agree .armA) (agreeing true 0x1234 .passed (some 0x1234))) (fun t =>
      t.table.outstanding && t.table.toWs == [.commit bank 0x1234]) = true := by decide +kernel

/-- AgreementRule and WithdrawRule: lock reports of both ports; a withdrawal with and without a digest held, and one that waits. -/
theorem test_lock_report_and_withdraw :
    leads (exec .tableLockReport (let s := tableTaking (.lock .drive .armA false)
        s.setTable { s.table with agreement := ⟨some 1, none⟩ })) (fun t =>
      t.table.agreement == ⟨none, none⟩ && t.table.raises.length == 1 && t.table.ctrlLocked == ⟨true, true⟩) = true
    ∧ leads (exec .tableLockReport (tableTaking (.lock .ctrl .armA false))) (fun t =>
      t.table.ctrlLocked == ⟨false, true⟩ && t.table.raises.isEmpty) = true
    ∧ leads (exec (.agreeWithdraw .armA) (tableTaking (.request (request .agreeWithdraw 0x37 [])))) (fun t =>
      (t.req.get .armA).answer.map (fun a => a.data) == some [0, 0, 0]) = true
    ∧ leads (exec (.agreeWithdraw .armA) (let s := tableTaking (.request (request .agreeWithdraw 0x37 []))
        s.setTable { s.table with agreement := ⟨some 0x1234, none⟩ })) (fun t =>
      (t.req.get .armA).answer.map (fun a => a.data) == some [1, 0x12, 0x34] && t.table.agreement == ⟨none, none⟩) = true
    ∧ leads (exec (.agreeWithdraw .armA) (let s := tableTaking (.request (request .agreeWithdraw 0x37 []))
        s.setTable { s.table with outstanding := true })) (fun t => t.table.arrivals.length == 1) = true := by decide +kernel

def committing (new : Bank) (cells : List CellRec) (own : BoxRecord) (reported : ArmState) : State :=
  let s := wsTaking (request .cellRead 0x24 [0]) cells [waiting] own .unknown
  { s with
    ws := { s.ws with reported := ⟨reported, .sync⟩ }
    table := { s.table with toWs := [.commit new 0x1234] } }

/-- `bank` with its BIN recut. -/
def recut : Bank := { bank with entries := bank.entries.set 2 (.bin binBox 2 6) }

/-- CommitRule: each refusal with its data. -/
theorem test_commit_refusals :
    (committing recut held4 atRest .standby).table.toWs = .commit recut 0x1234 :: []
    ∧ leads (exec .commit (committing recut held4 atRest .standby)) (fun t =>
      t.table.completion == some (.refused (.leasesHeld 2 .armA)) && t.ws.active == some bank) = true
    ∧ leads (exec .commit (committing bank held4 (.motion ⟨⟨399, 196, 560⟩, ⟨401, 204, 560⟩⟩ homeA ⟨0, 0, 0⟩) .run)) (fun t =>
      t.table.completion == some (.refused (.illegalBox .armA .trespass))) = true
    ∧ leads (exec .commit (committing withoutA free24 atRest .settling)) (fun t =>
      t.table.completion == some (.refused (.armActive .armA))) = true := by decide +kernel

/-- CommitRule: the geometry kept, recut, and an arm made absent; CompletionRule: both ends, and the first commit. -/
theorem test_commit_and_completion :
    leads (exec .commit (committing bank held4 atRest .standby)) (fun t =>
      t.table.completion == some (.done (some bank) 7 0x1234 false) && t.ws.cells == some held4 && t.ws.queue.length == 1
        && (t.arm .armA).arrivals == [.commitNotice true profileA]) = true
    ∧ leads (exec .commit (committing recut free24 atRest .standby)) (fun t =>
      t.ws.cellList.length == 12 && t.ws.queue.isEmpty && t.ws.toPort.get .armA == [.outcome ⟨3, .cancelled, ⟨1, 2, 2⟩⟩]
        && t.ws.outcomeCount == ⟨1, 0⟩) = true
    ∧ leads (exec .commit (committing withoutA free24 atRest .standby)) (fun t =>
      t.ws.record .armA == .absent && t.ws.queue.isEmpty) = true
    ∧ leads (exec .commitCompletion (State.reset.setTable { TableUnit.powerOn with
        outstanding := true, completion := some (.done none 7 0x1234 true) })) (fun t =>
      !t.table.outstanding && t.table.shadow == Bank.powerOn && t.table.raises.length == 2) = true
    ∧ leads (exec .commitCompletion (State.reset.setTable { TableUnit.powerOn with
        outstanding := true, shadow := bank, completion := some (.refused (.armActive .armA)) })) (fun t =>
      !t.table.outstanding && t.table.shadow == bank && t.table.raises.length == 2) = true := by decide +kernel

/-- NothingWaitsNothingChanges: each of its premises, in the state after reset and in one with a commit outstanding. -/
theorem test_nothing_waits :
    (State.reset.arm .armA).arrivals = [] ∧ (State.reset.arm .armA).outstanding = none ∧ (State.reset.arm .armA).toWs = []
    ∧ State.reset.ws.requests = [] ∧ State.reset.report.requests = [] ∧ State.reset.table.arrivals = []
    ∧ State.reset.ws.ticksDue = 0 ∧ State.reset.report.ticksDue = 0 ∧ State.reset.table.toWs = [] ∧ State.reset.table.completion = none
    ∧ State.reset.expiryDue .ctrl .armA = false ∧ (State.reset.req.get .armA).incoming = none ∧ (State.reset.req.get .armA).answer = none
    ∧ (State.reset.port .armA).opportunity = .closed ∧ State.reset.ws.toPort.get .armA = [] ∧ (State.reset.port .armA).toWs = []
    ∧ State.reset.raisesOf .table = []
    ∧ ({ TableUnit.powerOn with outstanding := true } : TableUnit).outstanding = true := by decide

/-- NothingWaitsNothingChanges: another event in front of the channel, the block waiting, or a named part that does not come about. -/
theorem test_another_event_in_front :
    ∀ x ∈ [(Instr.setpointArrival .armA, armIn .run .tick), (.armTickCopy .armA, armIn .run .expiry),
        (.controllerLockLoss .armA, armIn .run (.lock .drive false)), (.cadenceExpiryHalting .armA, armIn .run .expiry),
        (.frameLoss .armA, withArmA { unitIn .run [.expiry] with slotFilled := true }),
        (.feedbackLoss .armA, withArmA { unitIn .run [.expiry] with feedbackSeen := true }), (.settleTimeout .armA, armIn .settling .expiry),
        (.armHalt .armA, armIn .run (.request (request .armCut 3 []))),
        (.armTickCopy .armA, { judged .placed ArmContext.powerOn with
          arms := ⟨{ (judged .placed ArmContext.powerOn).arm .armA with arrivals := [.tick] }, ArmUnit.powerOn⟩ }),
        (.enableVerdict .armA, judged .placed ArmContext.powerOn), (.restUpdate .armA, placing atRest .unknown .setUnknown),
        (.renew .armA, claiming (claimArgs 20 0 1) free24 [] .absent), (.eventsRead .armB, reporting (request .eventsRead 0x40 [])),
        (.tableLockReport, tableTaking (.request (request .digestRead 0x34 []))),
        (.tableWrite .armA, tableTaking (.lock .ctrl .armA false)), (.digestRead .armA, tableTaking (.lock .ctrl .armA false)),
        (.commit, State.reset.setTable { TableUnit.powerOn with toWs := [.presence ⟨true, false⟩] }),
        (.outcomeHandover .armA, State.reset.setWs { Workspace.powerOn with toPort := ⟨[.discard], []⟩ }),
        (.discardReport .armA, State.reset.setPort .armA { CtrlPort.powerOn with toWs := [.sent] }),
        (.noticeSelection .armA, portWith .empty [] .offered), (.insertionOpportunity .armA, portWith .empty [] .asked)],
      exec x.1 x.2 = .next x.2 := by
  intro x hx
  simp only [List.mem_cons, List.not_mem_nil, or_false] at hx
  rcases hx with rfl | rfl | rfl | rfl | rfl | rfl | rfl | rfl | rfl | rfl | rfl | rfl | rfl | rfl | rfl | rfl | rfl | rfl | rfl | rfl | rfl
    <;> rfl

end Sys2Proof.Tests
end

