-- ==== Sys2Proof/Proofs/Geometry.lean ====
section
/-! PROOFS. Chapter 1: counts to grid and braking, settling BrakingRule, BrakingReachRule, CountIntervalRule and
GridCoordinateRule. -/

namespace Sys2Proof.Machine

/-! ### Counts to grid (R4, R5) -/

@[simp] theorem Sign.apply_plus (v : Int) : Sign.plus.apply v = v := rfl

@[simp] theorem Sign.apply_minus (v : Int) : Sign.minus.apply v = -v := rfl

/-- R4's floor, as the two bounds that single it out. -/
theorem AxisGeom.grid_eq_iff (g : AxisGeom) (q c : Int) (hp : 1 ≤ g.pitch) :
    g.grid q = c ↔ c * g.pitch ≤ g.sign.apply (q - g.origin) ∧ g.sign.apply (q - g.origin) < (c + 1) * g.pitch := by
  have hp : (0 : Int) < g.pitch := by omega
  rw [AxisGeom.grid, ← Int.le_ediv_iff_mul_le hp, ← Int.ediv_lt_iff_lt_mul hp]
  omega

theorem AxisGeom.gridInterval_point (g : AxisGeom) (q : Int) : g.gridInterval ⟨q, q⟩ = ⟨g.grid q, g.grid q⟩ := by
  simp [AxisGeom.gridInterval]

theorem AxisGeom.grid_mono_of_plus (g : AxisGeom) (hs : g.sign = .plus) {q1 q2 : Int} (hp : 1 ≤ g.pitch) (h : q1 ≤ q2) :
    g.grid q1 ≤ g.grid q2 := by
  simp only [AxisGeom.grid, hs, Sign.apply_plus]
  exact Int.ediv_le_ediv (by omega) (by omega)

theorem AxisGeom.grid_anti_of_minus (g : AxisGeom) (hs : g.sign = .minus) {q1 q2 : Int} (hp : 1 ≤ g.pitch) (h : q1 ≤ q2) :
    g.grid q2 ≤ g.grid q1 := by
  simp only [AxisGeom.grid, hs, Sign.apply_minus]
  exact Int.ediv_le_ediv (by omega) (by omega)

/-- The quotients by a positive pitch of the integers from `a` to `b` are all those between the quotients of the ends: a
quotient `c` in that range is taken at its own first integer `c * p`, or at `a` where that lies before `a`. -/
theorem exists_ediv_eq_iff {a b p : Int} (hp : 0 < p) (hab : a ≤ b) (c : Int) :
    a / p ≤ c ∧ c ≤ b / p ↔ ∃ v, a ≤ v ∧ v ≤ b ∧ v / p = c := by
  constructor
  · rintro ⟨hac, hcb⟩
    have hcb : c * p ≤ b := (Int.le_ediv_iff_mul_le hp).mp hcb
    rcases le_total a (c * p) with hv | hv
    · exact ⟨c * p, hv, hcb, Int.mul_ediv_cancel c hp.ne'⟩
    · exact ⟨a, le_refl a, hab, le_antisymm hac ((Int.le_ediv_iff_mul_le hp).mpr hv)⟩
  · rintro ⟨v, hav, hvb, rfl⟩
    exact ⟨Int.ediv_le_ediv hp hav, Int.ediv_le_ediv hp hvb⟩

/-- R5: between its two converted ends a count interval meets every grid unit and no other. -/
theorem AxisGeom.mem_gridInterval (g : AxisGeom) {q1 q2 : Int} (hp : 1 ≤ g.pitch) (h : q1 ≤ q2) (c : Int) :
    (g.gridInterval ⟨q1, q2⟩).lo ≤ c ∧ c ≤ (g.gridInterval ⟨q1, q2⟩).hi ↔ ∃ q, q1 ≤ q ∧ q ≤ q2 ∧ g.grid q = c := by
  have hpos : (0 : Int) < g.pitch := by omega
  cases hs : g.sign with
  | plus =>
    have hends := g.grid_mono_of_plus hs hp h
    simp only [AxisGeom.gridInterval, min_eq_left hends, max_eq_right hends]
    simp only [AxisGeom.grid, hs, Sign.apply_plus]
    rw [exists_ediv_eq_iff hpos (by omega)]
    constructor
    · rintro ⟨v, h1, h2, hv⟩
      exact ⟨v + g.origin, by omega, by omega, by simpa using hv⟩
    · rintro ⟨q, h1, h2, hq⟩
      exact ⟨q - g.origin, by omega, by omega, hq⟩
  | minus =>
    have hends := g.grid_anti_of_minus hs hp h
    simp only [AxisGeom.gridInterval, min_eq_right hends, max_eq_left hends]
    simp only [AxisGeom.grid, hs, Sign.apply_minus]
    rw [exists_ediv_eq_iff hpos (by omega)]
    constructor
    · rintro ⟨v, h1, h2, hv⟩
      exact ⟨g.origin - v, by omega, by omega, by simpa using hv⟩
    · rintro ⟨q, h1, h2, hq⟩
      exact ⟨-(q - g.origin), by omega, by omega, hq⟩

/-! ### The braking step (R6) -/

theorem brakingStep_of_gt {d : Nat} {s : Int} (h : d < s.natAbs) : brakingStep d s = s - d * s.sign :=
  if_neg (by omega)

theorem brakingStep_of_le {d : Nat} {s : Int} (h : s.natAbs ≤ d) : brakingStep d s = 0 :=
  if_pos h

/-- A braking step shortens the step by d, down to 0. -/
theorem natAbs_brakingStep (d : Nat) (s : Int) : (brakingStep d s).natAbs = s.natAbs - d := by
  rcases le_or_gt s.natAbs d with h | h
  · rw [brakingStep_of_le h]
    omega
  · rw [brakingStep_of_gt h]
    rcases lt_trichotomy s 0 with hs | rfl | hs
    · rw [Int.sign_eq_neg_one_of_neg hs]
      omega
    · simp at h
    · rw [Int.sign_eq_one_of_pos hs]
      omega

theorem natAbs_iterate_brakingStep (d k : Nat) (s : Int) : ((brakingStep d)^[k] s).natAbs = s.natAbs - k * d := by
  induction k with
  | zero => simp
  | succ k ih => rw [Function.iterate_succ_apply', natAbs_brakingStep, ih, Nat.sub_sub, Nat.succ_mul]

theorem iterate_brakingStep_eq_zero_iff {d : Nat} (hd : 1 ≤ d) (s : Int) (k : Nat) :
    (brakingStep d)^[k] s = 0 ↔ (s.natAbs + d - 1) / d ≤ k := by
  rw [← Int.natAbs_eq_zero, natAbs_iterate_brakingStep, Nat.sub_eq_zero_iff_le, ← Nat.ceilDiv_eq_add_pred_div,
    ceilDiv_le_iff_le_mul hd, Nat.mul_comm]

/-! ### The braking reach (R7) -/

/-- R7's n = ceil(s/d) − 1, the number of braking steps of a ramp that still move (for s ≥ 1). -/
def rampLength (d s : Nat) : Int := ((s : Int) + d - 1) / d - 1

theorem brakingReach_eq (d s : Nat) :
    brakingReach d s = rampLength d s * s - d * (rampLength d s * (rampLength d s + 1) / 2) := rfl

theorem rampLength_eq {d : Nat} (hd : 1 ≤ d) (s : Nat) : rampLength d s = ((s + d - 1) / d : Nat) - 1 := by
  rw [rampLength, Int.natCast_ediv, Nat.cast_sub (by omega)]
  push_cast
  rfl

theorem rampLength_zero {d : Nat} (hd : 1 ≤ d) : rampLength d 0 = -1 := by
  rw [rampLength_eq hd, Nat.div_eq_of_lt (by omega)]
  rfl

theorem rampLength_of_le {d s : Nat} (hs : 1 ≤ s) (h : s ≤ d) : rampLength d s = 0 := by
  have hone : (s + d - 1) / d = 1 := Nat.div_eq_of_lt_le (by omega) (by omega)
  rw [rampLength_eq (by omega), hone]
  rfl

theorem rampLength_of_gt {d s : Nat} (hd : 1 ≤ d) (h : d < s) : rampLength d s = rampLength d (s - d) + 1 := by
  have hnum : (s : Int) + d - 1 = ((s - d : Nat) + d - 1) + d := by omega
  have hself : (d : Int) / d = 1 := Int.ediv_self (by omega)
  rw [rampLength, rampLength, hnum, Int.add_ediv_of_dvd_right (dvd_refl _), hself]
  ring

/-- The next triangular number. -/
theorem triangle_succ (n : Int) : (n + 1) * (n + 1 + 1) / 2 = n * (n + 1) / 2 + (n + 1) := by
  rw [← Int.add_mul_ediv_right _ _ two_ne_zero]
  congr 1
  ring

theorem brakingReach_zero {d : Nat} (hd : 1 ≤ d) : brakingReach d 0 = 0 := by
  simp [brakingReach_eq, rampLength_zero hd]

theorem brakingReach_of_le {d s : Nat} (hd : 1 ≤ d) (h : s ≤ d) : brakingReach d s = 0 := by
  rcases Nat.eq_zero_or_pos s with rfl | hs
  · exact brakingReach_zero hd
  · simp [brakingReach_eq, rampLength_of_le hs h]

theorem brakingReach_of_gt {d s : Nat} (hd : 1 ≤ d) (h : d < s) :
    brakingReach d s = ((s : Int) - d) + brakingReach d (s - d) := by
  rw [brakingReach_eq, brakingReach_eq, rampLength_of_gt hd h, triangle_succ, Nat.cast_sub h.le]
  ring

theorem brakingReach_mono {d s t : Nat} (hd : 1 ≤ d) (hst : s ≤ t) : brakingReach d s ≤ brakingReach d t := by
  induction t using Nat.strong_induction_on generalizing s with
  | _ t ih =>
    rcases le_or_gt t d with ht | ht
    · rw [brakingReach_of_le hd ht, brakingReach_of_le hd (hst.trans ht)]
    · rw [brakingReach_of_gt hd ht]
      rcases le_or_gt s d with hs | hs
      · have hnonneg := ih (t - d) (by omega) (Nat.zero_le _)
        rw [brakingReach_zero hd] at hnonneg
        rw [brakingReach_of_le hd hs]
        omega
      · have hrest := ih (t - d) (by omega) (Nat.sub_le_sub_right hst d)
        rw [brakingReach_of_gt hd hs]
        omega

/-! ### The braking setpoint (R58) -/

theorem ArmUnit.brake_eq (u : ArmUnit) (node : Node) (p : Pos) :
    let step : Tri Int := ⟨brakingStep u.placeGeom.x.decel u.last.step.x, brakingStep u.placeGeom.y.decel u.last.step.y,
      brakingStep u.placeGeom.z.decel u.last.step.z⟩
    let q : Pos := ⟨p.xyz.add step, p.w⟩
    u.brake node p = { u with
      toWs := u.toWs ++ [.forced q.xyz p.xyz step u.placeGeom],
      handed := u.handed ++ [setpointFrame node (u.last.seq + 1) q],
      last := ⟨some q, step, u.last.seq + 1⟩ } := rfl

/-! ### The obligations -/

/-- Settles O1: each braking step takes d off the length of the step, so k of them leave max(|s| − k·d, 0). -/
theorem brakingRule : Obligations.BrakingRule :=
  ⟨fun _ _ => brakingStep_of_gt, fun _ _ => brakingStep_of_le, fun _ s k hd => iterate_brakingStep_eq_zero_iff hd s k,
    ArmUnit.brake_eq⟩

/-- Settles O2: the closed form is the model's definition; the recursion follows from it, since n grows by 1 when s grows by
d, and the monotonicity from the recursion. -/
theorem brakingReachRule : Obligations.BrakingReachRule := by
  intro d hd
  refine ⟨fun _ => brakingReach_of_le hd, fun _ => brakingReach_of_gt hd, ?_, fun _ _ => brakingReach_mono hd⟩
  rintro s n rfl
  rw [brakingReach_eq, rampLength_eq hd]

/-- Settles O4: the two signs reduce to one fact about the quotients of an interval of integers. -/
theorem countIntervalRule : Obligations.CountIntervalRule := fun g _ _ hp h =>
  ⟨fun hs => g.grid_mono_of_plus hs hp h, fun hs => g.grid_anti_of_minus hs hp h, rfl, rfl, g.mem_gridInterval hp h⟩

/-- Settles O3: the floor rule, and its reading at the four worked grid units. -/
theorem gridCoordinateRule : Obligations.GridCoordinateRule := by
  refine ⟨fun g q hp => (g.grid_eq_iff q _ hp).mp rfl, ?pointBox, ?_, ?_, ?_, ?_⟩
  case pointBox =>
    intro geom p
    simp only [pointBox, AxisGeom.gridInterval_point, boxOf]
  all_goals
    intro q
    rw [AxisGeom.grid_eq_iff _ _ _ (by decide)]
    simp only [Sign.apply_plus, Sign.apply_minus]
    omega

end Sys2Proof.Machine
end

