-- ==== Sys2Proof/Proofs/ArmRequests.lean ====
section
/-! PROOFS. Chapter 4: changes of state, the STO and FAULT outputs, and the arm-state requests, settling HaltRule and
ClearRule. -/

namespace Sys2Proof.Machine

/-! ### Changes of state (R66, R97) -/

theorem ArmUnit.enter_of_announced {u : ArmUnit} {st : ArmState} (m : Arm) (hne : u.state ≠ st) (ha : st.announced = true) :
    u.enter m st = { u with
      state := st, toWs := u.toWs ++ [.stateReport st], raises := u.raises ++ [⟨m, .stateChange, .stateChange u.state st⟩] } := by
  simp [ArmUnit.enter, ArmUnit.send, ArmUnit.raise, hne, ha]

theorem ArmUnit.enter_of_unannounced {u : ArmUnit} {st : ArmState} (m : Arm) (hne : u.state ≠ st) (ha : st.announced = false) :
    u.enter m st = { u with state := st, toWs := u.toWs ++ [.stateReport st] } := by
  simp [ArmUnit.enter, ArmUnit.send, hne, ha]

/-- R79: entry to HALTING records the stop cause. -/
theorem ArmUnit.halt_of_ne {u : ArmUnit} (m : Arm) (cause : StopCause) (hne : u.state ≠ .halting) :
    u.halt m cause = { u with
      state := .halting, stopCause := some cause, toWs := u.toWs ++ [.stateReport .halting],
      raises := u.raises ++ [⟨m, .stateChange, .stateChange u.state .halting⟩] } :=
  ArmUnit.enter_of_announced m hne rfl

/-- Entry to SYNC asserts STO and discards a carried fault (R67, R90). -/
theorem ArmUnit.toSync_of_ne {u : ArmUnit} (m : Arm) (hne : u.state ≠ .sync) :
    u.toSync m = { u with
      state := .sync, sto := true, stopCause := none, ctx := { u.ctx with carried := none },
      toWs := u.toWs ++ [.stateReport .sync] } :=
  ArmUnit.enter_of_unannounced m hne rfl

theorem ArmUnit.bothLocked_eq_true_iff {u : ArmUnit} : u.bothLocked = true ↔ u.ctrlLocked = true ∧ u.driveLocked = true :=
  Bool.and_eq_true_iff

theorem ArmUnit.bothLocked_eq_false_iff {u : ArmUnit} : u.bothLocked = false ↔ u.ctrlLocked = false ∨ u.driveLocked = false :=
  Bool.and_eq_false_iff

/-! ### The outputs (R67, R68, R191) -/

theorem ArmState.stopped_iff (st : ArmState) : st.stopped = true ↔ st = .held ∨ st = .cut :=
  decide_eq_true_iff

theorem State.stoPin_iff (s : State) (m : Arm) : s.stoPin m = true ↔ s.resetN = false ∨ (s.arm m).sto = true := by
  simp [State.stoPin]

theorem State.faultPin_iff (s : State) :
    s.faultPin = true ↔ s.resetN = false ∨ ∃ n : Arm, (s.arm n).state = .held ∨ (s.arm n).state = .cut := by
  simp only [State.faultPin, Bool.or_eq_true, Bool.not_eq_true', ArmState.stopped_iff, or_assoc (a := s.resetN = false)]
  refine or_congr_right ⟨?_, ?_⟩
  · rintro (h | h)
    · exact ⟨.armA, h⟩
    · exact ⟨.armB, h⟩
  · rintro ⟨n, h⟩
    cases n with
    | armA => exact .inl h
    | armB => exact .inr h

@[simp] theorem State.answer?_resetN (s : State) (m : Arm) (a : Option Answer) : (s.answer? m a).resetN = s.resetN := by
  cases a <;> rfl

/-! ### ARM_HALT (R80) -/

theorem ArmUnit.haltRequest_run {u : ArmUnit} (m : Arm) (r : Request) (h : u.state = .run) :
    u.haltRequest m r = (u.halt m .requested, okAnswer r []) := by
  simp [ArmUnit.haltRequest, h]

theorem ArmUnit.haltRequest_unchanged {u : ArmUnit} (m : Arm) (r : Request)
    (h : u.state = .standby ∨ u.state = .halting ∨ u.state = .settling ∨ u.state = .held) :
    u.haltRequest m r = (u, okAnswer r []) := by
  rcases h with h | h | h | h <;> simp [ArmUnit.haltRequest, h]

theorem ArmUnit.haltRequest_refused {u : ArmUnit} (m : Arm) (r : Request) (h : u.state = .sync ∨ u.state = .cut) :
    u.haltRequest m r = (u, refusal r .state []) := by
  rcases h with h | h <;> simp [ArmUnit.haltRequest, h]

theorem exec_armHalt (m : Arm) (s : State) : exec (.armHalt m) s = execArmHalt m s := rfl

theorem exec_armHalt_take {m : Arm} {s : State} {r : Request} {rest : List ArmEvent} (ht : s.armTakes m (.request r) rest)
    (hn : r.name = .armHalt) :
    exec (.armHalt m) s = finishArm m s (({ s.arm m with arrivals := rest } : ArmUnit).haltRequest m r) := by
  obtain ⟨ho, ha⟩ := ht
  rw [exec_armHalt, execArmHalt, takeArmRequest_take ho ha hn]

/-! ### ARM_CLEAR (R88) -/

/-- What an ARM_CLEAR in HELD clears, wherever it leads. -/
def ArmUnit.cleared (u : ArmUnit) : ArmUnit := { u with ctx := { u.ctx with fault := none, softSeen := false } }

theorem ArmUnit.clearRequest_held_locked {u : ArmUnit} (m : Arm) (r : Request) (h : u.state = .held) (hl : u.bothLocked = true) :
    u.clearRequest m r = (u.cleared.enter m .standby, okAnswer r []) := by
  simp [ArmUnit.clearRequest, ArmUnit.cleared, h, hl]

theorem ArmUnit.clearRequest_held_unlocked {u : ArmUnit} (m : Arm) (r : Request) (h : u.state = .held)
    (hl : u.bothLocked = false) : u.clearRequest m r = (u.cleared.toSync m, okAnswer r []) := by
  simp [ArmUnit.clearRequest, ArmUnit.cleared, h, hl]

theorem ArmUnit.clearRequest_standby {u : ArmUnit} (m : Arm) (r : Request) (h : u.state = .standby) :
    u.clearRequest m r = ({ u with ctx := { u.ctx with carried := none, softSeen := false } }, okAnswer r []) := by
  simp [ArmUnit.clearRequest, h]

theorem ArmUnit.clearRequest_refused {u : ArmUnit} (m : Arm) (r : Request)
    (h : u.state = .sync ∨ u.state = .run ∨ u.state = .halting ∨ u.state = .settling ∨ u.state = .cut) :
    u.clearRequest m r = (u, refusal r .state []) := by
  rcases h with h | h | h | h | h <;> simp [ArmUnit.clearRequest, h]

theorem exec_armClear (m : Arm) (s : State) : exec (.armClear m) s = execArmClear m s := rfl

theorem exec_armClear_take {m : Arm} {s : State} {r : Request} {rest : List ArmEvent} (ht : s.armTakes m (.request r) rest)
    (hn : r.name = .armClear) :
    exec (.armClear m) s = finishArm m s (({ s.arm m with arrivals := rest } : ArmUnit).clearRequest m r) := by
  obtain ⟨ho, ha⟩ := ht
  rw [exec_armClear, execArmClear, takeArmRequest_take ho ha hn]

/-- A request of an arm unit leaves RESET_N as it was. -/
theorem finishArm_resetN {m : Arm} {s t : State} {out : ArmUnit × Option Answer} (h : finishArm m s out = .next t) :
    t.resetN = s.resetN := by
  cases h
  simp

/-! ### The obligations -/

/-- Settles O39: one fact about the request per group of states; from RUN it is the entry to HALTING of R79. -/
theorem haltRule : Obligations.HaltRule := by
  intro m s r rest ht hn u run
  have hrun : run = finishArm m s (u.haltRequest m r) := exec_armHalt_take ht hn
  rw [hrun]
  refine ⟨fun h => ?run, fun h => ?unchanged, fun h => ?refused⟩
  case run =>
    rw [ArmUnit.haltRequest_run m r h, ArmUnit.halt_of_ne m _ (by simp [h]), h]
    rfl
  case unchanged => rw [ArmUnit.haltRequest_unchanged m r h]; rfl
  case refused => rw [ArmUnit.haltRequest_refused m r h]; rfl

/-- Settles O41: one fact about the request per group of states, and the two outputs read off whatever state it leads to. -/
theorem clearRule : Obligations.ClearRule := by
  intro m s r rest ht hn u c run
  have hrun : run = finishArm m s (u.clearRequest m r) := exec_armClear_take ht hn
  rw [hrun]
  refine ⟨fun h hc hd => ?locked, fun h hl => ?unlocked, fun h => ?standby, fun h => ?refused, fun t hnext => ?outputs⟩
  case locked =>
    have hheld : u.cleared.state = .held := h
    rw [ArmUnit.clearRequest_held_locked m r h (ArmUnit.bothLocked_eq_true_iff.mpr ⟨hc, hd⟩),
      ArmUnit.enter_of_announced m (by simp [hheld]) rfl, hheld]
    rfl
  case unlocked =>
    have hheld : u.cleared.state = .held := h
    rw [ArmUnit.clearRequest_held_unlocked m r h (ArmUnit.bothLocked_eq_false_iff.mpr hl),
      ArmUnit.toSync_of_ne m (by simp [hheld])]
    rfl
  case standby => rw [ArmUnit.clearRequest_standby m r h]; rfl
  case refused => rw [ArmUnit.clearRequest_refused m r h]; rfl
  case outputs =>
    rw [← finishArm_resetN hnext]
    exact ⟨t.faultPin_iff, t.stoPin_iff⟩

end Sys2Proof.Machine
end

