-- ==== Sys2Proof/Proofs/Agreement.lean ====
section
/-! PROOFS. Chapter 8: withdrawing an agreement, settling WithdrawRule. -/

namespace Sys2Proof.Machine

/-! ### The data of an answer that holds a value or none (R188) -/

theorem optional_none (width : Nat) : optional width none = 0 :: List.replicate width 0 := rfl

theorem optional_some (width : Nat) (os : List Octet) : optional width (some os) = 1 :: os := rfl

/-! ### What waits while a commit is outstanding (R149) -/

theorem takeTableRequest_outstanding {m : Arm} {n : ReqName} {s : State} {k : Request → TableUnit → TableUnit × Answer}
    (ho : s.table.outstanding = true) : takeTableRequest m n s k = .next s :=
  takeTableRequest_idle fun _ _ hfree => absurd hfree (by simp [ho])

/-! ### AGREE_WITHDRAW (R146) -/

theorem exec_agreeWithdraw (m : Arm) (s : State) : exec (.agreeWithdraw m) s = execAgreeWithdraw m s := rfl

theorem exec_agreeWithdraw_take {m : Arm} {s : State} {r : Request} {rest : List TableEvent}
    (ht : s.tableTakes m .agreeWithdraw r rest) :
    exec (.agreeWithdraw m) s
      = .next ((s.setTable { s.table with arrivals := rest, agreement := s.table.agreement.set m none }).answer m
          (answerOk r.head (optional 2 ((s.table.agreement.get m).map octets16)))) := by
  obtain ⟨ho, ha, hm, hn⟩ := ht
  rw [exec_agreeWithdraw, execAgreeWithdraw, takeTableRequest_take ho ha hm hn]

theorem exec_agreeWithdraw_outstanding (m : Arm) {s : State} (ho : s.table.outstanding = true) :
    exec (.agreeWithdraw m) s = .next s := by
  rw [exec_agreeWithdraw, execAgreeWithdraw, takeTableRequest_outstanding ho]

/-! ### Completion (R153) -/

@[simp] theorem TableUnit.endCommit_agreement (t : TableUnit) : t.endCommit.agreement = ⟨none, none⟩ := rfl

@[simp] theorem TableUnit.reportPresence_agreement (t : TableUnit) : t.reportPresence.agreement = t.agreement := rfl

@[simp] theorem TableUnit.raiseBoth_agreement (t : TableUnit) (k : EventKind) (d : Detail) :
    (t.raiseBoth k d).agreement = t.agreement := rfl

/-- Done or refused, a completion leaves both agreement records empty. -/
theorem TableUnit.complete_agreement (t : TableUnit) (c : Completion) : (t.complete c).agreement = ⟨none, none⟩ := by
  cases c with
  | done old label digest changed => simp [TableUnit.complete]
  | refused why => simp [TableUnit.complete]

theorem TableUnit.complete_agreement_get (t : TableUnit) (c : Completion) (m : Arm) : (t.complete c).agreement.get m = none := by
  rw [TableUnit.complete_agreement]
  cases m <;> rfl

/-! ### The obligation -/

/-- Settles O57: the answer of a withdrawal that is taken, by whether the record held a digest; the withdrawal that waits for
a completion; and the records that the completion leaves. -/
theorem withdrawRule : Obligations.WithdrawRule := by
  refine ⟨fun m s r rest ht => ⟨fun hnone => ?noneHeld, fun d hsome => ?held⟩, fun m _ => exec_agreeWithdraw_outstanding m,
    TableUnit.complete_agreement_get⟩
  case noneHeld =>
    rw [exec_agreeWithdraw_take ht, hnone, Option.map_none, optional_none]
    rfl
  case held => rw [exec_agreeWithdraw_take ht, hsome, Option.map_some, optional_some]

end Sys2Proof.Machine
end

