-- ==== Sys2Proof/Proofs/Dispatch.lean ====
section
/-! PROOFS. What each command runs: one equation per command, so that no later proof unfolds `exec`. ARM_HALT, ARM_CLEAR and
AGREE_WITHDRAW have theirs with their own rules. -/

namespace Sys2Proof.Machine

theorem exec_powerOn (straps : Node) (s : State) : exec (.powerOn straps) s = execPowerOn straps s := rfl
theorem exec_resetAssert (s : State) : exec .resetAssert s = execResetAssert s := rfl
theorem exec_frameArrival (side : Side) (m : Arm) (f : RxFrame) (s : State) :
    exec (.frameArrival side m f) s = execFrameArrival side m f s := rfl
theorem exec_portCadenceExpiry (side : Side) (m : Arm) (s : State) :
    exec (.portCadenceExpiry side m) s = execPortCadenceExpiry side m s := rfl
theorem exec_lockLossSilence (side : Side) (m : Arm) (s : State) :
    exec (.lockLossSilence side m) s = execLockLossSilence side m s := rfl
theorem exec_requestDecode (m : Arm) (s : State) : exec (.requestDecode m) s = execRequestDecode m s := rfl
theorem exec_setpointArrival (m : Arm) (s : State) : exec (.setpointArrival m) s = execSetpointArrival m s := rfl
theorem exec_setpointVerdict (m : Arm) (s : State) : exec (.setpointVerdict m) s = execSetpointVerdict m s := rfl
theorem exec_cadenceExpiryRun (m : Arm) (s : State) : exec (.cadenceExpiryRun m) s = execCadenceExpiryRun m s := rfl
theorem exec_frameLoss (m : Arm) (s : State) : exec (.frameLoss m) s = execFrameLoss m s := rfl
theorem exec_feedbackLoss (m : Arm) (s : State) : exec (.feedbackLoss m) s = execFeedbackLoss m s := rfl
theorem exec_cadenceExpiryHalting (m : Arm) (s : State) : exec (.cadenceExpiryHalting m) s = execCadenceExpiryHalting m s := rfl
theorem exec_cadenceExpirySettling (m : Arm) (s : State) : exec (.cadenceExpirySettling m) s = execCadenceExpirySettling m s := rfl
theorem exec_settleTimeout (m : Arm) (s : State) : exec (.settleTimeout m) s = execSettleTimeout m s := rfl
theorem exec_cadenceExpiryQuiet (m : Arm) (s : State) : exec (.cadenceExpiryQuiet m) s = execCadenceExpiryQuiet m s := rfl
theorem exec_feedbackArrival (m : Arm) (s : State) : exec (.feedbackArrival m) s = execFeedbackArrival m s := rfl
theorem exec_paramArrival (m : Arm) (s : State) : exec (.paramArrival m) s = execParamArrival m s := rfl
theorem exec_armTickCopy (m : Arm) (s : State) : exec (.armTickCopy m) s = execArmTickCopy m s := rfl
theorem exec_lockGained (m : Arm) (s : State) : exec (.lockGained m) s = execLockGained m s := rfl
theorem exec_controllerLockLoss (m : Arm) (s : State) : exec (.controllerLockLoss m) s = execControllerLockLoss m s := rfl
theorem exec_driveLockLoss (m : Arm) (s : State) : exec (.driveLockLoss m) s = execDriveLockLoss m s := rfl
theorem exec_tableLockReport (s : State) : exec .tableLockReport s = execTableLockReport s := rfl
theorem exec_armEnable (m : Arm) (s : State) : exec (.armEnable m) s = execArmEnable m s := rfl
theorem exec_enableVerdict (m : Arm) (s : State) : exec (.enableVerdict m) s = execEnableVerdict m s := rfl
theorem exec_armCut (m : Arm) (s : State) : exec (.armCut m) s = execArmCut m s := rfl
theorem exec_armReset (m : Arm) (s : State) : exec (.armReset m) s = execArmReset m s := rfl
theorem exec_armStatus (m : Arm) (s : State) : exec (.armStatus m) s = execArmStatus m s := rfl
theorem exec_statusRead (m : Arm) (s : State) : exec (.statusRead m) s = execStatusRead m s := rfl
theorem exec_envelopePush (m : Arm) (s : State) : exec (.envelopePush m) s = execEnvelopePush m s := rfl
theorem exec_envelopePop (m : Arm) (s : State) : exec (.envelopePop m) s = execEnvelopePop m s := rfl
theorem exec_envelopeVerdict (m : Arm) (s : State) : exec (.envelopeVerdict m) s = execEnvelopeVerdict m s := rfl
theorem exec_maskSet (m : Arm) (s : State) : exec (.maskSet m) s = execMaskSet m s := rfl
theorem exec_contextSave (m : Arm) (s : State) : exec (.contextSave m) s = execContextSave m s := rfl
theorem exec_contextLoad (m : Arm) (s : State) : exec (.contextLoad m) s = execContextLoad m s := rfl
theorem exec_commitNotice (m : Arm) (s : State) : exec (.commitNotice m) s = execCommitNotice m s := rfl
theorem exec_checkedPlacement (m : Arm) (s : State) : exec (.checkedPlacement m) s = execCheckedPlacement m s := rfl
theorem exec_forcedPlacement (m : Arm) (s : State) : exec (.forcedPlacement m) s = execForcedPlacement m s := rfl
theorem exec_restUpdate (m : Arm) (s : State) : exec (.restUpdate m) s = execRestUpdate m s := rfl
theorem exec_setRecordUnknown (m : Arm) (s : State) : exec (.setRecordUnknown m) s = execSetRecordUnknown m s := rfl
theorem exec_stateReport (m : Arm) (s : State) : exec (.stateReport m) s = execStateReport m s := rfl
theorem exec_claim (m : Arm) (s : State) : exec (.claim m) s = execClaim m s := rfl
theorem exec_renew (m : Arm) (s : State) : exec (.renew m) s = execRenew m s := rfl
theorem exec_release (m : Arm) (s : State) : exec (.release m) s = execRelease m s := rfl
theorem exec_cancel (m : Arm) (s : State) : exec (.cancel m) s = execCancel m s := rfl
theorem exec_cellRead (m : Arm) (s : State) : exec (.cellRead m) s = execCellRead m s := rfl
theorem exec_leaseTick (s : State) : exec .leaseTick s = execLeaseTick s := rfl
theorem exec_leaseLapse (s : State) : exec .leaseLapse s = execLeaseLapse s := rfl
theorem exec_waitExpired (s : State) : exec .waitExpired s = execWaitExpired s := rfl
theorem exec_claimRemoval (m : Arm) (s : State) : exec (.claimRemoval m) s = execClaimRemoval m s := rfl
theorem exec_outcomeDiscard (m : Arm) (s : State) : exec (.outcomeDiscard m) s = execOutcomeDiscard m s := rfl
theorem exec_discardReport (m : Arm) (s : State) : exec (.discardReport m) s = execDiscardReport m s := rfl
theorem exec_sentReport (m : Arm) (s : State) : exec (.sentReport m) s = execSentReport m s := rfl
theorem exec_outcomeHandover (m : Arm) (s : State) : exec (.outcomeHandover m) s = execOutcomeHandover m s := rfl
theorem exec_answerPlace (m : Arm) (s : State) : exec (.answerPlace m) s = execAnswerPlace m s := rfl
theorem exec_insertionOpportunity (m : Arm) (s : State) : exec (.insertionOpportunity m) s = execInsertionOpportunity m s := rfl
theorem exec_noticeSelection (m : Arm) (s : State) : exec (.noticeSelection m) s = execNoticeSelection m s := rfl
theorem exec_eventRaise (b : Block) (s : State) : exec (.eventRaise b) s = execEventRaise b s := rfl
theorem exec_reportTick (s : State) : exec .reportTick s = execReportTick s := rfl
theorem exec_eventsRead (m : Arm) (s : State) : exec (.eventsRead m) s = execEventsRead m s := rfl
theorem exec_eventsClear (m : Arm) (s : State) : exec (.eventsClear m) s = execEventsClear m s := rfl
theorem exec_noticeSet (m : Arm) (s : State) : exec (.noticeSet m) s = execNoticeSet m s := rfl
theorem exec_tableWrite (m : Arm) (s : State) : exec (.tableWrite m) s = execTableWrite m s := rfl
theorem exec_headerWrite (m : Arm) (s : State) : exec (.headerWrite m) s = execHeaderWrite m s := rfl
theorem exec_profileWrite (m : Arm) (s : State) : exec (.profileWrite m) s = execProfileWrite m s := rfl
theorem exec_tableRead (m : Arm) (s : State) : exec (.tableRead m) s = execTableRead m s := rfl
theorem exec_digestRead (m : Arm) (s : State) : exec (.digestRead m) s = execDigestRead m s := rfl
theorem exec_tablesReset (m : Arm) (s : State) : exec (.tablesReset m) s = execTablesReset m s := rfl
theorem exec_headerPresenceReport (s : State) : exec .headerPresenceReport s = execHeaderPresenceReport s := rfl
theorem exec_agree (m : Arm) (s : State) : exec (.agree m) s = execAgree m s := rfl
theorem exec_commit (s : State) : exec .commit s = execCommit s := rfl
theorem exec_commitCompletion (s : State) : exec .commitCompletion s = execCommitCompletion s := rfl

/-! ### The obligation -/

/-- Settles O7: the model's step on a queue that is not empty. -/
theorem stepTakesFrontCommand : Obligations.StepTakesFrontCommand :=
  fun c s rest h => step_cons s c rest h

end Sys2Proof.Machine
end

