-- ==== Sys2Proof/Proofs/ArmLaws.lean ====
section
/-! PROOFS. The laws of the arm units: the refutation of StepKeepsArmLaws by a checked placement of an arm that is absent from
the active bank, and NoCommandStops. -/

namespace Sys2Proof.Machine

/-! ### A checked placement of an absent arm -/

/-- A bank that gives arm A a HOME but says that it is absent, which no validated bank does (R36) and no law of the arm units
excludes. -/
def homeOfAbsentArm : Bank := { Bank.powerOn with entries := [.home .armA ⟨⟨0, 0, 0⟩, ⟨9, 9, 9⟩⟩] }

/-- A zero-step placement at the origin of the default geometry, inside that HOME. -/
def placementAtOrigin : Placement :=
  ⟨Tri.zero, Tri.zero, Tri.zero, ⟨0, 0, 0⟩, Profile.default.geometry, Tri.all 1⟩

/-- An arm unit in STANDBY that has sent this placement for an ARM_ENABLE and awaits the verdict. -/
def unitEnabling : ArmUnit :=
  { ArmUnit.powerOn with
    state := .standby, lastActual := some ⟨Tri.zero, 0⟩, bankKnown := true,
    outstanding := some (.enable ⟨1, 0⟩ Profile.default.geometry), toWs := [.checked placementAtOrigin] }

/-- Arm A enables, its box record is REST, and the active bank says that it is absent. -/
def enablingWhileAbsent : State :=
  let s := State.powerOn true 0 0 [.checkedPlacement .armA]
  { s with
    arms := ⟨unitEnabling, ArmUnit.powerOn⟩
    ws := { s.ws with active := some homeOfAbsentArm, records := ⟨.rest ⟨Tri.zero, Tri.zero⟩ ⟨0, 0, 0⟩, .absent⟩ } }

theorem alsoGood_none : alsoGood none := by
  rintro r ⟨⟩

theorem ArmUnit.powerOn_good : ArmUnit.powerOn.Good where
  stoAsserted := by decide
  stoReleased := by decide
  causeIffStop := by decide
  faultIff := by decide
  carriedOnly := by decide
  forwardedKnown := by decide
  bankFirst := by decide
  purpose := trivial
  verdictAsked := by decide
  alsoFault := alsoGood_none
  alsoCarried := alsoGood_none

theorem unitEnabling_good : unitEnabling.Good where
  stoAsserted := by decide
  stoReleased := by decide
  causeIffStop := by decide
  faultIff := by decide
  carriedOnly := by decide
  forwardedKnown := by decide
  bankFirst := by decide
  purpose := ⟨rfl, rfl, rfl⟩
  verdictAsked := by decide
  alsoFault := alsoGood_none
  alsoCarried := alsoGood_none

/-- An arm unit that has sent nothing and awaits nothing keeps every law it shares with a box record that is not MOTION. -/
theorem State.joined_of_quiet {s : State} {m : Arm} (hu : s.arm m = ArmUnit.powerOn) (hr : (s.ws.record m).isMotion = false) :
    s.Joined m where
  motionPresent := by simp [hr]
  movingMotion := by simp [hu, ArmUnit.powerOn, ArmState.moving]
  placedMotion := by simp [hu, ArmUnit.powerOn]
  forcedMotion := by simp [hu, ArmUnit.powerOn]
  forcedOrder := by simp [hu, ArmUnit.powerOn, forcedFirst]
  channel := by simp [hu, ArmUnit.powerOn, ArmUnit.channelGood]
  verdict := by simp [hu, ArmUnit.powerOn, ArmUnit.verdictGood]
  knowsBank := by simp [hu, ArmUnit.powerOn]

theorem enablingWhileAbsent_joined : enablingWhileAbsent.Joined .armA where
  motionPresent := by decide
  movingMotion := by decide
  placedMotion := by decide
  forcedMotion := by
    rintro ⟨msg, hmem, hforced⟩
    rw [List.mem_singleton.mp hmem] at hforced
    cases hforced
  forcedOrder := by decide
  channel := ⟨rfl, rfl⟩
  verdict := trivial
  knowsBank := fun _ => rfl

theorem enablingWhileAbsent_armsGood : enablingWhileAbsent.ArmsGood := by
  intro m
  cases m with
  | armA => exact ⟨unitEnabling_good, enablingWhileAbsent_joined⟩
  | armB => exact ⟨ArmUnit.powerOn_good, State.joined_of_quiet rfl rfl⟩

/-- The placement is judged PLACED, and the record of the absent arm becomes MOTION. -/
theorem step_enablingWhileAbsent : ∃ t, step enablingWhileAbsent = .next t
    ∧ (t.ws.record .armA).isMotion = true ∧ presentIn t.ws.active .armA = false :=
  ⟨_, rfl, by decide +kernel, by decide +kernel⟩

/-- Refutes O12: nothing in the laws says that an arm with a REST record is present in the active bank, so a checked placement
of an absent arm, judged PLACED in a HOME that bank still gives it, leaves a MOTION record of an absent arm. -/
theorem not_stepKeepsArmLaws : ¬ Obligations.StepKeepsArmLaws := by
  intro h
  obtain ⟨t, hstep, hmotion, habsent⟩ := step_enablingWhileAbsent
  obtain ⟨-, hjoined⟩ := h _ t enablingWhileAbsent_armsGood hstep .armA
  rw [hjoined.motionPresent hmotion] at habsent
  cases habsent

/-! ### What answers a next state -/

/-- A result is a next state, not a fault or a refusal. -/
def Answers (r : Result) : Prop := ∃ t, r = .next t

theorem answers_next (t : State) : Answers (.next t) := ⟨t, rfl⟩

theorem answers_ite {p : Prop} [Decidable p] {r r' : Result} (h : p → Answers r) (h' : ¬p → Answers r') :
    Answers (if p then r else r') := by
  split
  · exact h ‹_›
  · exact h' ‹_›

theorem answers_getD {r : Option Result} {s : State} (h : ∀ x ∈ r, Answers x) : Answers (r.getD (.next s)) := by
  cases r with
  | none => exact answers_next s
  | some x => exact h x rfl

theorem takeArm_answers {m : Arm} {s : State} {k : ArmEvent → ArmUnit → Option Result}
    (h : ∀ e rest, s.armTakes m e rest → ∀ x ∈ k e { s.arm m with arrivals := rest }, Answers x) : Answers (takeArm m s k) := by
  unfold takeArm
  split
  · exact answers_getD (h _ _ ⟨‹_›, ‹_›⟩)
  · exact answers_next s

theorem takeArmRequest_answers {m : Arm} {n : ReqName} {s : State} {k : Request → ArmUnit → Result}
    (h : ∀ r rest, s.armTakes m (.request r) rest → Answers (k r { s.arm m with arrivals := rest })) :
    Answers (takeArmRequest m n s k) := by
  refine takeArm_answers fun e rest ht x hx => ?_
  cases e with
  | request r =>
    simp only [Option.mem_def] at hx
    split at hx
    · cases hx
      exact h r rest ht
    · cases hx
  | _ => cases hx

theorem takeExpiry_answers {m : Arm} {s : State} {ok : ArmState → Bool} {cond : ArmUnit → Bool} {k : ArmUnit → Result}
    (h : ∀ rest, ok (s.arm m).state = true → Answers (k ({ s.arm m with arrivals := rest } : ArmUnit).takeProfile)) :
    Answers (takeExpiry m s ok cond k) := by
  refine takeArm_answers fun e rest _ x hx => ?_
  cases e with
  | expiry =>
    simp only [Option.mem_def] at hx
    split at hx
    · rename_i hc
      cases hx
      exact h rest (Bool.and_eq_true_iff.mp hc).1
    · cases hx
  | _ => cases hx

theorem takeVerdict_answers {m : Arm} {s : State} {k : Outstanding → Verdict → ArmUnit → Option Result}
    (h : ∀ o v, s.verdictTakes m o v → ∀ x ∈ k o v { s.arm m with outstanding := none, verdict := none }, Answers x) :
    Answers (takeVerdict m s k) := by
  unfold takeVerdict
  split
  · exact answers_getD (h _ _ ⟨‹_›, ‹_›⟩)
  · exact answers_next s

theorem takeFromArm_answers {m : Arm} {s : State} {k : ToWorkspace → State → Option Result}
    (h : ∀ msg rest, s.wsTakes m msg rest → ∀ x ∈ k msg (s.setArm m { s.arm m with toWs := rest }), Answers x) :
    Answers (takeFromArm m s k) := by
  unfold takeFromArm
  split
  · exact answers_getD (h _ _ ‹_›)
  · exact answers_next s

theorem takeWsRequest_answers (m : Arm) (n : ReqName) (s : State) (k : Request → Workspace → Workspace × Answer) :
    Answers (takeWsRequest m n s k) := by
  unfold takeWsRequest
  split
  · exact answers_ite (fun _ => answers_next _) fun _ => answers_next _
  · exact answers_next s

theorem takeReportRequest_answers (m : Arm) (n : ReqName) (s : State) (k : Request → ReportUnit → ReportUnit × Answer) :
    Answers (takeReportRequest m n s k) := by
  unfold takeReportRequest
  split
  · exact answers_ite (fun _ => answers_next _) fun _ => answers_next _
  · exact answers_next s

theorem takeTable_answers {s : State} {k : TableEvent → TableUnit → Option Result} (h : ∀ e t, ∀ x ∈ k e t, Answers x) :
    Answers (takeTable s k) := by
  unfold takeTable
  split
  · exact answers_getD (h _ _)
  · exact answers_next s

theorem takeTableRequest_answers (m : Arm) (n : ReqName) (s : State) (k : Request → TableUnit → TableUnit × Answer) :
    Answers (takeTableRequest m n s k) := by
  refine takeTable_answers fun e t x hx => ?_
  cases e with
  | request r =>
    simp only [Option.mem_def] at hx
    split at hx
    · cases hx
      exact answers_next _
    · cases hx
  | lock => cases hx

theorem takeTableRead_answers (m : Arm) (n : ReqName) (s : State) (k : Request → TableUnit → Answer) :
    Answers (takeTableRead m n s k) := by
  unfold takeTableRead
  split
  · split
    · exact answers_next _
    · exact answers_next s
  · exact takeTableRequest_answers m n s _

theorem takeLeaseTick_answers (s : State) (cond : Bool) : Answers (takeLeaseTick s cond) :=
  answers_ite (fun _ => answers_next _) fun _ => answers_next _

theorem takePortExpiry_answers (side : Side) (m : Arm) (s : State) (cond : Bool) : Answers (takePortExpiry side m s cond) :=
  answers_ite (fun _ => answers_next _) fun _ => answers_next _

theorem withForwarded_answers {u : ArmUnit} {k : Pos → Result} (hp : u.last.pos.isSome = true) (hk : ∀ p, Answers (k p)) :
    Answers (withForwarded u k) := by
  obtain ⟨p, hp⟩ := Option.isSome_iff_exists.mp hp
  rw [withForwarded_some hp]
  exact hk p

/-! ### What the laws of the arm units give the commands that can fault -/

theorem ArmUnit.Good.forwarded_of_moving {u : ArmUnit} (hu : u.Good) (h : u.state.moving = true) : u.last.pos.isSome = true :=
  hu.forwardedKnown (hu.stoReleased h)

/-- A verdict on a setpoint or an envelope request is awaited in RUN alone. -/
theorem ArmUnit.Good.run_of_outstanding {u : ArmUnit} (hu : u.Good) {o : Outstanding} (ho : u.outstanding = some o)
    (hne : ∀ head geom, o ≠ .enable head geom) : u.state = .run := by
  have hp := hu.purpose
  simp only [ArmUnit.purposeGood, ho] at hp
  cases o with
  | enable head geom => exact absurd rfl (hne head geom)
  | setpoint => exact hp
  | envelope => exact hp

/-- A checked placement on its way is the one outstanding. -/
theorem ArmUnit.channelGood_outstanding {u : ArmUnit} (hc : u.channelGood) {pl : Placement} (hm : .checked pl ∈ u.toWs) :
    u.outstanding.isSome = true := by
  unfold ArmUnit.channelGood at hc
  split at hc
  · next h => exact h.1
  · cases hc.1 _ hm

theorem execCheckedPlacement_answers {m : Arm} {s : State} (hs : s.ArmsGood) : Answers (execCheckedPlacement m s) := by
  refine takeFromArm_answers fun msg rest ht x hx => ?_
  obtain ⟨hu, hj⟩ := hs m
  cases msg with
  | checked pl =>
    have hout : (s.arm m).outstanding.isSome = true :=
      ArmUnit.channelGood_outstanding hj.channel (pl := pl) (by rw [ht]; exact List.mem_cons_self)
    have hactive := hj.knowsBank (.inl (hu.bankFirst (.inr hout)))
    obtain ⟨bank, hbank⟩ := Option.isSome_iff_exists.mp hactive
    have hx : x = .next (((s.setArm m { s.arm m with toWs := rest }).setWs (s.ws.checked bank m pl).1).sendVerdict m
        (s.ws.checked bank m pl).2) := by
      simpa [hbank] using hx.symm
    exact ⟨_, hx⟩
  | _ => cases hx

theorem execForcedPlacement_answers {m : Arm} {s : State} (hs : s.ArmsGood) : Answers (execForcedPlacement m s) := by
  refine takeFromArm_answers fun msg rest ht x hx => ?_
  obtain ⟨-, hj⟩ := hs m
  cases msg with
  | forced p p0 step geom =>
    have hmotion := hj.forcedMotion ⟨_, by rw [ht]; exact List.mem_cons_self, rfl⟩
    simp only [Option.mem_def, State.setArm_ws, Option.some.injEq] at hx
    split at hx
    · exact ⟨_, hx.symm⟩
    · rename_i hne
      cases hr : s.ws.record m with
      | motion box part env => exact absurd hr (hne box part env)
      | _ => simp [hr, BoxRecord.isMotion] at hmotion
  | _ => cases hx

theorem execSetpointArrival_answers {m : Arm} {s : State} (hs : s.ArmsGood) : Answers (execSetpointArrival m s) := by
  refine takeArm_answers fun e rest _ x hx => ?_
  obtain ⟨hu, -⟩ := hs m
  cases e with
  | setpoint f =>
    cases hx
    refine answers_ite (fun hrun => answers_ite (fun _ => answers_next _) fun _ => ?_) fun _ => answers_next _
    have hrun : (s.arm m).state = .run := hrun
    exact withForwarded_answers (hu.forwarded_of_moving (by simp [hrun, ArmState.moving])) fun _ => answers_next _
  | _ => cases hx

theorem execSetpointVerdict_answers {m : Arm} {s : State} (hs : s.ArmsGood) : Answers (execSetpointVerdict m s) := by
  refine takeVerdict_answers fun o v ht x hx => ?_
  obtain ⟨hu, hj⟩ := hs m
  obtain ⟨ho, hv⟩ := ht
  cases o with
  | setpoint f step geom expected stack =>
    have hrun := hu.run_of_outstanding ho (by simp)
    have hjudged := hj.verdict
    simp only [ArmUnit.verdictGood, ho, hv] at hjudged
    obtain ⟨habsent, hunknown⟩ := hjudged
    cases hx
    cases v with
    | placed => exact answers_next _
    | failed kinds ra sa tick =>
      exact withForwarded_answers (hu.forwarded_of_moving (by simp [hrun, ArmState.moving]))
        fun _ => answers_ite (fun _ => answers_next _) fun _ => answers_next _
    | absent => exact absurd rfl habsent
    | unknown => exact absurd rfl hunknown
  | _ => cases hx

theorem execEnvelopeVerdict_answers {m : Arm} {s : State} (hs : s.ArmsGood) : Answers (execEnvelopeVerdict m s) := by
  refine takeVerdict_answers fun o v ht x hx => ?_
  obtain ⟨-, hj⟩ := hs m
  obtain ⟨ho, hv⟩ := ht
  cases o with
  | envelope head geom =>
    have hjudged := hj.verdict
    simp only [ArmUnit.verdictGood, ho, hv] at hjudged
    obtain ⟨habsent, hunknown⟩ := hjudged
    cases hx
    cases v with
    | placed => exact answers_next _
    | failed => exact answers_next _
    | absent => exact absurd rfl habsent
    | unknown => exact absurd rfl hunknown
  | _ => cases hx

theorem execEnableVerdict_answers (m : Arm) (s : State) : Answers (execEnableVerdict m s) := by
  refine takeVerdict_answers fun o v _ x hx => ?_
  cases o with
  | enable => cases hx; exact answers_next _
  | _ => cases hx

@[simp] theorem ArmUnit.takeProfile_state (u : ArmUnit) : u.takeProfile.state = u.state := by
  unfold ArmUnit.takeProfile
  split <;> rfl

@[simp] theorem ArmUnit.takeProfile_last (u : ArmUnit) : u.takeProfile.last = u.last := by
  unfold ArmUnit.takeProfile
  split <;> rfl

@[simp] theorem ArmUnit.takeProfile_sto (u : ArmUnit) : u.takeProfile.sto = u.sto := by
  unfold ArmUnit.takeProfile
  split <;> rfl

/-- An expiry in a motion state, where the last forwarded position is known. -/
theorem takeExpiry_moving_answers {m : Arm} {s : State} (hs : s.ArmsGood) {ok : ArmState → Bool}
    (hok : ∀ st, ok st = true → st.moving = true) {cond : ArmUnit → Bool} {k : ArmUnit → Result}
    (hk : ∀ u, u.last.pos.isSome = true → Answers (k u)) : Answers (takeExpiry m s ok cond k) := by
  obtain ⟨hu, -⟩ := hs m
  refine takeExpiry_answers fun rest hst => hk _ ?_
  rw [ArmUnit.takeProfile_last]
  exact hu.forwarded_of_moving (hok _ hst)

theorem moving_of_isRun {st : ArmState} (h : isRun st = true) : st.moving = true := by
  rw [show st = .run from eq_of_beq h]
  rfl

theorem moving_of_isHalting {st : ArmState} (h : isHalting st = true) : st.moving = true := by
  rw [show st = .halting from eq_of_beq h]
  rfl

theorem moving_of_isSettling {st : ArmState} (h : isSettling st = true) : st.moving = true := by
  rw [show st = .settling from eq_of_beq h]
  rfl

theorem finishRun_answers (m : Arm) (s : State) {u : ArmUnit} (h : u.last.pos.isSome = true) : Answers (finishRun m s u) :=
  withForwarded_answers h fun _ => answers_next _

theorem finishHalting_answers (m : Arm) (s : State) {u : ArmUnit} (h : u.last.pos.isSome = true) :
    Answers (finishHalting m s u) :=
  withForwarded_answers h fun _ => answers_next _

theorem finishSettling_answers (m : Arm) (s : State) {u : ArmUnit} (h : u.last.pos.isSome = true) :
    Answers (finishSettling m s u) :=
  withForwarded_answers h fun _ => answers_next _

theorem execFeedbackLoss_answers {m : Arm} {s : State} (hs : s.ArmsGood) : Answers (execFeedbackLoss m s) :=
  takeExpiry_moving_answers hs (fun _ h => h) fun _ h => answers_ite (fun _ => finishRun_answers m s h) fun _ =>
    answers_ite (fun _ => finishHalting_answers m s h) fun _ => finishSettling_answers m s h

theorem execCadenceExpiryQuiet_answers {m : Arm} {s : State} (hs : s.ArmsGood) : Answers (execCadenceExpiryQuiet m s) := by
  obtain ⟨hu, -⟩ := hs m
  refine takeExpiry_answers fun rest _ => answers_ite (fun _ => ?_) fun _ => answers_next _
  split
  · split
    · exact answers_next _
    · exact answers_next _
  · rename_i hsto
    have hsto : (s.arm m).sto = false := by simpa [ArmUnit.quiet] using hsto
    refine withForwarded_answers ?_ fun _ => answers_next _
    simpa [ArmUnit.quiet] using hu.forwardedKnown hsto

theorem takeFeedback_answers {m : Arm} {s : State} (f : FeedbackFrame) (second : Bool) {u : ArmUnit}
    (hu : u.state.moving = true → u.last.pos.isSome = true) : Answers (takeFeedback m s f second u) := by
  refine answers_ite (fun h => withForwarded_answers (hu ?_) fun _ => answers_next _) fun _ => answers_next _
  obtain ⟨hst | hst, -⟩ := h <;> simp [hst, ArmState.moving]

theorem execFeedbackArrival_answers {m : Arm} {s : State} (hs : s.ArmsGood) : Answers (execFeedbackArrival m s) := by
  obtain ⟨hu, -⟩ := hs m
  refine takeArm_answers fun e rest _ x hx => ?_
  cases e with
  | feedback f => cases hx; exact takeFeedback_answers f false hu.forwarded_of_moving
  | faultSecond f => cases hx; exact takeFeedback_answers f true hu.forwarded_of_moving
  | _ => cases hx

theorem envelopeCarry_answers (u : ArmUnit) (s : State) (m : Arm) (r : Request) {w : ArmUnit}
    (h : u.state = .run → w.last.pos.isSome = true) : Answers (ArmUnit.envelopeRequest.carry u m s r w) :=
  answers_ite (fun _ => answers_next _) fun _ =>
    answers_ite (fun hrun => withForwarded_answers (h hrun) fun _ => answers_next _) fun _ => answers_next _

theorem envelopeRequest_answers (m : Arm) (s : State) (r : Request) (op : EnvOp) (margin : Option Margin) {u : ArmUnit}
    (h : u.state = .run → u.last.pos.isSome = true) : Answers (u.envelopeRequest m s r op margin) := by
  simp only [ArmUnit.envelopeRequest]
  split
  · exact answers_ite (fun _ => envelopeCarry_answers u s m r h) fun _ =>
      answers_ite (fun _ => answers_next _) fun _ => answers_next _
  · exact envelopeCarry_answers u s m r h

theorem execEnvelopePush_answers {m : Arm} {s : State} (hs : s.ArmsGood) : Answers (execEnvelopePush m s) := by
  obtain ⟨hu, -⟩ := hs m
  refine takeArmRequest_answers fun r rest _ => answers_ite (fun _ => answers_next _) fun _ =>
    answers_ite (fun _ => answers_next _) fun _ => envelopeRequest_answers m s r _ _ fun hrun => ?_
  have hrun : (s.arm m).state = .run := hrun
  exact hu.forwarded_of_moving (by simp [hrun, ArmState.moving])

theorem execEnvelopePop_answers {m : Arm} {s : State} (hs : s.ArmsGood) : Answers (execEnvelopePop m s) := by
  obtain ⟨hu, -⟩ := hs m
  refine takeArmRequest_answers fun r rest _ => answers_ite (fun _ => answers_next _) fun _ =>
    envelopeRequest_answers m s r _ _ fun hrun => ?_
  have hrun : (s.arm m).state = .run := hrun
  exact hu.forwarded_of_moving (by simp [hrun, ArmState.moving])

/-- An event of an arm unit for which the command answers a next state or nothing. -/
theorem takeArm_total {m : Arm} {s : State} {k : ArmEvent → ArmUnit → Option Result}
    (h : ∀ e u, k e u = none ∨ ∃ t, k e u = some (.next t)) : Answers (takeArm m s k) := by
  refine takeArm_answers fun e rest _ x hx => ?_
  rcases h e { s.arm m with arrivals := rest } with hk | ⟨t, hk⟩
  · rw [hk] at hx
    cases hx
  · rw [hk] at hx
    cases hx
    exact answers_next t

theorem takeFromArm_total {m : Arm} {s : State} {k : ToWorkspace → State → Option Result}
    (h : ∀ msg t, k msg t = none ∨ ∃ t', k msg t = some (.next t')) : Answers (takeFromArm m s k) := by
  refine takeFromArm_answers fun msg rest _ x hx => ?_
  rcases h msg (s.setArm m { s.arm m with toWs := rest }) with hk | ⟨t, hk⟩
  · rw [hk] at hx
    cases hx
  · rw [hk] at hx
    cases hx
    exact answers_next t

theorem execArmCut_answers (m : Arm) (s : State) : Answers (execArmCut m s) := by
  refine takeArm_total fun e u => ?_
  cases e with
  | request r =>
    simp only
    split
    · exact .inr ⟨_, rfl⟩
    · exact .inl rfl
  | cutSecond r => exact .inr ⟨_, rfl⟩
  | _ => exact .inl rfl

theorem execRelease_answers (m : Arm) (s : State) : Answers (execRelease m s) := by
  obtain ⟨t, ht⟩ := takeWsRequest_answers m .release s fun r w => w.release m r.head (readRun r.args)
  rw [execRelease, ht]
  exact answers_next _

theorem execOutcomeHandover_answers (m : Arm) (s : State) : Answers (execOutcomeHandover m s) := by
  unfold execOutcomeHandover
  split
  · exact answers_next _
  · exact answers_next s

theorem execOutcomeDiscard_answers (m : Arm) (s : State) : Answers (execOutcomeDiscard m s) := by
  unfold execOutcomeDiscard
  split
  · exact answers_next _
  · exact answers_next s

theorem execSentReport_answers (m : Arm) (s : State) : Answers (execSentReport m s) := by
  unfold execSentReport
  split
  · exact answers_next _
  · exact answers_next s

theorem execDiscardReport_answers (m : Arm) (s : State) : Answers (execDiscardReport m s) := by
  unfold execDiscardReport
  split
  · exact answers_next _
  · exact answers_next s

theorem execAnswerPlace_answers (m : Arm) (s : State) : Answers (execAnswerPlace m s) := by
  unfold execAnswerPlace
  split
  · exact answers_next _
  · exact answers_next s

theorem execEventRaise_answers (b : Block) (s : State) : Answers (execEventRaise b s) := by
  unfold execEventRaise
  split
  · exact answers_next _
  · exact answers_next s

theorem execHeaderPresenceReport_answers (s : State) : Answers (execHeaderPresenceReport s) := by
  unfold execHeaderPresenceReport
  split
  · exact answers_next _
  · exact answers_next s

theorem execCommit_answers (s : State) : Answers (execCommit s) := by
  unfold execCommit
  split
  · exact answers_next _
  · exact answers_next s

theorem execCommitCompletion_answers (s : State) : Answers (execCommitCompletion s) := by
  unfold execCommitCompletion
  split
  · exact answers_next _
  · exact answers_next s

theorem execRequestDecode_answers (m : Arm) (s : State) : Answers (execRequestDecode m s) := by
  unfold execRequestDecode
  split
  · split
    · exact answers_next _
    · exact answers_next _
  · exact answers_next s

/-! ### The obligation -/

/-- Settles O13: the commands that can fault are the nine whose step needs the last forwarded position, a judged verdict, an active
bank or a MOTION record, which the laws provide; every other command answers a next state from any state. -/
theorem noCommandStops : Obligations.NoCommandStops := by
  intro c s hs
  show Answers (exec c s)
  cases c with
  | setpointArrival m => rw [exec_setpointArrival]; exact execSetpointArrival_answers hs
  | setpointVerdict m => rw [exec_setpointVerdict]; exact execSetpointVerdict_answers hs
  | cadenceExpiryRun m =>
    rw [exec_cadenceExpiryRun]
    exact takeExpiry_moving_answers hs (fun _ => moving_of_isRun) fun _ => finishRun_answers m s
  | frameLoss m =>
    rw [exec_frameLoss]
    exact takeExpiry_moving_answers hs (fun _ => moving_of_isRun) fun _ => finishRun_answers m s
  | feedbackLoss m => rw [exec_feedbackLoss]; exact execFeedbackLoss_answers hs
  | cadenceExpiryHalting m =>
    rw [exec_cadenceExpiryHalting]
    exact takeExpiry_moving_answers hs (fun _ => moving_of_isHalting) fun _ => finishHalting_answers m s
  | cadenceExpirySettling m =>
    rw [exec_cadenceExpirySettling]
    exact takeExpiry_moving_answers hs (fun _ => moving_of_isSettling) fun _ => finishSettling_answers m s
  | settleTimeout m =>
    rw [exec_settleTimeout]
    exact takeExpiry_moving_answers hs (fun _ => moving_of_isSettling) fun _ => finishSettling_answers m s
  | cadenceExpiryQuiet m => rw [exec_cadenceExpiryQuiet]; exact execCadenceExpiryQuiet_answers hs
  | feedbackArrival m => rw [exec_feedbackArrival]; exact execFeedbackArrival_answers hs
  | envelopePush m => rw [exec_envelopePush]; exact execEnvelopePush_answers hs
  | envelopePop m => rw [exec_envelopePop]; exact execEnvelopePop_answers hs
  | envelopeVerdict m => rw [exec_envelopeVerdict]; exact execEnvelopeVerdict_answers hs
  | enableVerdict m => rw [exec_enableVerdict]; exact execEnableVerdict_answers m s
  | checkedPlacement m => rw [exec_checkedPlacement]; exact execCheckedPlacement_answers hs
  | forcedPlacement m => rw [exec_forcedPlacement]; exact execForcedPlacement_answers hs
  | powerOn straps => rw [exec_powerOn]; exact answers_next _
  | resetAssert => rw [exec_resetAssert]; exact answers_next _
  | frameArrival side m f => rw [exec_frameArrival]; exact answers_ite (fun _ => answers_next _) fun _ => answers_next _
  | portCadenceExpiry side m => rw [exec_portCadenceExpiry]; exact takePortExpiry_answers side m s _
  | lockLossSilence side m => rw [exec_lockLossSilence]; exact takePortExpiry_answers side m s _
  | requestDecode m => rw [exec_requestDecode]; exact execRequestDecode_answers m s
  | paramArrival m => rw [exec_paramArrival]; exact takeArm_total fun e u => by cases e <;> simp
  | armTickCopy m => rw [exec_armTickCopy]; exact takeArm_total fun e u => by cases e <;> simp
  | lockGained m => rw [exec_lockGained]; exact takeArm_total fun e u => by split <;> simp
  | controllerLockLoss m => rw [exec_controllerLockLoss]; exact takeArm_total fun e u => by split <;> simp
  | driveLockLoss m => rw [exec_driveLockLoss]; exact takeArm_total fun e u => by split <;> simp
  | commitNotice m => rw [exec_commitNotice]; exact takeArm_total fun e u => by cases e <;> simp
  | armCut m => rw [exec_armCut]; exact execArmCut_answers m s
  | tableLockReport =>
    rw [exec_tableLockReport]
    exact takeTable_answers fun e t x hx => by cases e <;> cases hx; exact answers_next _
  | armEnable m => rw [exec_armEnable]; exact takeArmRequest_answers fun _ _ _ => answers_next _
  | armHalt m => rw [exec_armHalt]; exact takeArmRequest_answers fun _ _ _ => answers_next _
  | armClear m => rw [exec_armClear]; exact takeArmRequest_answers fun _ _ _ => answers_next _
  | armReset m => rw [exec_armReset]; exact takeArmRequest_answers fun _ _ _ => answers_next _
  | armStatus m => rw [exec_armStatus]; exact takeArmRequest_answers fun _ _ _ => answers_next _
  | maskSet m => rw [exec_maskSet]; exact takeArmRequest_answers fun _ _ _ => answers_next _
  | contextSave m => rw [exec_contextSave]; exact takeArmRequest_answers fun _ _ _ => answers_next _
  | contextLoad m => rw [exec_contextLoad]; exact takeArmRequest_answers fun _ _ _ => answers_next _
  | statusRead m => rw [exec_statusRead]; exact takeFromArm_total fun msg t => by cases msg <;> simp
  | restUpdate m => rw [exec_restUpdate]; exact takeFromArm_total fun msg t => by cases msg <;> simp
  | setRecordUnknown m => rw [exec_setRecordUnknown]; exact takeFromArm_total fun msg t => by cases msg <;> simp
  | stateReport m => rw [exec_stateReport]; exact takeFromArm_total fun msg t => by cases msg <;> simp
  | claimRemoval m => rw [exec_claimRemoval]; exact takeFromArm_total fun msg t => by cases msg <;> simp
  | claim m => rw [exec_claim]; exact takeWsRequest_answers m _ s _
  | renew m => rw [exec_renew]; exact takeWsRequest_answers m _ s _
  | release m => rw [exec_release]; exact execRelease_answers m s
  | cancel m => rw [exec_cancel]; exact takeWsRequest_answers m _ s _
  | cellRead m => rw [exec_cellRead]; exact takeWsRequest_answers m _ s _
  | leaseTick => rw [exec_leaseTick]; exact takeLeaseTick_answers s _
  | leaseLapse => rw [exec_leaseLapse]; exact takeLeaseTick_answers s _
  | waitExpired => rw [exec_waitExpired]; exact takeLeaseTick_answers s _
  | outcomeDiscard m => rw [exec_outcomeDiscard]; exact execOutcomeDiscard_answers m s
  | discardReport m => rw [exec_discardReport]; exact execDiscardReport_answers m s
  | sentReport m => rw [exec_sentReport]; exact execSentReport_answers m s
  | outcomeHandover m => rw [exec_outcomeHandover]; exact execOutcomeHandover_answers m s
  | answerPlace m => rw [exec_answerPlace]; exact execAnswerPlace_answers m s
  | insertionOpportunity m =>
    rw [exec_insertionOpportunity]
    exact answers_ite (fun _ => answers_next _) fun _ => answers_next _
  | noticeSelection m => rw [exec_noticeSelection]; exact answers_ite (fun _ => answers_next _) fun _ => answers_next _
  | eventRaise b => rw [exec_eventRaise]; exact execEventRaise_answers b s
  | reportTick => rw [exec_reportTick]; exact answers_ite (fun _ => answers_next _) fun _ => answers_next _
  | eventsRead m => rw [exec_eventsRead]; exact takeReportRequest_answers m _ s _
  | eventsClear m => rw [exec_eventsClear]; exact takeReportRequest_answers m _ s _
  | noticeSet m => rw [exec_noticeSet]; exact takeReportRequest_answers m _ s _
  | tableWrite m => rw [exec_tableWrite]; exact takeTableRequest_answers m _ s _
  | headerWrite m => rw [exec_headerWrite]; exact takeTableRequest_answers m _ s _
  | profileWrite m => rw [exec_profileWrite]; exact takeTableRequest_answers m _ s _
  | tableRead m =>
    rw [exec_tableRead]
    exact answers_ite (fun _ => takeWsRequest_answers m _ s _) fun _ => takeTableRead_answers m _ s _
  | digestRead m => rw [exec_digestRead]; exact takeTableRead_answers m _ s _
  | tablesReset m => rw [exec_tablesReset]; exact takeTableRequest_answers m _ s _
  | headerPresenceReport => rw [exec_headerPresenceReport]; exact execHeaderPresenceReport_answers s
  | agree m => rw [exec_agree]; exact takeTableRequest_answers m _ s _
  | agreeWithdraw m => rw [exec_agreeWithdraw]; exact takeTableRequest_answers m _ s _
  | commit => rw [exec_commit]; exact execCommit_answers s
  | commitCompletion => rw [exec_commitCompletion]; exact execCommitCompletion_answers s

end Sys2Proof.Machine
end

