-- ==== Sys2Proof/Proofs/Nesting.lean ====
section
/-! PROOFS. Chapter 1: boxes, their grid limit and what covers them, settling BoxesNest and CoveredByUnits. -/

namespace Sys2Proof.Machine

/-! ### Boxes as grid units (R1) -/

theorem Box.has_iff (b : Box) (p : Tri Int) : b.has p = true
    ↔ (b.lo.x ≤ p.x ∧ p.x ≤ b.hi.x) ∧ (b.lo.y ≤ p.y ∧ p.y ≤ b.hi.y) ∧ (b.lo.z ≤ p.z ∧ p.z ≤ b.hi.z) := by
  simp [Box.has, and_assoc]

theorem Box.meets_iff (b c : Box) : b.meets c = true
    ↔ (b.lo.x ≤ c.hi.x ∧ c.lo.x ≤ b.hi.x) ∧ (b.lo.y ≤ c.hi.y ∧ c.lo.y ≤ b.hi.y) ∧ (b.lo.z ≤ c.hi.z ∧ c.lo.z ≤ b.hi.z) := by
  simp [Box.meets, and_assoc]

theorem Box.ordered_iff (b : Box) : b.ordered = true ↔ b.lo.x ≤ b.hi.x ∧ b.lo.y ≤ b.hi.y ∧ b.lo.z ≤ b.hi.z := by
  simp [Box.ordered, and_assoc]

theorem Box.within_iff (b c : Box) : b.within c = true
    ↔ (c.lo.x ≤ b.lo.x ∧ b.hi.x ≤ c.hi.x) ∧ (c.lo.y ≤ b.lo.y ∧ b.hi.y ≤ c.hi.y) ∧ (c.lo.z ≤ b.lo.z ∧ b.hi.z ≤ c.hi.z) := by
  simp [Box.within, and_assoc]

/-- An ordered box holds its own lower corner. -/
theorem Box.has_lo {b : Box} (h : b.ordered = true) : b.has b.lo = true := by
  rw [Box.ordered_iff] at h
  rw [Box.has_iff]
  omega

/-! ### What is left of a box outside another (R1, R18) -/

theorem mem_ite_singleton {α : Type} {p : Prop} [Decidable p] (a x : α) : x ∈ (if p then [a] else []) ↔ p ∧ x = a := by
  split <;> simp [*]

/-- The pieces of a box outside another that it meets: the slabs below and above it on X, then on Y, then on Z. -/
theorem Box.mem_minus_of_meets {b c : Box} (h : b.meets c = true) (x : Box) : x ∈ b.minus c ↔
    b.lo.x < c.lo.x ∧ x = ⟨b.lo, { b.hi with x := c.lo.x - 1 }⟩
    ∨ c.hi.x < b.hi.x ∧ x = ⟨{ b.lo with x := c.hi.x + 1 }, b.hi⟩
    ∨ b.lo.y < c.lo.y ∧ x = ⟨⟨max b.lo.x c.lo.x, b.lo.y, b.lo.z⟩, ⟨min b.hi.x c.hi.x, c.lo.y - 1, b.hi.z⟩⟩
    ∨ c.hi.y < b.hi.y ∧ x = ⟨⟨max b.lo.x c.lo.x, c.hi.y + 1, b.lo.z⟩, ⟨min b.hi.x c.hi.x, b.hi.y, b.hi.z⟩⟩
    ∨ b.lo.z < c.lo.z
      ∧ x = ⟨⟨max b.lo.x c.lo.x, max b.lo.y c.lo.y, b.lo.z⟩, ⟨min b.hi.x c.hi.x, min b.hi.y c.hi.y, c.lo.z - 1⟩⟩
    ∨ c.hi.z < b.hi.z
      ∧ x = ⟨⟨max b.lo.x c.lo.x, max b.lo.y c.lo.y, c.hi.z + 1⟩, ⟨min b.hi.x c.hi.x, min b.hi.y c.hi.y, b.hi.z⟩⟩ := by
  simp only [Box.minus, h, if_true, List.mem_append, mem_ite_singleton, or_assoc]

theorem Box.minus_of_not_meets {b c : Box} (h : ¬ b.meets c = true) : b.minus c = [b] := if_neg h

/-- A grid unit of the box outside the other lies in the slab of the first axis on which it is outside. -/
theorem Box.exists_minus_has {b c : Box} (h : b.meets c = true) {p : Tri Int} (hb : b.has p = true) (hc : ¬ c.has p = true) :
    ∃ x ∈ b.minus c, x.has p = true := by
  simp only [Box.mem_minus_of_meets h]
  rw [Box.has_iff] at hb hc
  obtain ⟨hbx, hby, hbz⟩ := hb
  rcases lt_or_ge p.x c.lo.x with hx | hx
  · exact ⟨_, .inl ⟨by omega, rfl⟩, (Box.has_iff _ _).mpr (by dsimp only; omega)⟩
  rcases lt_or_ge c.hi.x p.x with hx' | hx'
  · exact ⟨_, .inr (.inl ⟨by omega, rfl⟩), (Box.has_iff _ _).mpr (by dsimp only; omega)⟩
  rcases lt_or_ge p.y c.lo.y with hy | hy
  · exact ⟨_, .inr (.inr (.inl ⟨by omega, rfl⟩)), (Box.has_iff _ _).mpr (by dsimp only; omega)⟩
  rcases lt_or_ge c.hi.y p.y with hy' | hy'
  · exact ⟨_, .inr (.inr (.inr (.inl ⟨by omega, rfl⟩))), (Box.has_iff _ _).mpr (by dsimp only; omega)⟩
  rcases lt_or_ge p.z c.lo.z with hz | hz
  · exact ⟨_, .inr (.inr (.inr (.inr (.inl ⟨by omega, rfl⟩)))), (Box.has_iff _ _).mpr (by dsimp only; omega)⟩
  · exact ⟨_, .inr (.inr (.inr (.inr (.inr ⟨by omega, rfl⟩)))), (Box.has_iff _ _).mpr (by dsimp only; omega)⟩

/-- The pieces hold exactly the grid units of the box outside the other. -/
theorem Box.exists_has_minus (b c : Box) (p : Tri Int) :
    (∃ x ∈ b.minus c, x.has p = true) ↔ b.has p = true ∧ ¬ c.has p = true := by
  by_cases h : b.meets c = true
  · constructor
    · rintro ⟨x, hx, hp⟩
      rw [Box.meets_iff] at h
      rw [Box.mem_minus_of_meets ((b.meets_iff c).mpr h)] at hx
      rw [Box.has_iff] at hp
      rw [Box.has_iff, Box.has_iff]
      rcases hx with ⟨hside, rfl⟩ | ⟨hside, rfl⟩ | ⟨hside, rfl⟩ | ⟨hside, rfl⟩ | ⟨hside, rfl⟩ | ⟨hside, rfl⟩ <;>
        simp only [max_le_iff, le_min_iff] at hp <;> omega
    · rintro ⟨hb, hc⟩
      exact Box.exists_minus_has h hb hc
  · rw [Box.minus_of_not_meets h]
    rw [Box.meets_iff] at h
    simp only [List.mem_singleton, exists_eq_left, Box.has_iff]
    omega

/-- Each piece of an ordered box outside an ordered box is ordered. -/
theorem Box.ordered_of_mem_minus {b c : Box} (hb : b.ordered = true) (hc : c.ordered = true) {x : Box} (hx : x ∈ b.minus c) :
    x.ordered = true := by
  by_cases h : b.meets c = true
  · rw [Box.mem_minus_of_meets h] at hx
    rw [Box.meets_iff] at h
    rw [Box.ordered_iff] at *
    rcases hx with ⟨_, rfl⟩ | ⟨_, rfl⟩ | ⟨_, rfl⟩ | ⟨_, rfl⟩ | ⟨_, rfl⟩ | ⟨_, rfl⟩ <;> dsimp only <;> omega
  · rw [Box.minus_of_not_meets h, List.mem_singleton] at hx
    exact hx ▸ hb

theorem exists_has_minusAll (l : List Box) (c : Box) (p : Tri Int) :
    (∃ x ∈ minusAll l c, x.has p = true) ↔ (∃ x ∈ l, x.has p = true) ∧ ¬ c.has p = true := by
  simp only [minusAll, List.mem_flatMap]
  constructor
  · rintro ⟨x, ⟨b, hb, hx⟩, hp⟩
    obtain ⟨hbp, hcp⟩ := (b.exists_has_minus c p).mp ⟨x, hx, hp⟩
    exact ⟨⟨b, hb, hbp⟩, hcp⟩
  · rintro ⟨⟨b, hb, hbp⟩, hcp⟩
    obtain ⟨x, hx, hp⟩ := (b.exists_has_minus c p).mpr ⟨hbp, hcp⟩
    exact ⟨x, ⟨b, hb, hx⟩, hp⟩

/-- Taking each of some boxes away leaves the grid units that lie in none of them. -/
theorem exists_has_foldl_minusAll (cs l : List Box) (p : Tri Int) :
    (∃ x ∈ cs.foldl minusAll l, x.has p = true) ↔ (∃ x ∈ l, x.has p = true) ∧ ∀ c ∈ cs, ¬ c.has p = true := by
  induction cs generalizing l with
  | nil => simp
  | cons c cs ih => rw [List.foldl_cons, ih, exists_has_minusAll, and_assoc, List.forall_mem_cons]

theorem ordered_of_mem_foldl_minusAll {cs l : List Box} (hl : ∀ b ∈ l, b.ordered = true) (hcs : ∀ c ∈ cs, c.ordered = true) :
    ∀ x ∈ cs.foldl minusAll l, x.ordered = true := by
  induction cs generalizing l with
  | nil => exact hl
  | cons c cs ih =>
    rw [List.forall_mem_cons] at hcs
    refine ih (fun x hx => ?_) hcs.2
    obtain ⟨b, hb, hx⟩ := List.mem_flatMap.mp hx
    exact Box.ordered_of_mem_minus (hl b hb) hcs.1 hx

/-- Settles O6: what is left of the box is a list of ordered boxes, each of which holds a grid unit, and together they hold the
grid units of the box that lie in none of the others. -/
theorem coveredByUnits : Obligations.CoveredByUnits := by
  intro b cs hb hcs
  have hordered := ordered_of_mem_foldl_minusAll (l := [b]) (by simpa using hb) hcs
  have hhas := exists_has_foldl_minusAll cs [b]
  simp only [List.mem_singleton, exists_eq_left] at hhas
  rw [Box.coveredBy, List.isEmpty_iff, List.eq_nil_iff_forall_not_mem]
  constructor
  · intro hnone p hp
    by_contra hout
    obtain ⟨x, hx, -⟩ := (hhas p).mpr ⟨hp, fun c hc hcp => hout ⟨c, hc, hcp⟩⟩
    exact hnone x hx
  · intro hall x hx
    obtain ⟨hbx, hout⟩ := (hhas x.lo).mp ⟨x, hx, Box.has_lo (hordered x hx)⟩
    obtain ⟨c, hc, hcx⟩ := hall x.lo hbx
    exact hout c hc hcx

/-! ### The grid limit (R2) -/

theorem limitCoord_eq (c : Int) : limitCoord c = if c < -1 then -1 else if 1024 < c then 1024 else c := by
  unfold limitCoord
  split
  · omega
  · split <;> omega

theorem limitCoord_mono {c d : Int} (h : c ≤ d) : limitCoord c ≤ limitCoord d := by
  unfold limitCoord
  omega

theorem Box.limit_within {b c : Box} (h : b.within c = true) : b.limit.within c.limit = true := by
  rw [Box.within_iff] at *
  obtain ⟨⟨hxl, hxh⟩, ⟨hyl, hyh⟩, ⟨hzl, hzh⟩⟩ := h
  exact ⟨⟨limitCoord_mono hxl, limitCoord_mono hxh⟩, ⟨limitCoord_mono hyl, limitCoord_mono hyh⟩,
    ⟨limitCoord_mono hzl, limitCoord_mono hzh⟩⟩

theorem Box.grow_within {b c : Box} (e : Envelope) (h : b.within c = true) : (b.grow e).within (c.grow e) = true := by
  rw [Box.within_iff] at *
  simp only [Box.grow]
  omega

theorem firstAxis_eq_none_iff (t : Tri Bool) : t.firstAxis = none ↔ t.x = false ∧ t.y = false ∧ t.z = false := by
  rw [← Option.not_isSome_iff_eq_none, Tri.firstAxis_isSome]
  simp

theorem forall_axis_iff {P : Axis → Prop} : (∀ ax, P ax) ↔ P .axisX ∧ P .axisY ∧ P .axisZ := by
  constructor
  · exact fun h => ⟨h _, h _, h _⟩
  · rintro ⟨hx, hy, hz⟩ ax
    cases ax
    · exact hx
    · exact hy
    · exact hz

theorem outsideWorld_get (b : Box) (ax : Axis) : (outsideWorld b).get ax = true ↔ b.lo.get ax < 0 ∨ 1023 < b.hi.get ax := by
  cases ax <;> exact decide_eq_true_iff

/-- A box inside the world. -/
theorem outsideWorld_eq_none_iff (z : Box) : (outsideWorld z).firstAxis = none
    ↔ (0 ≤ z.lo.x ∧ z.hi.x ≤ 1023) ∧ (0 ≤ z.lo.y ∧ z.hi.y ≤ 1023) ∧ (0 ≤ z.lo.z ∧ z.hi.z ≤ 1023) := by
  rw [← Option.not_isSome_iff_eq_none, outsideWorld_isSome]
  omega

/-- The limit moves a coordinate only outside the world: no end of an interval inside the world sees it. -/
theorem interval_meets_limitCoord {lo hi blo bhi : Int} (h0 : 0 ≤ lo) (h1 : hi ≤ 1023) (h : lo ≤ hi) :
    (lo ≤ limitCoord bhi ∧ limitCoord blo ≤ hi) ↔ lo ≤ bhi ∧ blo ≤ hi := by
  unfold limitCoord
  omega

theorem Box.meets_limit {b z : Box} (hin : (outsideWorld z).firstAxis = none) (hz : z.ordered = true) :
    z.meets b.limit = z.meets b := by
  obtain ⟨⟨hx0, hx1⟩, ⟨hy0, hy1⟩, ⟨hz0, hz1⟩⟩ := (outsideWorld_eq_none_iff z).mp hin
  obtain ⟨hx, hy, hz⟩ := z.ordered_iff.mp hz
  rw [Bool.eq_iff_iff, Box.meets_iff, Box.meets_iff]
  exact and_congr (interval_meets_limitCoord hx0 hx1 hx)
    (and_congr (interval_meets_limitCoord hy0 hy1 hy) (interval_meets_limitCoord hz0 hz1 hz))

theorem limitCoord_outside (lo hi : Int) : (limitCoord lo < 0 ∨ 1023 < limitCoord hi) ↔ lo < 0 ∨ 1023 < hi := by
  unfold limitCoord
  omega

theorem outsideWorld_limit (b : Box) : outsideWorld b.limit = outsideWorld b := by
  simp only [outsideWorld, Box.limit, Tri.map, limitCoord_outside]

/-! ### Braking boxes nest (R8, R19) -/

theorem motionCounts_pos {s : Int} (d : Nat) (p p0 : Int) (h : 0 < s) :
    motionCounts d p p0 s = ⟨min p0 p, max p0 p + brakingReach d s.natAbs⟩ := if_pos h

theorem motionCounts_neg {s : Int} (d : Nat) (p p0 : Int) (h : s < 0) :
    motionCounts d p p0 s = ⟨min p0 p - brakingReach d s.natAbs, max p0 p⟩ := by
  rw [motionCounts, if_neg (by omega), if_pos h]

theorem motionCounts_zero (d : Nat) (p p0 : Int) : motionCounts d p p0 0 = ⟨p, p⟩ := rfl

theorem brakingReach_nonneg {d : Nat} (hd : 1 ≤ d) (s : Nat) : 0 ≤ brakingReach d s := by
  rw [← brakingReach_zero hd]
  exact brakingReach_mono hd (Nat.zero_le s)

/-- The next braking step covers what R7 takes off the reach, so the counts of the setpoint after it stay inside those before. -/
theorem motionCounts_nest {d : Nat} (hd : 1 ≤ d) (p0 s : Int) :
    let outer := motionCounts d (p0 + s) p0 s
    let inner := motionCounts d (p0 + s + brakingStep d s) (p0 + s) (brakingStep d s)
    outer.lo ≤ inner.lo ∧ inner.lo ≤ inner.hi ∧ inner.hi ≤ outer.hi := by
  have hreach := brakingReach_nonneg hd
  intro outer inner
  rcases le_or_gt s.natAbs d with hle | hgt
  · have hinner : inner = ⟨p0 + s, p0 + s⟩ := by
      simp only [inner, brakingStep_of_le hle, motionCounts_zero, add_zero]
    have houter : outer.lo ≤ p0 + s ∧ p0 + s ≤ outer.hi := by
      have := hreach s.natAbs
      rcases lt_trichotomy s 0 with hs | rfl | hs
      · simp only [outer, motionCounts_neg _ _ _ hs]; omega
      · simp [outer, motionCounts_zero]
      · simp only [outer, motionCounts_pos _ _ _ hs]; omega
    simp only [hinner]
    omega
  · have hrec := brakingReach_of_gt hd hgt
    have hrest := hreach (s.natAbs - d)
    have habs := natAbs_brakingStep d s
    rcases lt_or_gt_of_ne (show s ≠ 0 by rintro rfl; simp at hgt) with hs | hs
    · have hstep : brakingStep d s = s + d := by rw [brakingStep_of_gt hgt, Int.sign_eq_neg_one_of_neg hs]; ring
      simp only [outer, inner, motionCounts_neg _ _ _ hs, motionCounts_neg _ _ _ (show brakingStep d s < 0 by omega), habs]
      omega
    · have hstep : brakingStep d s = s - d := by rw [brakingStep_of_gt hgt, Int.sign_eq_one_of_pos hs]; ring
      simp only [outer, inner, motionCounts_pos _ _ _ hs, motionCounts_pos _ _ _ (show 0 < brakingStep d s by omega), habs]
      omega

/-- A count interval inside another converts to a grid interval inside the other's (R5). -/
theorem AxisGeom.gridInterval_nest (g : AxisGeom) (hp : 1 ≤ g.pitch) {q r : Interval} (hlo : q.lo ≤ r.lo) (hr : r.lo ≤ r.hi)
    (hhi : r.hi ≤ q.hi) : (g.gridInterval q).lo ≤ (g.gridInterval r).lo ∧ (g.gridInterval r).hi ≤ (g.gridInterval q).hi := by
  simp only [AxisGeom.gridInterval]
  cases hs : g.sign with
  | plus =>
    have h1 := g.grid_mono_of_plus hs hp hlo
    have h2 := g.grid_mono_of_plus hs hp hr
    have h3 := g.grid_mono_of_plus hs hp hhi
    omega
  | minus =>
    have h1 := g.grid_anti_of_minus hs hp hlo
    have h2 := g.grid_anti_of_minus hs hp hr
    have h3 := g.grid_anti_of_minus hs hp hhi
    omega

theorem motionAxis_nest (g : AxisGeom) (hp : 1 ≤ g.pitch) (hd : 1 ≤ g.decel) (p0 s : Int) :
    let outer := motionAxis g (p0 + s) p0 s
    let inner := motionAxis g (p0 + s + brakingStep g.decel s) (p0 + s) (brakingStep g.decel s)
    outer.lo ≤ inner.lo ∧ inner.hi ≤ outer.hi := by
  obtain ⟨hlo, hmid, hhi⟩ := motionCounts_nest hd p0 s
  exact g.gridInterval_nest hp hlo hmid hhi

/-- Braking boxes nest before growth and limit. -/
theorem motionBox_nest (g : Geometry) (p0 s : Tri Int) (hp : 1 ≤ g.x.pitch ∧ 1 ≤ g.y.pitch ∧ 1 ≤ g.z.pitch)
    (hd : 1 ≤ g.x.decel ∧ 1 ≤ g.y.decel ∧ 1 ≤ g.z.decel) :
    let s' : Tri Int := ⟨brakingStep g.x.decel s.x, brakingStep g.y.decel s.y, brakingStep g.z.decel s.z⟩
    (motionBox g ((p0.add s).add s') (p0.add s) s').within (motionBox g (p0.add s) p0 s) = true := by
  obtain ⟨hpx, hpy, hpz⟩ := hp
  obtain ⟨hdx, hdy, hdz⟩ := hd
  exact (Box.within_iff _ _).mpr
    ⟨motionAxis_nest g.x hpx hdx p0.x s.x, motionAxis_nest g.y hpy hdy p0.y s.y, motionAxis_nest g.z hpz hdz p0.z s.z⟩

/-- Settles O5: the forms are the model's definitions; the limit is monotone and moves nothing inside the world; and a braking
box lies within the one before because the next step and its reach make up the reach before. -/
theorem boxesNest : Obligations.BoxesNest := by
  refine ⟨fun d p p0 s => ⟨motionCounts_pos d p p0, motionCounts_neg d p p0, ?zero⟩, fun _ _ _ _ => rfl, fun _ _ => rfl, ?limit,
    fun _ _ _ _ _ => rfl, fun _ => ⟨rfl, fun _ _ => rfl⟩, fun _ => rfl, Box.within_iff, fun _ _ => Box.limit_within,
    fun _ _ => Box.meets_limit, outsideWorld_limit, fun b ax => ⟨outsideWorld_get b ax, ?none⟩, ?nest⟩
  case zero =>
    rintro rfl
    rfl
  case limit =>
    intro b
    simp only [Box.limit, Tri.map, limitCoord_eq]
  case none =>
    rw [firstAxis_eq_none_iff, forall_axis_iff]
    rfl
  case nest =>
    intro g e p0 s hpx hpy hpz hdx hdy hdz
    have hnest := motionBox_nest g p0 s ⟨hpx, hpy, hpz⟩ ⟨hdx, hdy, hdz⟩
    exact ⟨Box.limit_within hnest, Box.limit_within (Box.grow_within e hnest)⟩

end Sys2Proof.Machine
end

