-- ==== Sys2Proof/Proofs/Startup.lean ====
section
/-! PROOFS. The queue, time and start-up, settling IdleStepPassesTime, PowerOnLeaves, ResetAssertHolds and LawsHoldAtReset. -/

namespace Sys2Proof.Machine

/-! ### What 125 µs bring (R3, R69, R178) -/

theorem unitEvents_perm (tick expiry first : Bool) :
    (unitEvents tick expiry first).Perm ((if tick then [.tick] else []) ++ (if expiry then [.expiry] else [])) := by
  cases tick with
  | false => cases expiry <;> exact List.Perm.refl _
  | true =>
    cases expiry with
    | false => exact List.Perm.refl _
    | true =>
      cases first with
      | true => exact List.Perm.refl _
      | false => exact List.Perm.swap _ _ _

theorem Timebase.ticks_toNat (t : Timebase) : t.ticks.toNat = if 7 ≤ t.units then 1 else 0 := by
  rw [Timebase.ticks]
  by_cases h : 7 ≤ t.units <;> simp [h]

theorem Timebase.ticks_eq (t : Timebase) : t.ticks = decide (7 ≤ t.units) := by
  simp [Timebase.ticks]

theorem CadenceTimer.pass_of_running {t : CadenceTimer} (h : 1 < t.left) : t.pass = { t with left := t.left - 1 } := by
  simp [CadenceTimer.pass, CadenceTimer.expires, h]

theorem CadenceTimer.pass_of_expiring {t : CadenceTimer} (h : t.left ≤ 1) :
    t.pass = ⟨t.next.getD t.period, none, t.next.getD t.period⟩ := by
  simp [CadenceTimer.pass, CadenceTimer.expires, h]

theorem Timebase.pass_timer (t : Timebase) (m : Arm) : t.pass.timers.get m = (t.timers.get m).pass := by
  cases m <;> rfl

theorem State.timePasses_of_high {s : State} (h : s.resetN = true) :
    s.timePasses = { ((s.deliverTo .armA).deliverTo .armB).deliverTick with
      timebase := s.timebase.pass, draws := s.draws + 1 } := by
  simp [State.timePasses, h]

theorem State.timePasses_of_low {s : State} (h : s.resetN = false) : s.timePasses = s := by
  simp [State.timePasses, h]

theorem State.timePasses_arm {s : State} (h : s.resetN = true) (m : Arm) :
    s.timePasses.arm m = { s.arm m with
      arrivals := (s.arm m).arrivals
        ++ unitEvents s.timebase.ticks (s.timebase.timers.get m).expires (Config.tickFirst s.draws m) } := by
  rw [State.timePasses_of_high h]
  cases m <;> rfl

theorem State.timePasses_port {s : State} (h : s.resetN = true) (m : Arm) : s.timePasses.port m
    = { s.port m with expiryDue := (s.port m).expiryDue || (s.timebase.timers.get m).expires } := by
  rw [State.timePasses_of_high h]
  cases m <;> rfl

theorem State.timePasses_drivePort {s : State} (h : s.resetN = true) (m : Arm) : s.timePasses.drivePort m
    = { s.drivePort m with expiryDue := (s.drivePort m).expiryDue || (s.timebase.timers.get m).expires } := by
  rw [State.timePasses_of_high h]
  cases m <;> rfl

theorem State.timePasses_ws {s : State} (h : s.resetN = true) :
    s.timePasses.ws = { s.ws with ticksDue := s.ws.ticksDue + s.timebase.ticks.toNat } := by
  rw [State.timePasses_of_high h]
  rfl

theorem State.timePasses_report {s : State} (h : s.resetN = true) :
    s.timePasses.report = { s.report with ticksDue := s.report.ticksDue + s.timebase.ticks.toNat } := by
  rw [State.timePasses_of_high h]
  rfl

theorem State.timePasses_timebase {s : State} (h : s.resetN = true) : s.timePasses.timebase = s.timebase.pass := by
  rw [State.timePasses_of_high h]

/-- Everything else stays as it is. -/
theorem State.timePasses_rest (s : State) : s.timePasses.table = s.table ∧ s.timePasses.req = s.req ∧ s.timePasses.node = s.node
    ∧ s.timePasses.resetN = s.resetN ∧ s.timePasses.pending = s.pending := by
  by_cases h : s.resetN = true
  · rw [State.timePasses_of_high h]
    simp [State.deliverTo, State.deliverTick]
  · rw [State.timePasses_of_low (Bool.eq_false_iff.mpr h)]
    simp

/-! ### What waits at the ports (log entry 2) -/

theorem portDuty_eq_none {s : State} (h : s.portDuty = none) (m : Arm) : s.armPortDuty m = none := by
  simp only [State.portDuty, Option.or_eq_none_iff] at h
  cases m
  · exact h.1
  · exact h.2

theorem portDuty_eq_some (s : State) (c : Instr) :
    s.portDuty = some c ↔ ∃ m, s.armPortDuty m = some c ∧ (m = .armB → s.armPortDuty .armA = none) := by
  simp only [State.portDuty, Option.or_eq_some_iff]
  constructor
  · rintro (h | ⟨hnone, h⟩)
    · exact ⟨.armA, h, by simp⟩
    · exact ⟨.armB, h, fun _ => hnone⟩
  · rintro ⟨m, h, hnone⟩
    cases m
    · exact .inl h
    · exact .inr ⟨hnone rfl, h⟩

/-- The duty of an arm's ports, by what waits at them. -/
theorem armPortDuty_cases (s : State) (m : Arm) :
    (s.armPortDuty m = some (.insertionOpportunity m) ↔ (s.port m).opportunity = .offered)
    ∧ (s.armPortDuty m = some (.noticeSelection m) ↔ (s.port m).opportunity = .asked)
    ∧ (s.armPortDuty m = some (.portCadenceExpiry .ctrl m) ↔ (s.port m).opportunity = .closed ∧ (s.port m).expiryDue = true)
    ∧ (s.armPortDuty m = some (.portCadenceExpiry .drive m)
      ↔ (s.port m).opportunity = .closed ∧ (s.port m).expiryDue = false ∧ (s.drivePort m).expiryDue = true) := by
  simp only [State.armPortDuty]
  cases (s.port m).opportunity with
  | offered => simp
  | asked => simp
  | closed =>
    cases (s.port m).expiryDue with
    | true => simp
    | false => cases (s.drivePort m).expiryDue <;> simp

/-- Settles O8: on an empty queue with no duty at a port the timebase delivers what the unit brings, field by field; a duty is
the first that waits at a port, arm A's first. -/
theorem idleStepPassesTime : Obligations.IdleStepPassesTime := by
  refine ⟨fun s hpending hreset hduty => ?passes, fun s c hpending hduty => step_port hpending hduty, portDuty_eq_some,
    fun s m => ?duties⟩
  case duties =>
    obtain ⟨hoffered, hasked, hctrl, hdrive⟩ := armPortDuty_cases s m
    exact ⟨hoffered, hasked, hctrl, hdrive, armPortDuty_none⟩
  case passes =>
    have hidle (m : Arm) := armPortDuty_none.mp (portDuty_eq_none hduty m)
    obtain ⟨htable, hreq, hnode, hresetN, hpend⟩ := s.timePasses_rest
    refine ⟨s.timePasses, step_nil s hpending hduty, ?_, ?_, ?_, fun m => ?_, fun m => ?_, fun m => ⟨_, s.timePasses_arm hreset m, ?_⟩,
      fun m hleft => ?_, fun m hleft period hperiod => ?_, htable, hreq, hnode, hresetN.trans hreset, hpend.trans hpending⟩
    · rw [State.timePasses_ws hreset, Timebase.ticks_toNat]
    · rw [State.timePasses_report hreset, Timebase.ticks_toNat]
    · rw [State.timePasses_timebase hreset]
      simp [Timebase.pass, Timebase.ticks_eq]
    · obtain ⟨-, hctrl, -⟩ := hidle m
      rw [State.timePasses_port hreset, show (s.port m).expiryDue = false from hctrl]
      rfl
    · obtain ⟨-, -, hdrive⟩ := hidle m
      rw [State.timePasses_drivePort hreset, show (s.drivePort m).expiryDue = false from hdrive]
      rfl
    · simpa [Timebase.ticks_eq, CadenceTimer.expires] using unitEvents_perm s.timebase.ticks (s.timebase.timers.get m).expires
        (Config.tickFirst s.draws m)
    · rw [State.timePasses_timebase hreset, Timebase.pass_timer, CadenceTimer.pass_of_running hleft]
    · rw [State.timePasses_timebase hreset, Timebase.pass_timer, CadenceTimer.pass_of_expiring hleft, hperiod]

/-! ### The rise and the fall of RESET_N (R191) -/

theorem Bank.powerOn_passes : validate Bank.powerOn = .passed := by decide

/-- Settles O9: every field is the value its block holds at power-on; the shadow at power-on passes. -/
theorem powerOnLeaves : Obligations.PowerOnLeaves := by
  intro straps s profile axis unlocked shadow
  refine ⟨_, exec_powerOn straps s, rfl, rfl, rfl, rfl, rfl, fun m => ?block, rfl, ?table, rfl, rfl, rfl, rfl, ?settings, rfl⟩
  case block =>
    cases m <;> exact ⟨rfl, rfl, rfl, rfl, rfl, rfl, rfl, rfl, fun f hf => List.eq_of_mem_replicate hf, rfl⟩
  case table =>
    have hresult : (State.powerOn true straps s.draws s.pending).table.result = .passed := Bank.powerOn_passes
    rw [← hresult]
    rfl
  case settings =>
    have hall : ∀ k : Nat, k < 24 → noticeSettingsPowerOn[k]? = some
        (if k ≤ 2 ∨ (9 ≤ k ∧ k ≤ 13) then ⟨true, 7⟩ else if 3 ≤ k ∧ k ≤ 8 then ⟨true, 6⟩
          else if k = 14 ∨ k = 15 ∨ k = 21 ∨ k = 22 then ⟨true, 4⟩ else ⟨false, 1⟩) := by decide
    exact hall

theorem exec_of_powerOn_low (node : Node) (draws : Nat) (pending : List Instr) (c : Instr) (hc : ∀ straps, c ≠ .powerOn straps) :
    exec c (State.powerOn false node draws pending) = .next (State.powerOn false node draws pending) := by
  cases c with
  | powerOn straps => exact absurd rfl (hc straps)
  | frameArrival side m f => rfl
  | portCadenceExpiry side m => cases side <;> cases m <;> rfl
  | lockLossSilence side m => cases side <;> cases m <;> rfl
  | eventRaise b =>
    cases b with
    | arm m => cases m <;> rfl
    | port side m => cases side <;> cases m <;> rfl
    | workspace => rfl
    | table => rfl
  | resetAssert => rfl
  | requestDecode m => cases m <;> rfl
  | setpointArrival m => cases m <;> rfl
  | setpointVerdict m => cases m <;> rfl
  | cadenceExpiryRun m => cases m <;> rfl
  | frameLoss m => cases m <;> rfl
  | feedbackLoss m => cases m <;> rfl
  | cadenceExpiryHalting m => cases m <;> rfl
  | cadenceExpirySettling m => cases m <;> rfl
  | settleTimeout m => cases m <;> rfl
  | cadenceExpiryQuiet m => cases m <;> rfl
  | feedbackArrival m => cases m <;> rfl
  | paramArrival m => cases m <;> rfl
  | armTickCopy m => cases m <;> rfl
  | lockGained m => cases m <;> rfl
  | controllerLockLoss m => cases m <;> rfl
  | driveLockLoss m => cases m <;> rfl
  | tableLockReport => rfl
  | armEnable m => cases m <;> rfl
  | enableVerdict m => cases m <;> rfl
  | armHalt m => cases m <;> rfl
  | armCut m => cases m <;> rfl
  | armClear m => cases m <;> rfl
  | armReset m => cases m <;> rfl
  | armStatus m => cases m <;> rfl
  | statusRead m => cases m <;> rfl
  | envelopePush m => cases m <;> rfl
  | envelopePop m => cases m <;> rfl
  | envelopeVerdict m => cases m <;> rfl
  | maskSet m => cases m <;> rfl
  | contextSave m => cases m <;> rfl
  | contextLoad m => cases m <;> rfl
  | commitNotice m => cases m <;> rfl
  | checkedPlacement m => cases m <;> rfl
  | forcedPlacement m => cases m <;> rfl
  | restUpdate m => cases m <;> rfl
  | setRecordUnknown m => cases m <;> rfl
  | stateReport m => cases m <;> rfl
  | claim m => cases m <;> rfl
  | renew m => cases m <;> rfl
  | release m => cases m <;> rfl
  | cancel m => cases m <;> rfl
  | cellRead m => cases m <;> rfl
  | leaseTick => rfl
  | leaseLapse => rfl
  | waitExpired => rfl
  | claimRemoval m => cases m <;> rfl
  | outcomeDiscard m => cases m <;> rfl
  | discardReport m => cases m <;> rfl
  | sentReport m => cases m <;> rfl
  | outcomeHandover m => cases m <;> rfl
  | answerPlace m => cases m <;> rfl
  | insertionOpportunity m => cases m <;> rfl
  | noticeSelection m => cases m <;> rfl
  | reportTick => rfl
  | eventsRead m => cases m <;> rfl
  | eventsClear m => cases m <;> rfl
  | noticeSet m => cases m <;> rfl
  | tableWrite m => cases m <;> rfl
  | headerWrite m => cases m <;> rfl
  | profileWrite m => cases m <;> rfl
  | tableRead m => cases m <;> rfl
  | digestRead m => cases m <;> rfl
  | tablesReset m => cases m <;> rfl
  | headerPresenceReport => rfl
  | agree m => cases m <;> rfl
  | agreeWithdraw m => cases m <;> rfl
  | commit => rfl
  | commitCompletion => rfl

/-- Settles O10: every block stands at its power-on values, in which no channel holds anything for a command to take. -/
theorem resetAssertHolds : Obligations.ResetAssertHolds := by
  intro s
  refine ⟨_, exec_resetAssert s, rfl, rfl, rfl, rfl, fun m => ?block, fun b => ?raises, rfl, rfl, rfl, rfl, rfl, rfl, rfl, rfl, rfl,
    exec_of_powerOn_low s.node s.draws s.pending, rfl⟩
  case block =>
    cases m <;> exact ⟨rfl, rfl, rfl, rfl, rfl, rfl, rfl, rfl, rfl, rfl, rfl, rfl, rfl, rfl, fun side => by cases side <;> rfl⟩
  case raises =>
    cases b with
    | arm m => cases m <;> rfl
    | port side m => cases side <;> cases m <;> rfl
    | workspace => rfl
    | table => rfl

/-! ### The laws at power-on -/

theorem Flag.clear_good : Flag.clear.Good where
  detail := rfl
  tick := rfl
  clear := fun _ => ⟨rfl, rfl⟩
  counted := by decide

theorem LinkLock.powerOn_good : LinkLock.powerOn.Good where
  good := by decide
  bad := by decide
  silent := by decide
  locked := by decide
  unlocked := by decide

theorem TableUnit.powerOn_good : TableUnit.powerOn.Good where
  digest := by rw [TableUnit.powerOn]
  result := by rw [TableUnit.powerOn]
  agreed := by
    intro m d hd
    cases m <;> cases hd

theorem ReportUnit.powerOn_good : ReportUnit.powerOn.Good where
  flags := by
    intro m
    cases m <;> exact ⟨rfl, fun f hf => List.eq_of_mem_replicate hf ▸ Flag.clear_good⟩
  settings := by decide

theorem State.powerOn_queueGood (resetN : Bool) (node : Node) (draws : Nat) (pending : List Instr) :
    (State.powerOn resetN node draws pending).QueueGood where
  table := ⟨rfl, rfl⟩
  length := Nat.zero_le 8
  quota := by
    intro m
    cases m <;> exact Nat.zero_le 4
  counts := by
    intro m
    cases m <;> rfl
  distinct := List.Pairwise.nil

theorem State.powerOn_ticksGood (resetN : Bool) (node : Node) (draws : Nat) (pending : List Instr) :
    (State.powerOn resetN node draws pending).TicksGood :=
  ⟨rfl, fun m => by cases m <;> rfl⟩

theorem State.powerOn_locksGood (resetN : Bool) (node : Node) (draws : Nat) (pending : List Instr) :
    (State.powerOn resetN node draws pending).LocksGood := by
  intro side m
  cases side <;> cases m <;> exact LinkLock.powerOn_good

theorem State.powerOn_stacksGood (resetN : Bool) (node : Node) (draws : Nat) (pending : List Instr) :
    (State.powerOn resetN node draws pending).StacksGood := by
  intro m
  cases m <;> exact ⟨Nat.zero_le 8, by simp [State.powerOn, State.arm, PerArm.get, ArmUnit.powerOn, ArmContext.powerOn]⟩

theorem State.powerOn_armsGood (resetN : Bool) (node : Node) (draws : Nat) (pending : List Instr) :
    (State.powerOn resetN node draws pending).ArmsGood := by
  intro m
  cases m <;> exact ⟨ArmUnit.powerOn_good, State.joined_of_quiet rfl rfl⟩

theorem State.powerOn_lawsHold (resetN : Bool) (node : Node) (draws : Nat) (pending : List Instr) :
    (State.powerOn resetN node draws pending).LawsHold where
  arms := State.powerOn_armsGood resetN node draws pending
  table := TableUnit.powerOn_good
  queue := State.powerOn_queueGood resetN node draws pending
  locks := State.powerOn_locksGood resetN node draws pending
  report := ReportUnit.powerOn_good
  ticks := State.powerOn_ticksGood resetN node draws pending
  envelopes := State.powerOn_stacksGood resetN node draws pending

/-- Settles O11: each law at the power-on values of the blocks it speaks of. -/
theorem lawsHoldAtReset : Obligations.LawsHoldAtReset :=
  ⟨State.powerOn_lawsHold _ _ _ _, fun straps draws pending => State.powerOn_lawsHold true straps draws pending⟩

end Sys2Proof.Machine
end

