-- ==== Sys2Proof/Proofs/Steady.lean ====
section
/-! PROOFS. What every operation of an arm unit keeps of its tick count and of its envelope stack. -/

namespace Sys2Proof.Machine

/-- The lease ticks delivered to an arm unit: those it has counted and those that wait (R69). -/
def ArmUnit.tickCount (u : ArmUnit) : Tick := u.tickCopy + BitVec.ofNat 32 (u.arrivals.filter ArmEvent.isTick).length

/-- An operation on an arm unit that delivers it no tick, loses it none, and leaves a good stack good. -/
structure ArmUnit.Steady (u v : ArmUnit) : Prop where
  ticks : v.tickCount = u.tickCount
  stack : stackGood u.ctx.stack → stackGood v.ctx.stack

namespace ArmUnit

theorem Steady.refl (u : ArmUnit) : u.Steady u := ⟨rfl, id⟩

theorem Steady.trans {u v w : ArmUnit} (h : u.Steady v) (h' : v.Steady w) : u.Steady w :=
  ⟨h'.ticks.trans h.ticks, h'.stack ∘ h.stack⟩

/-- The same with the later operation said first. -/
theorem Steady.after {u v w : ArmUnit} (h' : v.Steady w) (h : u.Steady v) : u.Steady w := h.trans h'

/-- An operation that leaves the tick copy, what waits, and the stack. -/
theorem Steady.of_same {u v : ArmUnit} (hcopy : v.tickCopy = u.tickCopy) (hwait : v.arrivals = u.arrivals)
    (hstack : v.ctx.stack = u.ctx.stack) : u.Steady v :=
  ⟨by rw [tickCount, tickCount, hcopy, hwait], fun h => hstack ▸ h⟩

/-- A mark on what waits makes no tick and takes none. -/
theorem Steady.of_marked {u v : ArmUnit} {mark : ArmEvent → ArmEvent} (hmark : ∀ e, (mark e).isTick = e.isTick)
    (hcopy : v.tickCopy = u.tickCopy) (hwait : v.arrivals = u.arrivals.map mark)
    (hstack : stackGood u.ctx.stack → stackGood v.ctx.stack) : u.Steady v :=
  ⟨by rw [tickCount, tickCount, hcopy, hwait, filter_map_length mark _ hmark], hstack⟩

theorem steady_ite {u v w : ArmUnit} {p : Prop} [Decidable p] (hv : p → u.Steady v) (hw : ¬p → u.Steady w) :
    u.Steady (if p then v else w) := by
  split
  · exact hv ‹_›
  · exact hw ‹_›

/-- What an arm unit takes, if it is no tick, is no loss. -/
theorem steady_pop {u : ArmUnit} {e : ArmEvent} {rest : List ArmEvent} (h : u.arrivals = e :: rest) (he : e.isTick = false) :
    u.Steady { u with arrivals := rest } :=
  ⟨by simp [tickCount, h, he], id⟩

/-- A tick that is taken is counted. -/
theorem steady_count {u : ArmUnit} {rest : List ArmEvent} (h : u.arrivals = .tick :: rest) :
    u.Steady { u with arrivals := rest, tickCopy := u.tickCopy + 1 } := by
  refine ⟨?_, id⟩
  simp only [tickCount, h, List.filter_cons, ArmEvent.isTick, if_true, List.length_cons]
  rw [Nat.add_comm, BitVec.ofNat_add, BitVec.add_assoc]
  rfl

theorem steady_push {u : ArmUnit} {e : ArmEvent} (he : e.isTick = false) :
    u.Steady { u with arrivals := u.arrivals ++ [e] } :=
  ⟨by simp [tickCount, he], id⟩

/-! ### Sending, raising, recording -/

theorem send_steady (u : ArmUnit) (msg : ToWorkspace) : u.Steady (u.send msg) := ⟨rfl, id⟩

theorem raise_steady (u : ArmUnit) (m : Arm) (k : EventKind) (d : Detail) : u.Steady (u.raise m k d) := ⟨rfl, id⟩

theorem raiseAll_steady (u : ArmUnit) (rs : List Raise) : u.Steady (u.raiseAll rs) := ⟨rfl, id⟩

theorem raiseFound_steady (u : ArmUnit) (m : Arm) (seq : SeqNo) (f : Found) : u.Steady (u.raiseFound m seq f) := ⟨rfl, id⟩

theorem hand_steady (u : ArmUnit) (os : List Octet) : u.Steady (u.hand os) := ⟨rfl, id⟩

theorem sendRest_steady (u : ArmUnit) (p : Pos) : u.Steady (u.sendRest p) := ⟨rfl, id⟩

theorem sendRestIfKnown_steady (u : ArmUnit) : u.Steady u.sendRestIfKnown := by
  rw [sendRestIfKnown]
  split
  · exact u.sendRest_steady _
  · exact .refl u

theorem enter_steady (u : ArmUnit) (m : Arm) (st : ArmState) : u.Steady (u.enter m st) := by
  refine steady_ite (fun _ => .refl u) fun _ => steady_ite (fun _ => ⟨rfl, id⟩) fun _ => ⟨rfl, id⟩

theorem record_steady (u : ArmUnit) (f : Finding) : u.Steady (u.record f) := by
  rw [record]
  split <;> exact ⟨rfl, id⟩

theorem foundInStop_steady (u : ArmUnit) (f : Finding) : u.Steady (u.foundInStop f) :=
  steady_ite (fun _ => u.record_steady f) fun _ => .refl u

/-! ### Entering a stop, CUT, SYNC, STANDBY -/

theorem halt_steady (u : ArmUnit) (m : Arm) (cause : StopCause) : u.Steady (u.halt m cause) :=
  .after (enter_steady _ m _) ⟨rfl, id⟩

theorem hardFault_steady (u : ArmUnit) (m : Arm) (f : Finding) : u.Steady (u.hardFault m f) :=
  (u.record_steady f).trans (halt_steady _ m _)

theorem settleIfStill_steady (u : ArmUnit) (m : Arm) : u.Steady (u.settleIfStill m) :=
  steady_ite (fun _ => .after (enter_steady _ m _) ⟨rfl, id⟩) fun _ => .refl u

theorem cutNow_steady (u : ArmUnit) (m : Arm) : u.Steady (u.cutNow m) := by
  rw [cutNow]
  refine .trans ?_ (enter_steady _ m _)
  split <;> exact ⟨rfl, id⟩

theorem record_arrivals (u : ArmUnit) (f : Finding) : (u.record f).arrivals = u.arrivals := by
  rw [record]
  split <;> rfl

theorem enter_arrivals (u : ArmUnit) (m : Arm) (st : ArmState) : (u.enter m st).arrivals = u.arrivals := by
  simp only [enter]
  split
  · rfl
  · split <;> rfl

theorem cutNow_arrivals (u : ArmUnit) (m : Arm) : (u.cutNow m).arrivals = u.arrivals := by
  simp only [cutNow, enter_arrivals]
  split <;> rfl

theorem cut_steady (u : ArmUnit) (m : Arm) (f : Finding) : u.Steady (u.cut m f) := by
  have hcut : u.Steady ((u.record f).cutNow m) := (u.record_steady f).trans (cutNow_steady _ m)
  have hwait : ((u.record f).cutNow m).arrivals = u.arrivals := by rw [cutNow_arrivals, record_arrivals]
  refine steady_ite (fun _ => u.record_steady f) fun _ => steady_ite (fun _ => hcut.trans ?_) fun _ => hcut
  exact .of_marked asSecond_isTick rfl (by rw [hwait]) id

theorem toSync_steady (u : ArmUnit) (m : Arm) : u.Steady (u.toSync m) := .after (enter_steady _ m _) ⟨rfl, id⟩

theorem standbyFromSync_steady (u : ArmUnit) (m : Arm) : u.Steady (u.standbyFromSync m) := .after (enter_steady _ m _) ⟨rfl, id⟩

/-! ### Setpoints the monitor makes, and the parts of an expiry -/

theorem brake_steady (u : ArmUnit) (node : Node) (p : Pos) : u.Steady (u.brake node p) := ⟨rfl, id⟩

theorem hold_steady (u : ArmUnit) (node : Node) (p : Pos) : u.Steady (u.hold node p) := ⟨rfl, id⟩

theorem takeProfile_steady (u : ArmUnit) : u.Steady u.takeProfile := by
  rw [takeProfile]
  split <;> exact ⟨rfl, id⟩

theorem stepFeedback_steady (u : ArmUnit) (m : Arm) : u.Steady (u.stepFeedback m) := by
  have hraised : u.Steady (({ u with ctx := { u.ctx with feedback := 0 } } : ArmUnit).raise m .feedbackLoss (.seqOnly u.last.seq)) :=
    ⟨rfl, id⟩
  simp only [stepFeedback]
  refine steady_ite (fun _ => ?_) fun _ => steady_ite (fun _ => .refl u) fun _ => ⟨rfl, id⟩
  exact steady_ite (fun _ => steady_ite (fun _ => hraised) fun _ => hraised.trans (hardFault_steady _ m _))
    fun _ => hraised.trans (foundInStop_steady _ _)

theorem missedPeriod_steady (u : ArmUnit) (m : Arm) (node : Node) (p : Pos) : u.Steady (u.missedPeriod m node p) := by
  refine steady_ite (fun _ => .trans ?_ (settleIfStill_steady _ m)) fun _ => ⟨rfl, id⟩
  exact .after (hardFault_steady _ m _) ⟨rfl, id⟩

theorem expiryRun_steady (u : ArmUnit) (m : Arm) (node : Node) (p : Pos) : u.Steady (u.expiryRun m node p) := by
  refine .trans (.trans ?_ (stepFeedback_steady _ m)) ⟨rfl, id⟩
  exact steady_ite (fun _ => ⟨rfl, id⟩) fun _ => .after (missedPeriod_steady _ m node p) ⟨rfl, id⟩

theorem expiryHalting_steady (u : ArmUnit) (m : Arm) (node : Node) (p : Pos) : u.Steady (u.expiryHalting m node p) := by
  have hfeedback : u.Steady (({ u with substituted := false } : ArmUnit).stepFeedback m) :=
    .after (stepFeedback_steady _ m) ⟨rfl, id⟩
  exact ((hfeedback.trans (brake_steady _ node p)).trans (settleIfStill_steady _ m)).trans ⟨rfl, id⟩

theorem steady_settleTimer (u : ArmUnit) (n : Nat) : u.Steady { u with ctx := { u.ctx with settleTimer := n } } := ⟨rfl, id⟩

theorem expirySettling_steady (u : ArmUnit) (m : Arm) (node : Node) (p : Pos) : u.Steady (u.expirySettling m node p) := by
  have hfeedback : u.Steady (({ u with substituted := false } : ArmUnit).stepFeedback m) :=
    .after (stepFeedback_steady _ m) ⟨rfl, id⟩
  have htimed (n : Nat) := hfeedback.trans (steady_settleTimer _ n)
  exact .trans (steady_ite (fun _ => (htimed _).trans ((raise_steady _ m _ _).trans (cut_steady _ m _)))
    fun _ => (htimed _).trans (hold_steady _ node p)) ⟨rfl, id⟩

theorem quiet_steady (u : ArmUnit) : u.Steady u.quiet := ⟨rfl, id⟩

/-! ### Lock -/

theorem setLock_steady (u : ArmUnit) (side : Side) (locked : Bool) : u.Steady (u.setLock side locked) := by
  cases side <;> exact ⟨rfl, id⟩

theorem lockGained_steady (u : ArmUnit) (m : Arm) : u.Steady (u.lockGained m) :=
  steady_ite (fun _ => u.standbyFromSync_steady m) fun _ => .refl u

theorem controllerLost_steady (u : ArmUnit) (m : Arm) : u.Steady (u.controllerLost m) := by
  have hraised : u.Steady (u.raiseLinkLoss m .ctrl) := ⟨rfl, id⟩
  simp only [controllerLost]
  cases u.state with
  | sync => exact .refl u
  | standby => exact hraised.trans (toSync_steady _ m)
  | run => exact hraised.trans (hardFault_steady _ m _)
  | halting => exact hraised.trans (foundInStop_steady _ _)
  | settling => exact hraised.trans (foundInStop_steady _ _)
  | held => exact hraised.trans (cut_steady _ m _)
  | cut => exact hraised.trans (record_steady _ _)

theorem driveLost_steady (u : ArmUnit) (m : Arm) : u.Steady (u.driveLost m) := by
  have hraised : u.Steady (u.raiseLinkLoss m .drive) := ⟨rfl, id⟩
  have hcut : u.Steady ((u.raiseLinkLoss m .drive).cut m (u.linkLoss .drive)) := hraised.trans (cut_steady _ m _)
  simp only [driveLost]
  cases u.state with
  | sync => exact .refl u
  | standby => exact steady_ite (fun _ => hraised.trans (toSync_steady _ m)) fun _ => hcut
  | run => exact hcut
  | halting => exact hcut
  | settling => exact hcut
  | held => exact steady_ite (fun _ => hraised.trans (record_steady _ _)) fun _ => hcut
  | cut => exact hraised.trans (record_steady _ _)

/-! ### Setpoints -/

theorem hardOutcome_steady (u : ArmUnit) (m : Arm) (node : Node) (p : Pos) (seq : SeqNo) (f : Found) (tick : Tick) :
    u.Steady (u.hardOutcome m node p seq f tick) := by
  have hbraked : u.Steady { (u.raiseFound m seq f).brake node p with substituted := true } := ⟨rfl, id⟩
  simp only [hardOutcome]
  split
  · exact hbraked.trans ((hardFault_steady _ m _).trans (settleIfStill_steady _ m))
  · exact hbraked

theorem forwardOutcome_steady (u : ArmUnit) (m : Arm) (frm : SetpointFrame) (step : Tri Int) (f : Found) :
    u.Steady (u.forwardOutcome m frm step f) := ⟨rfl, id⟩

theorem softOutcome_steady (u : ArmUnit) (m : Arm) (node : Node) (p : Pos) (seq : SeqNo) (f : Found) (tick : Tick) :
    u.Steady (u.softOutcome m node p seq f tick) := by
  have hbraked : u.Steady { (u.raiseFound m seq f).brake node p with
      substituted := true, ctx := { u.ctx with softSeen := true, soft := u.ctx.soft + 1, miss := 0 } } := ⟨rfl, id⟩
  refine steady_ite (fun _ => ?_) fun _ => hbraked
  exact hbraked.trans ((raise_steady _ m _ _).trans ((hardFault_steady _ m _).trans (settleIfStill_steady _ m)))

end ArmUnit

/-! ### The envelope stack (R129, R130) -/

def Margin.Good (m : Margin) : Prop := m.lateral ≤ 63 ∧ m.below ≤ 63

theorem Margin.merge_good {top pushed : Margin} (ht : top.Good) (hp : pushed.Good) : (top.merge pushed).Good :=
  ⟨max_le ht.1 hp.1, max_le ht.2 hp.2⟩

/-- An operation of good margins leaves a good stack good: it grows below 8 entries alone. -/
theorem applyEnvOp_good {masked : Bool} {op : EnvOp} {stack : List Margin} (hop : ∀ m, op = .push m → m.Good)
    (hs : stackGood stack) : stackGood (applyEnvOp masked op stack).1 := by
  obtain ⟨hlen, hmargins⟩ := hs
  match op, stack with
  | .none, _ => exact ⟨hlen, hmargins⟩
  | .pop, [] => exact ⟨hlen, hmargins⟩
  | .pop, top :: rest =>
    exact ⟨(Nat.le_succ _).trans hlen, fun x hx => hmargins x (List.mem_cons_of_mem _ hx)⟩
  | .push m, [] => exact ⟨Nat.one_le_ofNat, by simpa [applyEnvOp, Margin.Good] using hop m rfl⟩
  | .push m, top :: rest =>
    have hgood : ∀ x ∈ m :: top :: rest, x.Good := List.forall_mem_cons.mpr ⟨hop m rfl, hmargins⟩
    by_cases hroom : (top :: rest).length < 8
    · rw [show applyEnvOp masked (.push m) (top :: rest) = (m :: top :: rest, none) from if_pos hroom]
      exact ⟨hroom, hgood⟩
    · rw [show applyEnvOp masked (.push m) (top :: rest)
        = (if masked then top.merge m :: rest else top :: rest, some .overflow) from if_neg hroom]
      cases masked with
      | false => exact ⟨hlen, hmargins⟩
      | true =>
        exact ⟨hlen, List.forall_mem_cons.mpr ⟨Margin.merge_good (hmargins top (by simp)) (hop m rfl),
          fun x hx => hmargins x (List.mem_cons_of_mem _ hx)⟩⟩

theorem SetpointFrame.envOp_good {f : SetpointFrame} {op : EnvOp} (h : f.envOp = some op) (m : Margin) (hm : op = .push m) :
    m.Good := by
  subst hm
  simp only [SetpointFrame.envOp] at h
  split at h
  · cases h
  · split at h
    · split at h
      · cases h
        assumption
      · cases h
    · split at h <;> cases h

theorem stage2_good {masked : Bool} {f : SetpointFrame} {stack : List Margin} (hs : stackGood stack) :
    stackGood (stage2 masked f stack).1 := by
  simp only [stage2]
  split
  · exact applyEnvOp_good (SetpointFrame.envOp_good ‹_›) hs
  · exact hs

namespace ArmUnit

theorem setStack_steady {u : ArmUnit} {stack : List Margin} (h : stackGood u.ctx.stack → stackGood stack) :
    u.Steady (u.setStack stack) := ⟨rfl, h⟩

theorem checkSetpoint_steady (u : ArmUnit) (m : Arm) (node : Node) (p : Pos) (frm : SetpointFrame) :
    u.Steady (u.checkSetpoint m node p frm) := by
  have hstack : u.Steady (u.setStack (stage2 u.ctx.mask.stack frm u.ctx.stack).1) := setStack_steady stage2_good
  exact steady_ite (fun _ => hstack.trans (.after (hardOutcome_steady _ m node p _ _ _) ⟨rfl, id⟩))
    fun _ => hstack.trans ⟨rfl, id⟩

/-! ### The requests of an arm unit -/

theorem deliverCarried_steady (u : ArmUnit) (m : Arm) (f : FaultRec) : u.Steady (u.deliverCarried m f) :=
  .after (enter_steady _ m _) ⟨rfl, id⟩

theorem enable_steady (u : ArmUnit) (m : Arm) (r : Request) : u.Steady (u.enable m r).1 := by
  simp only [enable]
  split
  · exact .refl u
  · exact u.deliverCarried_steady m _
  · exact ⟨rfl, id⟩
  · exact .refl u

theorem enterRun_steady (u : ArmUnit) (m : Arm) (geom : Geometry) : u.Steady (u.enterRun m geom) :=
  .after (enter_steady _ m _) ⟨rfl, id⟩

theorem haltRequest_steady (u : ArmUnit) (m : Arm) (r : Request) : u.Steady (u.haltRequest m r).1 := by
  simp only [haltRequest]
  cases u.state with
  | run => exact u.halt_steady m _
  | _ => exact .refl u

theorem cutRequest_steady (u : ArmUnit) (m : Arm) (r : Request) : u.Steady (u.cutRequest m r).1 := by
  simp only [cutRequest]
  cases u.state with
  | sync | cut => exact .refl u
  | _ => exact u.cut_steady m _

theorem cutSecond_steady (u : ArmUnit) (m : Arm) (r : Request) : u.Steady (u.cutSecond m r).1 := by
  rw [cutSecond]
  split
  · exact u.cut_steady m _
  · exact u.cutRequest_steady m r

theorem clearRequest_steady (u : ArmUnit) (m : Arm) (r : Request) : u.Steady (u.clearRequest m r).1 := by
  simp only [clearRequest]
  cases u.state with
  | held =>
    exact steady_ite (fun _ => .after (enter_steady _ m _) ⟨rfl, id⟩) fun _ => .after (toSync_steady _ m) ⟨rfl, id⟩
  | standby => exact ⟨rfl, id⟩
  | _ => exact .refl u

theorem stackGood_nil : stackGood [] := ⟨Nat.zero_le 8, by simp⟩

theorem reset_steady (u : ArmUnit) (m : Arm) : u.Steady (u.reset m) := by
  refine .trans ?_ (send_steady _ _)
  have hempty : u.Steady { u with
      ctx := ArmContext.powerOn, expected := none, sto := true, stopCause := none, arrivals := u.arrivals.map ArmEvent.asFirst } :=
    .of_marked asFirst_isTick rfl rfl fun _ => stackGood_nil
  refine steady_ite (fun _ => steady_ite (fun _ => ?_) fun _ => ?_) fun _ => hempty.trans (enter_steady _ m _)
  · exact hempty.trans (standbyFromSync_steady _ m)
  · exact hempty.trans ((sendRestIfKnown_steady _).trans (enter_steady _ m _))

theorem resetRequest_steady (u : ArmUnit) (m : Arm) (r : Request) : u.Steady (u.resetRequest m r).1 := by
  simp only [resetRequest]
  cases u.state with
  | run | halting | settling => exact .refl u
  | _ => exact u.reset_steady m

theorem maskRequest_steady (u : ArmUnit) (r : Request) : u.Steady (u.maskRequest r).1 := by
  simp only [maskRequest]
  split
  · exact .refl u
  · split
    · exact .refl u
    · exact ⟨rfl, id⟩

theorem restForEnvelope_steady (u : ArmUnit) : u.Steady u.restForEnvelope :=
  steady_ite (fun _ => .refl u) fun _ => u.sendRestIfKnown_steady

theorem envelopeFailed_steady (u : ArmUnit) (m : Arm) (f : Found) (tick : Tick) : u.Steady (u.envelopeFailed m f tick) := by
  simp only [envelopeFailed]
  split
  · exact (u.raiseFound_steady m _ f).trans (hardFault_steady _ m _)
  · exact u.raiseFound_steady m _ f

end ArmUnit

/-! ### CONTEXT_LOAD (R141, R142) -/

theorem examined_bind_ok {α β : Type} {x : Examined α} {f : α → Examined β} {b : β} (h : (x >>= f) = .ok b) :
    ∃ a, x = .ok a ∧ f a = .ok b := by
  cases x with
  | error e => cases h
  | ok a => exact ⟨a, rfl, h⟩

theorem examineIf_ok {field : ContextField} {good : Bool} {a : Unit} (h : examineIf field good = .ok a) : good = true := by
  cases good with
  | false => cases h
  | true => rfl

/-- The stack of a context record that is accepted is good (R141). -/
theorem readContext_stack_good {os : List Octet} {c : LoadedContext} (h : readContext os = .ok c) : stackGood c.stack := by
  obtain ⟨_, hdepth, h⟩ := examined_bind_ok h
  obtain ⟨_, hentries, h⟩ := examined_bind_ok h
  obtain ⟨softSeen, -, h⟩ := examined_bind_ok h
  have hstack : c.stack = readStack os (octetAt os 2) := by
    simp only at h
    split at h <;>
    · obtain ⟨fault, -, h⟩ := examined_bind_ok h
      cases h
      rfl
  rw [hstack]
  constructor
  · simpa [readStack] using examineIf_ok hdepth
  · simpa only [List.all_eq_true, Bool.and_eq_true, decide_eq_true_eq] using examineIf_ok hentries

namespace ArmUnit

theorem load_steady {u : ArmUnit} {c : LoadedContext} (hc : stackGood c.stack) : u.Steady (u.load c) := by
  have hloaded : u.Steady { u with
      ctx := { u.ctx with mask := c.mask, stack := c.stack, softSeen := c.softSeen, carried := c.fault } } := ⟨rfl, fun _ => hc⟩
  exact steady_ite (fun _ => hloaded) fun _ => hloaded.trans (restForEnvelope_steady _)

theorem loadRequest_steady (u : ArmUnit) (r : Request) : u.Steady (u.loadRequest r).1 := by
  rw [loadRequest]
  split
  · exact .refl u
  · split
    · exact load_steady (readContext_stack_good ‹_›)
    · exact .refl u

/-! ### FEEDBACK (R61 to R65, R83, R85) -/

theorem noteActual_steady (u : ArmUnit) (p : Pos) : u.Steady (u.noteActual p) := by
  simp only [noteActual]
  cases u.state <;> exact ⟨rfl, id⟩

theorem noteEcho_steady (u : ArmUnit) (m : Arm) (f : FeedbackFrame) : u.Steady (u.noteEcho m f) :=
  steady_ite (fun _ => ⟨rfl, id⟩) fun _ => u.raise_steady m _ _

theorem checkTracking_steady (u : ArmUnit) (m : Arm) (f : FeedbackFrame) (p : Pos) : u.Steady (u.checkTracking m f p) := by
  simp only [checkTracking]
  split
  · exact steady_ite (fun _ => u.raise_steady m _ _) fun _ => (u.raise_steady m _ _).trans (hardFault_steady _ m _)
  · exact .refl u

theorem checkStatus_steady (u : ArmUnit) (m : Arm) (f : FeedbackFrame) (second : Bool) : u.Steady (u.checkStatus m f second) :=
  steady_ite (fun _ => (u.raise_steady m _ _).trans (cut_steady _ m _)) fun _ => .refl u

theorem endSettling_steady (u : ArmUnit) (m : Arm) : u.Steady (u.endSettling m) := by
  have hrest := u.sendRestIfKnown_steady
  refine steady_ite (fun _ => steady_ite (fun _ => ?_) fun _ => ?_) fun _ => steady_ite (fun _ => ?_) fun _ => ?_
  · exact hrest.trans (.after (enter_steady _ m _) ⟨rfl, id⟩)
  · exact hrest.trans (cutNow_steady _ m)
  · exact hrest.trans (.after (enter_steady _ m _) ⟨rfl, id⟩)
  · exact hrest.trans (toSync_steady _ m)

theorem countSettling_steady (u : ArmUnit) (m : Arm) (f : FeedbackFrame) (p : Pos) : u.Steady (u.countSettling m f p) :=
  steady_ite (fun _ => ⟨rfl, id⟩) fun _ => steady_ite (fun _ => .after (endSettling_steady _ m) ⟨rfl, id⟩) fun _ => ⟨rfl, id⟩

theorem checkFeedback_steady (u : ArmUnit) (m : Arm) (f : FeedbackFrame) (second : Bool) (p : Pos) :
    u.Steady (u.checkFeedback m f second p) := by
  have hnoted : u.Steady ((u.noteActual f.actual).noteEcho m f) := (u.noteActual_steady _).trans (noteEcho_steady _ m f)
  have htracked : u.Steady (if u.state = .run ∧ u.matchesEcho f then ((u.noteActual f.actual).noteEcho m f).checkTracking m f p
      else (u.noteActual f.actual).noteEcho m f) :=
    steady_ite (fun _ => hnoted.trans (checkTracking_steady _ m f p)) fun _ => hnoted
  have hstatus := htracked.trans (checkStatus_steady _ m f second)
  exact steady_ite (fun _ => hstatus.trans (countSettling_steady _ m f p)) fun _ => hstatus

end ArmUnit

end Sys2Proof.Machine
end

