-- ==== Sys2Proof/Proofs/QueueMoves.lean ====
section
/-! PROOFS. What every operation of the workspace unit keeps of the cell table, the claim queue, the quota and the outcome
counts. -/

namespace Sys2Proof.Machine

/-! ### The cell table (R92, R93) -/

theorem mem_mapCells {f : Nat → CellRec → CellRec} {i : Nat} {cells : List CellRec} {d : CellRec} (h : d ∈ mapCells f i cells) :
    ∃ j, ∃ c ∈ cells, d = f j c := by
  obtain ⟨k, hk⟩ := List.mem_iff_getElem?.mp h
  rw [mapCells_getElem?] at hk
  obtain ⟨c, hc, rfl⟩ := Option.map_eq_some_iff.mp hk
  exact ⟨i + k, c, List.mem_of_getElem? hc, rfl⟩

/-- What the law of the cell table asks of a queued claim. -/
def QueueEntry.Good (active : Option Bank) (g : BinGeom) (e : QueueEntry) : Prop :=
  presentIn active e.arm = true ∧ e.run.inRange g = true ∧ 1 ≤ e.lease ∧ e.lease ≤ 255

theorem Workspace.tableGood_some {w : Workspace} {g : BinGeom} {cells : List CellRec} (hb : w.bin = some g)
    (hc : w.cells = some cells) : w.tableGood ↔ cells.length = g.bays * g.cells ∧ (g.bays = 0 ∨ w.scan < g.bays)
      ∧ (∀ c ∈ cells, presentOwner w.active c) ∧ ∀ e ∈ w.queue, e.Good w.active g := by
  simp only [Workspace.tableGood, hb, hc]
  exact Iff.rfl

theorem Workspace.tableGood_none {w : Workspace} (hb : w.bin = none) (hc : w.cells = none) :
    w.tableGood ↔ w.queue = [] ∧ w.scan = 0 := by
  simp [Workspace.tableGood, hb, hc]

/-- A cell table stands exactly when there is a bin. -/
theorem Workspace.tableGood_cases {w : Workspace} (h : w.tableGood) :
    (∃ g cells, w.bin = some g ∧ w.cells = some cells) ∨ (w.bin = none ∧ w.cells = none) := by
  cases hb : w.bin with
  | none =>
    cases hc : w.cells with
    | none => exact .inr ⟨rfl, rfl⟩
    | some cells => simp [Workspace.tableGood, hb, hc] at h
  | some g =>
    cases hc : w.cells with
    | none => simp [Workspace.tableGood, hb, hc] at h
    | some cells => exact .inl ⟨g, cells, rfl, rfl⟩

theorem Workspace.bin_of_active {w v : Workspace} (h : v.active = w.active) : v.bin = w.bin := by
  rw [Workspace.bin, Workspace.bin, h]

/-- Cells changed one by one, each to one of a present owner, and claims that leave the queue, keep the law of the table. -/
theorem Workspace.tableGood_of_map {w v : Workspace} {f : Nat → CellRec → CellRec} (h : w.tableGood) (hactive : v.active = w.active)
    (hscan : v.scan = w.scan) (hqueue : v.queue ⊆ w.queue) (hcells : v.cells = w.cells.map (mapCells f 0))
    (hf : ∀ i c, presentOwner w.active c → presentOwner w.active (f i c)) : v.tableGood := by
  have hbin := Workspace.bin_of_active hactive
  rcases Workspace.tableGood_cases h with ⟨g, cells, hb, hc⟩ | ⟨hb, hc⟩
  · rw [Workspace.tableGood_some hb hc] at h
    obtain ⟨hlen, hin, howners, hclaims⟩ := h
    rw [Workspace.tableGood_some (hbin.trans hb) (by rw [hcells, hc]; rfl), mapCells_length, hscan, hactive]
    refine ⟨hlen, hin, fun d hd => ?_, fun e he => hclaims e (hqueue he)⟩
    obtain ⟨j, c, hmem, rfl⟩ := mem_mapCells hd
    exact hf j c (howners c hmem)
  · rw [Workspace.tableGood_none hb hc] at h
    obtain ⟨hempty, hzero⟩ := h
    rw [Workspace.tableGood_none (hbin.trans hb) (by rw [hcells, hc]; rfl), hscan]
    exact ⟨List.subset_nil.mp (hempty ▸ hqueue), hzero⟩

theorem mapCells_id (i : Nat) (cells : List CellRec) : mapCells (fun _ c => c) i cells = cells := by
  induction cells generalizing i with
  | nil => rfl
  | cons c rest ih => rw [mapCells, ih]

/-- Claims that leave the queue keep the law of the table. -/
theorem Workspace.tableGood_of_queue {w v : Workspace} (h : w.tableGood) (hactive : v.active = w.active) (hscan : v.scan = w.scan)
    (hqueue : v.queue ⊆ w.queue) (hcells : v.cells = w.cells) : v.tableGood :=
  Workspace.tableGood_of_map (f := fun _ c => c) h hactive hscan hqueue (by rw [hcells, funext (mapCells_id 0)]; simp)
    fun _ _ hc => hc

theorem presentOwner_renew {active : Option Bank} {c : CellRec} (now : Tick) (h : presentOwner active c) :
    presentOwner active (c.renew now) := by
  cases c <;> exact h

/-! ### Outcomes (R114) -/

theorem sentOutcomes_append (l l' : List ToPort) : sentOutcomes (l ++ l') = sentOutcomes l + sentOutcomes l' := by
  induction l with
  | nil => simp [sentOutcomes]
  | cons x l ih =>
    cases x with
    | outcome o => rw [List.cons_append, sentOutcomes, sentOutcomes, ih, Nat.add_right_comm]
    | discard => exact ih

theorem sentOutcomes_map {α : Type} (f : α → ClaimOutcome) (l : List α) : sentOutcomes (l.map fun x => .outcome (f x)) = l.length := by
  induction l with
  | nil => rfl
  | cons x l ih => rw [List.map_cons, sentOutcomes, ih, List.length_cons]

theorem reportedOutcomes_append (l l' : List PortReport) :
    reportedOutcomes (l ++ l') = reportedOutcomes l + reportedOutcomes l' := by
  induction l with
  | nil => simp [reportedOutcomes]
  | cons x l ih => cases x <;> simp only [List.cons_append, reportedOutcomes, ih] <;> omega

/-- Every claim stays in the queue or leaves it. -/
theorem queuedOf_split (m : Arm) (p : QueueEntry → Bool) (q : List QueueEntry) :
    queuedOf m (q.filter fun e => !p e) + (claimsOf m (q.filter p)).length = queuedOf m q := by
  induction q with
  | nil => rfl
  | cons e q ih =>
    simp only [queuedOf, claimsOf] at ih ⊢
    cases hp : p e <;> cases hm : e.arm == m <;> simp only [List.filter_cons, hp, hm, Bool.not_false, Bool.not_true, if_true,
      Bool.false_eq_true, if_false, List.length_cons] <;> omega

/-! ### Claims leave the queue for outcomes -/

/-- The lease ticks delivered to the workspace unit: those it has counted and those that wait (R94). -/
def Workspace.tickCount (w : Workspace) : Tick := w.tick + BitVec.ofNat 32 w.ticksDue

/-- An operation on the workspace unit that adds no claim, uses no more of a quota, counts every outcome it hands over, and
keeps the law of the cell table and the tick count. -/
structure Workspace.Moves (w v : Workspace) : Prop where
  queue : v.queue.Sublist w.queue
  quota : ∀ m, v.quotaUse m ≤ w.quotaUse m
  counts : ∀ m, v.outcomeCount.get m + sentOutcomes (w.toPort.get m) = w.outcomeCount.get m + sentOutcomes (v.toPort.get m)
  table : w.tableGood → v.tableGood
  ticks : v.tickCount = w.tickCount

namespace Workspace

theorem Moves.refl (w : Workspace) : w.Moves w := ⟨List.Sublist.refl _, fun _ => le_rfl, fun _ => rfl, id, rfl⟩

theorem Moves.trans {u v w : Workspace} (h : u.Moves v) (h' : v.Moves w) : u.Moves w where
  queue := h'.queue.trans h.queue
  quota m := (h'.quota m).trans (h.quota m)
  counts m := by
    have hu := h.counts m
    have hv := h'.counts m
    omega
  table := h'.table ∘ h.table
  ticks := h'.ticks.trans h.ticks

/-- An operation that touches neither the queue nor the outcomes. -/
theorem Moves.of_table {w v : Workspace} (hqueue : v.queue = w.queue) (hcount : v.outcomeCount = w.outcomeCount)
    (hport : v.toPort = w.toPort) (htable : w.tableGood → v.tableGood) (hticks : v.tickCount = w.tickCount) : w.Moves v where
  queue := by rw [hqueue]
  quota m := by rw [quotaUse, quotaUse, hqueue, hcount]
  counts m := by rw [hcount, hport]
  table := htable
  ticks := hticks

theorem moves_setRecord (w : Workspace) (m : Arm) (r : BoxRecord) : w.Moves (w.setRecord m r) :=
  .of_table rfl rfl rfl id rfl

theorem moves_renewCovered (w : Workspace) (m : Arm) (box : Box) : w.Moves (w.renewCovered m box) := by
  rw [renewCovered]
  split
  · refine .of_table rfl rfl rfl (fun h => tableGood_of_map h rfl rfl (List.Subset.refl _) rfl fun i c hc => ?_) rfl
    split
    · exact presentOwner_renew _ hc
    · exact hc
  · exact .refl w

theorem moves_place (w : Workspace) (m : Arm) (g : Geometry) (e : Envelope) (p p0 s : Tri Int) : w.Moves (w.place m g e p p0 s) :=
  (w.moves_setRecord m _).trans (moves_renewCovered _ m _)

theorem moves_checked (w : Workspace) (bank : Bank) (m : Arm) (pl : Placement) : w.Moves (w.checked bank m pl).1 := by
  simp only [checked]
  split
  · exact .refl w
  · exact .refl w
  all_goals
    split
    · exact w.moves_place m _ _ _ _ _
    · exact .refl w

/-! ### Re-evaluation (R118) -/

theorem handOutcome_tableGood {w : Workspace} (m : Arm) (o : ClaimOutcome) (h : w.tableGood) : (w.handOutcome m o).tableGood :=
  tableGood_of_queue h rfl rfl (List.Subset.refl _) rfl

/-- One claim of the walk is granted: it leaves the queue, its cells are HELD, and its outcome is handed over. -/
theorem moves_grant (w : Workspace) (g : BinGeom) (kept rest : List QueueEntry) (e : QueueEntry) :
    ({ w with queue := kept ++ e :: rest } : Workspace).Moves { ({ w with
      cells := w.cells.map (grantCells g e.arm e.run e.lease w.tick) } : Workspace).handOutcome e.arm (e.outcome .granted) with
        queue := kept ++ rest } where
  queue := List.Sublist.append_left (List.sublist_cons_self e rest) kept
  quota m := by
    simp only [quotaUse, handOutcome, queuedOf, List.filter_append, List.filter_cons, List.length_append, PerArm.get_set]
    by_cases hm : m = e.arm
    · subst hm
      simp only [beq_self_eq_true, if_true, List.length_cons]
      omega
    · simp [hm, Ne.symm hm]
  counts m := by
    simp only [handOutcome, PerArm.get_set]
    by_cases hm : m = e.arm
    · subst hm
      simp only [if_true, sentOutcomes_append, sentOutcomes]
      omega
    · simp [hm]
  table h := by
    refine tableGood_of_map (f := fun i c => if (e.run.indexes g).contains i then .held e.arm e.lease (after w.tick e.lease) else c)
      h rfl rfl (List.Sublist.append_left (List.sublist_cons_self e rest) kept).subset rfl fun i c hc => ?_
    split
    · have hmem : e ∈ kept ++ e :: rest := by simp
      rcases tableGood_cases h with ⟨g', cells, hb, hcells⟩ | ⟨hb, hcells⟩
      · obtain ⟨-, -, -, hclaims⟩ := (tableGood_some hb hcells).mp h
        obtain ⟨hpresent, -, hleast, hmost⟩ := hclaims e hmem
        exact ⟨hpresent, hleast, hmost⟩
      · obtain ⟨hempty, -⟩ := (tableGood_none hb hcells).mp h
        exact absurd hempty (List.ne_nil_of_mem hmem)
    · exact hc
  ticks := rfl

/-- The walk moves claims of the queue it stands for: those passed over and those still ahead. -/
theorem moves_walk (g : BinGeom) (kept : List QueueEntry) (w : Workspace) (q : List QueueEntry) :
    ({ w with queue := kept ++ q } : Workspace).Moves (walk g kept w q) := by
  induction q generalizing kept w with
  | nil =>
    rw [walk, List.append_nil]
    exact .refl _
  | cons e rest ih =>
    rw [walk]
    split
    · exact (w.moves_grant g kept rest e).trans (ih kept _)
    · have h := ih (kept ++ [e]) w
      rwa [List.append_assoc, List.singleton_append] at h

theorem moves_reevaluate (w : Workspace) : w.Moves w.reevaluate := by
  rw [reevaluate]
  split
  · exact moves_walk _ [] w w.queue
  · exact .refl w

/-! ### Claims that leave the queue with a result -/

/-- Claims marked by a test leave the queue, each with an outcome. -/
theorem Moves.of_leave {w v : Workspace} (p : QueueEntry → Bool) (r : ClaimResult)
    (hqueue : v.queue = w.queue.filter fun e => !p e) (hcount : v.outcomeCount = w.outcomeCount) (hport : v.toPort = w.toPort)
    (htable : w.tableGood → v.tableGood) (hticks : v.tickCount = w.tickCount) : w.Moves (v.handAll r (w.queue.filter p)) := by
  rw [handAll_eq]
  refine ⟨?_, fun m => ?_, fun m => ?_, fun h => ?_, hticks⟩
  · simp only [hqueue]
    exact List.filter_sublist
  · have hsplit := queuedOf_split m p w.queue
    simp only [quotaUse, hqueue, hcount]
    cases m <;> simp only [PerArm.get] at hsplit ⊢ <;> omega
  · simp only [hcount, hport]
    cases m <;> simp only [PerArm.get, sentOutcomes_append, sentOutcomes_map] <;> omega
  · exact tableGood_of_queue (htable h) rfl rfl (List.Subset.refl _) rfl

theorem moves_expireWaits (w : Workspace) : w.Moves w.expireWaits := by
  refine .of_leave (v := { w with queue := w.queue.filter fun e => !reached w.tick e.deadline })
    (fun e => reached w.tick e.deadline) .waitExpired rfl rfl rfl (fun h => ?_) rfl
  exact tableGood_of_queue h rfl rfl List.filter_sublist.subset rfl

/-- Claims that leave the queue without an outcome. -/
theorem moves_filter (w : Workspace) (p : QueueEntry → Bool) : w.Moves { w with queue := w.queue.filter p } where
  queue := List.filter_sublist
  quota _ := Nat.add_le_add_right (List.filter_sublist.filter _).length_le _
  counts _ := rfl
  table h := tableGood_of_queue h rfl rfl List.filter_sublist.subset rfl
  ticks := rfl

theorem moves_sendDiscard (w : Workspace) (m : Arm) :
    w.Moves { w with toPort := w.toPort.set m (w.toPort.get m ++ [.discard]) } where
  queue := List.Sublist.refl _
  quota _ := le_rfl
  counts n := by
    simp only [PerArm.get_set]
    split
    · next h => rw [h, sentOutcomes_append]; rfl
    · rfl
  table h := tableGood_of_queue h rfl rfl (List.Subset.refl _) rfl
  ticks := rfl

theorem moves_removeClaims (w : Workspace) (m : Arm) : w.Moves (w.removeClaims m) :=
  ((w.moves_filter fun e => !(e.arm == m)).trans (moves_sendDiscard _ m)).trans (moves_reevaluate _)

/-! ### The lease tick (R106 to R108) -/

theorem moves_scanVisit (w : Workspace) (g : BinGeom) : w.Moves (w.scanVisit g) := by
  refine .of_table rfl rfl rfl (fun h => tableGood_of_map h rfl rfl (List.Subset.refl _) rfl fun i c hc => ?_) rfl
  split
  · cases c with
    | free => exact hc
    | held owner lease deadline =>
      simp only [visitCell]
      split
      · exact hc
      · split
        · exact trivial
        · exact hc
  · exact hc

theorem moves_riseTick {w : Workspace} (h : w.ticksDue ≠ 0) : w.Moves w.riseTick := by
  refine .of_table rfl rfl rfl (fun ht => tableGood_of_queue ht rfl rfl (List.Subset.refl _) rfl) ?_
  obtain ⟨n, hn⟩ := Nat.exists_eq_succ_of_ne_zero h
  simp only [tickCount, riseTick, hn, Nat.succ_eq_add_one, Nat.add_sub_cancel]
  rw [Nat.add_comm n 1, BitVec.ofNat_add, BitVec.add_assoc]
  rfl

theorem moves_advanceScan {w : Workspace} {g : BinGeom} (hb : w.bin = some g) : w.Moves (w.advanceScan g) := by
  refine .of_table rfl rfl rfl (fun h => ?_) rfl
  rcases tableGood_cases h with ⟨g', cells, hb', hc⟩ | ⟨hb', -⟩
  · obtain rfl : g' = g := Option.some.inj (hb'.symm.trans hb)
    obtain ⟨hlen, hscan, hrest⟩ := (tableGood_some hb hc).mp h
    refine (tableGood_some (w := w.advanceScan g') hb hc).mpr ⟨hlen, ?_, hrest⟩
    simp only [advanceScan]
    split <;> omega
  · rw [hb] at hb'
    cases hb'

@[simp] theorem walk_active (g : BinGeom) (kept : List QueueEntry) (w : Workspace) (q : List QueueEntry) :
    (walk g kept w q).active = w.active := by
  induction q generalizing kept w with
  | nil => rfl
  | cons e q ih =>
    rw [walk]
    split <;> rw [ih]
    rfl

@[simp] theorem reevaluate_active (w : Workspace) : w.reevaluate.active = w.active := by
  rw [reevaluate]
  split
  · exact walk_active _ _ _ _
  · rfl

@[simp] theorem handAll_active (w : Workspace) (r : ClaimResult) (es : List QueueEntry) : (w.handAll r es).active = w.active := by
  rw [handAll_eq]

theorem moves_leaseTick {w : Workspace} (h : w.ticksDue ≠ 0) : w.Moves w.leaseTick := by
  have hrise : w.Moves w.riseTick := moves_riseTick h
  rw [leaseTick]
  split
  · next g hcells hb =>
    have hexpired : w.Moves (w.riseTick.scanVisit g).reevaluate.expireWaits :=
      ((hrise.trans (moves_scanVisit _ g)).trans (moves_reevaluate _)).trans (moves_expireWaits _)
    refine hexpired.trans (moves_advanceScan ?_)
    rw [← hb]
    exact bin_of_active (by rw [expireWaits, handAll_active]; exact reevaluate_active _)
  · exact hrise

/-! ### The requests of a run (R102, R103, R122) -/

theorem moves_withRun {w : Workspace} {h : ReqHead} {r : Run} {k : BinGeom → Workspace × Answer}
    (hk : ∀ g cells, w.bin = some g → w.cells = some cells → w.Moves (k g).1) : w.Moves (w.withRun h r k).1 := by
  rw [withRun]
  split
  · next cells g hcells hb =>
    split
    · exact hk g cells hb hcells
    · exact .refl w
  · exact .refl w

theorem moves_mapCells {w : Workspace} {cells : List CellRec} (hcells : w.cells = some cells) (f : Nat → CellRec → CellRec)
    (hf : ∀ i c, presentOwner w.active c → presentOwner w.active (f i c)) :
    w.Moves { w with cells := some (mapCells f 0 w.cellList) } := by
  refine .of_table rfl rfl rfl (fun h => ?_) rfl
  exact tableGood_of_map h rfl rfl (List.Subset.refl _) (by simp [cellList, hcells]) hf

theorem moves_renew (w : Workspace) (m : Arm) (h : ReqHead) (r : Run) {lease : Nat} (hl : lease ≤ 255) :
    w.Moves (w.renew m h r lease).1 := by
  refine moves_withRun fun g cells hb hcells => ?_
  split
  · exact .refl w
  · refine moves_mapCells hcells _ fun i c hc => ?_
    split
    · cases c with
      | free => exact hc
      | held owner old deadline =>
        obtain ⟨hpresent, hleast, hmost⟩ := hc
        simp only [CellRec.renewWith]
        split
        · exact ⟨hpresent, hleast, hmost⟩
        · exact ⟨hpresent, by omega, hl⟩
    · exact hc

theorem moves_release (w : Workspace) (m : Arm) (h : ReqHead) (r : Run) : w.Moves (w.release m h r).1 := by
  refine moves_withRun fun g cells hb hcells => ?_
  split
  · exact .refl w
  · exact .refl w
  · refine (moves_mapCells hcells _ fun i c hc => ?_).trans (moves_reevaluate _)
    split
    · exact trivial
    · exact hc

theorem moves_cancel (w : Workspace) (m : Arm) (h : ReqHead) (tag : Octet) : w.Moves (w.cancel m h tag).1 := by
  rw [cancel]
  split
  · exact .refl w
  · split
    · exact .refl w
    · exact (w.moves_filter _).trans (moves_reevaluate _)

/-! ### COMMIT (R150, R151) -/

/-- An arm that leaves the active bank with a commit that is not refused holds no cell (R150). -/
theorem heldBy_of_armActive {w : Workspace} {new : Bank} {m : Arm} (h : w.armActive new m = none)
    (hp : presentIn w.active m = true) (hn : new.present m = false) : ∀ c ∈ w.cellList, c.heldBy m = false := by
  have hnone : w.cellList.any (CellRec.heldBy m) = false := by
    cases hany : w.cellList.any (CellRec.heldBy m) with
    | false => rfl
    | true => simp [armActive, hp, hn, hany] at h
  simpa using hnone

theorem orElse_eq_none {α : Type} {x : Option α} {f : Unit → Option α} (h : x.orElse f = none) : x = none ∧ f () = none := by
  cases x with
  | none => exact ⟨rfl, h⟩
  | some a => cases h

theorem commitRefusal_none {w : Workspace} {new : Bank} (h : w.commitRefusal new = none) (m : Arm) : w.armActive new m = none := by
  obtain ⟨-, h⟩ := orElse_eq_none h
  obtain ⟨-, h⟩ := orElse_eq_none h
  obtain ⟨-, h⟩ := orElse_eq_none h
  obtain ⟨ha, hb⟩ := orElse_eq_none h
  cases m
  · exact ha
  · exact hb

/-- The owner of a cell stays present through a commit that keeps the geometry. -/
theorem presentOwner_of_commit {w : Workspace} {new : Bank} (h : w.commitRefusal new = none) {c : CellRec} (hc : c ∈ w.cellList)
    (hp : presentOwner w.active c) : presentOwner (some new) c := by
  cases c with
  | free => exact trivial
  | held owner lease deadline =>
    obtain ⟨hpresent, hleast, hmost⟩ := hp
    refine ⟨?_, hleast, hmost⟩
    cases hn : new.present owner with
    | true => exact hn
    | false => simpa [CellRec.heldBy] using heldBy_of_armActive (commitRefusal_none h owner) hpresent hn _ hc

/-- The workspace unit of a commit before its outcomes are handed over. -/
def committed (w : Workspace) (new : Bank) : Workspace :=
  { w with
    active := some new, records := ⟨w.newRecord new .armA, w.newRecord new .armB⟩, cells := w.newCells new, scan := w.newScan new,
    queue := w.queue.filter fun e => !(w.cancels new e) }

theorem commitDone_eq (w : Workspace) (new : Bank) :
    w.commitDone new = ((w.committed new).handAll .cancelled (w.queue.filter (w.cancels new))).reevaluate := rfl

theorem committed_bin (w : Workspace) (new : Bank) : (w.committed new).bin = new.bin := rfl

theorem committed_queue_of_changed {w : Workspace} {new : Bank} (h : new.bin ≠ w.bin) : (w.committed new).queue = [] := by
  simp [committed, cancels, geometryChanges, h]

theorem mem_committed_queue {w : Workspace} {new : Bank} {e : QueueEntry} (h : e ∈ (w.committed new).queue) :
    e ∈ w.queue ∧ new.present e.arm = true := by
  simp only [committed, List.mem_filter, cancels, Bool.not_or, Bool.not_not, Bool.and_eq_true] at h
  exact ⟨h.1, h.2.2⟩

theorem committed_tableGood {w : Workspace} {new : Bank} (hr : w.commitRefusal new = none) (h : w.tableGood) :
    (w.committed new).tableGood := by
  have hbin := w.committed_bin new
  cases hnew : new.bin with
  | none =>
    refine (tableGood_none (hbin.trans hnew) (by simp [committed, newCells, hnew])).mpr ⟨?_, by simp [committed, newScan, hnew]⟩
    by_cases hsame : w.bin = none
    · rcases tableGood_cases h with ⟨g, cells, hb, -⟩ | ⟨hb, hc⟩
      · rw [hsame] at hb
        cases hb
      · obtain ⟨hempty, -⟩ := (tableGood_none hb hc).mp h
        simp [committed, hempty]
    · exact committed_queue_of_changed (by rw [hnew]; exact Ne.symm hsame)
  | some g =>
    by_cases hsame : w.bin = some g
    · rcases tableGood_cases h with ⟨g', cells, hb, hc⟩ | ⟨hb, -⟩
      · obtain rfl : g' = g := Option.some.inj (hb.symm.trans hsame)
        obtain ⟨hlen, hscan, howners, hclaims⟩ := (tableGood_some hb hc).mp h
        refine (tableGood_some (hbin.trans hnew) (cells := cells) (by simp [committed, newCells, hnew, hsame, hc])).mpr
          ⟨hlen, by simpa [committed, newScan, hnew, hsame] using hscan, fun c hmem => ?_, fun e he => ?_⟩
        · exact presentOwner_of_commit hr (by simpa [cellList, hc] using hmem) (howners c hmem)
        · obtain ⟨hqueued, hpresent⟩ := mem_committed_queue he
          obtain ⟨-, hrest⟩ := hclaims e hqueued
          exact ⟨hpresent, hrest⟩
      · rw [hsame] at hb
        cases hb
    · refine (tableGood_some (hbin.trans hnew) (cells := List.replicate (g.bays * g.cells) .free)
        (by simp [committed, newCells, hnew, hsame])).mpr ⟨by simp, ?_, fun c hmem => ?_, ?_⟩
      · simp only [committed, newScan, hnew, hsame, if_false]
        omega
      · rw [List.eq_of_mem_replicate hmem]
        exact trivial
      · rw [committed_queue_of_changed (by rw [hnew]; exact Ne.symm hsame)]
        exact fun e he => absurd he List.not_mem_nil

theorem moves_commitDone {w : Workspace} {new : Bank} (hr : w.commitRefusal new = none) : w.Moves (w.commitDone new) := by
  rw [commitDone_eq]
  have hleft : w.Moves ((w.committed new).handAll .cancelled (w.queue.filter (w.cancels new))) :=
    .of_leave (w.cancels new) .cancelled rfl rfl rfl (committed_tableGood hr) rfl
  exact hleft.trans (moves_reevaluate _)

end Workspace

end Sys2Proof.Machine
end

