-- ==== Sys2Proof/Proofs/Notices.lean ====
section
/-! PROOFS. Which notice the report unit chooses (R182), and what keeps the form of the flags (R178, R179). -/

namespace Sys2Proof.Machine

/-! ### The choice -/

/-- The flag with kind number `k` is eligible, and its kind has priority `q`. -/
def Waits (flags : List Flag) (settings : List NoticeSetting) (k q : Nat) : Prop :=
  ∃ f n, flags[k]? = some f ∧ settings[k]? = some n ∧ f.eligible n = true ∧ n.priority = q

/-- The notice to choose: of the highest priority, and among those of the lowest kind number. -/
def IsChoice (flags : List Flag) (settings : List NoticeSetting) (k q : Nat) : Prop :=
  Waits flags settings k q ∧ ∀ k' q', Waits flags settings k' q' → q' < q ∨ (q' = q ∧ k ≤ k')

theorem waits_zero {f : Flag} {fs : List Flag} {n : NoticeSetting} {ns : List NoticeSetting} {q : Nat} :
    Waits (f :: fs) (n :: ns) 0 q ↔ f.eligible n = true ∧ n.priority = q := by
  simp [Waits]

theorem waits_succ {f : Flag} {fs : List Flag} {n : NoticeSetting} {ns : List NoticeSetting} {k q : Nat} :
    Waits (f :: fs) (n :: ns) (k + 1) q ↔ Waits fs ns k q := by
  simp [Waits]

theorem isChoice_unique {fs : List Flag} {ns : List NoticeSetting} {k q k' q' : Nat} (h : IsChoice fs ns k q)
    (h' : IsChoice fs ns k' q') : k = k' ∧ q = q' := by
  have hle := h.2 k' q' h'.1
  have hge := h'.2 k q h.1
  omega

/-- A later flag stays the choice where no earlier one is eligible, or the earlier one has a lower priority. -/
theorem isChoice_succ {f : Flag} {fs : List Flag} {n : NoticeSetting} {ns : List NoticeSetting} {k q : Nat}
    (h : IsChoice fs ns k q) (hf : f.eligible n = true → n.priority < q) : IsChoice (f :: fs) (n :: ns) (k + 1) q := by
  refine ⟨waits_succ.mpr h.1, fun k' q' hw => ?_⟩
  cases k' with
  | zero =>
    obtain ⟨heligible, rfl⟩ := waits_zero.mp hw
    exact .inl (hf heligible)
  | succ k' =>
    have := h.2 k' q' (waits_succ.mp hw)
    omega

/-- An eligible flag is the choice where no later one has a higher priority. -/
theorem isChoice_zero {f : Flag} {fs : List Flag} {n : NoticeSetting} {ns : List NoticeSetting} (hf : f.eligible n = true)
    (h : ∀ k' q', Waits fs ns k' q' → q' ≤ n.priority) : IsChoice (f :: fs) (n :: ns) 0 n.priority := by
  refine ⟨waits_zero.mpr ⟨hf, rfl⟩, fun k' q' hw => ?_⟩
  cases k' with
  | zero =>
    obtain ⟨-, rfl⟩ := waits_zero.mp hw
    exact .inr ⟨rfl, le_rfl⟩
  | succ k' =>
    have := h k' q' (waits_succ.mp hw)
    omega

/-- What the choice from kind number `i` on finds. -/
def ChoiceSpec (i : Nat) (fs : List Flag) (ns : List NoticeSetting) : Option (Nat × Nat) → Prop
  | none => ∀ k q, ¬Waits fs ns k q
  | some (c, q) => ∃ k, c = i + k ∧ IsChoice fs ns k q

theorem chooseFrom_spec (i : Nat) (fs : List Flag) (ns : List NoticeSetting) : ChoiceSpec i fs ns (chooseFrom i fs ns) := by
  induction fs generalizing i ns with
  | nil =>
    rintro k q ⟨f, n, hf, -⟩
    simp at hf
  | cons f fs ih =>
    cases ns with
    | nil =>
      rintro k q ⟨f, n, -, hn, -⟩
      simp at hn
    | cons n ns =>
      have hlater := ih (i + 1) ns
      simp only [chooseFrom]
      by_cases hf : f.eligible n = true
      · rw [if_pos hf]
        cases hc : chooseFrom (i + 1) fs ns with
        | none =>
          rw [hc] at hlater
          exact ⟨0, rfl, isChoice_zero hf fun k' q' hw => absurd hw (hlater k' q')⟩
        | some c =>
          obtain ⟨c, q⟩ := c
          rw [hc] at hlater
          obtain ⟨k, rfl, hk⟩ := hlater
          by_cases hp : n.priority < q
          · simp only [hp, if_true]
            exact ⟨k + 1, by omega, isChoice_succ hk fun _ => hp⟩
          · simp only [hp, if_false]
            refine ⟨0, rfl, isChoice_zero hf fun k' q' hw => ?_⟩
            have := hk.2 k' q' hw
            omega
      · rw [if_neg hf]
        cases hc : chooseFrom (i + 1) fs ns with
        | none =>
          rw [hc] at hlater
          intro k q hw
          cases k with
          | zero => exact hf (waits_zero.mp hw).1
          | succ k => exact hlater k q (waits_succ.mp hw)
        | some c =>
          obtain ⟨c, q⟩ := c
          rw [hc] at hlater
          obtain ⟨k, rfl, hk⟩ := hlater
          exact ⟨k + 1, by omega, isChoice_succ hk fun h => absurd h hf⟩

theorem ReportUnit.choose_eq_none (r : ReportUnit) (m : Arm) :
    r.choose m = none ↔ ∀ k q, ¬Waits (r.flagsOf m) r.settings k q := by
  have hspec := chooseFrom_spec 0 (r.flagsOf m) r.settings
  rw [ReportUnit.choose, Option.map_eq_none_iff]
  cases hc : chooseFrom 0 (r.flagsOf m) r.settings with
  | none =>
    rw [hc] at hspec
    exact iff_of_true rfl hspec
  | some c =>
    obtain ⟨c, q⟩ := c
    rw [hc] at hspec
    obtain ⟨k, -, hk⟩ := hspec
    exact iff_of_false (by simp) fun hnone => hnone k q hk.1

theorem ReportUnit.choose_eq_some (r : ReportUnit) (m : Arm) (k : Nat) :
    r.choose m = some k ↔ ∃ q, IsChoice (r.flagsOf m) r.settings k q := by
  have hspec := chooseFrom_spec 0 (r.flagsOf m) r.settings
  rw [ReportUnit.choose]
  cases hc : chooseFrom 0 (r.flagsOf m) r.settings with
  | none =>
    rw [hc] at hspec
    exact iff_of_false (by simp) fun ⟨q, hq⟩ => hspec k q hq.1
  | some c =>
    obtain ⟨c, q⟩ := c
    rw [hc] at hspec
    obtain ⟨k', rfl, hk'⟩ := hspec
    simp only [Option.map_some, Nat.zero_add, Option.some.injEq]
    constructor
    · rintro rfl
      exact ⟨q, hk'⟩
    · rintro ⟨q', hq'⟩
      exact (isChoice_unique hk' hq').1

/-- The flag chosen is set. -/
theorem ReportUnit.flag_set_of_choose {r : ReportUnit} {m : Arm} {k : Nat} (h : r.choose m = some k) : (r.flag m k).set = true := by
  obtain ⟨q, ⟨f, n, hf, -, heligible, -⟩, -⟩ := (r.choose_eq_some m k).mp h
  simp only [Flag.eligible, Bool.and_eq_true] at heligible
  rw [ReportUnit.flag, List.getD_eq_getElem?_getD, hf]
  exact heligible.1.1

/-! ### The form of the flags (R178, R179) -/

theorem Flag.raise_good (f : Flag) (d : Detail) (tick : Tick) : (f.raise d tick).Good where
  detail := rfl
  tick := rfl
  clear := nofun
  counted _ := ⟨by simp only [Flag.raise]; omega, by simp only [Flag.raise]; omega⟩

theorem Flag.noticed_good {f : Flag} (h : f.Good) (hset : f.set = true) : ({ f with noticed := true } : Flag).Good where
  detail := h.detail
  tick := h.tick
  clear hclear := absurd (hset.symm.trans hclear) (by simp)
  counted := h.counted

namespace ReportUnit

@[simp] theorem flagsOf_set (r : ReportUnit) (m n : Arm) (fs : List Flag) :
    ({ r with flags := r.flags.set m fs } : ReportUnit).flagsOf n = if n = m then fs else r.flagsOf n :=
  PerArm.get_set _ _ _ _

/-- New flags for an arm, as many and as good. -/
theorem good_of_flags {r : ReportUnit} (m : Arm) {fs : List Flag} (h : r.Good) (hlen : fs.length = (r.flagsOf m).length)
    (hgood : ∀ f ∈ fs, f.Good) : ({ r with flags := r.flags.set m fs } : ReportUnit).Good where
  flags n := by
    rw [flagsOf_set]
    split
    · exact ⟨hlen.trans (h.flags m).1, hgood⟩
    · exact h.flags n
  settings := h.settings

theorem flag_good {r : ReportUnit} (h : r.Good) (m : Arm) (k : Nat) : (r.flag m k).Good := by
  rw [flag, List.getD_eq_getElem?_getD]
  cases hf : (r.flagsOf m)[k]? with
  | none => exact Flag.clear_good
  | some f => exact (h.flags m).2 f (List.mem_of_getElem? hf)

theorem setFlag_good {r : ReportUnit} (m : Arm) (k : Nat) {f : Flag} (h : r.Good) (hf : f.Good) : (r.setFlag m k f).Good := by
  refine good_of_flags m h (List.length_set ..) fun x hx => ?_
  rcases List.mem_or_eq_of_mem_set hx with hx | rfl
  · exact (h.flags m).2 x hx
  · exact hf

theorem takeRaise_good {r : ReportUnit} (x : Raise) (h : r.Good) : (r.takeRaise x).Good :=
  setFlag_good _ _ h (Flag.raise_good _ _ _)

theorem clearMarked_length (marks : BitVec 32) (i : Nat) (fs : List Flag) : (clearMarked marks i fs).length = fs.length := by
  induction fs generalizing i with
  | nil => rfl
  | cons f fs ih => simp [clearMarked, ih]

theorem clearMarked_good (marks : BitVec 32) (i : Nat) {fs : List Flag} (h : ∀ f ∈ fs, f.Good) :
    ∀ f ∈ clearMarked marks i fs, f.Good := by
  induction fs generalizing i with
  | nil => exact h
  | cons f fs ih =>
    obtain ⟨hf, hfs⟩ := List.forall_mem_cons.mp h
    refine List.forall_mem_cons.mpr ⟨?_, ih (i + 1) hfs⟩
    split
    · exact Flag.clear_good
    · exact hf

theorem clearRequest_good {r : ReportUnit} (m : Arm) (q : Request) (h : r.Good) : (r.clearRequest m q).1.Good := by
  simp only [clearRequest]
  split
  · exact good_of_flags m h (clearMarked_length ..) (clearMarked_good _ 0 (h.flags m).2)
  · exact h

theorem noticeRequest_good {r : ReportUnit} (q : Request) (h : r.Good) : (r.noticeRequest q).1.Good := by
  simp only [noticeRequest]
  split
  · split
    · next hrange =>
      refine ⟨h.flags, (List.length_set ..).trans h.settings.1, fun n hn => ?_⟩
      rcases List.mem_or_eq_of_mem_set hn with hn | rfl
      · exact h.settings.2 n hn
      · exact hrange.2
    · exact h
  · exact h

/-- The lease ticks delivered to the report unit: those it has counted and those that wait (R178). -/
def tickCount (r : ReportUnit) : Tick := r.tick + BitVec.ofNat 32 r.ticksDue

theorem clearRequest_tickCount (r : ReportUnit) (m : Arm) (q : Request) : (r.clearRequest m q).1.tickCount = r.tickCount := by
  simp only [clearRequest]
  split <;> rfl

theorem noticeRequest_tickCount (r : ReportUnit) (q : Request) : (r.noticeRequest q).1.tickCount = r.tickCount := by
  simp only [noticeRequest]
  split
  · split <;> rfl
  · rfl

end ReportUnit

end Sys2Proof.Machine
end

