-- ==== Sys2Proof/Proofs/StepKeeps.lean ====
section
/-! PROOFS. Every step keeps the laws of the table unit, of the queue, of the locks, flags and stacks, and of the tick counts,
settling StepKeepsTableLaw, StepKeepsQueueLaws, StepKeepsRanges and StepKeepsTickCounts. -/

namespace Sys2Proof.Machine

/-- What a controller port still owes the outcome count: outcomes it holds, and reports it has sent. -/
def CtrlPort.owes (p : CtrlPort) : Nat := p.fifo.length + reportedOutcomes p.toWs

theorem CtrlPort.take_owes (p : CtrlPort) (msg : ToPort) :
    (p.take msg).owes = p.owes + sentOutcomes [msg] := by
  cases msg with
  | outcome o => simp only [CtrlPort.take, CtrlPort.owes, sentOutcomes, List.length_append, List.length_singleton]; omega
  | discard =>
    simp only [CtrlPort.take, CtrlPort.owes, sentOutcomes, reportedOutcomes_append, reportedOutcomes, List.length_nil]
    omega

theorem CtrlPort.take_lock (p : CtrlPort) (msg : ToPort) : (p.take msg).lock = p.lock := by
  cases msg <;> rfl

theorem CtrlPort.takeAll_owes (p : CtrlPort) (msgs : List ToPort) :
    (msgs.foldl CtrlPort.take p).owes = p.owes + sentOutcomes msgs := by
  induction msgs generalizing p with
  | nil => rfl
  | cons msg msgs ih =>
    have hsplit : sentOutcomes (msg :: msgs) = sentOutcomes [msg] + sentOutcomes msgs := sentOutcomes_append [msg] msgs
    rw [List.foldl_cons, ih, CtrlPort.take_owes, hsplit, Nat.add_assoc]

theorem CtrlPort.takeAll_lock (p : CtrlPort) (msgs : List ToPort) :
    (msgs.foldl CtrlPort.take p).lock = p.lock := by
  induction msgs generalizing p with
  | nil => rfl
  | cons msg msgs ih => rw [List.foldl_cons, ih, CtrlPort.take_lock]

/-- A transition that keeps every law but those of the arm units, each on its own. -/
structure State.Keeps (s t : State) : Prop where
  table : s.table.Good → t.table.Good
  queue : s.QueueGood → t.QueueGood
  locks : s.LocksGood → t.LocksGood
  report : s.report.Good → t.report.Good
  ticks : s.TicksGood → t.TicksGood
  envelopes : s.StacksGood → t.StacksGood

namespace State

theorem Keeps.refl (s : State) : s.Keeps s := ⟨id, id, id, id, id, id⟩

theorem Keeps.trans {s t u : State} (h : s.Keeps t) (h' : t.Keeps u) : s.Keeps u :=
  ⟨h'.table ∘ h.table, h'.queue ∘ h.queue, h'.locks ∘ h.locks, h'.report ∘ h.report, h'.ticks ∘ h.ticks, h'.envelopes ∘ h.envelopes⟩

theorem keeps_ite {s t u : State} {p : Prop} [Decidable p] (ht : p → s.Keeps t) (hu : ¬p → s.Keeps u) :
    s.Keeps (if p then t else u) := by
  split
  · exact ht ‹_›
  · exact hu ‹_›

theorem ticksGood_iff (s : State) :
    s.TicksGood ↔ s.report.tickCount = s.ws.tickCount ∧ ∀ m, (s.arm m).tickCount = s.ws.tickCount := Iff.rfl

/-- The laws of the queue read the workspace unit and the controller ports alone. -/
theorem queueGood_of_same {s t : State} (h : s.QueueGood) (hws : t.ws = s.ws) (hport : ∀ m, t.port m = s.port m) : t.QueueGood where
  table := hws ▸ h.table
  length := hws ▸ h.length
  quota := hws ▸ h.quota
  counts m := by
    rw [hws, hport]
    exact h.counts m
  distinct := hws ▸ h.distinct

/-- A transition that leaves every block these laws speak of. -/
theorem keeps_of_same {s t : State} (harms : t.arms = s.arms) (hctrl : t.ctrl = s.ctrl) (hdrive : t.drive = s.drive)
    (hws : t.ws = s.ws) (htable : t.table = s.table) (hreport : t.report = s.report) : s.Keeps t where
  table hs := htable ▸ hs
  queue hs := queueGood_of_same hs hws fun m => by rw [port, port, hctrl]
  locks hs side m := by
    cases side with
    | ctrl =>
      rw [lockOf, port, hctrl]
      exact hs .ctrl m
    | drive =>
      rw [lockOf, drivePort, hdrive]
      exact hs .drive m
  report hs := hreport ▸ hs
  ticks hs := by
    rw [ticksGood_iff] at hs ⊢
    simp only [arm, harms, hws, hreport]
    exact hs
  envelopes hs m := by
    rw [arm, harms]
    exact hs m

/-! ### Writing one block -/

theorem keeps_setArm {s : State} {m : Arm} {u : ArmUnit} (h : (s.arm m).Steady u) : s.Keeps (s.setArm m u) where
  table := id
  queue hs := queueGood_of_same hs rfl fun _ => rfl
  locks := id
  report := id
  ticks hs := by
    rw [ticksGood_iff] at hs ⊢
    refine ⟨hs.1, fun n => ?_⟩
    rw [State.setArm_arm]
    split
    · next hn => exact h.ticks.trans (hn ▸ hs.2 n)
    · exact hs.2 n
  envelopes hs n := by
    rw [State.setArm_arm]
    split
    · exact h.stack (hs m)
    · exact hs n

theorem keeps_toArm (s : State) (m : Arm) {e : ArmEvent} (he : e.isTick = false) : s.Keeps (s.toArm m e) :=
  keeps_setArm (ArmUnit.steady_push he)

theorem keeps_setTable {s : State} {t : TableUnit} (h : s.table.Good → t.Good) : s.Keeps (s.setTable t) :=
  ⟨h, fun hs => queueGood_of_same hs rfl fun _ => rfl, id, id, id, id⟩

theorem keeps_setReport {s : State} {r : ReportUnit} (h : s.report.Good → r.Good) (ht : r.tickCount = s.report.tickCount) :
    s.Keeps (s.setReport r) :=
  ⟨id, fun hs => queueGood_of_same hs rfl fun _ => rfl, id, h, fun hs => ⟨ht.trans hs.1, hs.2⟩, id⟩

theorem keeps_setWs {s : State} {w : Workspace} (h : s.ws.Moves w) : s.Keeps (s.setWs w) where
  table := id
  queue hs :=
    { table := h.table hs.table
      length := h.queue.length_le.trans hs.length
      quota := fun m => (h.quota m).trans (hs.quota m)
      counts := fun m => by
        have hcount := hs.counts m
        have hmoved := h.counts m
        simp only [setWs_ws, setWs_port]
        omega
      distinct := hs.distinct.sublist h.queue }
  locks := id
  report := id
  ticks hs := ⟨hs.1.trans h.ticks.symm, fun m => (hs.2 m).trans h.ticks.symm⟩
  envelopes := id

theorem keeps_setPort {s : State} {m : Arm} {p : CtrlPort} (hl : (s.port m).lock.Good → p.lock.Good)
    (hc : p.owes = (s.port m).owes) : s.Keeps (s.setPort m p) where
  table := id
  queue hs :=
    { table := hs.table
      length := hs.length
      quota := hs.quota
      counts := fun n => by
        have hcount := hs.counts n
        rw [setPort_port, setPort_ws]
        split
        · next hn =>
          subst hn
          simp only [CtrlPort.owes] at hc
          omega
        · exact hcount
      distinct := hs.distinct }
  locks hs side n := by
    cases side with
    | drive => exact hs .drive n
    | ctrl =>
      simp only [lockOf, setPort_port]
      split
      · exact hl (hs .ctrl m)
      · exact hs .ctrl n
  report := id
  ticks := id
  envelopes := id

theorem keeps_setDrivePort {s : State} {m : Arm} {p : DrivePort} (hl : (s.drivePort m).lock.Good → p.lock.Good) :
    s.Keeps (s.setDrivePort m p) where
  table := id
  queue hs := queueGood_of_same hs rfl fun _ => rfl
  locks hs side n := by
    cases side with
    | ctrl => exact hs .ctrl n
    | drive =>
      simp only [lockOf, setDrivePort_drivePort]
      split
      · exact hl (hs .drive m)
      · exact hs .drive n
  report := id
  ticks := id
  envelopes := id

theorem keeps_answer (s : State) (m : Arm) (a : Answer) : s.Keeps (s.answer m a) := keeps_of_same rfl rfl rfl rfl rfl rfl

theorem keeps_answer? (s : State) (m : Arm) (a : Option Answer) : s.Keeps (s.answer? m a) := by
  cases a with
  | none => exact .refl s
  | some a => exact s.keeps_answer m a

theorem keeps_setReq (s : State) (r : PerArm ReqPort) : s.Keeps { s with req := r } := keeps_of_same rfl rfl rfl rfl rfl rfl

theorem keeps_powerOn (s : State) (resetN : Bool) (node : Node) (draws : Nat) (pending : List Instr) :
    s.Keeps (powerOn resetN node draws pending) :=
  ⟨fun _ => TableUnit.powerOn_good, fun _ => powerOn_queueGood .., fun _ => powerOn_locksGood _ _ _ _,
    fun _ => ReportUnit.powerOn_good, fun _ => powerOn_ticksGood .., fun _ => powerOn_stacksGood _ _ _ _⟩

/-! ### What a controller port takes from the workspace unit (R124, R126) -/

/-- A port and the workspace unit that change together: the outcomes they owe are as many as before. -/
theorem keeps_setWs_setPort {s : State} {m : Arm} {w : Workspace} {p : CtrlPort} (hw : s.ws.tableGood → w.tableGood)
    (hqueue : w.queue = s.ws.queue) (hle : ∀ n, w.outcomeCount.get n ≤ s.ws.outcomeCount.get n)
    (hticks : w.tickCount = s.ws.tickCount) (hl : p.lock = (s.port m).lock)
    (hother : ∀ n, n ≠ m → w.outcomeCount.get n = s.ws.outcomeCount.get n ∧ w.toPort.get n = s.ws.toPort.get n)
    (hsame : s.ws.outcomeCount.get m = sentOutcomes (s.ws.toPort.get m) + (s.port m).owes →
      w.outcomeCount.get m = sentOutcomes (w.toPort.get m) + p.owes) : s.Keeps ((s.setWs w).setPort m p) where
  table := id
  queue hs :=
    { table := hw hs.table
      length := by
        have := hs.length
        simpa [hqueue] using this
      quota := fun n => by
        have hquota := hs.quota n
        have hcount := hle n
        simp only [Workspace.quotaUse, setPort_ws, setWs_ws, hqueue] at hquota ⊢
        omega
      counts := fun n => by
        have hcount := hs.counts n
        rw [setPort_port, setPort_ws, setWs_ws]
        split
        · next hn =>
          subst hn
          have := hsame (by rw [hcount, CtrlPort.owes, Nat.add_assoc])
          rw [this, CtrlPort.owes, Nat.add_assoc]
        · next hn =>
          obtain ⟨hsent, hport⟩ := hother n hn
          rw [hsent, hport]
          exact hcount
      distinct := by
        have := hs.distinct
        simpa [hqueue] using this }
  locks hs side n := by
    cases side with
    | drive => exact hs .drive n
    | ctrl =>
      simp only [lockOf, setPort_port]
      split
      · exact hl ▸ hs .ctrl m
      · exact hs .ctrl n
  report := id
  ticks hs := ⟨hs.1.trans hticks.symm, fun n => (hs.2 n).trans hticks.symm⟩
  envelopes := id

/-- What a port takes from the workspace unit it owes from then on. -/
theorem keeps_takeSent {s : State} {m : Arm} {rest : List ToPort} {p : CtrlPort} (hl : p.lock = (s.port m).lock)
    (howes : sentOutcomes rest + p.owes = sentOutcomes (s.ws.toPort.get m) + (s.port m).owes) :
    s.Keeps ((s.setWs { s.ws with toPort := s.ws.toPort.set m rest }).setPort m p) := by
  refine keeps_setWs_setPort (fun h => Workspace.tableGood_of_queue h rfl rfl (List.Subset.refl _) rfl) rfl (fun _ => le_rfl) rfl hl
    (fun n hn => ⟨rfl, by rw [PerArm.get_set, if_neg hn]⟩) fun hcount => ?_
  rw [PerArm.get_set_same]
  exact hcount.trans howes.symm

theorem keeps_takeFromWs {s : State} {m : Arm} {msg : ToPort} {rest : List ToPort} (h : s.ws.toPort.get m = msg :: rest) :
    s.Keeps (s.takeFromWs m msg rest) := by
  refine keeps_takeSent (CtrlPort.take_lock _ _) ?_
  rw [CtrlPort.take_owes, h, ← List.singleton_append (l := rest), sentOutcomes_append]
  omega

theorem keeps_takeAllFromWs (s : State) (m : Arm) : s.Keeps (s.takeAllFromWs m) := by
  refine keeps_takeSent (CtrlPort.takeAll_lock _ _) ?_
  rw [CtrlPort.takeAll_owes, sentOutcomes]
  omega

theorem keeps_takeNewFromWs (s : State) (before : PerArm (List ToPort)) (m : Arm) : s.Keeps (s.takeNewFromWs before m) :=
  keeps_ite (fun _ => s.keeps_takeAllFromWs m) fun _ => .refl s

/-- A report of outcomes sent or discarded lowers the count by as many as it leaves owed no more. -/
theorem keeps_lowerCount {s : State} {m : Arm} {x : PortReport} {rest : List PortReport} {n : Nat}
    (h : (s.port m).toWs = x :: rest) (hn : reportedOutcomes [x] = n) :
    s.Keeps ((s.setPort m { s.port m with toWs := rest }).setWs (s.ws.lowerCount m n)) := by
  have howes : (s.port m).owes = n + ({ s.port m with toWs := rest } : CtrlPort).owes := by
    simp only [CtrlPort.owes, h, ← List.singleton_append (l := rest), reportedOutcomes_append, hn]
    omega
  dsimp only at howes
  refine keeps_setWs_setPort (w := s.ws.lowerCount m n) (p := { s.port m with toWs := rest })
    (fun h => Workspace.tableGood_of_queue h rfl rfl (List.Subset.refl _) rfl) rfl (fun k => ?_) rfl rfl
    (fun k hk => ⟨?_, rfl⟩) fun hcount => ?_
  · simp only [Workspace.lowerCount, PerArm.get_set]
    split
    · next hk =>
      subst hk
      omega
    · exact le_rfl
  · simp only [Workspace.lowerCount, PerArm.get_set, if_neg hk]
  · simp only [Workspace.lowerCount, PerArm.get_set_same]
    exact Nat.sub_eq_of_eq_add (by rw [hcount, howes]; omega)

end State

/-! ### The ports -/

theorem LinkLock.wellFormed_good {l : LinkLock} (h : l.Good) : l.wellFormed.Good := by
  obtain ⟨hgood, hbad, hsilent, hlocked, hunlocked⟩ := h
  rw [LinkLock.wellFormed]
  split
  · next hl => exact ⟨hgood, by simp, by simp, hlocked, fun hf => absurd (hl.symm.trans hf) (by simp)⟩
  · next hl =>
    split
    · exact ⟨by simp, by simp, by simp, fun _ => rfl, fun _ => ⟨rfl, rfl⟩⟩
    · exact ⟨by simp only; omega, by simp, by simp, fun ht => absurd ht hl, fun _ => ⟨rfl, rfl⟩⟩

theorem LinkLock.discarded_good {l : LinkLock} (h : l.Good) : l.discarded.Good := by
  obtain ⟨hgood, hbad, hsilent, hlocked, hunlocked⟩ := h
  rw [LinkLock.discarded]
  split
  · exact ⟨by simp, hbad, hsilent, fun _ => rfl, hunlocked⟩
  · next hl =>
    split
    · exact ⟨by simp, by simp, by simp, fun _ => rfl, fun _ => ⟨rfl, rfl⟩⟩
    · exact ⟨by simp, by simp only; omega, hsilent, fun _ => rfl, fun hf => absurd hf (by simpa using hl)⟩

theorem LinkLock.expiry_good {l : LinkLock} (h : l.Good) : l.expiry.Good := by
  obtain ⟨hgood, hbad, hsilent, hlocked, hunlocked⟩ := h
  rw [LinkLock.expiry]
  split
  · exact ⟨hgood, hbad, hsilent, hlocked, hunlocked⟩
  · next hl =>
    have hl : l.locked = true := by simpa using hl
    split
    · exact ⟨hgood, by simp, by simp, fun hf => absurd hf (by simp), fun _ => ⟨rfl, rfl⟩⟩
    · next hout =>
      have : ¬16 ≤ l.silent + 1 := by simpa only [LinkLock.silenceOut, hl, Bool.true_and, decide_eq_true_eq] using hout
      exact ⟨hgood, hbad, Nat.not_le.mp this, hlocked, fun hf => absurd (hl.symm.trans hf) (by simp)⟩

/-- Only the shadow, what is said of it, and the agreement records stand under the table unit's law. -/
theorem TableUnit.good_of_same {t u : TableUnit} (h : t.Good) (hshadow : u.shadow = t.shadow) (hdigest : u.digest = t.digest)
    (hresult : u.result = t.result) (hagreement : u.agreement = t.agreement) : u.Good where
  digest := by rw [hshadow, hdigest, h.digest]
  result := by rw [hshadow, hresult, h.result]
  agreed := by
    rw [hdigest, hresult, hagreement]
    exact h.agreed

namespace State

theorem keeps_putLock {s : State} {side : Side} {m : Arm} {l : LinkLock} (h : (s.lockOf side m).Good → l.Good) :
    s.Keeps (s.putLock side m l) := by
  have hreport (t : State) (ht : s.Keeps t) : s.Keeps ((t.toArm m (.lock side l.locked)).setTable
      { t.table with arrivals := t.table.arrivals ++ [.lock side m l.locked] }) :=
    (ht.trans (keeps_toArm t m rfl)).trans (keeps_setTable (fun h => TableUnit.good_of_same h rfl rfl rfl rfl))
  cases side with
  | ctrl =>
    have hput : s.Keeps (s.setPort m { s.port m with lock := l }) := keeps_setPort h rfl
    exact keeps_ite (fun _ => hput) fun _ => hreport _ hput
  | drive =>
    have hput : s.Keeps (s.setDrivePort m { s.drivePort m with lock := l }) := keeps_setDrivePort h
    exact keeps_ite (fun _ => hput) fun _ => hreport _ hput

theorem keeps_arbitrate (s : State) (m : Arm) : s.Keeps (s.arbitrate m) := by
  rw [arbitrate]
  rcases arbitrate_cases (s.port m) s.node with ⟨ans, part, -, h⟩ | ⟨o, rest, hfifo, h⟩ | ⟨-, h⟩ <;> rw [h]
  · exact keeps_setPort id rfl
  · refine keeps_setPort id ?_
    simp only [CtrlPort.owes, hfifo, reportedOutcomes_append, reportedOutcomes, List.length_cons]
    omega
  · exact keeps_setPort id rfl

theorem keeps_setFlag_noticed {s : State} {m : Arm} {k : Nat} (h : s.report.choose m = some k) :
    s.Keeps (s.setReport (s.report.setFlag m k { s.report.flag m k with noticed := true })) :=
  keeps_setReport (fun hg => ReportUnit.setFlag_good m k hg
    (Flag.noticed_good (ReportUnit.flag_good hg m k) (ReportUnit.flag_set_of_choose h))) rfl

theorem keeps_selectNotice (s : State) (m : Arm) : s.Keeps (s.selectNotice m) := by
  rw [selectNotice]
  split
  · exact (keeps_setFlag_noticed ‹_›).trans (keeps_setPort id rfl)
  · exact keeps_setPort id rfl

theorem keeps_closeOpportunity (s : State) (m : Arm) : s.Keeps (s.closeOpportunity m) := by
  have harbitrate : s.Keeps (if (s.port m).opportunity = .offered then s.arbitrate m else s) :=
    keeps_ite (fun _ => s.keeps_arbitrate m) fun _ => .refl s
  exact keeps_ite (fun _ => harbitrate.trans (keeps_selectNotice _ m)) fun _ => harbitrate

theorem keeps_quietExpiry (s : State) (m : Arm) : s.Keeps (s.quietExpiry m) :=
  keeps_ite (fun _ => keeps_setPort id rfl) fun _ => (s.keeps_closeOpportunity m).trans (keeps_setPort id rfl)

@[simp] theorem arbitrate_lock (s : State) (m : Arm) : ((s.arbitrate m).port m).lock = (s.port m).lock := by
  rw [arbitrate, setPort_port_same]
  rcases arbitrate_cases (s.port m) s.node with ⟨ans, part, -, h⟩ | ⟨o, rest, -, h⟩ | ⟨-, h⟩ <;> rw [h] <;> rfl

@[simp] theorem selectNotice_lock (s : State) (m : Arm) : ((s.selectNotice m).port m).lock = (s.port m).lock := by
  rw [selectNotice]
  split <;> rw [setPort_port_same] <;> rfl

@[simp] theorem closeOpportunity_lock (s : State) (m : Arm) : ((s.closeOpportunity m).port m).lock = (s.port m).lock := by
  simp only [closeOpportunity]
  split <;> split <;> simp

@[simp] theorem quietExpiry_lock (s : State) (m : Arm) : ((s.quietExpiry m).port m).lock = (s.port m).lock := by
  simp only [quietExpiry]
  split <;> simp

theorem keeps_takeExpiry (s : State) (side : Side) (m : Arm) : s.Keeps (s.takeExpiry side m) := by
  cases side with
  | ctrl =>
    refine (s.keeps_quietExpiry m).trans (keeps_putLock fun h => LinkLock.expiry_good ?_)
    simpa [lockOf] using h
  | drive =>
    have htaken : s.Keeps (s.setDrivePort m { s.drivePort m with expiryDue := false }) := keeps_setDrivePort id
    refine htaken.trans (keeps_putLock fun h => LinkLock.expiry_good ?_)
    simpa [lockOf] using h

theorem keeps_settleExpiry (s : State) (side : Side) (m : Arm) : s.Keeps (s.settleExpiry side m) :=
  keeps_ite (fun _ => s.keeps_takeExpiry side m) fun _ => .refl s

theorem keeps_forwardUp (s : State) (m : Arm) (os : List Octet) : s.Keeps (s.forwardUp m os) :=
  ((s.keeps_settleExpiry .ctrl m).trans (keeps_closeOpportunity _ m)).trans (keeps_setPort id rfl)

theorem keeps_portRaise (s : State) (side : Side) (m : Arm) (k : EventKind) (d : Detail) : s.Keeps (s.portRaise side m k d) := by
  cases side with
  | ctrl => exact keeps_setPort id rfl
  | drive => exact keeps_setDrivePort id

theorem keeps_frameError (s : State) (side : Side) (m : Arm) (f : RxFrame) (c : FrameCause) : s.Keeps (s.frameError side m f c) := by
  rw [frameError]
  split
  · exact s.keeps_portRaise side m _ _
  · have hdrawn : s.Keeps { s with draws := s.draws + 1 } := keeps_of_same rfl rfl rfl rfl rfl rfl
    exact hdrawn.trans (keeps_portRaise _ side m _ _)

theorem keeps_takeRequestFrame (s : State) (m : Arm) (payload : List Octet) : s.Keeps (s.takeRequestFrame m payload) := by
  rw [takeRequestFrame]
  split
  · have hawaiting : s.Keeps (s.setPort m { s.port m with buffer := .awaiting }) := keeps_setPort id rfl
    exact hawaiting.trans (keeps_setReq _ _)
  all_goals exact s.keeps_portRaise .ctrl m _ _

theorem keeps_learnNode (s : State) (m : Arm) (n : Node) : s.Keeps (s.learnNode m n) := keeps_setDrivePort id

theorem keeps_route (s : State) (side : Side) (m : Arm) (f : RxFrame) : s.Keeps (s.route side m f) := by
  simp only [route]
  split
  · exact s.keeps_toArm m rfl
  · exact s.keeps_toArm m rfl
  · exact s.keeps_takeRequestFrame m _
  · exact (s.keeps_learnNode m _).trans (keeps_toArm _ m rfl)
  · exact (s.keeps_learnNode m _).trans (keeps_forwardUp _ m _)
  · exact .refl s

theorem keeps_takeFrame (s : State) (side : Side) (m : Arm) (f : RxFrame) : s.Keeps (s.takeFrame side m f) := by
  have hsettled := s.keeps_settleExpiry side m
  simp only [takeFrame]
  split
  · exact (hsettled.trans (keeps_putLock LinkLock.discarded_good)).trans (keeps_frameError _ side m f _)
  · exact (hsettled.trans (keeps_putLock LinkLock.wellFormed_good)).trans (keeps_route _ side m f)

/-! ### Requests and answers -/

theorem keeps_setWs_requests (s : State) (rs : List Request) : s.Keeps (s.setWs { s.ws with requests := rs }) :=
  keeps_setWs (.of_table rfl rfl rfl (fun h => Workspace.tableGood_of_queue h rfl rfl (List.Subset.refl _) rfl) rfl)

theorem keeps_passRequest (s : State) (r : Request) : s.Keeps (s.passRequest r) := by
  rw [passRequest]
  split
  · exact s.keeps_toArm _ rfl
  · exact s.keeps_setWs_requests _
  · exact keeps_setTable (fun h => TableUnit.good_of_same h rfl rfl rfl rfl)
  · exact keeps_setReport (fun h => ⟨h.flags, h.settings⟩) rfl

theorem keeps_placeAnswer (s : State) (m : Arm) (ans : Answer) : s.Keeps (s.placeAnswer m ans) := keeps_setPort id rfl

end State

/-! ### The commands of an arm unit -/

/-- What a result does, if it is a next state. -/
def Result.Keeps (s : State) (r : Result) : Prop := ∀ t, r = .next t → s.Keeps t

theorem keeps_next {s t : State} (h : s.Keeps t) : Result.Keeps s (.next t) := by
  rintro _ ⟨⟩
  exact h

theorem keeps_fault (s : State) (f : Fault) : Result.Keeps s (.fault f) := fun _ h => nomatch h

theorem result_keeps_ite {s : State} {p : Prop} [Decidable p] {r r' : Result} (h : p → Result.Keeps s r)
    (h' : ¬p → Result.Keeps s r') : Result.Keeps s (if p then r else r') := by
  split
  · exact h ‹_›
  · exact h' ‹_›

theorem withForwarded_keeps {s : State} {u : ArmUnit} {k : Pos → Result} (h : ∀ p, Result.Keeps s (k p)) :
    Result.Keeps s (withForwarded u k) := by
  rintro t ht
  obtain ⟨p, -, hk⟩ := withForwarded_next ht
  exact h p t hk

theorem finishArm_keeps {m : Arm} {s : State} {out : ArmUnit × Option Answer} (h : (s.arm m).Steady out.1) :
    Result.Keeps s (finishArm m s out) :=
  keeps_next ((State.keeps_setArm h).trans (State.keeps_answer? _ m _))

/-- The command takes an event that is no tick. -/
theorem takeArm_keeps {m : Arm} {s : State} {k : ArmEvent → ArmUnit → Option Result}
    (h : ∀ e (u : ArmUnit) r, (e.isTick = false → (s.arm m).Steady u) → k e u = some r → Result.Keeps s r) :
    Result.Keeps s (takeArm m s k) := by
  rintro t ht
  rcases takeArm_next ht with rfl | ⟨e, rest, -, ha, hk⟩
  · exact .refl _
  · exact h e _ _ (ArmUnit.steady_pop ha) hk t rfl

theorem takeArmRequest_keeps {m : Arm} {n : ReqName} {s : State} {k : Request → ArmUnit → Result}
    (h : ∀ r u, (s.arm m).Steady u → Result.Keeps s (k r u)) : Result.Keeps s (takeArmRequest m n s k) := by
  rintro t ht
  rcases takeArmRequest_next ht with rfl | ⟨r, rest, -, ha, -, hk⟩
  · exact .refl _
  · exact h r _ (ArmUnit.steady_pop ha rfl) t hk

/-- A request that an arm unit ends within its own event. -/
theorem takeArmRequest_finish_keeps {m : Arm} {n : ReqName} {s : State} {k : Request → ArmUnit → ArmUnit × Option Answer}
    (h : ∀ r (u : ArmUnit), u.Steady (k r u).1) : Result.Keeps s (takeArmRequest m n s fun r u => finishArm m s (k r u)) :=
  takeArmRequest_keeps fun r u hu => finishArm_keeps (hu.trans (h r u))

theorem takeVerdict_keeps {m : Arm} {s : State} {k : Outstanding → Verdict → ArmUnit → Option Result}
    (h : ∀ o v u r, (s.arm m).Steady u → k o v u = some r → Result.Keeps s r) : Result.Keeps s (takeVerdict m s k) := by
  rintro t ht
  rcases takeVerdict_next ht with rfl | ⟨o, v, -, -, hk⟩
  · exact .refl _
  · exact h o v { s.arm m with outstanding := none, verdict := none } _ ⟨rfl, id⟩ hk t rfl

theorem takeExpiry_keeps {m : Arm} {s : State} {ok : ArmState → Bool} {cond : ArmUnit → Bool} {k : ArmUnit → Result}
    (h : ∀ u, (s.arm m).Steady u → Result.Keeps s (k u)) : Result.Keeps s (takeExpiry m s ok cond k) := by
  rintro t ht
  rcases takeExpiry_next ht with rfl | ⟨rest, -, ha, -, -, hk⟩
  · exact .refl _
  · exact h _ ((ArmUnit.steady_pop ha rfl).trans (ArmUnit.takeProfile_steady _)) t hk

theorem finishRun_keeps {m : Arm} {s : State} {u : ArmUnit} (h : (s.arm m).Steady u) : Result.Keeps s (finishRun m s u) :=
  withForwarded_keeps fun p => keeps_next (State.keeps_setArm (h.trans (u.expiryRun_steady m _ p)))

theorem finishHalting_keeps {m : Arm} {s : State} {u : ArmUnit} (h : (s.arm m).Steady u) : Result.Keeps s (finishHalting m s u) :=
  withForwarded_keeps fun p => keeps_next (State.keeps_setArm (h.trans (u.expiryHalting_steady m _ p)))

theorem finishSettling_keeps {m : Arm} {s : State} {u : ArmUnit} (h : (s.arm m).Steady u) :
    Result.Keeps s (finishSettling m s u) :=
  withForwarded_keeps fun p => keeps_next (State.keeps_setArm (h.trans (u.expirySettling_steady m _ p)))

theorem execSetpointArrival_keeps (m : Arm) (s : State) : Result.Keeps s (execSetpointArrival m s) := by
  refine takeArm_keeps fun e u r hu hk => ?_
  cases e with
  | setpoint f =>
    cases hk
    have hu := hu rfl
    refine result_keeps_ite (fun _ => result_keeps_ite (fun _ => ?_) fun _ => ?_) fun _ => keeps_next (State.keeps_setArm hu)
    · exact keeps_next (State.keeps_setArm (hu.trans (u.raise_steady m _ _)))
    · exact withForwarded_keeps fun p => keeps_next (State.keeps_setArm (hu.trans (u.checkSetpoint_steady m _ p f)))
  | _ => cases hk

theorem execSetpointVerdict_keeps (m : Arm) (s : State) : Result.Keeps s (execSetpointVerdict m s) := by
  refine takeVerdict_keeps fun o v u r hu hk => ?_
  cases o with
  | setpoint frm step geom expected stack =>
    cases hk
    cases v with
    | placed => exact keeps_next (State.keeps_setArm (hu.trans ⟨rfl, id⟩))
    | failed kinds ra sa tick =>
      refine withForwarded_keeps fun p => result_keeps_ite (fun _ => ?_) fun _ => ?_
      · exact keeps_next (State.keeps_setArm (hu.trans (u.softOutcome_steady m _ p _ _ _)))
      · exact keeps_next (State.keeps_setArm (hu.trans (u.hardOutcome_steady m _ p _ _ _)))
    | absent => exact keeps_fault s _
    | unknown => exact keeps_fault s _
  | _ => cases hk

theorem execEnableVerdict_keeps (m : Arm) (s : State) : Result.Keeps s (execEnableVerdict m s) := by
  refine takeVerdict_keeps fun o v u r hu hk => ?_
  cases o with
  | enable head geom =>
    cases hk
    cases v with
    | placed => exact finishArm_keeps (hu.trans (u.enterRun_steady m geom))
    | _ => exact finishArm_keeps hu
  | _ => cases hk

theorem execEnvelopeVerdict_keeps (m : Arm) (s : State) : Result.Keeps s (execEnvelopeVerdict m s) := by
  refine takeVerdict_keeps fun o v u r hu hk => ?_
  cases o with
  | envelope head geom =>
    cases hk
    cases v with
    | placed => exact finishArm_keeps (hu.trans ⟨rfl, id⟩)
    | failed kinds ra sa tick => exact finishArm_keeps (hu.trans (u.envelopeFailed_steady m _ tick))
    | absent => exact keeps_fault s _
    | unknown => exact keeps_fault s _
  | _ => cases hk

theorem execFeedbackLoss_keeps (m : Arm) (s : State) : Result.Keeps s (execFeedbackLoss m s) :=
  takeExpiry_keeps fun _ hu => result_keeps_ite (fun _ => finishRun_keeps hu)
    fun _ => result_keeps_ite (fun _ => finishHalting_keeps hu) fun _ => finishSettling_keeps hu

theorem execCadenceExpiryQuiet_keeps (m : Arm) (s : State) : Result.Keeps s (execCadenceExpiryQuiet m s) := by
  refine takeExpiry_keeps fun u hu => ?_
  have hquiet := hu.trans u.quiet_steady
  have hidle : Result.Keeps s (.next (s.setArm m u.quiet)) := keeps_next (State.keeps_setArm hquiet)
  have hhold (p : Pos) : Result.Keeps s (.next (s.setArm m (u.quiet.hold (s.driveNode m) p))) :=
    keeps_next (State.keeps_setArm (hquiet.trans (ArmUnit.hold_steady _ _ p)))
  refine result_keeps_ite (fun _ => result_keeps_ite (fun _ => ?_) fun _ => withForwarded_keeps hhold) fun _ => hidle
  cases u.quiet.lastActual with
  | none => exact hidle
  | some p => exact hhold p

theorem takeFeedback_keeps {m : Arm} {s : State} (f : FeedbackFrame) (second : Bool) {u : ArmUnit} (hu : (s.arm m).Steady u) :
    Result.Keeps s (takeFeedback m s f second u) := by
  have hforward (p : Pos) : Result.Keeps s (.next ((s.setArm m (u.checkFeedback m f second p)).forwardFeedback m f)) :=
    keeps_next ((State.keeps_setArm (hu.trans (u.checkFeedback_steady m f second p))).trans (State.keeps_forwardUp _ m _))
  exact result_keeps_ite (fun _ => withForwarded_keeps hforward) fun _ => hforward f.actual

theorem execFeedbackArrival_keeps (m : Arm) (s : State) : Result.Keeps s (execFeedbackArrival m s) := by
  refine takeArm_keeps fun e u r hu hk => ?_
  cases e with
  | feedback f => cases hk; exact takeFeedback_keeps f false (hu rfl)
  | faultSecond f => cases hk; exact takeFeedback_keeps f true (hu rfl)
  | _ => cases hk

theorem execParamArrival_keeps (m : Arm) (s : State) : Result.Keeps s (execParamArrival m s) := by
  refine takeArm_keeps fun e u r hu hk => ?_
  cases e with
  | param os seq =>
    cases hk
    exact keeps_next (State.keeps_setArm ((hu rfl).trans
      (ArmUnit.steady_ite (fun _ => u.hand_steady os) fun _ => u.raise_steady m _ _)))
  | _ => cases hk

/-- ARM_TICK_COPY counts a tick that waited. -/
theorem execArmTickCopy_keeps (m : Arm) (s : State) : Result.Keeps s (execArmTickCopy m s) := by
  rintro t ht
  rcases takeArm_next ht with rfl | ⟨e, rest, -, ha, hk⟩
  · exact .refl _
  · cases e with
    | tick =>
      cases hk
      exact State.keeps_setArm (ArmUnit.steady_count ha)
    | _ => cases hk

theorem execCommitNotice_keeps (m : Arm) (s : State) : Result.Keeps s (execCommitNotice m s) := by
  refine takeArm_keeps fun e u r hu hk => ?_
  cases e with
  | commitNotice present profile => cases hk; exact keeps_next (State.keeps_setArm ((hu rfl).trans ⟨rfl, id⟩))
  | _ => cases hk

theorem execLockGained_keeps (m : Arm) (s : State) : Result.Keeps s (execLockGained m s) := by
  refine takeArm_keeps fun e u r hu hk => ?_
  cases e with
  | lock side locked =>
    cases locked with
    | true =>
      cases hk
      exact keeps_next (State.keeps_setArm ((hu rfl).trans ((u.setLock_steady side true).trans (ArmUnit.lockGained_steady _ m))))
    | false => cases hk
  | _ => cases hk

theorem execControllerLockLoss_keeps (m : Arm) (s : State) : Result.Keeps s (execControllerLockLoss m s) := by
  refine takeArm_keeps fun e u r hu hk => ?_
  cases e with
  | lock side locked =>
    cases side <;> cases locked <;> cases hk
    exact keeps_next (State.keeps_setArm ((hu rfl).trans
      ((u.setLock_steady .ctrl false).trans (ArmUnit.controllerLost_steady _ m))))
  | _ => cases hk

theorem execDriveLockLoss_keeps (m : Arm) (s : State) : Result.Keeps s (execDriveLockLoss m s) := by
  refine takeArm_keeps fun e u r hu hk => ?_
  cases e with
  | lock side locked =>
    cases side <;> cases locked <;> cases hk
    exact keeps_next (State.keeps_setArm ((hu rfl).trans
      ((u.setLock_steady .drive false).trans (ArmUnit.driveLost_steady _ m))))
  | _ => cases hk

theorem execArmCut_keeps (m : Arm) (s : State) : Result.Keeps s (execArmCut m s) := by
  refine takeArm_keeps fun e u r hu hk => ?_
  cases e with
  | request q =>
    simp only at hk
    split at hk
    · cases hk
      exact finishArm_keeps ((hu rfl).trans (u.cutRequest_steady m q))
    · cases hk
  | cutSecond q => cases hk; exact finishArm_keeps ((hu rfl).trans (u.cutSecond_steady m q))
  | _ => cases hk

/-! ### Envelope requests (R133, R134, R136) -/

theorem envelopeCarry_keeps {m : Arm} {s : State} (u : ArmUnit) (r : Request) {w : ArmUnit} (hw : (s.arm m).Steady w) :
    Result.Keeps s (ArmUnit.envelopeRequest.carry u m s r w) := by
  refine result_keeps_ite (fun _ => finishArm_keeps hw) fun _ => result_keeps_ite (fun _ => ?_) fun _ => ?_
  · exact withForwarded_keeps fun p => finishArm_keeps (hw.trans ⟨rfl, id⟩)
  · exact finishArm_keeps (hw.trans w.restForEnvelope_steady)

theorem envelopeRequest_keeps {m : Arm} {s : State} {u : ArmUnit} (hu : (s.arm m).Steady u) (r : Request) {op : EnvOp}
    (hop : ∀ x, op = .push x → x.Good) (margin : Option Margin) : Result.Keeps s (u.envelopeRequest m s r op margin) := by
  have hstack : (s.arm m).Steady (u.setStack (applyEnvOp u.ctx.mask.stack op u.ctx.stack).1) :=
    hu.trans (ArmUnit.setStack_steady (applyEnvOp_good hop))
  simp only [ArmUnit.envelopeRequest]
  split
  · have hraised := hstack.trans (ArmUnit.raise_steady _ m .stack
      (.stack ⟨.request, ‹_›, u.ctx.stack.length, margin, none⟩))
    refine result_keeps_ite (fun _ => envelopeCarry_keeps u r hraised) fun _ => result_keeps_ite (fun _ => ?_) fun _ => ?_
    · exact finishArm_keeps (hraised.trans (ArmUnit.hardFault_steady _ m _))
    · exact finishArm_keeps hraised
  · exact envelopeCarry_keeps u r hstack

theorem execEnvelopePush_keeps (m : Arm) (s : State) : Result.Keeps s (execEnvelopePush m s) := by
  refine takeArmRequest_keeps fun r u hu => result_keeps_ite (fun _ => finishArm_keeps hu) fun _ =>
    result_keeps_ite (fun _ => finishArm_keeps hu) fun hrange => envelopeRequest_keeps hu r ?_ _
  rintro _ ⟨⟩
  simp only [not_or, Nat.not_lt] at hrange
  exact hrange

theorem execEnvelopePop_keeps (m : Arm) (s : State) : Result.Keeps s (execEnvelopePop m s) :=
  takeArmRequest_keeps fun r u hu => result_keeps_ite (fun _ => finishArm_keeps hu) fun _ =>
    envelopeRequest_keeps hu r (by rintro _ ⟨⟩) _

/-! ### The commands of the workspace unit -/

theorem takeFromArm_keeps {m : Arm} {s : State} {k : ToWorkspace → State → Option Result}
    (h : ∀ msg u r, s.Keeps u → k msg u = some r → Result.Keeps s r) : Result.Keeps s (takeFromArm m s k) := by
  rintro t ht
  rcases takeFromArm_next ht with rfl | ⟨msg, rest, -, hk⟩
  · exact .refl _
  · exact h msg _ _ (State.keeps_setArm (u := { s.arm m with toWs := rest }) ⟨rfl, id⟩) hk t rfl

theorem execCheckedPlacement_keeps (m : Arm) (s : State) : Result.Keeps s (execCheckedPlacement m s) := by
  refine takeFromArm_keeps fun msg t r ht hk => ?_
  cases msg with
  | checked pl =>
    cases hk
    split
    · exact keeps_next ((ht.trans (State.keeps_setWs (Workspace.moves_checked _ _ m pl))).trans
        (State.keeps_setArm ⟨rfl, id⟩))
    · exact keeps_fault s _
  | _ => cases hk

theorem execForcedPlacement_keeps (m : Arm) (s : State) : Result.Keeps s (execForcedPlacement m s) := by
  refine takeFromArm_keeps fun msg t r ht hk => ?_
  cases msg with
  | forced p p0 step geom =>
    cases hk
    split
    · exact keeps_next (ht.trans (State.keeps_setWs (Workspace.moves_place _ m geom _ p p0 step)))
    · exact keeps_fault s _
  | _ => cases hk

theorem execRestUpdate_keeps (m : Arm) (s : State) : Result.Keeps s (execRestUpdate m s) := by
  refine takeFromArm_keeps fun msg t r ht hk => ?_
  cases msg with
  | rest p e g => cases hk; exact keeps_next (ht.trans (State.keeps_setWs (Workspace.moves_setRecord _ m _)))
  | _ => cases hk

theorem execSetRecordUnknown_keeps (m : Arm) (s : State) : Result.Keeps s (execSetRecordUnknown m s) := by
  refine takeFromArm_keeps fun msg t r ht hk => ?_
  cases msg with
  | setUnknown => cases hk; exact keeps_next (ht.trans (State.keeps_setWs (Workspace.moves_setRecord _ m _)))
  | _ => cases hk

theorem execStateReport_keeps (m : Arm) (s : State) : Result.Keeps s (execStateReport m s) := by
  refine takeFromArm_keeps fun msg t r ht hk => ?_
  cases msg with
  | stateReport st =>
    cases hk
    refine keeps_next (ht.trans (State.keeps_setWs (.of_table rfl rfl rfl (fun h => ?_) rfl)))
    exact Workspace.tableGood_of_queue h rfl rfl (List.Subset.refl _) rfl
  | _ => cases hk

theorem execStatusRead_keeps (m : Arm) (s : State) : Result.Keeps s (execStatusRead m s) := by
  refine takeFromArm_keeps fun msg t r ht hk => ?_
  cases msg with
  | statusRead head part => cases hk; exact keeps_next (ht.trans (State.keeps_answer _ m _))
  | _ => cases hk

theorem execClaimRemoval_keeps (m : Arm) (s : State) : Result.Keeps s (execClaimRemoval m s) := by
  refine takeFromArm_keeps fun msg t r ht hk => ?_
  cases msg with
  | claimRemoval =>
    cases hk
    exact keeps_next ((ht.trans (t.keeps_takeAllFromWs m)).trans (State.keeps_setWs (Workspace.moves_removeClaims _ m)))
  | _ => cases hk

theorem execHeaderPresenceReport_keeps (s : State) : Result.Keeps s (execHeaderPresenceReport s) := by
  rw [execHeaderPresenceReport]
  split
  · have htaken (rest : List FromTable) : s.Keeps (s.setTable { s.table with toWs := rest }) :=
      State.keeps_setTable (fun h => TableUnit.good_of_same h rfl rfl rfl rfl)
    refine keeps_next ((htaken _).trans (State.keeps_setWs (.of_table rfl rfl rfl (fun h => ?_) rfl)))
    exact Workspace.tableGood_of_queue h rfl rfl (List.Subset.refl _) rfl
  · exact keeps_next (.refl s)

theorem takeWsRequest_keeps {m : Arm} {n : ReqName} {s : State} {k : Request → Workspace → Workspace × Answer}
    (h : ∀ r (w : Workspace), w.Moves (k r w).1) : Result.Keeps s (takeWsRequest m n s k) := by
  rintro t ht
  rcases takeWsRequest_next ht with rfl | ⟨r, rest, -, -, -, rfl⟩
  · exact .refl _
  · exact ((s.keeps_setWs_requests rest).trans (State.keeps_setWs (h r _))).trans (State.keeps_answer _ m _)

theorem execRelease_keeps (m : Arm) (s : State) : Result.Keeps s (execRelease m s) := by
  have htaken : Result.Keeps s (takeWsRequest m .release s fun r w => w.release m r.head (readRun r.args)) :=
    takeWsRequest_keeps fun r w => w.moves_release m r.head _
  rw [execRelease]
  split
  · exact keeps_next (((htaken _ ‹_›).trans (State.keeps_takeNewFromWs _ _ .armA)).trans (State.keeps_takeNewFromWs _ _ .armB))
  · exact htaken

theorem takeLeaseTick_keeps (s : State) (cond : Bool) : Result.Keeps s (takeLeaseTick s cond) := by
  rintro t ht
  rcases takeLeaseTick_next ht with rfl | ⟨hdue, -, rfl⟩
  · exact .refl _
  · exact State.keeps_setWs (Workspace.moves_leaseTick hdue)

/-! ### CLAIM (R98 to R101, R115) -/

theorem octetAt_le (os : List Octet) (i : Nat) : octetAt os i ≤ 255 := Nat.le_of_lt_succ (os.getD i 0).isLt

/-- What a claim that is not refused carries: a present arm, a run in range, a lease of 1 to 255 ticks. -/
theorem Workspace.entryGood_of_claim {w : Workspace} {m : Arm} {c : ClaimArgs} {g : BinGeom} (hb : w.bin = some g)
    (h : w.claimRefusal m c.run c.lease = none) (hl : c.lease ≤ 255) (deadline : Tick) :
    (⟨m, c.tag, c.run, c.lease, deadline⟩ : QueueEntry).Good w.active g := by
  simp only [Workspace.claimRefusal, hb] at h
  cases ha : w.active with
  | none => rw [ha] at h; cases h
  | some bank =>
    rw [ha] at h
    simp only at h
    split at h
    · cases h
    · next hpresent =>
      split at h
      · cases h
      · split at h
        · cases h
        · next hrange =>
          simp only [Bool.or_eq_true, not_or, Bool.not_eq_true', Bool.not_eq_false, decide_eq_true_eq, Nat.not_lt] at hrange hpresent
          exact ⟨hpresent, hrange.1, hrange.2, hl⟩

theorem Workspace.moves_grantClaim {w : Workspace} {m : Arm} {c : ClaimArgs} {g : BinGeom} (hb : w.bin = some g)
    (h : w.claimRefusal m c.run c.lease = none) (hl : c.lease ≤ 255) (head : ReqHead) : w.Moves (w.grantClaim g m head c).1 := by
  obtain ⟨hpresent, -, hleast, hmost⟩ := Workspace.entryGood_of_claim hb h hl 0
  refine .of_table rfl rfl rfl (fun ht => Workspace.tableGood_of_map ht rfl rfl (List.Subset.refl _) rfl fun i x hx => ?_) rfl
  split
  · exact ⟨hpresent, hleast, hmost⟩
  · exact hx

theorem apart_of_not_duplicate {m : Arm} {tag : Octet} {r : Run} {q : List QueueEntry} (h : duplicateOf m tag r q = none)
    {lease : Nat} {deadline : Tick} : ∀ e ∈ q, apart e ⟨m, tag, r, lease, deadline⟩ := by
  intro e he harm
  have hnot := List.find?_eq_none.mp h e he
  simp only [harm, beq_self_eq_true, Bool.true_and, Bool.or_eq_true, beq_iff_eq, not_or, Bool.not_eq_true] at hnot
  exact hnot

/-- A claim that waits takes a place in the queue that the quota and the length leave free. -/
theorem State.queueGood_queueClaim {s : State} {m : Arm} {c : ClaimArgs} {g : BinGeom} (hb : s.ws.bin = some g)
    (h : s.ws.claimRefusal m c.run c.lease = none) (hl : c.lease ≤ 255) (head : ReqHead) (b : ClaimCause × Nat)
    (hs : s.QueueGood) : (s.setWs (s.ws.queueClaim m head c b).1).QueueGood := by
  rw [Workspace.queueClaim]
  split
  · exact hs
  · next hdup =>
    split
    · exact hs
    · next hroom =>
      split
      · exact hs
      · next hquota =>
        refine ⟨?_, ?_, fun n => ?_, hs.counts, ?_⟩
        · rcases Workspace.tableGood_cases hs.table with ⟨g', cells, hb', hcells⟩ | ⟨hb', -⟩
          · obtain rfl : g' = g := Option.some.inj (hb'.symm.trans hb)
            obtain ⟨hlen, hscan, howners, hclaims⟩ := (Workspace.tableGood_some hb hcells).mp hs.table
            refine (Workspace.tableGood_some (w := { s.ws with
              queue := s.ws.queue ++ [⟨m, c.tag, c.run, c.lease, after s.ws.tick c.wait⟩] }) hb hcells).mpr
                ⟨hlen, hscan, howners, fun e he => ?_⟩
            rcases List.mem_append.mp he with he | he
            · exact hclaims e he
            · rw [List.mem_singleton.mp he]
              exact Workspace.entryGood_of_claim hb h hl _
          · rw [hb] at hb'
            cases hb'
        · simp only [setWs_ws, List.length_append, List.length_singleton]
          omega
        · have hold := hs.quota n
          simp only [Workspace.quotaUse, queuedOf, setWs_ws, List.filter_append, List.length_append] at hquota hold ⊢
          by_cases hn : n = m
          · subst hn
            simp only [List.filter_cons, List.filter_nil, beq_self_eq_true, if_true, List.length_singleton]
            omega
          · have hm : (m == n) = false := by simpa using Ne.symm hn
            simp only [List.filter_cons, List.filter_nil, hm, Bool.false_eq_true, if_false, List.length_nil]
            omega
        · refine List.pairwise_append.mpr ⟨hs.distinct, List.pairwise_singleton _ _, fun e he f hf => ?_⟩
          rw [List.mem_singleton.mp hf]
          exact apart_of_not_duplicate hdup e he

theorem Workspace.queueClaim_tickCount (w : Workspace) (m : Arm) (head : ReqHead) (c : ClaimArgs) (b : ClaimCause × Nat) :
    (w.queueClaim m head c b).1.tickCount = w.tickCount := by
  rw [Workspace.queueClaim]
  split
  · rfl
  · split
    · rfl
    · split <;> rfl

theorem State.keeps_claim (s : State) (m : Arm) (head : ReqHead) {c : ClaimArgs} (hl : c.lease ≤ 255) :
    s.Keeps (s.setWs (s.ws.claim m head c).1) := by
  rw [Workspace.claim]
  split
  · exact .refl s
  · exact .refl s
  · next g hrefusal hb =>
    split
    · exact State.keeps_setWs (Workspace.moves_grantClaim hb hrefusal hl head)
    · next b _ =>
      split
      · exact .refl s
      · have hticks := s.ws.queueClaim_tickCount m head c b
        exact ⟨id, State.queueGood_queueClaim hb hrefusal hl head b, id, id,
          fun hs => ⟨hs.1.trans hticks.symm, fun n => (hs.2 n).trans hticks.symm⟩, id⟩

theorem execClaim_keeps (m : Arm) (s : State) : Result.Keeps s (execClaim m s) := by
  rintro t ht
  rcases takeWsRequest_next ht with rfl | ⟨r, rest, -, -, -, rfl⟩
  · exact .refl _
  · exact ((s.keeps_setWs_requests rest).trans (State.keeps_claim _ m r.head (octetAt_le _ _))).trans (State.keeps_answer _ m _)

/-! ### COMMIT (R150, R151) -/

theorem State.keeps_sendCompletion (s : State) (c : Completion) : s.Keeps (s.sendCompletion c) :=
  State.keeps_setTable (fun h => TableUnit.good_of_same h rfl rfl rfl rfl)

theorem State.keeps_notifyCommit (s : State) (new : Bank) : s.Keeps (s.notifyCommit new) := by
  have hnotified := (s.keeps_toArm .armA (e := .commitNotice (new.present .armA) new.profiles.a) rfl).trans
    (State.keeps_toArm _ .armB (e := .commitNotice (new.present .armB) new.profiles.b) rfl)
  exact hnotified.trans (State.keeps_of_same rfl rfl rfl rfl rfl rfl)

theorem execCommit_keeps (s : State) : Result.Keeps s (execCommit s) := by
  rw [execCommit]
  split
  · next new digest rest _ =>
    have htaken : s.Keeps (s.setTable { s.table with toWs := rest }) :=
      State.keeps_setTable (fun h => TableUnit.good_of_same h rfl rfl rfl rfl)
    refine keeps_next (htaken.trans ?_)
    rw [State.takeCommit]
    split
    · exact State.keeps_sendCompletion _ _
    · next hnone =>
      exact ((State.keeps_setWs (Workspace.moves_commitDone hnone)).trans (State.keeps_notifyCommit _ _)).trans
        (State.keeps_sendCompletion _ _)
  · exact keeps_next (.refl s)

/-! ### The commands of the table unit (R144) -/

namespace TableUnit

theorem good_of_dropped {t u : TableUnit} (hshadow : u.shadow = t.shadow) (hdigest : u.digest = t.digest)
    (hresult : u.result = t.result) (hagreement : ∀ m, u.agreement.get m = t.agreement.get m ∨ u.agreement.get m = none)
    (h : t.Good) : u.Good where
  digest := by rw [hshadow, hdigest, h.digest]
  result := by rw [hshadow, hresult, h.result]
  agreed m d hd := by
    rcases hagreement m with hm | hm <;> rw [hm] at hd
    · rw [hdigest, hresult]
      exact h.agreed m d hd
    · cases hd

theorem good_of_empty {t : TableUnit} (hdigest : t.digest = digestOf t.shadow) (hresult : t.result = validate t.shadow)
    (hagreement : t.agreement = ⟨none, none⟩) : t.Good where
  digest := hdigest
  result := hresult
  agreed m d hd := by
    rw [hagreement] at hd
    cases m <;> cases hd

/-- A drop empties one record and raises; it leaves the rest. -/
theorem drop_cases (t : TableUnit) (m : Arm) (cause : DropCause) (port : Option Side) :
    t.drop m cause port = t ∧ t.agreement.get m = none
    ∨ ∃ raises, t.drop m cause port = { t with agreement := t.agreement.set m none, raises := raises } := by
  rw [drop]
  split
  · exact .inl ⟨rfl, ‹_›⟩
  · exact .inr ⟨_, rfl⟩

@[simp] theorem drop_shadow (t : TableUnit) (m : Arm) (cause : DropCause) (port : Option Side) :
    (t.drop m cause port).shadow = t.shadow := by
  rw [drop]; split <;> rfl

@[simp] theorem drop_digest (t : TableUnit) (m : Arm) (cause : DropCause) (port : Option Side) :
    (t.drop m cause port).digest = t.digest := by
  rw [drop]; split <;> rfl

@[simp] theorem drop_result (t : TableUnit) (m : Arm) (cause : DropCause) (port : Option Side) :
    (t.drop m cause port).result = t.result := by
  rw [drop]; split <;> rfl

theorem drop_agreement (t : TableUnit) (m : Arm) (cause : DropCause) (port : Option Side) :
    (t.drop m cause port).agreement = t.agreement.set m none := by
  rw [drop]
  split
  · next h => rw [← h, PerArm.set_get]
  · rfl

theorem drop_good {t : TableUnit} (m : Arm) (cause : DropCause) (port : Option Side) (h : t.Good) :
    (t.drop m cause port).Good := by
  refine good_of_dropped (t.drop_shadow m cause port) (t.drop_digest m cause port) (t.drop_result m cause port) (fun n => ?_) h
  rw [drop_agreement, PerArm.get_set]
  split
  · exact .inr rfl
  · exact .inl rfl

theorem dropAll_agreement (t : TableUnit) (cause : DropCause) : (t.dropAll cause).agreement = ⟨none, none⟩ := by
  rw [dropAll, drop_agreement, drop_agreement]
  rfl

/-- New contents, with no agreement left of the old. -/
theorem setShadow_dropAll_good (t : TableUnit) (b : Bank) (cause : DropCause) : ((t.setShadow b).dropAll cause).Good :=
  good_of_empty (by simp [dropAll, setShadow]) (by simp [dropAll, setShadow]) (dropAll_agreement _ _)

theorem reportPresence_good {t : TableUnit} (h : t.Good) : t.reportPresence.Good := good_of_same h rfl rfl rfl rfl

theorem tableWrite_good {t : TableUnit} (r : Request) (h : t.Good) : (t.tableWrite r).1.Good := by
  simp only [tableWrite]
  split
  · split
    · exact t.setShadow_dropAll_good _ _
    · exact h
  · exact h

theorem headerWrite_good {t : TableUnit} (r : Request) (h : t.Good) : (t.headerWrite r).1.Good := by
  simp only [headerWrite]
  split
  · exact reportPresence_good (t.setShadow_dropAll_good _ _)
  · exact h

theorem profileWrite_good {t : TableUnit} (r : Request) (h : t.Good) : (t.profileWrite r).1.Good := by
  simp only [profileWrite]
  split
  · exact t.setShadow_dropAll_good _ _
  · exact h

theorem reset_good (t : TableUnit) : t.reset.Good := reportPresence_good (t.setShadow_dropAll_good _ _)

/-- A record takes the current digest of a shadow that passes. -/
theorem agree_good {t : TableUnit} (active : Option Bank) (m : Arm) (r : Request) (h : t.Good) : (t.agree active m r).1.Good := by
  simp only [agree]
  split
  · exact h
  · split
    · exact h
    · next hdigest =>
      split
      · exact h
      · next hpassed =>
        have hagreed : ({ t with
            agreement := t.agreement.set m (some (r.args.getD 0 0 ++ r.args.getD 1 0)) } : TableUnit).Good := by
          refine ⟨h.digest, h.result, fun n d hd => ?_⟩
          simp only [PerArm.get_set, Option.mem_def] at hd
          split at hd
          · cases hd
            exact ⟨not_not.mp hdigest, hpassed⟩
          · exact h.agreed n d hd
        split
        · exact good_of_same hagreed rfl rfl rfl rfl
        · exact hagreed

theorem withdraw_good {t : TableUnit} (m : Arm) (h : t.Good) : ({ t with agreement := t.agreement.set m none } : TableUnit).Good := by
  refine good_of_dropped (t := t) rfl rfl rfl (fun n => ?_) h
  rw [PerArm.get_set]
  split
  · exact .inr rfl
  · exact .inl rfl

theorem lockReport_good {t : TableUnit} (side : Side) (m : Arm) (locked : Bool) (h : t.Good) : (t.lockReport side m locked).Good := by
  have hnoted (locked : Bool) : (t.noteLock side m locked).Good := by
    cases side with
    | ctrl => exact good_of_same h rfl rfl rfl rfl
    | drive => exact h
  rw [lockReport]
  split
  · exact hnoted true
  · exact drop_good m _ _ (hnoted false)

theorem complete_good {t : TableUnit} (c : Completion) (h : t.Good) : (t.complete c).Good := by
  cases c with
  | done old label digest changed =>
    refine good_of_empty ?_ ?_ rfl <;> simp only [complete, raiseBoth, reportPresence, endCommit, setShadow]
  | refused why => exact good_of_empty (t := (t.endCommit.raiseBoth .commitRefused _)) h.digest h.result rfl

end TableUnit

theorem takeTableRequest_keeps {m : Arm} {n : ReqName} {s : State} {k : Request → TableUnit → TableUnit × Answer}
    (h : ∀ r (t : TableUnit), t.Good → (k r t).1.Good) : Result.Keeps s (takeTableRequest m n s k) := by
  rintro t ht
  rcases takeTableRequest_next ht with rfl | ⟨r, rest, -, -, -, -, rfl⟩
  · exact .refl _
  · refine .trans (State.keeps_setTable fun hs => h r _ ?_) (State.keeps_answer _ m _)
    exact TableUnit.good_of_same hs rfl rfl rfl rfl

theorem takeTableRead_keeps (m : Arm) (n : ReqName) (s : State) (k : Request → TableUnit → Answer) :
    Result.Keeps s (takeTableRead m n s k) := by
  rintro t ht
  rcases takeTableRead_next ht with rfl | ⟨rest, a, rfl⟩
  · exact .refl _
  · exact .trans (State.keeps_setTable (t := { s.table with arrivals := rest })
      (fun h => TableUnit.good_of_same h rfl rfl rfl rfl)) (State.keeps_answer _ m _)

theorem execTableRead_keeps (m : Arm) (s : State) : Result.Keeps s (execTableRead m s) :=
  result_keeps_ite (fun _ => takeWsRequest_keeps fun _ w => .refl w) fun _ => takeTableRead_keeps m _ s _

theorem execTableLockReport_keeps (s : State) : Result.Keeps s (execTableLockReport s) := by
  rintro t ht
  rcases takeTable_next ht with rfl | ⟨e, rest, -, -, hk⟩
  · exact .refl _
  · cases e with
    | lock side m locked =>
      cases hk
      exact State.keeps_setTable fun hs => TableUnit.lockReport_good side m locked
        (TableUnit.good_of_same hs rfl rfl rfl rfl)
    | request r => cases hk

theorem execCommitCompletion_keeps (s : State) : Result.Keeps s (execCommitCompletion s) := by
  rw [execCommitCompletion]
  split
  · exact keeps_next (State.keeps_setTable (TableUnit.complete_good _))
  · exact keeps_next (.refl s)

/-! ### The commands of the report unit, the request unit and the ports -/

theorem takeReportRequest_keeps {m : Arm} {n : ReqName} {s : State} {k : Request → ReportUnit → ReportUnit × Answer}
    (h : ∀ q (r : ReportUnit), r.Good → (k q r).1.Good) (ht : ∀ q (r : ReportUnit), (k q r).1.tickCount = r.tickCount) :
    Result.Keeps s (takeReportRequest m n s k) := by
  rintro t hnext
  rcases takeReportRequest_next hnext with rfl | ⟨q, rest, -, -, -, rfl⟩
  · exact .refl _
  · exact .trans (State.keeps_setReport (r := (k q { s.report with requests := rest }).1)
      (fun hs => h q _ ⟨hs.flags, hs.settings⟩) (ht q _)) (State.keeps_answer _ m _)

theorem execReportTick_keeps (s : State) : Result.Keeps s (execReportTick s) := by
  refine result_keeps_ite (fun _ => keeps_next (.refl s)) fun hdue => keeps_next (State.keeps_setReport (fun h => ⟨h.flags, h.settings⟩) ?_)
  obtain ⟨n, hn⟩ := Nat.exists_eq_succ_of_ne_zero hdue
  simp only [ReportUnit.tickCount, hn, Nat.succ_eq_add_one, Nat.add_sub_cancel]
  rw [Nat.add_comm n 1, BitVec.ofNat_add, BitVec.add_assoc]
  rfl

theorem State.keeps_setRaises (s : State) (b : Block) (rs : List Raise) : s.Keeps (s.setRaises b rs) := by
  cases b with
  | arm m => exact State.keeps_setArm ⟨rfl, id⟩
  | port side m =>
    cases side with
    | ctrl => exact State.keeps_setPort id rfl
    | drive => exact State.keeps_setDrivePort id
  | workspace =>
    exact State.keeps_setWs (.of_table rfl rfl rfl
      (fun h => Workspace.tableGood_of_queue h rfl rfl (List.Subset.refl _) rfl) rfl)
  | table => exact State.keeps_setTable (fun h => TableUnit.good_of_same h rfl rfl rfl rfl)

theorem State.setRaises_report (s : State) (b : Block) (rs : List Raise) : (s.setRaises b rs).report = s.report := by
  cases b with
  | port side m => cases side <;> rfl
  | _ => rfl

theorem execEventRaise_keeps (b : Block) (s : State) : Result.Keeps s (execEventRaise b s) := by
  rw [execEventRaise]
  split
  · refine keeps_next ((s.keeps_setRaises b _).trans (State.keeps_setReport ?_ ?_)) <;> rw [State.setRaises_report]
    · exact ReportUnit.takeRaise_good _
    · rfl
  · exact keeps_next (.refl s)

theorem execRequestDecode_keeps (m : Arm) (s : State) : Result.Keeps s (execRequestDecode m s) := by
  rw [execRequestDecode]
  split
  · simp only
    split
    · exact keeps_next ((s.keeps_setReq _).trans (State.keeps_passRequest _ _))
    · exact keeps_next ((s.keeps_setReq _).trans (State.keeps_placeAnswer _ m _))
  · exact keeps_next (.refl s)

theorem execAnswerPlace_keeps (m : Arm) (s : State) : Result.Keeps s (execAnswerPlace m s) := by
  rw [execAnswerPlace]
  split
  · exact keeps_next ((s.keeps_setReq _).trans (State.keeps_placeAnswer _ m _))
  · exact keeps_next (.refl s)

theorem execInsertionOpportunity_keeps (m : Arm) (s : State) : Result.Keeps s (execInsertionOpportunity m s) :=
  result_keeps_ite (fun _ => keeps_next (s.keeps_arbitrate m)) fun _ => keeps_next (.refl s)

theorem execNoticeSelection_keeps (m : Arm) (s : State) : Result.Keeps s (execNoticeSelection m s) :=
  result_keeps_ite (fun _ => keeps_next (s.keeps_selectNotice m)) fun _ => keeps_next (.refl s)

theorem execOutcomeHandover_keeps (m : Arm) (s : State) : Result.Keeps s (execOutcomeHandover m s) := by
  rw [execOutcomeHandover]
  split
  · exact keeps_next (State.keeps_takeFromWs ‹_›)
  · exact keeps_next (.refl s)

theorem execOutcomeDiscard_keeps (m : Arm) (s : State) : Result.Keeps s (execOutcomeDiscard m s) := by
  rw [execOutcomeDiscard]
  split
  · exact keeps_next (State.keeps_takeFromWs ‹_›)
  · exact keeps_next (.refl s)

theorem execSentReport_keeps (m : Arm) (s : State) : Result.Keeps s (execSentReport m s) := by
  rw [execSentReport]
  split
  · exact keeps_next (State.keeps_lowerCount ‹_› rfl)
  · exact keeps_next (.refl s)

theorem execDiscardReport_keeps (m : Arm) (s : State) : Result.Keeps s (execDiscardReport m s) := by
  rw [execDiscardReport]
  split
  · exact keeps_next (State.keeps_lowerCount ‹_› (Nat.zero_add _))
  · exact keeps_next (.refl s)

theorem execFrameArrival_keeps (side : Side) (m : Arm) (f : RxFrame) (s : State) : Result.Keeps s (execFrameArrival side m f s) :=
  result_keeps_ite (fun _ => keeps_next (s.keeps_takeFrame side m f)) fun _ => keeps_next (.refl s)

theorem takePortExpiry_keeps (side : Side) (m : Arm) (s : State) (cond : Bool) : Result.Keeps s (takePortExpiry side m s cond) :=
  result_keeps_ite (fun _ => keeps_next (s.keeps_takeExpiry side m)) fun _ => keeps_next (.refl s)

/-! ### Every command -/

theorem exec_keeps (c : Instr) (s : State) : Result.Keeps s (exec c s) := by
  cases c with
  | frameArrival side m f => exact execFrameArrival_keeps side m f s
  | portCadenceExpiry side m => exact takePortExpiry_keeps side m s true
  | lockLossSilence side m => exact takePortExpiry_keeps side m s _
  | eventRaise b => exact execEventRaise_keeps b s
  | powerOn straps => exact keeps_next (s.keeps_powerOn ..)
  | resetAssert => exact keeps_next (s.keeps_powerOn ..)
  | requestDecode m => exact execRequestDecode_keeps m s
  | setpointArrival m => exact execSetpointArrival_keeps m s
  | setpointVerdict m => exact execSetpointVerdict_keeps m s
  | cadenceExpiryRun m =>
    rw [exec_cadenceExpiryRun, execCadenceExpiryRun]
    exact takeExpiry_keeps fun _ => finishRun_keeps
  | frameLoss m =>
    rw [exec_frameLoss, execFrameLoss]
    exact takeExpiry_keeps fun _ => finishRun_keeps
  | feedbackLoss m => exact execFeedbackLoss_keeps m s
  | cadenceExpiryHalting m =>
    rw [exec_cadenceExpiryHalting, execCadenceExpiryHalting]
    exact takeExpiry_keeps fun _ => finishHalting_keeps
  | cadenceExpirySettling m =>
    rw [exec_cadenceExpirySettling, execCadenceExpirySettling]
    exact takeExpiry_keeps fun _ => finishSettling_keeps
  | settleTimeout m =>
    rw [exec_settleTimeout, execSettleTimeout]
    exact takeExpiry_keeps fun _ => finishSettling_keeps
  | cadenceExpiryQuiet m => exact execCadenceExpiryQuiet_keeps m s
  | feedbackArrival m => exact execFeedbackArrival_keeps m s
  | paramArrival m => exact execParamArrival_keeps m s
  | armTickCopy m => exact execArmTickCopy_keeps m s
  | lockGained m => exact execLockGained_keeps m s
  | controllerLockLoss m => exact execControllerLockLoss_keeps m s
  | driveLockLoss m => exact execDriveLockLoss_keeps m s
  | tableLockReport => exact execTableLockReport_keeps s
  | armEnable m =>
    rw [exec_armEnable, execArmEnable]
    exact takeArmRequest_finish_keeps fun r u => u.enable_steady m r
  | enableVerdict m => exact execEnableVerdict_keeps m s
  | armHalt m =>
    rw [exec_armHalt, execArmHalt]
    exact takeArmRequest_finish_keeps fun r u => u.haltRequest_steady m r
  | armCut m => exact execArmCut_keeps m s
  | armClear m =>
    rw [exec_armClear, execArmClear]
    exact takeArmRequest_finish_keeps fun r u => u.clearRequest_steady m r
  | armReset m =>
    rw [exec_armReset, execArmReset]
    exact takeArmRequest_finish_keeps fun r u => u.resetRequest_steady m r
  | armStatus m =>
    rw [exec_armStatus, execArmStatus]
    exact takeArmRequest_keeps fun r u hu => finishArm_keeps (hu.trans (u.send_steady _))
  | statusRead m => exact execStatusRead_keeps m s
  | envelopePush m => exact execEnvelopePush_keeps m s
  | envelopePop m => exact execEnvelopePop_keeps m s
  | envelopeVerdict m => exact execEnvelopeVerdict_keeps m s
  | maskSet m =>
    rw [exec_maskSet, execMaskSet]
    exact takeArmRequest_finish_keeps fun r u => u.maskRequest_steady r
  | contextSave m =>
    rw [exec_contextSave, execContextSave]
    exact takeArmRequest_keeps fun _ _ hu => finishArm_keeps hu
  | contextLoad m =>
    rw [exec_contextLoad, execContextLoad]
    exact takeArmRequest_finish_keeps fun r u => u.loadRequest_steady r
  | commitNotice m => exact execCommitNotice_keeps m s
  | checkedPlacement m => exact execCheckedPlacement_keeps m s
  | forcedPlacement m => exact execForcedPlacement_keeps m s
  | restUpdate m => exact execRestUpdate_keeps m s
  | setRecordUnknown m => exact execSetRecordUnknown_keeps m s
  | stateReport m => exact execStateReport_keeps m s
  | claim m => exact execClaim_keeps m s
  | renew m =>
    rw [exec_renew, execRenew]
    exact takeWsRequest_keeps fun r w => w.moves_renew m r.head _ (octetAt_le _ _)
  | release m => exact execRelease_keeps m s
  | cancel m =>
    rw [exec_cancel, execCancel]
    exact takeWsRequest_keeps fun r w => w.moves_cancel m r.head _
  | cellRead m =>
    rw [exec_cellRead, execCellRead]
    exact takeWsRequest_keeps fun _ w => .refl w
  | leaseTick => exact takeLeaseTick_keeps s _
  | leaseLapse => exact takeLeaseTick_keeps s _
  | waitExpired => exact takeLeaseTick_keeps s _
  | claimRemoval m => exact execClaimRemoval_keeps m s
  | outcomeDiscard m => exact execOutcomeDiscard_keeps m s
  | discardReport m => exact execDiscardReport_keeps m s
  | sentReport m => exact execSentReport_keeps m s
  | outcomeHandover m => exact execOutcomeHandover_keeps m s
  | answerPlace m => exact execAnswerPlace_keeps m s
  | insertionOpportunity m => exact execInsertionOpportunity_keeps m s
  | noticeSelection m => exact execNoticeSelection_keeps m s
  | reportTick => exact execReportTick_keeps s
  | eventsRead m =>
    rw [exec_eventsRead, execEventsRead]
    exact takeReportRequest_keeps (fun _ _ h => h) fun _ _ => rfl
  | eventsClear m =>
    rw [exec_eventsClear, execEventsClear]
    exact takeReportRequest_keeps (fun q _ => ReportUnit.clearRequest_good m q) fun q r => r.clearRequest_tickCount m q
  | noticeSet m =>
    rw [exec_noticeSet, execNoticeSet]
    exact takeReportRequest_keeps (fun q _ => ReportUnit.noticeRequest_good q) fun q r => r.noticeRequest_tickCount q
  | tableWrite m =>
    rw [exec_tableWrite, execTableWrite]
    exact takeTableRequest_keeps fun r _ => TableUnit.tableWrite_good r
  | headerWrite m =>
    rw [exec_headerWrite, execHeaderWrite]
    exact takeTableRequest_keeps fun r _ => TableUnit.headerWrite_good r
  | profileWrite m =>
    rw [exec_profileWrite, execProfileWrite]
    exact takeTableRequest_keeps fun r _ => TableUnit.profileWrite_good r
  | tableRead m => exact execTableRead_keeps m s
  | digestRead m =>
    rw [exec_digestRead, execDigestRead]
    exact takeTableRead_keeps m _ s _
  | tablesReset m =>
    rw [exec_tablesReset, execTablesReset]
    exact takeTableRequest_keeps fun _ t _ => t.reset_good
  | headerPresenceReport => exact execHeaderPresenceReport_keeps s
  | agree m =>
    rw [exec_agree, execAgree]
    exact takeTableRequest_keeps fun r _ => TableUnit.agree_good _ m r
  | agreeWithdraw m =>
    rw [exec_agreeWithdraw, execAgreeWithdraw]
    exact takeTableRequest_keeps fun _ _ => TableUnit.withdraw_good m
  | commit => exact execCommit_keeps s
  | commitCompletion => exact execCommitCompletion_keeps s

/-! ### Time passes -/

theorem unitEvents_ticks (tick expiry first : Bool) :
    ((unitEvents tick expiry first).filter ArmEvent.isTick).length = tick.toNat := by
  cases tick <;> cases expiry <;> cases first <;> rfl

/-- A unit of time delivers the same lease tick to all four units that count. -/
theorem State.timePasses_ticksGood {s : State} (h : s.resetN = true) (hs : s.TicksGood) : s.timePasses.TicksGood := by
  obtain ⟨hreport, harms⟩ := hs
  have hws : s.timePasses.ws.tickCount = s.ws.tickCount + BitVec.ofNat 32 s.timebase.ticks.toNat := by
    rw [State.timePasses_ws h, Workspace.tickCount, Workspace.tickCount, BitVec.ofNat_add, BitVec.add_assoc]
  refine (State.ticksGood_iff _).mpr ⟨?_, fun m => ?_⟩ <;> rw [hws]
  · rw [State.timePasses_report h, ReportUnit.tickCount, BitVec.ofNat_add, ← BitVec.add_assoc]
    exact congrArg (· + _) hreport
  · rw [State.timePasses_arm h, ArmUnit.tickCount]
    simp only [List.filter_append, List.length_append, unitEvents_ticks]
    rw [BitVec.ofNat_add, ← BitVec.add_assoc]
    exact congrArg (· + _) (harms m)

theorem State.timePasses_keeps (s : State) : s.Keeps s.timePasses := by
  cases h : s.resetN with
  | false =>
    rw [State.timePasses_of_low h]
    exact .refl s
  | true =>
    obtain ⟨htable, -⟩ := s.timePasses_rest
    exact
      { table := fun hs => htable ▸ hs
        queue := fun hs =>
          { table := by
              rw [State.timePasses_ws h]
              exact Workspace.tableGood_of_queue hs.table rfl rfl (List.Subset.refl _) rfl
            length := by
              rw [State.timePasses_ws h]
              exact hs.length
            quota := fun m => by
              rw [State.timePasses_ws h]
              exact hs.quota m
            counts := fun m => by
              rw [State.timePasses_ws h, State.timePasses_port h]
              exact hs.counts m
            distinct := by
              rw [State.timePasses_ws h]
              exact hs.distinct }
        locks := fun hs side m => by
          cases side with
          | ctrl =>
            rw [State.lockOf, State.timePasses_port h]
            exact hs .ctrl m
          | drive =>
            rw [State.lockOf, State.timePasses_drivePort h]
            exact hs .drive m
        report := fun hs => by
          rw [State.timePasses_report h]
          exact ⟨hs.flags, hs.settings⟩
        ticks := State.timePasses_ticksGood h
        envelopes := fun hs m => by
          rw [State.timePasses_arm h]
          exact hs m }

/-- What a step does is a command on the rest of the queue, a command for what waits at a port, or the passing of time. -/
theorem step_keeps {s t : State} (h : step s = .next t) : s.Keeps t := by
  unfold step at h
  split at h
  · split at h
    · exact exec_keeps _ s t h
    · cases h
      exact s.timePasses_keeps
  · next c rest _ =>
    have hrest : s.Keeps { s with pending := rest } := State.keeps_of_same rfl rfl rfl rfl rfl rfl
    exact hrest.trans (exec_keeps c _ t h)

/-! ### The obligations -/

/-- Settles O14: every step keeps the table unit's law; the law, written out. -/
theorem stepKeepsTableLaw : Obligations.StepKeepsTableLaw :=
  ⟨fun _ _ hs h => (step_keeps h).table hs, fun _ => ⟨fun h => ⟨h.digest, h.result, h.agreed⟩, fun ⟨hd, hr, ha⟩ => ⟨hd, hr, ha⟩⟩⟩

/-- Settles O15. -/
theorem stepKeepsQueueLaws : Obligations.StepKeepsQueueLaws := fun _ _ hs h => (step_keeps h).queue hs

/-- Settles O16. -/
theorem stepKeepsRanges : Obligations.StepKeepsRanges := fun _ _ h =>
  ⟨(step_keeps h).locks, (step_keeps h).report, (step_keeps h).envelopes⟩

/-- Settles O17. -/
theorem stepKeepsTickCounts : Obligations.StepKeepsTickCounts := fun _ _ hs h => (step_keeps h).ticks hs

end Sys2Proof.Machine
end

