-- ==== Sys2Proof/Proofs/Frames.lean ====
section
/-! PROOFS. Frames as octets: the tests of a received frame and what a frame of the monitor reads back as, settling FrameTests
and MonitorFramesReadBack. -/

namespace Sys2Proof.Machine

/-! ### The tests of a frame (R156 to R158) -/

theorem isNoise_iff (f : RxFrame) : isNoise f = true ↔ ∀ o ∈ f.octets.head?, o.extractLsb' 4 4 ≠ 5#4 := by
  rw [isNoise]
  cases f.octets with
  | nil => simp
  | cons o os => simp

/-- A frame as long as its length octet says has its four header octets. -/
theorem rxEndGood_iff (f : RxFrame) :
    rxEndGood f = true ↔ f.ended = true ∧ rxLength f ≤ 64 ∧ f.octets.length = rxLength f + 6 := by
  simp only [rxEndGood, Bool.and_eq_true, decide_eq_true_eq]
  constructor
  · rintro ⟨⟨⟨hended, -⟩, hlen⟩, htotal⟩
    exact ⟨hended, hlen, htotal⟩
  · rintro ⟨hended, hlen, htotal⟩
    exact ⟨⟨⟨hended, by omega⟩, hlen⟩, htotal⟩

theorem rxCheckGood_iff (f : RxFrame) :
    rxCheckGood f = true ↔ f.octets.drop (rxLength f + 4) = octets16 (check (f.octets.take (rxLength f + 4))) :=
  beq_iff_eq

/-- The acceptance table (R158). -/
theorem accepts_iff (side : Side) (monitor node : Node) (kind len : Nat) : accepts side monitor kind node len = true
    ↔ kind = 0 ∨ (side = .ctrl ∧ kind = 1 ∧ node ≠ monitor ∧ len = 19) ∨ (side = .drive ∧ kind = 2 ∧ node ≠ monitor ∧ len = 18)
      ∨ (kind = 3 ∧ node ≠ monitor) ∨ (side = .ctrl ∧ kind = 4 ∧ node = monitor) := by
  match kind with
  | 0 => simp [accepts]
  | 1 => cases side <;> simp [accepts]
  | 2 => cases side <;> simp [accepts]
  | 3 => simp [accepts]
  | 4 => cases side <;> simp [accepts]
  | n + 5 => simp [accepts]

theorem rxNode_getD (f : RxFrame) : (rxNode f).getD 0 = (f.octets.getD 1 0).setWidth 4 := by
  rw [rxNode, List.getD_eq_getElem?_getD]
  cases f.octets[1]? <;> rfl

/-- The three tests in their order. -/
theorem frameFailure_iff (side : Side) (monitor : Node) (f : RxFrame) {ends checks accepted : Prop}
    (he : rxEndGood f = true ↔ ends) (hc : rxCheckGood f = true ↔ checks)
    (ha : accepts side monitor (rxKind f) ((rxNode f).getD 0) (rxLength f) = true ↔ accepted) :
    (frameFailure side monitor f = some .endError ↔ ¬ends)
      ∧ (frameFailure side monitor f = some .checkError ↔ ends ∧ ¬checks)
      ∧ (frameFailure side monitor f = some .kindError ↔ ends ∧ checks ∧ ¬accepted)
      ∧ (frameFailure side monitor f = none ↔ ends ∧ checks ∧ accepted) := by
  rw [← he, ← hc, ← ha, frameFailure]
  cases rxEndGood f with
  | false => simp
  | true =>
    cases rxCheckGood f with
    | false => simp
    | true => cases accepts side monitor (rxKind f) ((rxNode f).getD 0) (rxLength f) <;> simp

/-- Settles O18: each test by itself, and their order. -/
theorem frameTests : Obligations.FrameTests := by
  refine ⟨isNoise_iff, fun side monitor f => ?_⟩
  have haccepts := accepts_iff side monitor ((rxNode f).getD 0) (rxKind f) (rxLength f)
  rw [rxNode_getD] at haccepts
  exact frameFailure_iff side monitor f (rxEndGood_iff f) (rxCheckGood_iff f) (by rw [rxNode_getD]; exact haccepts)

/-! ### Counts and positions as octets (R186, R187) -/

theorem getD_drop_take (os : List Octet) {n i : Nat} (k : Nat) (h : i < n) : ((os.drop k).take n).getD i 0 = os.getD (k + i) 0 := by
  simp [List.getD_eq_getElem?_getD, h]

/-- A count read from within a cut-out of the octets is read from the octets themselves. -/
theorem bits32At_drop_take (os : List Octet) {n i : Nat} (k : Nat) (h : i + 3 < n) :
    bits32At ((os.drop k).take n) i = bits32At os (k + i) := by
  simp only [bits32At, getD_drop_take os k (show i < n by omega), getD_drop_take os k (show i + 1 < n by omega),
    getD_drop_take os k (show i + 2 < n by omega), getD_drop_take os k h, Nat.add_assoc]

theorem posAt_drop_take (os : List Octet) {n i : Nat} (k : Nat) (h : i + 15 < n) :
    posAt ((os.drop k).take n) i = posAt os (k + i) := by
  simp only [posAt, count32At, bits32At_drop_take os k (show i + 3 < n by omega), bits32At_drop_take os k (show i + 4 + 3 < n by omega),
    bits32At_drop_take os k (show i + 8 + 3 < n by omega), bits32At_drop_take os k (show i + 12 + 3 < n by omega), Nat.add_assoc]

theorem readSetpoint_eq (os : List Octet) :
    readSetpoint os = ⟨os, os.getD 2 0, posAt os 4, os.getD 20 0, os.getD 21 0, os.getD 22 0⟩ := by
  simp only [readSetpoint, posAt_drop_take os 4 (show 0 + 15 < 19 by omega), getD_drop_take os 4 (show 16 < 19 by omega),
    getD_drop_take os 4 (show 17 < 19 by omega), getD_drop_take os 4 (show 18 < 19 by omega)]

theorem readFeedback_eq (os : List Octet) :
    readFeedback os = ⟨(os.getD 1 0).setWidth 4, os.getD 2 0, (os.drop 4).take 18, os.getD 4 0, posAt os 5, os.getD 21 0⟩ := by
  simp only [readFeedback, posAt_drop_take os 4 (show 1 + 15 < 18 by omega), getD_drop_take os 4 (show 0 < 18 by omega),
    getD_drop_take os 4 (show 17 < 18 by omega)]

/-- The counts that fit in four octets. -/
def Fits32 (q : Int) : Prop := -2147483648 ≤ q ∧ q ≤ 2147483647

theorem count32_eq {q : Int} (h : Fits32 q) : count32 q = octets32 (BitVec.ofInt 32 q) :=
  congrArg octets32 (if_pos h)

theorem octets32_append (v : BitVec 32) :
    (v.extractLsb' 24 8 ++ v.extractLsb' 16 8 ++ v.extractLsb' 8 8 ++ v.extractLsb' 0 8 : BitVec 32) = v := by
  ext i hi
  simp only [BitVec.getElem_append, BitVec.getElem_extractLsb']
  split
  · next h => simp [BitVec.getLsbD_eq_getElem hi]
  · split
    · next h h' => simp [show 8 + (i - 8) = i by omega, BitVec.getLsbD_eq_getElem hi]
    · split
      · next h h' h'' => simp [show 16 + (i - 8 - 8) = i by omega, BitVec.getLsbD_eq_getElem hi]
      · next h h' h'' => simp [show 24 + (i - 8 - 8 - 8) = i by omega, BitVec.getLsbD_eq_getElem hi]

theorem toInt_ofInt32 {q : Int} (h : Fits32 q) : (BitVec.ofInt 32 q).toInt = q := by
  obtain ⟨hlo, hhi⟩ := h
  rw [BitVec.toInt_ofInt]
  exact Int.bmod_eq_of_le (by omega) (by omega)

/-- A count written as four octets reads back. -/
theorem count32At_octets32 {q : Int} (h : Fits32 q) (pre post : List Octet) :
    count32At (pre ++ octets32 (BitVec.ofInt 32 q) ++ post) pre.length = q := by
  have hbits : bits32At (pre ++ octets32 (BitVec.ofInt 32 q) ++ post) pre.length = BitVec.ofInt 32 q := by
    have hget (i : Nat) : (pre ++ octets32 (BitVec.ofInt 32 q) ++ post).getD (pre.length + i) 0
        = (octets32 (BitVec.ofInt 32 q) ++ post).getD i 0 := by
      rw [List.append_assoc, List.getD_eq_getElem?_getD, List.getD_eq_getElem?_getD, List.getElem?_append_right (by omega),
        Nat.add_sub_cancel_left]
    have hget0 := hget 0
    rw [Nat.add_zero] at hget0
    simp only [bits32At, hget, hget0]
    exact octets32_append _
  rw [count32At, hbits, toInt_ofInt32 h]

/-- Every count of a position fits in four octets. -/
def Pos.Fits (p : Pos) : Prop := Fits32 p.xyz.x ∧ Fits32 p.xyz.y ∧ Fits32 p.xyz.z ∧ Fits32 p.w

theorem Pos.fits_of_forall {p : Pos} (h : ∀ q ∈ [p.xyz.x, p.xyz.y, p.xyz.z, p.w], -2147483648 ≤ q ∧ q ≤ 2147483647) : p.Fits := by
  simpa [Pos.Fits, Fits32] using h

theorem posOctets_eq {p : Pos} (h : p.Fits) :
    posOctets p = octets32 (BitVec.ofInt 32 p.xyz.x) ++ octets32 (BitVec.ofInt 32 p.xyz.y) ++ octets32 (BitVec.ofInt 32 p.xyz.z)
      ++ octets32 (BitVec.ofInt 32 p.w) := by
  obtain ⟨hx, hy, hz, hw⟩ := h
  rw [posOctets, count32_eq hx, count32_eq hy, count32_eq hz, count32_eq hw]

/-- A position written behind four octets reads back. -/
theorem posAt_posOctets {p : Pos} (h : p.Fits) {pre : List Octet} (hpre : pre.length = 4) (post : List Octet) :
    posAt (pre ++ posOctets p ++ post) 4 = p := by
  have ⟨hx, hy, hz, hw⟩ := h
  rw [posOctets_eq h]
  have readX := count32At_octets32 hx pre (octets32 (BitVec.ofInt 32 p.xyz.y) ++ octets32 (BitVec.ofInt 32 p.xyz.z)
    ++ octets32 (BitVec.ofInt 32 p.w) ++ post)
  have readY := count32At_octets32 hy (pre ++ octets32 (BitVec.ofInt 32 p.xyz.x)) (octets32 (BitVec.ofInt 32 p.xyz.z)
    ++ octets32 (BitVec.ofInt 32 p.w) ++ post)
  have readZ := count32At_octets32 hz (pre ++ octets32 (BitVec.ofInt 32 p.xyz.x) ++ octets32 (BitVec.ofInt 32 p.xyz.y))
    (octets32 (BitVec.ofInt 32 p.w) ++ post)
  have readW := count32At_octets32 hw (pre ++ octets32 (BitVec.ofInt 32 p.xyz.x) ++ octets32 (BitVec.ofInt 32 p.xyz.y)
    ++ octets32 (BitVec.ofInt 32 p.xyz.z)) post
  simp only [List.append_assoc, List.length_append, hpre, show (octets32 (BitVec.ofInt 32 p.xyz.x)).length = 4 from rfl,
    show (octets32 (BitVec.ofInt 32 p.xyz.y)).length = 4 from rfl, show (octets32 (BitVec.ofInt 32 p.xyz.z)).length = 4 from rfl]
    at readX readY readZ readW
  simp only [posAt, List.append_assoc, readX, readY, readZ, readW]

/-! ### The frames the monitor makes (R155, R166, R186) -/

theorem octet_toNat {n : Nat} (h : n < 256) : (octet n).toNat = n := Nat.mod_eq_of_lt h

/-- A frame received as the monitor makes it. -/
def sent (k : FrameKind) (node : Node) (seq : SeqNo) (payload : List Octet) : RxFrame := ⟨frame k node seq payload, true⟩

theorem frame_eq (k : FrameKind) (node : Node) (seq : SeqNo) (payload : List Octet) : frame k node seq payload
    = octet (80 + k.code) :: node.setWidth 8 :: seq :: octet payload.length
      :: (payload ++ octets16 (check (header k node seq payload.length ++ payload))) := rfl

section Sent

variable (k : FrameKind) (node : Node) (seq : SeqNo) {payload : List Octet}

theorem sent_not_noise (payload : List Octet) : isNoise (sent k node seq payload) = false := by
  cases k <;> rfl

theorem sent_kind (payload : List Octet) : rxKind (sent k node seq payload) = k.code := by
  have hmark : (octet (80 + k.code)).toNat % 16 = k.code := by cases k <;> decide
  exact hmark

theorem sent_node (payload : List Octet) : rxNode (sent k node seq payload) = some node := by
  rw [rxNode, sent, frame_eq]
  simp [BitVec.setWidth_setWidth_of_le]

theorem sent_length (h : payload.length ≤ 64) : rxLength (sent k node seq payload) = payload.length :=
  octet_toNat (Nat.lt_of_le_of_lt h (by decide))

theorem sent_endGood (h : payload.length ≤ 64) : rxEndGood (sent k node seq payload) = true := by
  rw [rxEndGood_iff, sent_length k node seq h]
  refine ⟨rfl, h, ?_⟩
  rw [sent, frame_eq]
  simp [octets16]

theorem sent_checkGood (h : payload.length ≤ 64) : rxCheckGood (sent k node seq payload) = true := by
  rw [rxCheckGood_iff, sent_length k node seq h]
  simp only [sent, frame]
  have hbody : (header k node seq payload.length ++ payload).length = payload.length + 4 := by
    simp only [header, List.length_append, List.length_cons, List.length_nil]
    omega
  rw [← hbody, List.drop_left, List.take_left]

theorem sent_payload (h : payload.length ≤ 64) : rxPayload (sent k node seq payload) = payload := by
  rw [rxPayload, sent_length k node seq h, sent, frame_eq]
  simp

end Sent

/-- A setpoint the monitor makes reads back as its position with operation NONE (R58, R187). -/
theorem readSetpoint_setpointFrame (node : Node) (seq : SeqNo) {p : Pos} (h : p.Fits) :
    readSetpoint (setpointFrame node seq p) = ⟨setpointFrame node seq p, seq, p, 0, 0, 0⟩ := by
  have hlength : (posOctets p).length = 16 := by
    rw [posOctets_eq h]
    rfl
  have hpos (pre post : List Octet) (hpre : pre.length = 4) := posAt_posOctets h hpre post
  rw [readSetpoint_eq]
  generalize hos : setpointFrame node seq p = os
  obtain ⟨pre, post, hpre, hseq, hsplit⟩ : ∃ pre post : List Octet, pre.length = 4 ∧ pre.getD 2 0 = seq
      ∧ os = pre ++ posOctets p ++ (0 :: 0 :: 0 :: post) :=
    ⟨header .setpoint node seq (posOctets p ++ [0, 0, 0]).length, _, rfl, rfl, by
      rw [← hos, setpointFrame, frame, List.append_assoc, List.append_assoc]
      rfl⟩
  have hzero (i : Nat) (hi : i < 3) : os.getD (20 + i) 0 = 0 := by
    rw [hsplit, List.getD_eq_getElem?_getD, List.getElem?_append_right (by simp [hpre, hlength])]
    simp only [List.length_append, hpre, hlength, Nat.reduceAdd, Nat.add_sub_cancel_left]
    match i, hi with
    | 0, _ | 1, _ | 2, _ => rfl
  have hseq' : os.getD 2 0 = seq := by
    rw [hsplit, List.append_assoc, List.getD_eq_getElem?_getD, List.getElem?_append_left (by omega), ← List.getD_eq_getElem?_getD, hseq]
  rw [hseq', show posAt os 4 = p from hsplit ▸ hpos pre _ hpre, hzero 0 (by decide), hzero 1 (by decide), hzero 2 (by decide)]

/-- Settles O21: where the octets of a SETPOINT and a FEEDBACK stand, how the monitor writes a frame, and that each of its frames
passes the tests and reads back. -/
theorem monitorFramesReadBack : Obligations.MonitorFramesReadBack := by
  refine ⟨fun os => ⟨readSetpoint_eq os, readFeedback_eq os⟩, fun p hp => ?_, fun _ _ _ _ => rfl, by decide, fun _ => rfl,
    fun _ => rfl, fun k node seq payload hlen => ?_, fun node seq p hp => readSetpoint_setpointFrame node seq (Pos.fits_of_forall hp)⟩
  · rw [posOctets_eq (Pos.fits_of_forall hp)]
    simp
  · exact ⟨sent_not_noise k node seq payload, sent_endGood k node seq hlen, sent_checkGood k node seq hlen,
      sent_kind k node seq payload, sent_node k node seq payload, rfl, sent_length k node seq hlen, sent_payload k node seq hlen⟩

end Sys2Proof.Machine
end

