-- ==== Sys2Proof/Proofs/Link.lean ====
section
/-! PROOFS. Lock, cadence expiries and the receive side of the ports, settling PortLockRule and FrameArrivals. -/

namespace Sys2Proof.Machine

/-! ### The counts of a lock (R159) -/

theorem LinkLock.wellFormed_eq (l : LinkLock) : l.wellFormed = if l.locked then ⟨true, l.good, 0, 0⟩
    else if l.good + 1 < 8 then ⟨false, l.good + 1, 0, 0⟩ else ⟨true, 0, 0, 0⟩ := by
  obtain ⟨locked, good, bad, silent⟩ := l
  cases locked with
  | true => rfl
  | false =>
    by_cases h : good + 1 < 8
    · simp [LinkLock.wellFormed, show ¬7 ≤ good by omega]
    · simp [LinkLock.wellFormed, show 7 ≤ good by omega]

theorem LinkLock.discarded_eq (l : LinkLock) : l.discarded
    = if l.locked then (if l.bad + 1 < 4 then ⟨true, 0, l.bad + 1, l.silent⟩ else ⟨false, 0, 0, 0⟩)
      else ⟨false, 0, l.bad, l.silent⟩ := by
  obtain ⟨locked, good, bad, silent⟩ := l
  cases locked with
  | false => rfl
  | true =>
    by_cases h : bad + 1 < 4
    · simp [LinkLock.discarded, show ¬3 ≤ bad by omega]
    · simp [LinkLock.discarded, show 3 ≤ bad by omega]

theorem LinkLock.expiry_eq (l : LinkLock) : l.expiry
    = if l.locked then (if l.silent + 1 < 16 then { l with silent := l.silent + 1 } else ⟨false, l.good, 0, 0⟩) else l := by
  obtain ⟨locked, good, bad, silent⟩ := l
  cases locked with
  | false => rfl
  | true =>
    by_cases h : silent + 1 < 16
    · simp [LinkLock.expiry, LinkLock.silenceOut, show ¬15 ≤ silent by omega]
    · simp [LinkLock.expiry, LinkLock.silenceOut, show 15 ≤ silent by omega]

theorem LinkLock.silenceOut_of {l : LinkLock} (hl : l.locked = true) (hs : 15 ≤ l.silent) : l.silenceOut = true := by
  simp [LinkLock.silenceOut, hl, hs]

theorem LinkLock.expiry_of_silence {l : LinkLock} (hl : l.locked = true) (hs : 15 ≤ l.silent) :
    l.expiry = ⟨false, l.good, 0, 0⟩ := by
  rw [LinkLock.expiry_eq, if_pos hl, if_neg (by omega)]

/-! ### The report of a change of lock (R160) -/

theorem putLock_ctrl_same {m : Arm} {s : State} {l : LinkLock} (h : (s.port m).lock.locked = l.locked) :
    s.putLock .ctrl m l = s.setPort m { s.port m with lock := l } := if_pos h

theorem putLock_drive_same {m : Arm} {s : State} {l : LinkLock} (h : (s.drivePort m).lock.locked = l.locked) :
    s.putLock .drive m l = s.setDrivePort m { s.drivePort m with lock := l } := if_pos h

theorem putLock_ctrl_changed {m : Arm} {s : State} {l : LinkLock} (h : (s.port m).lock.locked ≠ l.locked) :
    s.putLock .ctrl m l = ((s.setPort m { s.port m with lock := l }).setArm m
      { s.arm m with arrivals := (s.arm m).arrivals ++ [.lock .ctrl l.locked] }).setTable
      { s.table with arrivals := s.table.arrivals ++ [.lock .ctrl m l.locked] } := if_neg h

theorem putLock_drive_changed {m : Arm} {s : State} {l : LinkLock} (h : (s.drivePort m).lock.locked ≠ l.locked) :
    s.putLock .drive m l = ((s.setDrivePort m { s.drivePort m with lock := l }).setArm m
      { s.arm m with arrivals := (s.arm m).arrivals ++ [.lock .drive l.locked] }).setTable
      { s.table with arrivals := s.table.arrivals ++ [.lock .drive m l.locked] } := if_neg h

/-- A change of lock leaves the rest of the port. -/
theorem putLock_port (s : State) (side : Side) (m : Arm) (l : LinkLock) :
    (s.putLock side m l).port m = match side with
      | .ctrl => { s.port m with lock := l }
      | .drive => s.port m := by
  cases side with
  | ctrl =>
    by_cases h : (s.port m).lock.locked = l.locked
    · rw [putLock_ctrl_same h, State.setPort_port_same]
    · rw [putLock_ctrl_changed h, State.setTable_port, State.setArm_port, State.setPort_port_same]
  | drive =>
    by_cases h : (s.drivePort m).lock.locked = l.locked
    · rw [putLock_drive_same h, State.setDrivePort_port]
    · rw [putLock_drive_changed h, State.setTable_port, State.setArm_port, State.setDrivePort_port]

@[simp] theorem putLock_buffer (s : State) (side : Side) (m : Arm) (l : LinkLock) :
    ((s.putLock side m l).port m).buffer = (s.port m).buffer := by
  rw [putLock_port]
  cases side <;> rfl

@[simp] theorem putLock_draws (s : State) (side : Side) (m : Arm) (l : LinkLock) : (s.putLock side m l).draws = s.draws := by
  cases side <;> (rw [State.putLock]; split <;> rfl)

/-! ### The copy of a cadence expiry at a port (R159, R167) -/

theorem quietExpiry_eq (s : State) (m : Arm) : s.quietExpiry m
    = if (s.port m).forwarded then s.setPort m { s.port m with expiryDue := false, forwarded := false }
      else (s.closeOpportunity m).setPort m { (s.closeOpportunity m).port m with expiryDue := false, opportunity := .offered } :=
  rfl

theorem exec_portCadenceExpiry_due {side : Side} {m : Arm} {s : State} (h : s.expiryDue side m = true) :
    exec (.portCadenceExpiry side m) s = .next (s.takeExpiry side m) := by
  rw [exec_portCadenceExpiry, execPortCadenceExpiry, takePortExpiry_take h rfl]

theorem exec_lockLossSilence_due {side : Side} {m : Arm} {s : State} (h : s.expiryDue side m = true)
    (hl : (s.lockOf side m).locked = true) (hs : 15 ≤ (s.lockOf side m).silent) :
    exec (.lockLossSilence side m) s = .next (s.takeExpiry side m) := by
  rw [exec_lockLossSilence, execLockLossSilence, takePortExpiry_take h (LinkLock.silenceOut_of hl hs)]

/-- Settles O20: the counts, the report of a change, and the two commands of an expiry, at each side. -/
theorem portLockRule : Obligations.PortLockRule := by
  refine ⟨LinkLock.wellFormed_eq, LinkLock.discarded_eq, LinkLock.expiry_eq, fun _ _ _ => putLock_ctrl_same,
    fun _ _ _ => putLock_drive_same, fun _ _ _ => putLock_ctrl_changed, fun _ _ _ => putLock_drive_changed,
    fun m s hdue => ?ctrl, fun m s hdue => ?drive, fun _ _ _ => settleExpiry_not_due, fun _ _ _ => rfl⟩
  case ctrl =>
    have hdue : s.expiryDue .ctrl m = true := hdue
    refine ⟨exec_portCadenceExpiry_due hdue, settleExpiry_due hdue, fun hl hs => ?_⟩
    rw [exec_lockLossSilence_due hdue hl hs, ← LinkLock.expiry_of_silence hl hs]
    rfl
  case drive =>
    have hdue : s.expiryDue .drive m = true := hdue
    refine ⟨exec_portCadenceExpiry_due hdue, settleExpiry_due hdue, fun hl hs => ?_⟩
    rw [exec_lockLossSilence_due hdue hl hs, ← LinkLock.expiry_of_silence hl hs]
    rfl

/-! ### FRAME_ARRIVAL (R156, R157, R161, R163, R170) -/

theorem exec_frameArrival_ignored {side : Side} {m : Arm} {f : RxFrame} {s : State} (h : s.resetN = false ∨ isNoise f = true) :
    exec (.frameArrival side m f) s = .next s := by
  rw [exec_frameArrival, execFrameArrival, if_neg]
  rcases h with h | h <;> simp [h]

theorem exec_frameArrival_taken {side : Side} {m : Arm} {f : RxFrame} {s : State} (hr : s.resetN = true) (hn : isNoise f = false) :
    exec (.frameArrival side m f) s = .next (s.takeFrame side m f) := by
  rw [exec_frameArrival, execFrameArrival, if_pos]
  simp [hr, hn]

theorem takeFrame_discarded {s : State} {side : Side} {m : Arm} {f : RxFrame} {c : FrameCause}
    (h : frameFailure side s.node f = some c) : s.takeFrame side m f
      = ((s.settleExpiry side m).putLock side m ((s.settleExpiry side m).lockOf side m).discarded).frameError side m f c := by
  simp only [State.takeFrame, h]

theorem takeFrame_wellFormed {s : State} {side : Side} {m : Arm} {f : RxFrame} (h : frameFailure side s.node f = none) :
    s.takeFrame side m f
      = ((s.settleExpiry side m).putLock side m ((s.settleExpiry side m).lockOf side m).wellFormed).route side m f := by
  simp only [State.takeFrame, h]

theorem frameError_known {s : State} {side : Side} {m : Arm} {f : RxFrame} {c : FrameCause} {n : Node} (h : rxNode f = some n) :
    s.frameError side m f c = s.portRaise side m .frameError (.frameError side c (rxKind f) n) := by
  simp only [State.frameError, h]

theorem frameError_cut {s : State} {side : Side} {m : Arm} {f : RxFrame} {c : FrameCause} (h : rxNode f = none) :
    s.frameError side m f c = ({ s with draws := s.draws + 1 } : State).portRaise side m .frameError
      (.frameError side c (rxKind f) (Config.freeNode s.draws)) := by
  simp only [State.frameError, h]

theorem takeRequestFrame_empty {s : State} {m : Arm} {payload : List Octet} (h : (s.port m).buffer = .empty) :
    s.takeRequestFrame m payload = { s.setPort m { s.port m with buffer := .awaiting } with
      req := s.req.set m { s.req.get m with incoming := some payload } } := by
  simp only [State.takeRequestFrame, h]
  rfl

theorem takeRequestFrame_overrun {s : State} {m : Arm} {payload : List Octet} (h : (s.port m).buffer ≠ .empty) :
    s.takeRequestFrame m payload = s.setPort m { s.port m with
      raises := (s.port m).raises ++ [⟨m, .requestOverrun, .overrun (payload.getD 0 0) (payload.getD 1 0)⟩] } := by
  rw [State.takeRequestFrame]
  split
  · exact absurd ‹_› h
  all_goals rfl

/-- The free values drawn are as many after an expiry as before. -/
@[simp] theorem settleExpiry_draws (s : State) (side : Side) (m : Arm) : (s.settleExpiry side m).draws = s.draws := by
  have hnotice (t : State) : (t.selectNotice m).draws = t.draws := by
    rw [State.selectNotice]
    split <;> rfl
  have hclose : (s.closeOpportunity m).draws = s.draws := by
    simp only [State.closeOpportunity]
    split <;> split <;> simp [hnotice, State.arbitrate]
  rw [State.settleExpiry]
  split
  · cases side with
    | ctrl =>
      rw [State.takeExpiry, putLock_draws, quietExpiry_eq]
      split
      · rfl
      · exact hclose
    | drive => rw [State.takeExpiry, putLock_draws, State.setDrivePort_draws]
  · rfl

@[simp] theorem putLock_req (s : State) (side : Side) (m : Arm) (l : LinkLock) : (s.putLock side m l).req = s.req := by
  cases side <;> (rw [State.putLock]; split <;> rfl)

/-- Settles O19: what is ignored, what is discarded, and where each kind of a well-formed frame goes. -/
theorem frameArrivals : Obligations.FrameArrivals := by
  intro side m f s s0 l seq run
  refine ⟨rfl, rfl, fun _ _ _ => ⟨rfl, rfl⟩, fun _ _ => rfl, exec_frameArrival_ignored, fun hr hn => ?taken⟩
  have hrun : run = .next (s.takeFrame side m f) := exec_frameArrival_taken hr hn
  refine ⟨fun c n hc hnode => ?known, fun c hc hnode => ?cut, fun n hc hnode => ?wellFormed⟩
  case known => rw [hrun, takeFrame_discarded hc, frameError_known hnode]
  case cut =>
    refine ⟨Config.freeNode s.draws, ?_⟩
    rw [hrun, takeFrame_discarded hc, frameError_cut hnode, putLock_draws, settleExpiry_draws]
  case wellFormed =>
    intro u payload
    have hroute : run = .next (u.route side m f) := by rw [hrun, takeFrame_wellFormed hc]
    rw [hroute]
    refine ⟨fun hk => ?idle, fun hs hk => ?setpoint, fun hs hk => ?param, fun hs hk hb => ?request, fun hs hk hb => ?overrun,
      fun hs hk => ?feedback, fun hs hk => ?reply⟩
    case idle => cases side <;> simp only [State.route, hk]
    case setpoint => subst hs; simp only [State.route, hk]
    case param => subst hs; simp only [State.route, hk]; rfl
    case request =>
      subst hs
      have hbuffer : (u.port m).buffer = .empty := (putLock_buffer s0 .ctrl m _).trans hb
      simp only [State.route, hk]
      rw [takeRequestFrame_empty hbuffer]
      rfl
    case overrun =>
      subst hs
      have hbuffer : (u.port m).buffer ≠ .empty := by
        rw [show (u.port m).buffer = (s0.port m).buffer from putLock_buffer s0 .ctrl m _]
        exact hb
      simp only [State.route, hk]
      rw [takeRequestFrame_overrun hbuffer]
      rfl
    case feedback =>
      subst hs
      simp only [State.route, hk, hnode]
      rfl
    case reply =>
      subst hs
      simp only [State.route, hk, hnode]
      rfl

end Sys2Proof.Machine
end

