-- ==== Sys2Proof/Proofs/Insertion.lean ====
section
/-! PROOFS. Requests decoded and answered, insertion opportunities, notices and outcomes at a port, settling DecodingAndPlacing,
InsertionArbitration, NoticeSelectionRule and OutcomesAndReports. -/

namespace Sys2Proof.Machine

/-! ### REQUEST_DECODE and ANSWER_PLACE (R171, R173) -/

/-- A request unit that has taken the payload waiting for it. -/
def State.withoutIncoming (s : State) (m : Arm) : State :=
  { s with req := s.req.set m { s.req.get m with incoming := none } }

theorem exec_requestDecode_request {m : Arm} {s : State} {payload : List Octet} {r : Request}
    (h : (s.req.get m).incoming = some payload) (hd : decodeRequest m payload = .inl r) :
    exec (.requestDecode m) s = .next ((s.withoutIncoming m).passRequest r) := by
  simp only [exec_requestDecode, execRequestDecode, h, hd, State.withoutIncoming]

theorem exec_requestDecode_answer {m : Arm} {s : State} {payload : List Octet} {ans : Answer}
    (h : (s.req.get m).incoming = some payload) (hd : decodeRequest m payload = .inr ans) :
    exec (.requestDecode m) s = .next ((s.withoutIncoming m).placeAnswer m ans) := by
  simp only [exec_requestDecode, execRequestDecode, h, hd, State.withoutIncoming]

theorem decodeRequest_short {m : Arm} {payload : List Octet} (h : payload.length < 2) :
    decodeRequest m payload = .inr (answerRefused (headOf payload) .unknownRequest []) := by
  simp only [decodeRequest, if_pos h]

theorem decodeRequest_unknown {m : Arm} {payload : List Octet} (h : 2 ≤ payload.length)
    (hc : ReqName.ofCode (headOf payload).code = none) :
    decodeRequest m payload = .inr (answerRefused (headOf payload) .unknownRequest []) := by
  simp only [decodeRequest, if_neg (Nat.not_lt.mpr h), hc]

theorem decodeRequest_badLength {m : Arm} {payload : List Octet} {n : ReqName} (h : 2 ≤ payload.length)
    (hc : ReqName.ofCode (headOf payload).code = some n) (hl : (payload.drop 2).length ≠ n.argLength) :
    decodeRequest m payload = .inr (answerRefused (headOf payload) .range [octet n.argLength]) := by
  simp only [decodeRequest, if_neg (Nat.not_lt.mpr h), hc, if_neg hl]

theorem decodeRequest_named {m : Arm} {payload : List Octet} {n : ReqName} (h : 2 ≤ payload.length)
    (hc : ReqName.ofCode (headOf payload).code = some n) (hl : (payload.drop 2).length = n.argLength) :
    decodeRequest m payload = .inl ⟨m, n, headOf payload, payload.drop 2⟩ := by
  simp only [decodeRequest, if_neg (Nat.not_lt.mpr h), hc, if_pos hl]

/-- A code that is none of the table names no request. -/
theorem ofCode_eq_none {c : Octet} (h : ∀ n : Nat, n ∈ [0x01, 0x02, 0x03, 0x04, 0x05, 0x06, 0x10, 0x11, 0x12, 0x13, 0x14, 0x20, 0x21,
    0x22, 0x23, 0x24, 0x30, 0x31, 0x32, 0x33, 0x34, 0x35, 0x36, 0x37, 0x40, 0x41, 0x42] → c.toNat ≠ n) : ReqName.ofCode c = none := by
  rw [ReqName.ofCode]
  split
  case h_28 => rfl
  all_goals
    next hc => exact absurd hc (h _ (by decide))

/-- Settles O22: the table of codes, the three refusals of the request unit and the four owners, and the placing of an answer. -/
theorem decodingAndPlacing : Obligations.DecodingAndPlacing := by
  refine ⟨⟨by decide, fun c h => ofCode_eq_none fun n hn hc => ?codes⟩, fun m s payload hin => ?decode,
    fun args => ⟨?workspace, ?table, by simp [ownerOf], by simp [ownerOf], by simp [ownerOf], by simp [ownerOf]⟩,
    fun _ _ _ => rfl, fun m s ans hans => ?place⟩
  case codes =>
    have hall : ∀ n : Nat, n ∈ [0x01, 0x02, 0x03, 0x04, 0x05, 0x06, 0x10, 0x11, 0x12, 0x13, 0x14, 0x20, 0x21, 0x22, 0x23, 0x24, 0x30,
        0x31, 0x32, 0x33, 0x34, 0x35, 0x36, 0x37, 0x40, 0x41, 0x42] → BitVec.ofNat 8 n ≠ c := by
      simpa using h
    exact hall n hn (by rw [← hc, BitVec.ofNat_toNat, BitVec.setWidth_eq])
  case decode =>
    refine ⟨fun hshort => ?_, fun hlen hc => ?_, fun n hlen hc => ⟨fun hl => ?_, fun hl => ⟨?_, ?_, ?_, ?_⟩⟩⟩
    · exact exec_requestDecode_answer hin (decodeRequest_short hshort)
    · exact exec_requestDecode_answer hin (decodeRequest_unknown hlen hc)
    · exact exec_requestDecode_answer hin (decodeRequest_badLength hlen hc hl)
    all_goals
      intro howner
      rw [exec_requestDecode_request hin (decodeRequest_named hlen hc hl)]
      simp only [State.passRequest, howner]
      rfl
  case workspace => by_cases h : args.getD 0 0 = 0 <;> simp only [ownerOf, h, if_true, if_false, reduceCtorEq]
  case table => by_cases h : args.getD 0 0 = 0 <;> simp only [ownerOf, h, if_true, if_false, reduceCtorEq, ne_eq, not_true, not_false_iff]
  case place =>
    simp only [exec_answerPlace, execAnswerPlace, hans]
    rfl

/-! ### The parts of an answer (R188, R189) -/

theorem lastPart_iff (ans : Answer) (part : Nat) : ans.lastPart part = true ↔ ans.data.length ≤ 59 * (part + 1) :=
  decide_eq_true_iff

theorem payload_head (ans : Answer) (part : Nat) : (ans.payload part).take 5
    = [ans.head.code, ans.head.tag, ans.status.code, (ans.reason.map Reason.code).getD 0,
        (if ans.lastPart part then 0x80#8 else 0#8) ||| octet (part % 16)] := rfl

theorem payload_data (ans : Answer) (part : Nat) : (ans.payload part).drop 5 = (ans.data.drop (59 * part)).take 59 := rfl

theorem partOctet_eq {part : Nat} (h : part < 16) (last : Bool) :
    (if last then 0x80#8 else 0#8) ||| octet (part % 16) = octet (part + if last then 128 else 0) := by
  have hall : ∀ p : Fin 16, ∀ last : Bool,
      (if last then 0x80#8 else 0#8) ||| octet (p.val % 16) = octet (p.val + if last then 128 else 0) := by decide
  exact hall ⟨part, h⟩ last

/-- The data of the parts before a number are the data up to there. -/
theorem parts_data (data : List Octet) (n : Nat) :
    ((List.range n).flatMap fun i => (data.drop (59 * i)).take 59) = data.take (59 * n) := by
  induction n with
  | zero => rfl
  | succ n ih =>
    rw [List.range_succ, List.flatMap_append, ih, List.flatMap_singleton, Nat.mul_succ, List.take_add]

/-! ### INSERTION_OPPORTUNITY (R167, R168) -/

theorem exec_insertionOpportunity_offered {m : Arm} {s : State} (h : (s.port m).opportunity = .offered) :
    exec (.insertionOpportunity m) s = .next (s.arbitrate m) := by
  rw [exec_insertionOpportunity, execInsertionOpportunity, if_pos h]

theorem exec_noticeSelection_asked {m : Arm} {s : State} (h : (s.port m).opportunity = .asked) :
    exec (.noticeSelection m) s = .next (s.selectNotice m) := by
  rw [exec_noticeSelection, execNoticeSelection, if_pos h]

theorem arbitrate_holding {p : CtrlPort} {node : Node} {ans : Answer} {part : Nat} (h : p.buffer = .holding ans part) :
    p.arbitrate node = { p.insert .answer node (ans.payload part) with
      buffer := if ans.lastPart part then .empty else .holding ans (part + 1) } := by
  simp only [CtrlPort.arbitrate, h]

theorem arbitrate_outcome {p : CtrlPort} {node : Node} {o : ClaimOutcome} {os : List ClaimOutcome}
    (hb : p.buffer = .empty ∨ p.buffer = .awaiting) (hf : p.fifo = o :: os) :
    p.arbitrate node = { p.insert .outcome node (outcomePayload o) with fifo := os, toWs := p.toWs ++ [.sent] } := by
  rcases hb with hb | hb <;> simp only [CtrlPort.arbitrate, hb, hf]

theorem arbitrate_idle {p : CtrlPort} {node : Node} (hb : p.buffer = .empty ∨ p.buffer = .awaiting) (hf : p.fifo = []) :
    p.arbitrate node = { p with opportunity := .asked } := by
  rcases hb with hb | hb <;> simp only [CtrlPort.arbitrate, hb, hf]

/-- Settles O23: the three outcomes of an arbitration, how an opportunity ends, and the parts of an answer. -/
theorem insertionArbitration : Obligations.InsertionArbitration := by
  refine ⟨fun m s hoffered => ?arbitrate, fun m s t => ⟨closeOpportunity_closed, fun hasked => ?asked, fun hoffered ht => ?offered⟩,
    by decide, by decide, by decide, fun ans part hpart => ?head, fun ans last hlast => ?data⟩
  case arbitrate =>
    intro p run
    have hrun : run = .next (s.setPort m (p.arbitrate s.node)) := exec_insertionOpportunity_offered hoffered
    rw [hrun]
    refine ⟨fun ans part hb => ?_, fun o os hb hf => ?_, fun hb hf => ?_⟩
    · rw [arbitrate_holding hb]
      simp only [lastPart_iff]
      rfl
    · rw [arbitrate_outcome hb hf]
      rfl
    · rw [arbitrate_idle hb hf]
  case asked => rw [exec_noticeSelection_asked hasked, closeOpportunity_asked hasked]
  case offered =>
    rw [exec_insertionOpportunity_offered hoffered] at ht
    cases ht
    rw [closeOpportunity_offered hoffered]
    have hnot : ((s.arbitrate m).port m).opportunity ≠ .offered := by
      rw [State.arbitrate, State.setPort_port_same]
      exact arbitrate_not_offered _ _
    cases ho : ((s.arbitrate m).port m).opportunity with
    | offered => exact absurd ho hnot
    | closed => exact .inl ⟨rfl, by simp⟩
    | asked => exact .inr ⟨rfl, by rw [exec_noticeSelection_asked ho, if_pos rfl]⟩
  case head =>
    rw [payload_head, partOctet_eq hpart]
    simp only [lastPart_iff]
  case data =>
    simp only [payload_data, parts_data]
    exact List.take_of_length_le hlast

/-! ### NOTICE_SELECTION (R180, R182) -/

theorem selectNotice_some {s : State} {m : Arm} {k : Nat} (h : s.report.choose m = some k) :
    s.selectNotice m = (s.setReport (s.report.setFlag m k { s.report.flag m k with noticed := true })).setPort m
      ((s.port m).insert .notice s.node (noticePayload m k (s.report.flag m k))) := by
  simp only [State.selectNotice, h]

theorem selectNotice_none {s : State} {m : Arm} (h : s.report.choose m = none) :
    s.selectNotice m = s.setPort m { s.port m with opportunity := .closed } := by
  simp only [State.selectNotice, h]

theorem waits_iff (flags : List Flag) (settings : List NoticeSetting) (k q : Nat) : Waits flags settings k q
    ↔ ∃ f n, flags[k]? = some f ∧ settings[k]? = some n ∧ f.set = true ∧ n.enable = true ∧ f.noticed = false ∧ n.priority = q := by
  simp only [Waits, Flag.eligible, Bool.and_eq_true, Bool.not_eq_true', and_assoc]

/-- Settles O24: a notice or none, its octets, and which flag is chosen. -/
theorem noticeSelectionRule : Obligations.NoticeSelectionRule := by
  refine ⟨fun m s hasked => ⟨fun k hk => ?_, fun hnone => ?_⟩, by decide, fun m k f d tick hd ht => ?_,
    fun q q' axis n n' n'' side st st' tick node o o' g g' changed c => ?_, fun d c g port => ?_,
    fun g cell a k => ?_, by decide, by decide, by decide, by decide, fun r m => ?_⟩
  · rw [exec_noticeSelection_asked hasked, selectNotice_some hk]
    rfl
  · rw [exec_noticeSelection_asked hasked, selectNotice_none hnone]
  · simp only [noticePayload, hd, ht]
    cases m <;> rfl
  · cases side <;> cases changed <;> exact ⟨rfl, rfl, rfl, rfl, rfl, rfl, rfl, rfl, rfl, rfl, rfl⟩
  · obtain ⟨source, case, depth, margin, seq⟩ := d
    refine ⟨?_, ?_⟩
    · cases margin <;> cases seq <;> rfl
    · cases port with
      | none => rfl
      | some side => cases side <;> rfl
  · cases a <;> exact ⟨rfl, rfl, rfl⟩
  · simp only [← waits_iff]
    exact ⟨r.choose_eq_none m, r.choose_eq_some m⟩

/-! ### Outcomes and reports (R114, R124 to R126) -/

/-- To take everything sent is to take the oldest and then the rest. -/
theorem takeAllFromWs_cons {s : State} {m : Arm} {msg : ToPort} {rest : List ToPort} (h : s.ws.toPort.get m = msg :: rest) :
    s.takeAllFromWs m = (s.takeFromWs m msg rest).takeAllFromWs m := by
  simp only [State.takeAllFromWs, State.takeFromWs, h, State.setPort_ws, State.setWs_ws, State.setPort_port_same, PerArm.get_set_same,
    PerArm.set_set, List.foldl_cons]
  simp only [State.setPort, State.setWs, PerArm.set_set]

theorem takeAllFromWs_nil {s : State} {m : Arm} (h : s.ws.toPort.get m = []) : s.takeAllFromWs m = s := by
  rw [State.takeAllFromWs, h, List.foldl_nil, ← h, PerArm.set_get]
  exact State.setPort_self s m

theorem exec_outcomeHandover_take {m : Arm} {s : State} {o : ClaimOutcome} {rest : List ToPort}
    (h : s.ws.toPort.get m = .outcome o :: rest) : exec (.outcomeHandover m) s = .next (s.takeFromWs m (.outcome o) rest) := by
  simp only [exec_outcomeHandover, execOutcomeHandover, h]

theorem exec_outcomeDiscard_take {m : Arm} {s : State} {rest : List ToPort} (h : s.ws.toPort.get m = .discard :: rest) :
    exec (.outcomeDiscard m) s = .next (s.takeFromWs m .discard rest) := by
  simp only [exec_outcomeDiscard, execOutcomeDiscard, h]

theorem exec_sentReport_take {m : Arm} {s : State} {rest : List PortReport} (h : (s.port m).toWs = .sent :: rest) :
    exec (.sentReport m) s = .next ((s.setPort m { s.port m with toWs := rest }).setWs (s.ws.lowerCount m 1)) := by
  simp only [exec_sentReport, execSentReport, h]

theorem exec_discardReport_take {m : Arm} {s : State} {n : Nat} {rest : List PortReport}
    (h : (s.port m).toWs = .discarded n :: rest) :
    exec (.discardReport m) s = .next ((s.setPort m { s.port m with toWs := rest }).setWs (s.ws.lowerCount m n)) := by
  simp only [exec_discardReport, execDiscardReport, h]

/-- Settles O25: the four commands, each on what it takes, and the taking of all as the taking of each. -/
theorem outcomesAndReports : Obligations.OutcomesAndReports := by
  intro m s
  refine ⟨fun o rest h => exec_outcomeHandover_take h, fun rest h => exec_outcomeDiscard_take h, fun rest h => exec_sentReport_take h,
    takeAllFromWs_nil, fun o rest t h ht => ?_, fun rest t h ht => ?_, fun n rest h => exec_discardReport_take h⟩
  · rw [exec_outcomeHandover_take h] at ht
    cases ht
    exact takeAllFromWs_cons h
  · rw [exec_outcomeDiscard_take h] at ht
    cases ht
    exact takeAllFromWs_cons h

end Sys2Proof.Machine
end

