-- ==== Sys2Proof/Proofs/Setpoints.lean ====
section
/-! PROOFS. Chapter 3: setpoints checked and judged, and the embedded envelope operation, settling SetpointArrivalRule,
EnvelopeOperations and SetpointVerdictRule. -/

namespace Sys2Proof.Machine

/-! ### A fault that opens a stop (R70, R79, R82) -/

theorem ArmUnit.record_first {u : ArmUnit} (f : Finding) (hf : u.ctx.fault = none) (hc : u.ctx.carried = none) :
    u.record f = { u with ctx := { u.ctx with fault := some (f.toRecord u.state) } } := by
  simp only [ArmUnit.record, hf, hc]

/-- A hard fault in RUN with no fault pending. -/
theorem ArmUnit.hardFault_run {u : ArmUnit} (m : Arm) (f : Finding) (hs : u.state = .run) (hf : u.ctx.fault = none)
    (hc : u.ctx.carried = none) : u.hardFault m f = u.haltsOn m (f.toRecord .run) := by
  rw [ArmUnit.hardFault, ArmUnit.record_first f hf hc, ArmUnit.halt_of_ne m _ (by simp [hs]), hs]
  rfl

theorem ArmUnit.settleIfStill_still {u : ArmUnit} (m : Arm) (hs : u.state = .halting) (hstill : u.last.step = Tri.zero) :
    u.settleIfStill m = { u with
      state := .settling, ctx := { u.ctx with settleCount := 0, settleTimer := 0 }, toWs := u.toWs ++ [.stateReport .settling] } := by
  rw [ArmUnit.settleIfStill, if_pos ⟨hs, hstill⟩, ArmUnit.enter_of_unannounced m (by simp [hs]) rfl]

theorem ArmUnit.settleIfStill_moving {u : ArmUnit} (m : Arm) (hmove : u.last.step ≠ Tri.zero) : u.settleIfStill m = u :=
  if_neg fun h => hmove h.2

/-- A hard fault in RUN after its braking setpoint: HALTING, and SETTLING at once where that setpoint stands still. -/
theorem ArmUnit.hardFault_settleIfStill {u : ArmUnit} (m : Arm) (f : Finding) (hs : u.state = .run) (hf : u.ctx.fault = none)
    (hc : u.ctx.carried = none) : (u.hardFault m f).settleIfStill m = u.opensFaultStop m (f.toRecord .run) := by
  rw [ArmUnit.hardFault_run m f hs hf hc]
  by_cases hstill : u.last.step = Tri.zero
  · rw [ArmUnit.settleIfStill_still (u := u.haltsOn m _) m rfl hstill]
    simp [ArmUnit.opensFaultStop, ArmUnit.haltsOn, hstill]
  · rw [ArmUnit.settleIfStill_moving (u := u.haltsOn m _) m hstill]
    simp [ArmUnit.opensFaultStop, ArmUnit.haltsOn, hstill]

/-! ### The raises and the first kind of what was found (R56, R57) -/

theorem FaultKind.all_getElem? (k : FaultKind) : FaultKind.all[k.code]? = some k := by
  cases k <;> rfl

theorem FaultKind.code_of_getElem {i : Nat} (hi : i < FaultKind.all.length) : (FaultKind.all[i]).code = i := by
  have hall : ∀ j : Fin 15, (FaultKind.all[j.val]'j.isLt).code = j.val := by decide
  exact hall ⟨i, hi⟩

/-- The first kind of a set is the lowest in code order. -/
theorem KindSet.first_eq_some (w : KindSet) (k : FaultKind) :
    w.first = some k ↔ KindSet.has w k = true ∧ ∀ j : FaultKind, j.code < k.code → KindSet.has w j = false := by
  rw [KindSet.first, List.find?_eq_some_iff_getElem]
  constructor
  · rintro ⟨hk, i, hi, rfl, hbefore⟩
    refine ⟨hk, fun j hj => ?_⟩
    rw [FaultKind.code_of_getElem] at hj
    have hnot := hbefore j.code hj
    rw [(List.getElem?_eq_some_iff.mp j.all_getElem?).2] at hnot
    simpa using hnot
  · rintro ⟨hk, hbefore⟩
    obtain ⟨hi, hget⟩ := List.getElem?_eq_some_iff.mp k.all_getElem?
    refine ⟨hk, k.code, hi, hget, fun j hj => ?_⟩
    rw [hbefore _ (by rwa [FaultKind.code_of_getElem])]
    rfl

theorem Found.has_kinds (f : Found) (k : FaultKind) : KindSet.has f.kinds k = true ↔
    KindSet.has f.zone k = true ∨ (k = .sequence ∧ f.expected.isSome = true) ∨ (k = .stack ∧ f.stack.isSome = true) := by
  simp only [Found.kinds, KindSet.has_addIf, Bool.or_eq_true, Bool.and_eq_true, decide_eq_true_eq]
  tauto

theorem zoneRaises_eq (m : Arm) (seq : SeqNo) (f : Found) : zoneRaises m seq f
    = ((([(.range, ⟨m, .range, .seqAxis seq f.rangeAxis⟩), (.forbidden, ⟨m, .forbidden, .seqOnly seq⟩),
        (.proximity, ⟨m, .proximity, .seqOnly seq⟩), (.trespass, ⟨m, .trespass, .seqOnly seq⟩),
        (.speed, ⟨m, .speed, .seqAxis seq f.speedAxis⟩)] : List (FaultKind × Raise)).filter
      fun x => KindSet.has f.zone x.1).map Prod.snd) := by
  have hcons (p : Bool) (x : FaultKind × Raise) (l : List (FaultKind × Raise)) :
      (if p then x :: l else l).map Prod.snd = (if p then [x.2] else []) ++ l.map Prod.snd := by
    cases p <;> rfl
  simp only [zoneRaises, List.filter_cons, List.filter_nil, hcons, List.map_nil, List.append_nil, List.append_assoc]

theorem zoneRaises_of_empty {m : Arm} {seq : SeqNo} {f : Found} (h : f.zone = KindSet.empty) : zoneRaises m seq f = [] := by
  simp [zoneRaises, h]

theorem ownRaises_eq (m : Arm) (seq : SeqNo) (f : Found) : ownRaises m seq f
    = (f.expected.toList.map fun e => ⟨m, .sequence, .seqPair e seq⟩) ++ (f.stack.toList.map fun d => ⟨m, .stack, .stack d⟩) := by
  rw [ownRaises]
  cases f.expected <;> cases f.stack <;> rfl

theorem Found.finding_of_first {f : Found} {k : FaultKind} (seq : SeqNo) (tick : Tick) (h : f.kinds.first = some k) :
    f.finding seq tick = some ⟨k, f.kinds, some seq, f.axisOf k, none, tick⟩ := by
  rw [Found.finding, h]
  rfl

/-- The hard outcome in RUN with no fault pending (R56): the braking setpoint, and a fault stop with the first kind. -/
theorem ArmUnit.hardOutcome_run {u : ArmUnit} (m : Arm) (node : Node) (p : Pos) (seq : SeqNo) {f : Found} (tick : Tick)
    {k : FaultKind} (hk : f.kinds.first = some k) (hs : u.state = .run) (hf : u.ctx.fault = none) (hc : u.ctx.carried = none) :
    u.hardOutcome m node p seq f tick
      = ({ u.brake node p with substituted := true, raises := u.raises ++ (zoneRaises m seq f ++ ownRaises m seq f) } :
          ArmUnit).opensFaultStop m
        { kind := k, also := KindSet.without f.kinds k, seq := some seq, axis := f.axisOf k, port := none, tick := tick,
          state := .run } := by
  simp only [ArmUnit.hardOutcome, Found.finding_of_first seq tick hk]
  exact ArmUnit.hardFault_settleIfStill m _ hs hf hc

/-! ### The local check (R41 to R45) -/

theorem seqViolation_eq (expected : Option SeqNo) (seq : SeqNo) :
    seqViolation expected seq = if expected = some seq then none else expected := by
  cases expected with
  | none => rfl
  | some e => simp [seqViolation]

theorem SetpointFrame.isPush_iff (f : SetpointFrame) : f.isPush = true ↔ f.op = 1 := beq_iff_eq

theorem hardAtStage3_iff (mask : Mask) (frm : SetpointFrame) (f : Found) : hardAtStage3 mask frm.isPush f = true
    ↔ (f.expected.isSome = true ∧ (mask.sequence = false ∨ frm.op = 1)) ∨ (f.stack.isSome = true ∧ (mask.stack = false ∨ frm.op = 1)) := by
  simp only [hardAtStage3, Bool.or_eq_true, Bool.and_eq_true, Bool.not_eq_true', SetpointFrame.isPush_iff]
  tauto

/-- What the arm unit's own findings hold: SEQUENCE before STACK. -/
theorem ownKinds_first {f : Found} (hz : f.zone = KindSet.empty) (h : f.expected.isSome = true ∨ f.stack.isSome = true) :
    f.kinds.first = some (if f.expected.isSome then .sequence else .stack) := by
  rw [Found.kinds, hz]
  cases he : f.expected.isSome with
  | true => cases f.stack.isSome <;> decide
  | false =>
    have hstack : f.stack.isSome = true := by simpa [he] using h
    rw [hstack]
    decide

theorem ownKinds_also {f : Found} (hz : f.zone = KindSet.empty) (h : f.expected.isSome = true ∨ f.stack.isSome = true) :
    KindSet.without f.kinds (if f.expected.isSome then .sequence else .stack)
      = if f.expected.isSome ∧ f.stack.isSome then KindSet.single .stack else KindSet.empty := by
  rw [Found.kinds, hz]
  cases he : f.expected.isSome with
  | true => cases f.stack.isSome <;> decide
  | false =>
    have hstack : f.stack.isSome = true := by simpa [he] using h
    rw [hstack]
    decide

/-- What the local check of a frame finds (R42, R43). -/
def ArmUnit.ownFound (u : ArmUnit) (frm : SetpointFrame) : Found :=
  ⟨KindSet.empty, none, none, seqViolation u.expected frm.seq, (stage2 u.ctx.mask.stack frm u.ctx.stack).2⟩

/-- The arm unit with the frame in its slot and the frame's envelope operation applied. -/
def ArmUnit.withFrame (u : ArmUnit) (frm : SetpointFrame) : ArmUnit :=
  { u.setStack (stage2 u.ctx.mask.stack frm u.ctx.stack).1 with slotFilled := true, expected := some (frm.seq + 1) }

theorem ArmUnit.checkSetpoint_hard {u : ArmUnit} (m : Arm) (node : Node) (p0 : Pos) {frm : SetpointFrame}
    (h : hardAtStage3 u.ctx.mask frm.isPush (u.ownFound frm) = true) :
    u.checkSetpoint m node p0 frm = (u.withFrame frm).hardOutcome m node p0 frm.seq (u.ownFound frm) u.tickCopy := if_pos h

theorem ArmUnit.checkSetpoint_placed {u : ArmUnit} (m : Arm) (node : Node) (p0 : Pos) {frm : SetpointFrame}
    (h : ¬hardAtStage3 u.ctx.mask frm.isPush (u.ownFound frm) = true) :
    u.checkSetpoint m node p0 frm = { (u.withFrame frm).send (.checked ((u.withFrame frm).setpointPlacement p0 frm.pos)) with
      outstanding := some (.setpoint frm ((u.withFrame frm).setpointPlacement p0 frm.pos).step
        ((u.withFrame frm).setpointPlacement p0 frm.pos).geom (u.ownFound frm).expected (u.ownFound frm).stack) } := if_neg h

theorem exec_setpointArrival_take {m : Arm} {s : State} {f : SetpointFrame} {rest : List ArmEvent}
    (ht : s.armTakes m (.setpoint f) rest) : exec (.setpointArrival m) s
      = if (s.arm m).state = .run then
          if (s.arm m).slotFilled then
            .next (s.setArm m (({ s.arm m with arrivals := rest } : ArmUnit).raise m .setpointEarly (.seqOnly f.seq)))
          else withForwarded { s.arm m with arrivals := rest } fun p0 =>
            .next (s.setArm m (({ s.arm m with arrivals := rest } : ArmUnit).checkSetpoint m (s.driveNode m) p0 f))
        else .next (s.setArm m { s.arm m with arrivals := rest }) := by
  obtain ⟨ho, ha⟩ := ht
  rw [exec_setpointArrival, execSetpointArrival, takeArm_take ho ha]
  rfl

/-- Settles O26: the states, the slot, and the two outcomes of the local check. -/
theorem setpointArrivalRule : Obligations.SetpointArrivalRule := by
  intro m s f rest ht u run
  have hrun : run = _ := exec_setpointArrival_take ht
  rw [hrun]
  refine ⟨fun node => driveNode_known, fun hs => if_neg hs, fun hs hslot => by rw [if_pos hs, if_pos hslot]; rfl,
    fun p0 hs hslot hp hf hc => ?_⟩
  have hviolation := seqViolation_eq u.expected f.seq
  intro outOfOrder stacked v hard step
  have hhard : hardAtStage3 u.ctx.mask f.isPush (u.ownFound f) = true ↔ hard := by
    rw [hardAtStage3_iff, ArmUnit.ownFound, hviolation]
  rw [if_pos hs, if_neg (by rw [show (s.arm m).slotFilled = false from hslot]; decide), withForwarded_some hp]
  refine ⟨fun hsoft => ?placed, fun hstop => ?hard⟩
  case placed =>
    rw [ArmUnit.checkSetpoint_placed m _ p0 (mt hhard.mp hsoft)]
    simp only [ArmUnit.ownFound, hviolation]
    rfl
  case hard =>
    intro found b
    have hsome : (u.ownFound f).expected.isSome = true ∨ (u.ownFound f).stack.isSome = true := by
      rw [ArmUnit.ownFound, hviolation]
      exact hstop.imp And.left And.left
    have hfirst := ownKinds_first (f := u.ownFound f) rfl hsome
    have halso := ownKinds_also (f := u.ownFound f) rfl hsome
    rw [ArmUnit.checkSetpoint_hard m _ p0 (hhard.mpr hstop), ArmUnit.hardOutcome_run (u := u.withFrame f) m _ p0 f.seq _ hfirst hs hf hc,
      halso,
      zoneRaises_of_empty rfl, ownRaises_eq]
    have haxis : (u.ownFound f).axisOf (if (u.ownFound f).expected.isSome then .sequence else .stack) = none := by
      cases (u.ownFound f).expected.isSome <;> rfl
    rw [haxis]
    simp only [ArmUnit.ownFound, hviolation]
    rfl

/-! ### Envelope operations (R130, R131) -/

theorem applyEnvOp_push_room {masked : Bool} {g : Margin} {stack : List Margin} (h : stack.length < 8) :
    applyEnvOp masked (.push g) stack = (g :: stack, none) := by
  cases stack with
  | nil => rfl
  | cons top rest => exact if_pos h

theorem applyEnvOp_push_full {masked : Bool} {g top : Margin} {rest : List Margin} (h : 8 ≤ rest.length + 1) :
    applyEnvOp masked (.push g) (top :: rest) = (if masked then top.merge g :: rest else top :: rest, some .overflow) :=
  if_neg (Nat.not_lt.mpr h)

theorem stage2_of_envOp {masked : Bool} {f : SetpointFrame} {stack : List Margin} {op : EnvOp} (h : f.envOp = some op) :
    stage2 masked f stack = ((applyEnvOp masked op stack).1, (applyEnvOp masked op stack).2.map fun c =>
      ⟨.frame, c, stack.length, if f.op = 1 then some f.margin else none, some f.seq⟩) := by
  simp only [stage2, h, SetpointFrame.isPush_iff]

theorem stage2_of_badOp {masked : Bool} {f : SetpointFrame} {stack : List Margin} (h : f.envOp = none) :
    stage2 masked f stack = (stack, some ⟨.frame, .badOp, stack.length, if f.op = 1 then some f.margin else none, some f.seq⟩) := by
  simp only [stage2, h, SetpointFrame.isPush_iff]

/-- A code that is no operation, or a PUSH out of range (R43, R131). -/
theorem envOp_eq_none {f : SetpointFrame} (h0 : f.op ≠ 0) (h2 : f.op ≠ 2)
    (h1 : f.op = 1 → 63 < f.margin.lateral ∨ 63 < f.margin.below) : f.envOp = none := by
  rw [SetpointFrame.envOp, if_neg h0, if_neg h2]
  split
  · next hop =>
    have := h1 hop
    exact if_neg (by omega)
  · rfl

/-- Settles O27: the table of R130 row by row, and the operation of a frame by its code. -/
theorem envelopeOperations : Obligations.EnvelopeOperations := by
  refine ⟨fun _ _ _ => applyEnvOp_push_room, fun g top rest h => ⟨applyEnvOp_push_full h, applyEnvOp_push_full h⟩, fun _ _ _ => rfl,
    fun _ => rfl, fun masked f stack => ⟨fun h0 => ?_, fun h1 hl hb => ?_, fun h2 => ?_, fun h0 h2 h1 => ?_⟩⟩
  · exact stage2_of_envOp (op := .none) (by simp [SetpointFrame.envOp, h0])
  · exact stage2_of_envOp (op := .push f.margin) (by simp [SetpointFrame.envOp, h1, SetpointFrame.margin, hl, hb])
  · exact stage2_of_envOp (op := .pop) (by simp [SetpointFrame.envOp, h2])
  · exact stage2_of_badOp (envOp_eq_none h0 h2 h1)

/-! ### SETPOINT_VERDICT (R53 to R57) -/

theorem exec_setpointVerdict_take {m : Arm} {s : State} {f : SetpointFrame} {step : Tri Int} {geom : Geometry}
    {expected : Option SeqNo} {stack : Option StackDetail} {v : Verdict}
    (ht : s.verdictTakes m (.setpoint f step geom expected stack) v) : exec (.setpointVerdict m) s
      = match (motive := Verdict → Result) v with
        | .placed => .next (s.setArm m (({ s.arm m with outstanding := none, verdict := none, placeGeom := geom } :
            ArmUnit).forwardOutcome m f step ⟨KindSet.empty, none, none, expected, stack⟩))
        | .failed kinds ra sa tick =>
          withForwarded { s.arm m with outstanding := none, verdict := none } fun p0 =>
            if softVerdict (s.arm m).ctx.mask f.isPush kinds then
              .next (s.setArm m (({ s.arm m with outstanding := none, verdict := none } : ArmUnit).softOutcome m (s.driveNode m) p0
                f.seq ⟨kinds, ra, sa, expected, stack⟩ tick))
            else .next (s.setArm m (({ s.arm m with outstanding := none, verdict := none } : ArmUnit).hardOutcome m (s.driveNode m) p0
                f.seq ⟨kinds, ra, sa, expected, stack⟩ tick))
        | .absent | .unknown => .fault .unjudgedInRun := by
  obtain ⟨ho, hv⟩ := ht
  rw [exec_setpointVerdict, execSetpointVerdict, takeVerdict_take ho hv]
  cases v <;> rfl

theorem softVerdict_iff (mask : Mask) (f : SetpointFrame) (kinds : KindSet) : softVerdict mask f.isPush kinds = true
    ↔ f.op ≠ 1 ∧ ¬KindSet.has kinds .range = true ∧ ¬KindSet.has kinds .forbidden = true ∧ ¬KindSet.has kinds .proximity = true
      ∧ (KindSet.has kinds .trespass = true → mask.trespass = true) ∧ (KindSet.has kinds .speed = true → mask.speed = true) := by
  have hpush : f.isPush = false ↔ f.op ≠ 1 := by rw [ne_eq, ← SetpointFrame.isPush_iff, Bool.not_eq_true]
  simp only [softVerdict, Bool.and_eq_true, Bool.or_eq_true, Bool.not_eq_true', hpush, Bool.not_eq_true, and_assoc]
  have himp (a b : Bool) : a = false ∨ b = true ↔ (a = true → b = true) := by cases a <;> simp
  rw [himp, himp]

/-- An arm unit whose setpoint was softened (R55): its braking setpoint substituted, its counts. -/
def ArmUnit.softened (u : ArmUnit) (m : Arm) (node : Node) (p : Pos) (seq : SeqNo) (f : Found) : ArmUnit :=
  { u.brake node p with
    substituted := true, raises := u.raises ++ (zoneRaises m seq f ++ ownRaises m seq f),
    ctx := { u.ctx with softSeen := true, soft := u.ctx.soft + 1, miss := 0 } }

theorem ArmUnit.softOutcome_below {u : ArmUnit} (m : Arm) (node : Node) (p : Pos) (seq : SeqNo) (f : Found) (tick : Tick)
    (h : u.ctx.soft + 1 < u.work.softLimit) : u.softOutcome m node p seq f tick = u.softened m node p seq f :=
  if_neg (Nat.not_le.mpr h)

theorem ArmUnit.softOutcome_limit {u : ArmUnit} (m : Arm) (node : Node) (p : Pos) (seq : SeqNo) (f : Found) (tick : Tick)
    (h : u.work.softLimit ≤ u.ctx.soft + 1) (hs : u.state = .run) (hf : u.ctx.fault = none) (hc : u.ctx.carried = none) :
    u.softOutcome m node p seq f tick = ({ u.softened m node p seq f with
        raises := (u.softened m node p seq f).raises ++ [⟨m, .softLimit, .seqOnly seq⟩] } : ArmUnit).opensFaultStop m
      ⟨.softLimit, KindSet.without f.kinds .softLimit, some seq, none, none, tick, .run⟩ := by
  rw [ArmUnit.softOutcome, if_pos h]
  exact ArmUnit.hardFault_settleIfStill m _ hs hf hc

theorem Found.axisOf_eq (f : Found) (k : FaultKind) :
    f.axisOf k = if k = .range then f.rangeAxis else if k = .speed then f.speedAxis else none := by
  cases k <;> rfl

/-- Settles O28: the three outcomes of a verdict, the raises, and the sets of kinds. -/
theorem setpointVerdictRule : Obligations.SetpointVerdictRule := by
  refine ⟨fun m s f step geom outOfOrder stack v ht => ?verdict, zoneRaises_eq,
    fun w k => ⟨rfl, fun n => ⟨BitVec.getLsbD_zero, KindSet.single_bit k n, KindSet.add_bit w k n, KindSet.without_bit w k n⟩⟩,
    Found.has_kinds, KindSet.first_eq_some⟩
  intro u own run
  have hrun : run = _ := exec_setpointVerdict_take ht
  have hown (zone : KindSet) (ra sa : Option Axis) : ownRaises m f.seq ⟨zone, ra, sa, outOfOrder, stack⟩ = own :=
    ownRaises_eq m f.seq _
  refine ⟨fun node => driveNode_known, fun hv => ?placed, fun kinds ra sa tick p0 hv hp hs hf hc => ?failed⟩
  case placed =>
    subst hv
    rw [hrun]
    simp only [ArmUnit.forwardOutcome, ArmUnit.raiseFound, zoneRaises_of_empty, hown]
    rfl
  case failed =>
    intro has soft found b softened
    subst hv
    have hsoft : softVerdict u.ctx.mask f.isPush kinds = true ↔ soft := softVerdict_iff _ f kinds
    dsimp only at hrun
    rw [withForwarded_some hp] at hrun
    have hraised : u.softened m (s.driveNode m) p0 f.seq found = softened := by
      rw [ArmUnit.softened, hown]
    refine ⟨fun h hbelow => ?_, fun h hlimit => ?_, fun first h hfirst => ?_⟩
    · rw [hrun, if_pos (hsoft.mpr h), ArmUnit.softOutcome_below (u := u) m _ p0 _ _ _ hbelow, hraised]
    · rw [hrun, if_pos (hsoft.mpr h), ArmUnit.softOutcome_limit (u := u) m _ p0 _ _ _ hlimit hs hf hc, hraised]
    · rw [hrun, if_neg (mt hsoft.mp h), ArmUnit.hardOutcome_run (u := u) m _ p0 f.seq tick hfirst hs hf hc, hown,
        Found.axisOf_eq]

end Sys2Proof.Machine
end

