-- ==== Sys2Proof/Proofs/Expiries.lean ====
section
/-! PROOFS. The cadence expiries of an arm unit, settling PeriodEndParts, RunExpiryRule, HaltingExpiryRule, SettlingExpiryRule and
QuietExpiryRule. -/

namespace Sys2Proof.Machine

/-! ### The feedback count and a missed period (R60, R64) -/

theorem ArmUnit.feedbackRunsOut_iff (u : ArmUnit) :
    u.feedbackRunsOut = true ↔ u.feedbackSeen = false ∧ u.work.feedbackLimit ≤ u.ctx.feedback + 1 := by
  simp [ArmUnit.feedbackRunsOut]

theorem ArmUnit.missRunsOut_iff (u : ArmUnit) : u.missRunsOut = true ↔ u.work.missLimit ≤ u.ctx.miss + 1 := decide_eq_true_iff

theorem ArmUnit.settleRunsOut_iff (u : ArmUnit) : u.settleRunsOut = true ↔ u.work.settleLimit ≤ u.ctx.settleTimer + 1 :=
  decide_eq_true_iff

theorem ArmUnit.stepFeedback_seen {u : ArmUnit} (m : Arm) (h : u.feedbackSeen = true) : u.stepFeedback m = u := by
  rw [ArmUnit.stepFeedback, if_neg (by simp [ArmUnit.feedbackRunsOut_iff, h]), if_pos h]

theorem ArmUnit.stepFeedback_counts {u : ArmUnit} (m : Arm) (h : u.feedbackSeen = false)
    (hl : u.ctx.feedback + 1 < u.work.feedbackLimit) :
    u.stepFeedback m = { u with ctx := { u.ctx with feedback := u.ctx.feedback + 1 } } := by
  rw [ArmUnit.stepFeedback, if_neg (by rw [ArmUnit.feedbackRunsOut_iff]; omega), if_neg (by simp [h])]

/-- The count at its limit: back to 0, with FEEDBACK_LOSS raised. -/
def ArmUnit.feedbackLost (u : ArmUnit) (m : Arm) : ArmUnit :=
  { u with ctx := { u.ctx with feedback := 0 }, raises := u.raises ++ [⟨m, .feedbackLoss, .seqOnly u.last.seq⟩] }

theorem ArmUnit.stepFeedback_lost {u : ArmUnit} (m : Arm) (h : u.feedbackSeen = false)
    (hl : u.work.feedbackLimit ≤ u.ctx.feedback + 1) :
    u.stepFeedback m = if u.state = .run then
        if u.ctx.mask.feedbackLoss then u.feedbackLost m
        else (u.feedbackLost m).hardFault m (u.finding .feedbackLoss (some u.last.seq) none none)
      else (u.feedbackLost m).foundInStop (u.finding .feedbackLoss (some u.last.seq) none none) :=
  if_pos ((u.feedbackRunsOut_iff).mpr ⟨h, hl⟩)

theorem ArmUnit.foundInStop_requested {u : ArmUnit} (f : Finding) (h : u.stopCause ≠ some .fault) : u.foundInStop f = u := if_neg h

theorem ArmUnit.foundInStop_fault {u : ArmUnit} (f : Finding) {r : FaultRec} (h : u.stopCause = some .fault)
    (hr : u.ctx.fault = some r) : u.foundInStop f = { u with ctx := { u.ctx with fault := some (r.join f) } } := by
  rw [ArmUnit.foundInStop, if_pos h, ArmUnit.record]
  simp only [hr]

/-- A finding of one kind joins a record as that kind. -/
theorem FaultRec.join_single (r : FaultRec) (k : FaultKind) (seq : Option SeqNo) (axis : Option Axis) (port : Option Side)
    (tick : Tick) : r.join ⟨k, KindSet.empty, seq, axis, port, tick⟩
      = { r with also := KindSet.without (KindSet.add r.also k) r.kind } := by
  simp [FaultRec.join, KindSet.union, KindSet.empty]

theorem Finding.toRecord_single (k : FaultKind) (seq : Option SeqNo) (axis : Option Axis) (port : Option Side) (tick : Tick)
    (st : ArmState) : (⟨k, KindSet.empty, seq, axis, port, tick⟩ : Finding).toRecord st
      = ⟨k, KindSet.empty, seq, axis, port, tick, st⟩ := by
  simp [Finding.toRecord]

theorem ArmUnit.missedPeriod_below {u : ArmUnit} (m : Arm) (node : Node) (p : Pos) (h : u.ctx.miss + 1 < u.work.missLimit) :
    u.missedPeriod m node p = { u.brake node p with substituted := true, ctx := { u.ctx with miss := u.ctx.miss + 1 } } :=
  if_neg (by rw [ArmUnit.missRunsOut_iff]; omega)

/-- The missed period that reaches its limit, before the fault it is: braked, counted, FRAME_LOSS raised. -/
def ArmUnit.missLost (u : ArmUnit) (m : Arm) (node : Node) (p : Pos) : ArmUnit :=
  { u.brake node p with
    substituted := true, ctx := { u.ctx with miss := u.ctx.miss + 1 },
    raises := u.raises ++ [⟨m, .frameLoss, .seqOnly (u.last.seq + 1)⟩] }

theorem ArmUnit.missedPeriod_limit {u : ArmUnit} (m : Arm) (node : Node) (p : Pos) (h : u.work.missLimit ≤ u.ctx.miss + 1)
    (hs : u.state = .run) (hf : u.ctx.fault = none) (hc : u.ctx.carried = none) :
    u.missedPeriod m node p = (u.missLost m node p).opensFaultStop m
      ⟨.frameLoss, KindSet.empty, some (u.last.seq + 1), none, none, u.tickCopy, .run⟩ := by
  have hfault := ArmUnit.hardFault_settleIfStill (u := u.missLost m node p) m
    ⟨.frameLoss, KindSet.empty, some (u.last.seq + 1), none, none, u.tickCopy⟩ hs hf hc
  rw [Finding.toRecord_single] at hfault
  exact (if_pos ((u.missRunsOut_iff).mpr h)).trans hfault

/-- Settles O29: the feedback count by its limit, its mask and the stop; a missed period by its limit. -/
theorem periodEndParts : Obligations.PeriodEndParts := by
  refine ⟨fun _ m => ArmUnit.stepFeedback_seen m, fun _ m => ArmUnit.stepFeedback_counts m, fun u m hseen hlimit => ?lost,
    fun u m node p => ⟨ArmUnit.missedPeriod_below m node p, ArmUnit.missedPeriod_limit m node p⟩⟩
  have hlost := ArmUnit.stepFeedback_lost m hseen hlimit
  have hstop (h : u.state = .halting ∨ u.state = .settling) : u.state ≠ .run := by rcases h with h | h <;> simp [h]
  refine ⟨fun hs hm => ?_, fun hs hm hf hc => ?_, fun hs hr => ?_, fun r hs hr hf => ?_⟩
  · rw [hlost, if_pos hs, if_pos hm]
    rfl
  · rw [hlost, if_pos hs, if_neg (by simp [hm]), ArmUnit.hardFault_run (u := u.feedbackLost m) m _ hs hf hc, ArmUnit.finding,
      Finding.toRecord_single]
    rfl
  · rw [hlost, if_neg (hstop hs), ArmUnit.foundInStop_requested (u := u.feedbackLost m) _ (by
      rw [show (u.feedbackLost m).stopCause = some .requested from hr]
      decide)]
    rfl
  · rw [hlost, if_neg (hstop hs), ArmUnit.foundInStop_fault (u := u.feedbackLost m) _ hr hf, ArmUnit.finding, FaultRec.join_single]
    rfl

/-! ### The expiries -/

theorem ArmUnit.takeProfile_eq (u : ArmUnit) : u.takeProfile = { u with work := u.newProfile.getD u.work, newProfile := none } := by
  rw [ArmUnit.takeProfile]
  split
  · next h => rw [h]; rfl
  · next h => rw [h, Option.getD_none, ← h]

/-- The arm unit at an expiry, with the profile the expiry takes (R3). -/
def ArmUnit.atExpiry (u : ArmUnit) (rest : List ArmEvent) : ArmUnit :=
  { u with arrivals := rest, work := u.newProfile.getD u.work, newProfile := none }

theorem takeExpiry_atExpiry {m : Arm} {s : State} {ok : ArmState → Bool} {cond : ArmUnit → Bool} {k : ArmUnit → Result}
    {rest : List ArmEvent} (ht : s.armTakes m .expiry rest) (hs : ok (s.arm m).state = true)
    (hc : cond ((s.arm m).atExpiry rest) = true) : takeExpiry m s ok cond k = k ((s.arm m).atExpiry rest) := by
  obtain ⟨ho, ha⟩ := ht
  rw [takeExpiry_take ho ha hs (by rw [ArmUnit.takeProfile_eq]; exact hc), ArmUnit.takeProfile_eq]
  rfl

section Expiry

variable {m : Arm} {s : State} {rest : List ArmEvent} {p : Pos}

theorem finishRun_known {u : ArmUnit} (hp : u.last.pos = some p) :
    finishRun m s u = .next (s.setArm m (u.expiryRun m (s.driveNode m) p)) := withForwarded_some hp

theorem finishHalting_known {u : ArmUnit} (hp : u.last.pos = some p) :
    finishHalting m s u = .next (s.setArm m (u.expiryHalting m (s.driveNode m) p)) := withForwarded_some hp

theorem finishSettling_known {u : ArmUnit} (hp : u.last.pos = some p) :
    finishSettling m s u = .next (s.setArm m (u.expirySettling m (s.driveNode m) p)) := withForwarded_some hp

theorem exec_feedbackLoss_run (ht : s.armTakes m .expiry rest) (hs : (s.arm m).state = .run)
    (hc : ((s.arm m).atExpiry rest).feedbackRunsOut = true) :
    exec (.feedbackLoss m) s = finishRun m s ((s.arm m).atExpiry rest) := by
  have hrun : isRun ((s.arm m).atExpiry rest).state = true := by rw [show ((s.arm m).atExpiry rest).state = .run from hs]; rfl
  rw [exec_feedbackLoss, execFeedbackLoss, takeExpiry_atExpiry ht (by rw [hs]; rfl) hc, if_pos hrun]

theorem exec_feedbackLoss_halting (ht : s.armTakes m .expiry rest) (hs : (s.arm m).state = .halting)
    (hc : ((s.arm m).atExpiry rest).feedbackRunsOut = true) :
    exec (.feedbackLoss m) s = finishHalting m s ((s.arm m).atExpiry rest) := by
  have hstate : ((s.arm m).atExpiry rest).state = .halting := hs
  rw [exec_feedbackLoss, execFeedbackLoss, takeExpiry_atExpiry ht (by rw [hs]; rfl) hc, if_neg (by rw [hstate]; decide),
    if_pos (by rw [hstate]; rfl)]

theorem exec_feedbackLoss_settling (ht : s.armTakes m .expiry rest) (hs : (s.arm m).state = .settling)
    (hc : ((s.arm m).atExpiry rest).feedbackRunsOut = true) :
    exec (.feedbackLoss m) s = finishSettling m s ((s.arm m).atExpiry rest) := by
  have hstate : ((s.arm m).atExpiry rest).state = .settling := hs
  rw [exec_feedbackLoss, execFeedbackLoss, takeExpiry_atExpiry ht (by rw [hs]; rfl) hc, if_neg (by rw [hstate]; decide),
    if_neg (by rw [hstate]; decide)]

end Expiry

/-- Settles O30: the three commands take the same expiry, each under its condition. -/
theorem runExpiryRule : Obligations.RunExpiryRule := by
  intro m s rest p ht hs hp a u missed t
  have hnext : finishRun m s ((s.arm m).atExpiry rest) = .next t := finishRun_known (u := (s.arm m).atExpiry rest) hp
  have hok : isRun (s.arm m).state = true := by rw [hs]; rfl
  refine ⟨fun node => driveNode_known, ?_, fun hslot hmiss => ?_, fun hseen hlimit => ?_⟩
  · rw [exec_cadenceExpiryRun, execCadenceExpiryRun, takeExpiry_atExpiry ht hok rfl, hnext]
  · have hcond : (!((s.arm m).atExpiry rest).slotFilled && ((s.arm m).atExpiry rest).missRunsOut) = true := by
      rw [show ((s.arm m).atExpiry rest).slotFilled = false from hslot,
        show ((s.arm m).atExpiry rest).missRunsOut = true from (ArmUnit.missRunsOut_iff _).mpr hmiss]
      rfl
    rw [exec_frameLoss, execFrameLoss, takeExpiry_atExpiry ht hok hcond, hnext]
  · rw [exec_feedbackLoss_run ht hs ((ArmUnit.feedbackRunsOut_iff _).mpr ⟨hseen, hlimit⟩), hnext]

/-- What recording a finding and stepping the feedback count outside RUN leave as it was. -/
def ArmUnit.SameTiming (u v : ArmUnit) : Prop :=
  v.state = u.state ∧ v.last = u.last ∧ v.tickCopy = u.tickCopy ∧ v.ctx.settleTimer = u.ctx.settleTimer
    ∧ v.ctx.settleCount = u.ctx.settleCount

theorem record_sameTiming (u : ArmUnit) (f : Finding) : u.SameTiming (u.record f) := by
  rw [ArmUnit.record]
  split <;> exact ⟨rfl, rfl, rfl, rfl, rfl⟩

theorem foundInStop_sameTiming (u : ArmUnit) (f : Finding) : u.SameTiming (u.foundInStop f) := by
  rw [ArmUnit.foundInStop]
  split
  · exact record_sameTiming u f
  · exact ⟨rfl, rfl, rfl, rfl, rfl⟩

theorem stepFeedback_sameTiming {u : ArmUnit} (m : Arm) (h : u.state ≠ .run) : u.SameTiming (u.stepFeedback m) := by
  by_cases hseen : u.feedbackSeen = true
  · rw [ArmUnit.stepFeedback_seen m hseen]
    exact ⟨rfl, rfl, rfl, rfl, rfl⟩
  rw [Bool.not_eq_true] at hseen
  by_cases hlimit : u.ctx.feedback + 1 < u.work.feedbackLimit
  · rw [ArmUnit.stepFeedback_counts m hseen hlimit]
    exact ⟨rfl, rfl, rfl, rfl, rfl⟩
  · rw [ArmUnit.stepFeedback_lost m hseen (by omega), if_neg h]
    exact foundInStop_sameTiming (u.feedbackLost m) _

/-- Settles O31. -/
theorem haltingExpiryRule : Obligations.HaltingExpiryRule := by
  intro m s rest p ht hs hp a u b settled t
  have hstate : b.state = .halting := (stepFeedback_sameTiming m (by rw [show u.state = .halting from hs]; decide)).1.trans hs
  have hsettled : b.settleIfStill m = settled := by
    by_cases hstill : b.last.step = Tri.zero
    · rw [ArmUnit.settleIfStill_still m hstate hstill]
      exact (if_pos hstill).symm
    · rw [ArmUnit.settleIfStill_moving m hstill]
      exact (if_neg hstill).symm
  have hnext : finishHalting m s ((s.arm m).atExpiry rest) = .next t := by
    rw [finishHalting_known (u := (s.arm m).atExpiry rest) hp]
    exact congrArg (fun w : ArmUnit => Host.Outcome.next (s.setArm m { w with slotFilled := false, feedbackSeen := false })) hsettled
  refine ⟨fun node => driveNode_known, ?_, fun hseen hlimit => ?_⟩
  · rw [exec_cadenceExpiryHalting, execCadenceExpiryHalting, takeExpiry_atExpiry ht (by rw [hs]; rfl) rfl, hnext]
  · rw [exec_feedbackLoss_halting ht hs ((ArmUnit.feedbackRunsOut_iff _).mpr ⟨hseen, hlimit⟩), hnext]

/-- The settling arm unit at an expiry whose feedback count has been stepped: the timer goes on, and at its limit the arm is cut. -/
def ArmUnit.settlingPeriod (v : ArmUnit) (m : Arm) (node : Node) (p : Pos) (timer count : Nat) (seq : SeqNo) (tick : Tick) (late : Bool) :
    ArmUnit :=
  let timed : ArmUnit := { v with ctx := { v.ctx with settleTimer := timer + 1 } }
  if late then
    ({ timed with raises := timed.raises ++ [⟨m, .settleTimeout, .settleTimeout seq count⟩] } : ArmUnit).cut m
      ⟨.settleTimeout, KindSet.empty, none, none, none, tick⟩
  else { timed with handed := timed.handed ++ [frame .setpoint node (seq + 1) (posOctets p ++ [0, 0, 0])],
                    last := ⟨some p, Tri.zero, seq + 1⟩ }

theorem ArmUnit.expirySettling_eq {u : ArmUnit} (m : Arm) (node : Node) (p : Pos) (h : u.state = .settling) :
    u.expirySettling m node p = { (({ u with substituted := false } : ArmUnit).stepFeedback m).settlingPeriod m node p
      u.ctx.settleTimer u.ctx.settleCount u.last.seq u.tickCopy u.settleRunsOut with feedbackSeen := false } := by
  obtain ⟨-, hlast, htick, htimer, hcount⟩ := stepFeedback_sameTiming (u := { u with substituted := false }) m
    (by rw [show ({ u with substituted := false } : ArmUnit).state = .settling from h]; decide)
  rw [ArmUnit.expirySettling]
  generalize ({ u with substituted := false } : ArmUnit).stepFeedback m = v at hlast htick htimer hcount ⊢
  rw [show u.ctx.settleTimer = v.ctx.settleTimer from htimer.symm, show u.ctx.settleCount = v.ctx.settleCount from hcount.symm,
    show u.last = v.last from hlast.symm, show u.tickCopy = v.tickCopy from htick.symm]
  cases u.settleRunsOut <;> rfl

/-- Settles O32. -/
theorem settlingExpiryRule : Obligations.SettlingExpiryRule := by
  intro m s rest p ht hs hp a u v timed late out t
  have hout : v.settlingPeriod m (s.driveNode m) p u.ctx.settleTimer u.ctx.settleCount u.last.seq u.tickCopy u.settleRunsOut
      = out := by
    by_cases hlate : late
    · exact (if_pos ((u.settleRunsOut_iff).mpr hlate)).trans (if_pos hlate).symm
    · exact (if_neg fun h => hlate ((u.settleRunsOut_iff).mp h)).trans (if_neg hlate).symm
  have hnext : finishSettling m s ((s.arm m).atExpiry rest) = .next t := by
    rw [finishSettling_known (u := (s.arm m).atExpiry rest) hp, ArmUnit.expirySettling_eq (u := (s.arm m).atExpiry rest) m _ p hs]
    exact congrArg (fun w : ArmUnit => Host.Outcome.next (s.setArm m { w with feedbackSeen := false })) hout
  have hok : isSettling (s.arm m).state = true := by rw [hs]; rfl
  refine ⟨fun node => driveNode_known, ?_, fun hlate => ?_, fun hseen hlimit => ?_⟩
  · rw [exec_cadenceExpirySettling, execCadenceExpirySettling, takeExpiry_atExpiry ht hok rfl, hnext]
  · rw [exec_settleTimeout, execSettleTimeout,
      takeExpiry_atExpiry ht hok (((s.arm m).atExpiry rest).settleRunsOut_iff.mpr hlate), hnext]
  · rw [exec_feedbackLoss_settling ht hs ((ArmUnit.feedbackRunsOut_iff _).mpr ⟨hseen, hlimit⟩), hnext]

theorem quietHold_silent {m : Arm} {s : State} {u : ArmUnit} (h : u.state = .sync ∨ u.state = .cut) :
    quietHold m s u = .next (s.setArm m u) := if_neg (by rcases h with h | h <;> simp [h])

theorem quietHold_released {m : Arm} {s : State} {u : ArmUnit} {p : Pos} (h : u.state = .standby ∨ u.state = .held)
    (hsto : u.sto = false) (hp : u.last.pos = some p) : quietHold m s u = .next (s.setArm m (u.hold (s.driveNode m) p)) := by
  rw [quietHold, if_pos h, if_neg (by simp [hsto]), withForwarded_some hp]

theorem quietHold_asserted {m : Arm} {s : State} {u : ArmUnit} (h : u.state = .standby ∨ u.state = .held)
    (hsto : u.sto = true) : quietHold m s u = .next (s.setArm m (u.lastActual.elim u fun p => u.hold (s.driveNode m) p)) := by
  rw [quietHold, if_pos h, if_pos hsto]
  cases u.lastActual <;> rfl

/-- Settles O33. -/
theorem quietExpiryRule : Obligations.QuietExpiryRule := by
  intro m s rest ht a q run hold
  have hrun (h : a.state = .sync ∨ a.state = .standby ∨ a.state = .held ∨ a.state = .cut) : run = quietHold m s q := by
    have hok : isQuiet (s.arm m).state = true := by
      rcases h with h | h | h | h <;> rw [show (s.arm m).state = _ from h] <;> rfl
    exact takeExpiry_atExpiry (k := fun u => quietHold m s u.quiet) (cond := fun _ => true) ht hok rfl
  refine ⟨fun node => driveNode_known, fun h => ?_, fun h => ⟨fun p hsto hp => ?_, fun p hsto hp => ?_, fun hsto hp => ?_⟩⟩
  · rw [hrun (by tauto), quietHold_silent (u := q) h]
  · rw [hrun (by tauto), quietHold_released (u := q) h hsto hp]
    rfl
  · rw [hrun (by tauto), quietHold_asserted (u := q) h hsto, show q.lastActual = some p from hp]
    rfl
  · rw [hrun (by tauto), quietHold_asserted (u := q) h hsto, show q.lastActual = none from hp]
    rfl

end Sys2Proof.Machine
end

