-- ==== Sys2Proof/Proofs/Feedback.lean ====
section
/-! PROOFS. The other arrivals at an arm unit: FEEDBACK, PARAM, ticks, commit notices and reports of lock, settling FeedbackRule,
SettlingRule, ParamTickAndNotice and LockChangeRule. -/

namespace Sys2Proof.Machine

/-! ### Taking a FEEDBACK (R61, R164) -/

theorem ArmUnit.matchesEcho_iff (u : ArmUnit) (f : FeedbackFrame) : u.matchesEcho f = true ↔ f.echo = u.last.seq := beq_iff_eq

theorem forwardFeedback_setArm (s : State) (m : Arm) (f : FeedbackFrame) (v : ArmUnit) :
    (s.setArm m v).forwardFeedback m f = (s.setArm m v).forwardUp m (frame .feedback f.node f.seq
      (f.payload ++ [guardOctet v ((((s.setArm m v).settleExpiry .ctrl m).closeOpportunity m).report.noticeWaiting m)])) := by
  rw [State.forwardFeedback, State.setArm_arm_same]
  rfl

/-- A FEEDBACK that is a second cause of CUT of the stop that ended before it (R86). -/
def ArmEvent.isFaultSecond : ArmEvent → Bool
  | .faultSecond _ => true
  | _ => false

theorem ArmEvent.isFaultSecond_iff {e : ArmEvent} {f : FeedbackFrame} (he : e = .feedback f ∨ e = .faultSecond f) :
    e.isFaultSecond = true ↔ e = .faultSecond f := by
  rcases he with rfl | rfl <;> simp [ArmEvent.isFaultSecond]

theorem exec_feedbackArrival_take {m : Arm} {s : State} {e : ArmEvent} {f : FeedbackFrame} {rest : List ArmEvent}
    (ht : s.armTakes m e rest) (he : e = .feedback f ∨ e = .faultSecond f) :
    exec (.feedbackArrival m) s = takeFeedback m s f e.isFaultSecond { s.arm m with arrivals := rest } := by
  obtain ⟨ho, ha⟩ := ht
  rw [exec_feedbackArrival, execFeedbackArrival, takeArm_take ho ha]
  rcases he with rfl | rfl <;> rfl

theorem takeFeedback_compared {m : Arm} {s : State} {f : FeedbackFrame} {second : Bool} {u : ArmUnit} {p : Pos}
    (hs : u.state = .run ∨ u.state = .settling) (he : f.echo = u.last.seq) (hp : u.last.pos = some p) :
    takeFeedback m s f second u = .next ((s.setArm m (u.checkFeedback m f second p)).forwardFeedback m f) := by
  rw [takeFeedback, if_pos ⟨hs, (u.matchesEcho_iff f).mpr he⟩, withForwarded_some hp]

theorem takeFeedback_uncompared {m : Arm} {s : State} {f : FeedbackFrame} {second : Bool} {u : ArmUnit}
    (h : u.state = .run ∨ u.state = .settling → f.echo ≠ u.last.seq) :
    takeFeedback m s f second u = .next ((s.setArm m (u.checkFeedback m f second f.actual)).forwardFeedback m f) := by
  rw [takeFeedback, if_neg fun hc => h hc.1 ((u.matchesEcho_iff f).mp hc.2)]

/-! ### The checks in their order (R61 to R65) -/

theorem ArmUnit.noteActual_moving {u : ArmUnit} (p : Pos) (h : u.state = .run ∨ u.state = .halting ∨ u.state = .settling) :
    u.noteActual p = { u with lastActual := some p } := by
  rw [ArmUnit.noteActual]
  rcases h with h | h | h <;> rw [h]

theorem ArmUnit.noteActual_quiet {u : ArmUnit} (p : Pos) (h : ¬(u.state = .run ∨ u.state = .halting ∨ u.state = .settling)) :
    u.noteActual p = { u with
      lastActual := some p, awaitFeedback := false,
      toWs := u.toWs ++ [.rest p.xyz (composeEnvelope u.work u.ctx.stack) u.work.geometry] } := by
  rw [ArmUnit.noteActual]
  cases hs : u.state
  case run | halting | settling => simp [hs] at h
  all_goals rfl

/-- The arm unit after the echo test of a FEEDBACK (R61, R62). -/
def ArmUnit.noted (u : ArmUnit) (m : Arm) (f : FeedbackFrame) : ArmUnit := (u.noteActual f.actual).noteEcho m f

theorem ArmUnit.noted_eq (u : ArmUnit) (m : Arm) (f : FeedbackFrame) : u.noted m f =
    let seen : ArmUnit := if u.state = .run ∨ u.state = .halting ∨ u.state = .settling then { u with lastActual := some f.actual }
      else { u with
        lastActual := some f.actual, awaitFeedback := false,
        toWs := u.toWs ++ [.rest f.actual.xyz (composeEnvelope u.work u.ctx.stack) u.work.geometry] }
    if f.echo = u.last.seq then { seen with feedbackSeen := true, ctx := { u.ctx with feedback := 0 } }
    else { seen with raises := u.raises ++ [⟨m, .feedbackStale, .seqPair f.echo u.last.seq⟩] } := by
  have hecho (v : ArmUnit) : v.noteEcho m f = if f.echo = v.last.seq then
        { v with feedbackSeen := true, ctx := { v.ctx with feedback := 0 } }
      else { v with raises := v.raises ++ [⟨m, .feedbackStale, .seqPair f.echo v.last.seq⟩] } :=
    if_congr (v.matchesEcho_iff f) rfl rfl
  rw [ArmUnit.noted, hecho]
  by_cases h : u.state = .run ∨ u.state = .halting ∨ u.state = .settling
  · rw [ArmUnit.noteActual_moving _ h, if_pos h]
  · rw [ArmUnit.noteActual_quiet _ h, if_neg h]

/-- What noting a FEEDBACK leaves as it was, of what the later checks read. -/
theorem ArmUnit.noted_keeps (u : ArmUnit) (m : Arm) (f : FeedbackFrame) :
    (u.noted m f).state = u.state ∧ (u.noted m f).sto = u.sto ∧ (u.noted m f).tickCopy = u.tickCopy
      ∧ (u.noted m f).work = u.work ∧ (u.noted m f).ctx.fault = u.ctx.fault ∧ (u.noted m f).ctx.carried = u.ctx.carried
      ∧ (u.noted m f).ctx.mask = u.ctx.mask := by
  rw [ArmUnit.noted_eq]
  dsimp only
  split_ifs <;> exact ⟨rfl, rfl, rfl, rfl, rfl, rfl, rfl⟩

theorem ArmUnit.noted_raises (u : ArmUnit) (m : Arm) {f : FeedbackFrame} (he : f.echo = u.last.seq) :
    (u.noted m f).raises = u.raises := by
  rw [ArmUnit.noted_eq]
  dsimp only
  rw [if_pos he]
  split_ifs <;> rfl

/-- The drive status (R65), read of an arm unit `w` that a FEEDBACK made of `u`. -/
theorem ArmUnit.checkStatus_eq {u w : ArmUnit} (m : Arm) (f : FeedbackFrame) (second : Bool) (hsto : w.sto = u.sto)
    (hcut : w.state = .cut ↔ u.state = .cut) (htick : w.tickCopy = u.tickCopy) :
    w.checkStatus m f second = if f.status ≠ 0 ∧ (u.sto = false ∨ (second = true ∧ u.state = .cut)) then
        ({ w with raises := w.raises ++ [⟨m, .driveFault, .seqOnly f.echo⟩] } : ArmUnit).cut m
          ⟨.driveFault, KindSet.empty, none, none, none, u.tickCopy⟩
      else w := by
  rw [← htick, ← hsto]
  exact if_congr (by rw [hcut]) rfl rfl

/-- Outside a matching FEEDBACK in RUN or SETTLING the echo test and the drive status are all there is. -/
theorem ArmUnit.checkFeedback_uncompared {u : ArmUnit} (m : Arm) (f : FeedbackFrame) (second : Bool) (p : Pos)
    (h : u.state = .run ∨ u.state = .settling → f.echo ≠ u.last.seq) :
    u.checkFeedback m f second p = (u.noted m f).checkStatus m f second := by
  rw [ArmUnit.checkFeedback, if_neg fun hc => h (.inr hc.1) ((u.matchesEcho_iff f).mp hc.2.2),
    if_neg fun hc => h (.inl hc.1) ((u.matchesEcho_iff f).mp hc.2)]
  rfl

theorem ArmUnit.checkFeedback_run {u : ArmUnit} (m : Arm) (f : FeedbackFrame) (second : Bool) (p : Pos)
    (hs : u.state = .run) (he : f.echo = u.last.seq) :
    u.checkFeedback m f second p = ((u.noted m f).checkTracking m f p).checkStatus m f second := by
  rw [ArmUnit.checkFeedback, if_neg (by simp [hs]), if_pos ⟨hs, (u.matchesEcho_iff f).mpr he⟩]
  rfl

theorem ArmUnit.checkTracking_within {u : ArmUnit} (m : Arm) (f : FeedbackFrame) (p : Pos)
    (h : (exceeds u.work.trackingLimit f.actual.xyz p.xyz).firstAxis = none) : u.checkTracking m f p = u := by
  simp only [ArmUnit.checkTracking, h]

/-- TRACKING raised (R63), before the fault it is where unmasked. -/
def ArmUnit.strayed (u : ArmUnit) (m : Arm) (f : FeedbackFrame) (ax : Axis) : ArmUnit :=
  u.raise m .tracking (.seqAxis f.echo (some ax))

theorem ArmUnit.checkTracking_masked {u : ArmUnit} (m : Arm) (f : FeedbackFrame) (p : Pos) {ax : Axis}
    (h : (exceeds u.work.trackingLimit f.actual.xyz p.xyz).firstAxis = some ax) (hm : u.ctx.mask.tracking = true) :
    u.checkTracking m f p = u.strayed m f ax := by
  simp only [ArmUnit.checkTracking, h, hm, if_true]
  rfl

theorem ArmUnit.checkTracking_fault {u : ArmUnit} (m : Arm) (f : FeedbackFrame) (p : Pos) {ax : Axis}
    (h : (exceeds u.work.trackingLimit f.actual.xyz p.xyz).firstAxis = some ax) (hm : u.ctx.mask.tracking = false)
    (hs : u.state = .run) (hf : u.ctx.fault = none) (hc : u.ctx.carried = none) :
    u.checkTracking m f p = (u.strayed m f ax).haltsOn m
      ⟨.tracking, KindSet.empty, some f.echo, some ax, none, u.tickCopy, .run⟩ := by
  have hfault := ArmUnit.hardFault_run (u := u.strayed m f ax) m ⟨.tracking, KindSet.empty, some f.echo, some ax, none, u.tickCopy⟩
    hs hf hc
  rw [Finding.toRecord_single] at hfault
  simp only [ArmUnit.checkTracking, h, hm]
  exact hfault

/-- The first axis whose actual position differs from the commanded one by more than the limit. -/
theorem exceeds_firstAxis (limit : Nat) (q c : Tri Int) : (exceeds limit q c).firstAxis
    = if limit < (q.x - c.x).natAbs then some .axisX else if limit < (q.y - c.y).natAbs then some .axisY
      else if limit < (q.z - c.z).natAbs then some .axisZ else none := by
  simp only [exceeds, Tri.map2, Tri.firstAxis, decide_eq_true_eq]

theorem exceeds_isSome (limit : Nat) (q c : Tri Int) : (exceeds limit q c).firstAxis.isSome = true
    ↔ limit < (q.x - c.x).natAbs ∨ limit < (q.y - c.y).natAbs ∨ limit < (q.z - c.z).natAbs := by
  rw [Tri.firstAxis_isSome]
  simp only [exceeds, Tri.map2, decide_eq_true_eq]

/-! ### The guard status octet (R165, R187) -/

theorem guardOctet_bits (u : ArmUnit) (waiting : Bool) :
    let g := guardOctet u waiting
    (g.extractLsb' 0 3).toNat = u.state.code ∧ g.getLsbD 3 = u.substituted ∧ g.getLsbD 4 = u.ctx.fault.isSome
      ∧ g.getLsbD 5 = u.ctx.carried.isSome ∧ g.getLsbD 6 = u.sto ∧ g.getLsbD 7 = waiting := by
  have hbits : ∀ (code : Fin 8) (a b c d e : Bool),
      let g := octet (code.val + 8 * a.toNat + 16 * b.toNat + 32 * c.toNat + 64 * d.toNat + 128 * e.toNat)
      (g.extractLsb' 0 3).toNat = code.val ∧ g.getLsbD 3 = a ∧ g.getLsbD 4 = b ∧ g.getLsbD 5 = c ∧ g.getLsbD 6 = d
        ∧ g.getLsbD 7 = e := by decide
  have hcode : u.state.code < 8 := by cases u.state <;> decide
  exact hbits ⟨u.state.code, hcode⟩ u.substituted u.ctx.fault.isSome u.ctx.carried.isSome u.sto waiting

/-- Settles O34: what is sent up is the arm unit after the checks, and those are read off case by case. -/
theorem feedbackRule : Obligations.FeedbackRule := by
  refine ⟨fun m s e f rest p ht he => ?_, guardOctet_bits, rfl, fun _ _ => rfl⟩
  intro u seen echoed cutIfFaulty goesUp
  obtain ⟨hstate, hsto, htick, hwork, hfault, hcarried, hmask⟩ := u.noted_keeps m f
  have hecho : u.noted m f = echoed := u.noted_eq m f
  have hstatus (w : ArmUnit) (h1 : w.sto = u.sto) (h2 : w.state = .cut ↔ u.state = .cut) (h3 : w.tickCopy = u.tickCopy) :
      w.checkStatus m f e.isFaultSecond = cutIfFaulty w :=
    (ArmUnit.checkStatus_eq m f _ h1 h2 h3).trans (if_congr (by rw [e.isFaultSecond_iff he]) rfl rfl)
  have huncompared (h : u.state = .run ∨ u.state = .settling → f.echo ≠ u.last.seq) : goesUp (cutIfFaulty echoed) := by
    have hsent := (exec_feedbackArrival_take ht he).trans (takeFeedback_uncompared (u := u) h)
    rwa [forwardFeedback_setArm, ArmUnit.checkFeedback_uncompared (u := u) m f _ _ h,
      hstatus _ hsto (by rw [hstate]) htick, hecho] at hsent
  refine ⟨fun hr hst => huncompared fun h => absurd h (not_or.mpr ⟨hr, hst⟩), fun _ hne => huncompared fun _ => hne,
    fun hrun heq hp => ?_⟩
  intro far strays
  have hcompared {w : ArmUnit} (hw : (u.noted m f).checkTracking m f p = w) (h1 : w.sto = u.sto) (h2 : w.state ≠ .cut)
      (h3 : w.tickCopy = u.tickCopy) : goesUp (cutIfFaulty w) := by
    have hsent := (exec_feedbackArrival_take ht he).trans (takeFeedback_compared (u := u) (.inl hrun) heq hp)
    rwa [forwardFeedback_setArm, ArmUnit.checkFeedback_run (u := u) m f _ p hrun heq, hw,
      hstatus w h1 (by simp [h2, hrun]) h3] at hsent
  have hstrays : (exceeds (u.noted m f).work.trackingLimit f.actual.xyz p.xyz).firstAxis = strays := by
    rw [hwork, exceeds_firstAxis]
  have hnotcut : (u.noted m f).state ≠ .cut := by rw [hstate, hrun]; decide
  refine ⟨fun hnone => ?_, fun ax hax => ?_⟩
  · rw [← hecho]
    exact hcompared (ArmUnit.checkTracking_within m f p (hstrays.trans hnone)) hsto hnotcut htick
  intro flagged
  have hflagged : (u.noted m f).strayed m f ax = flagged := by
    rw [ArmUnit.strayed, ArmUnit.raise, u.noted_raises m heq, hecho]
  refine ⟨fun hm => ?_, fun hm hf hc => ?_⟩
  · rw [← hflagged]
    exact hcompared (ArmUnit.checkTracking_masked m f p (hstrays.trans hax) (by rw [hmask, hm])) hsto hnotcut htick
  · have hhalts := ArmUnit.checkTracking_fault m f p (hstrays.trans hax) (by rw [hmask, hm]) (hstate.trans hrun)
      (hfault.trans hf) (hcarried.trans hc)
    rw [htick] at hhalts
    rw [← hflagged]
    exact hcompared hhalts hsto (show ArmState.halting ≠ .cut by decide) htick

/-! ### A matching FEEDBACK in SETTLING (R83, R85) -/

theorem ArmUnit.checkFeedback_settling {u : ArmUnit} (m : Arm) (f : FeedbackFrame) (second : Bool) (p : Pos)
    (hs : u.state = .settling) (he : f.echo = u.last.seq) :
    u.checkFeedback m f second p = if ((u.noted m f).checkStatus m f second).state = .settling then
        ((u.noted m f).checkStatus m f second).countSettling m f p
      else (u.noted m f).checkStatus m f second := by
  have hecho := (u.matchesEcho_iff f).mpr he
  have hrun : ¬(u.state = .run ∧ u.matchesEcho f = true) := by simp [hs]
  simp only [ArmUnit.checkFeedback, if_neg hrun]
  exact if_congr ⟨fun h => h.2.1, fun h => ⟨hs, h, hecho⟩⟩ rfl rfl

theorem ArmUnit.countSettling_strays {u : ArmUnit} (m : Arm) (f : FeedbackFrame) (p : Pos)
    (h : (exceeds u.work.settleWindow f.actual.xyz p.xyz).firstAxis.isSome = true) :
    u.countSettling m f p = { u with ctx := { u.ctx with settleCount := 0 } } := if_pos h

theorem ArmUnit.countSettling_first {u : ArmUnit} (m : Arm) (f : FeedbackFrame) (p : Pos)
    (h : ¬(exceeds u.work.settleWindow f.actual.xyz p.xyz).firstAxis.isSome = true) (hc : u.ctx.settleCount = 0) :
    u.countSettling m f p = { u with ctx := { u.ctx with settleCount := 1 } } := by
  rw [ArmUnit.countSettling, if_neg h]
  simp [hc]

/-- The arm unit with a FEEDBACK more counted toward settling. -/
def ArmUnit.countedSettling (u : ArmUnit) : ArmUnit := { u with ctx := { u.ctx with settleCount := u.ctx.settleCount + 1 } }

theorem ArmUnit.countSettling_second {u : ArmUnit} (m : Arm) (f : FeedbackFrame) (p : Pos)
    (h : ¬(exceeds u.work.settleWindow f.actual.xyz p.xyz).firstAxis.isSome = true) (hc : 1 ≤ u.ctx.settleCount) :
    u.countSettling m f p = u.countedSettling.endSettling m :=
  (if_neg h).trans (if_pos (Nat.succ_le_succ hc))

theorem ArmUnit.enter_state (u : ArmUnit) (m : Arm) (st : ArmState) : (u.enter m st).state = st := by
  rw [ArmUnit.enter]
  split
  · assumption
  · split <;> rfl

theorem ArmUnit.cut_leaves_settling {u : ArmUnit} (m : Arm) (f : Finding) (h : u.state = .settling) :
    (u.cut m f).state ≠ .settling := by
  rw [cut_inStop (.inr h)]
  exact (ArmUnit.enter_state _ m .cut).trans_ne (by decide)

section EndSettling

variable {u : ArmUnit} {q : Pos} (m : Arm) (hs : u.state = .settling) (ha : u.lastActual = some q)
include ha

theorem ArmUnit.sendRestIfKnown_known : u.sendRestIfKnown = u.sendRest q := by
  rw [ArmUnit.sendRestIfKnown, ha]

theorem ArmUnit.cutNow_known (h : u.state ≠ .cut) : u.cutNow m = { u with
    state := .cut, sto := true, stopCause := none, awaitFeedback := false,
    toWs := u.toWs ++ [.rest q.xyz u.envelope u.work.geometry] ++ [.stateReport .cut],
    raises := u.raises ++ [⟨m, .stateChange, .stateChange u.state .cut⟩] } := by
  simp only [ArmUnit.cutNow, ha]
  exact ArmUnit.enter_of_announced m h rfl

include hs

theorem ArmUnit.endSettling_held (hstop : u.stopCause = some .fault) (hl : u.ctrlLocked = true) :
    u.endSettling m = { u with
      stopCause := none, awaitFeedback := false, state := .held,
      toWs := u.toWs ++ [.rest q.xyz u.envelope u.work.geometry, .stateReport .held],
      raises := u.raises ++ [⟨m, .stateChange, .stateChange .settling .held⟩] } := by
  rw [ArmUnit.endSettling, if_pos hstop, if_pos hl, u.sendRestIfKnown_known ha,
    ArmUnit.enter_of_announced (u := { u.sendRest q with stopCause := none }) m (hs.trans_ne (by decide)) rfl, ← hs,
    List.append_cons u.toWs]
  rfl

theorem ArmUnit.endSettling_cut (hstop : u.stopCause = some .fault) (hl : u.ctrlLocked = false) :
    u.endSettling m = { u with
      stopCause := none, awaitFeedback := false, state := .cut, sto := true,
      toWs := u.toWs ++ [.rest q.xyz u.envelope u.work.geometry, .rest q.xyz u.envelope u.work.geometry, .stateReport .cut],
      raises := u.raises ++ [⟨m, .stateChange, .stateChange .settling .cut⟩] } := by
  rw [ArmUnit.endSettling, if_pos hstop, if_neg (by simp [hl]), u.sendRestIfKnown_known ha,
    ArmUnit.cutNow_known (u := u.sendRest q) m ha (hs.trans_ne (by decide)), ← hs,
    List.append_cons u.toWs, List.append_cons (u.toWs ++ _)]
  rfl

theorem ArmUnit.endSettling_standby (hstop : u.stopCause = some .requested) (hl : u.ctrlLocked = true) :
    u.endSettling m = { u with
      stopCause := none, awaitFeedback := false, state := .standby,
      toWs := u.toWs ++ [.rest q.xyz u.envelope u.work.geometry, .stateReport .standby],
      raises := u.raises ++ [⟨m, .stateChange, .stateChange .settling .standby⟩] } := by
  rw [ArmUnit.endSettling, if_neg (by simp [hstop]), if_pos hl, u.sendRestIfKnown_known ha,
    ArmUnit.enter_of_announced (u := { u.sendRest q with stopCause := none }) m (hs.trans_ne (by decide)) rfl, ← hs,
    List.append_cons u.toWs]
  rfl

theorem ArmUnit.endSettling_sync (hstop : u.stopCause = some .requested) (hl : u.ctrlLocked = false) :
    u.endSettling m = { u with
      stopCause := none, awaitFeedback := false, state := .sync, sto := true, ctx := { u.ctx with carried := none },
      toWs := u.toWs ++ [.rest q.xyz u.envelope u.work.geometry, .stateReport .sync] } := by
  rw [ArmUnit.endSettling, if_neg (by simp [hstop]), if_neg (by simp [hl]), u.sendRestIfKnown_known ha,
    ArmUnit.toSync_of_ne (u := u.sendRest q) m (hs.trans_ne (by decide)),
    List.append_cons u.toWs]
  rfl

end EndSettling

/-- Settles O35: the drive status first, then the count toward settling, and the four ends of settling. -/
theorem settlingRule : Obligations.SettlingRule := by
  intro m s e f rest p ht he hs heq hp hsto u goesUp rested far strays
  have hnoted : ({ s.arm m with arrivals := rest } : ArmUnit).noted m f = u := by
    rw [ArmUnit.noted_eq]
    dsimp only
    rw [if_pos heq, if_pos (.inr (.inr hs))]
  have hsent : exec (.feedbackArrival m) s = _ :=
    (exec_feedbackArrival_take ht he).trans (takeFeedback_compared (.inr hs) heq hp)
  rw [forwardFeedback_setArm, ArmUnit.checkFeedback_settling (u := { s.arm m with arrivals := rest }) m f _ p hs heq, hnoted]
    at hsent
  have hfaulty (h : f.status ≠ 0) : u.checkStatus m f e.isFaultSecond
      = ({ u with raises := u.raises ++ [⟨m, .driveFault, .seqOnly f.echo⟩] } : ArmUnit).cut m
        ⟨.driveFault, KindSet.empty, none, none, none, u.tickCopy⟩ := if_pos ⟨h, .inl hsto⟩
  have hfine (h : f.status = 0) : u.checkStatus m f e.isFaultSecond = u := if_neg fun hc => hc.1 h
  have hcounts (h : f.status = 0) : goesUp (u.countSettling m f p) := by
    rwa [hfine h, if_pos (show u.state = .settling from hs)] at hsent
  have hstrays : (exceeds u.work.settleWindow f.actual.xyz p.xyz).firstAxis.isSome = true ↔ strays := exceeds_isSome _ _ _
  refine ⟨fun h => ?cut, fun h hst => ?strays, fun h hst hc => ?first, fun h hst hc => ?second⟩
  case cut =>
    rw [hfaulty h, if_neg] at hsent
    · exact hsent
    · exact ArmUnit.cut_leaves_settling m _ hs
  case strays =>
    rw [← ArmUnit.countSettling_strays m f p (hstrays.mpr hst)]
    exact hcounts h
  case first =>
    rw [← ArmUnit.countSettling_first m f p (mt hstrays.mp hst) hc]
    exact hcounts h
  case second =>
    intro d
    have hends := hcounts h
    rw [ArmUnit.countSettling_second m f p (mt hstrays.mp hst) hc] at hends
    refine ⟨fun hstop hl => ?_, fun hstop hl => ?_, fun hstop hl => ?_, fun hstop hl => ?_⟩
    · rwa [ArmUnit.endSettling_held (u := u.countedSettling) m hs rfl hstop hl] at hends
    · rwa [ArmUnit.endSettling_cut (u := u.countedSettling) m hs rfl hstop hl] at hends
    · rwa [ArmUnit.endSettling_standby (u := u.countedSettling) m hs rfl hstop hl] at hends
    · rwa [ArmUnit.endSettling_sync (u := u.countedSettling) m hs rfl hstop hl] at hends

/-! ### PARAM, ticks, commit notices and reports of lock (R3, R69, R71, R72, R74, R162) -/

/-- Settles O36. -/
theorem paramTickAndNotice : Obligations.ParamTickAndNotice := by
  intro m s rest u
  refine ⟨fun os seq ht => ?_, fun ht => ?_, fun present profile ht => ?_⟩
  · rw [exec_paramArrival, execParamArrival, takeArm_take ht.1 ht.2]
    rfl
  · rw [exec_armTickCopy, execArmTickCopy, takeArm_take ht.1 ht.2]
    rfl
  · rw [exec_commitNotice, execCommitNotice, takeArm_take ht.1 ht.2]
    rfl

theorem exec_lockGained_take {m : Arm} {s : State} {side : Side} {rest : List ArmEvent} (ht : s.armTakes m (.lock side true) rest) :
    exec (.lockGained m) s
      = .next (s.setArm m ((({ s.arm m with arrivals := rest } : ArmUnit).setLock side true).lockGained m)) := by
  rw [exec_lockGained, execLockGained, takeArm_take ht.1 ht.2]
  rfl

theorem exec_controllerLockLoss_take {m : Arm} {s : State} {rest : List ArmEvent} (ht : s.armTakes m (.lock .ctrl false) rest) :
    exec (.controllerLockLoss m) s
      = .next (s.setArm m ((({ s.arm m with arrivals := rest } : ArmUnit).setLock .ctrl false).controllerLost m)) := by
  rw [exec_controllerLockLoss, execControllerLockLoss, takeArm_take ht.1 ht.2]
  rfl

theorem exec_driveLockLoss_take {m : Arm} {s : State} {rest : List ArmEvent} (ht : s.armTakes m (.lock .drive false) rest) :
    exec (.driveLockLoss m) s
      = .next (s.setArm m ((({ s.arm m with arrivals := rest } : ArmUnit).setLock .drive false).driveLost m)) := by
  rw [exec_driveLockLoss, execDriveLockLoss, takeArm_take ht.1 ht.2]
  rfl

/-- A gain of lock in SYNC with both ports LOCKED enters STANDBY, and is noted alone otherwise (R71). -/
theorem ArmUnit.lockGained_eq (u : ArmUnit) (m : Arm) :
    u.lockGained m = if u.state = .sync ∧ u.ctrlLocked = true ∧ u.driveLocked = true then { u with
        state := .standby, awaitFeedback := true, toWs := u.toWs ++ [.setUnknown, .stateReport .standby],
        raises := u.raises ++ [⟨m, .stateChange, .stateChange .sync .standby⟩] }
      else u := by
  rw [ArmUnit.lockGained]
  refine if_ctx_congr (by rw [ArmUnit.bothLocked_eq_true_iff]) (fun h => ?_) fun _ => rfl
  rw [ArmUnit.standbyFromSync,
    ArmUnit.enter_of_announced (u := { u.send .setUnknown with awaitFeedback := true }) m (h.1.trans_ne (by decide)) rfl,
    List.append_cons u.toWs, ← h.1]
  rfl

section LockLoss

variable {u : ArmUnit} (m : Arm)

theorem ArmUnit.controllerLost_sync (h : u.state = .sync) : u.controllerLost m = u := by
  simp only [ArmUnit.controllerLost, h]

theorem ArmUnit.controllerLost_standby (h : u.state = .standby) : u.controllerLost m = (u.raiseLinkLoss m .ctrl).toSync m := by
  simp only [ArmUnit.controllerLost, h]

theorem ArmUnit.controllerLost_run (h : u.state = .run) :
    u.controllerLost m = (u.raiseLinkLoss m .ctrl).hardFault m (u.linkLoss .ctrl) := by
  simp only [ArmUnit.controllerLost, h]

theorem ArmUnit.controllerLost_stop (h : u.state = .halting ∨ u.state = .settling) :
    u.controllerLost m = (u.raiseLinkLoss m .ctrl).foundInStop (u.linkLoss .ctrl) := by
  rcases h with h | h <;> simp only [ArmUnit.controllerLost, h]

theorem ArmUnit.controllerLost_held (h : u.state = .held) :
    u.controllerLost m = (u.raiseLinkLoss m .ctrl).cut m (u.linkLoss .ctrl) := by
  simp only [ArmUnit.controllerLost, h]

theorem ArmUnit.controllerLost_cut (h : u.state = .cut) : u.controllerLost m = (u.raiseLinkLoss m .ctrl).record (u.linkLoss .ctrl) := by
  simp only [ArmUnit.controllerLost, h]

theorem ArmUnit.driveLost_sync (h : u.state = .sync) : u.driveLost m = u := by
  simp only [ArmUnit.driveLost, h]

theorem ArmUnit.driveLost_standby_asserted (h : u.state = .standby) (hsto : u.sto = true) :
    u.driveLost m = (u.raiseLinkLoss m .drive).toSync m := by
  simp only [ArmUnit.driveLost, h, hsto, if_true]

theorem ArmUnit.driveLost_released (h : u.state = .standby ∨ u.state = .held) (hsto : u.sto = false) :
    u.driveLost m = (u.raiseLinkLoss m .drive).cut m (u.linkLoss .drive) := by
  rcases h with h | h <;> simp only [ArmUnit.driveLost, h, hsto, Bool.false_eq_true, if_false]

theorem ArmUnit.driveLost_moving (h : u.state = .run ∨ u.state = .halting ∨ u.state = .settling) :
    u.driveLost m = (u.raiseLinkLoss m .drive).cut m (u.linkLoss .drive) := by
  rcases h with h | h | h <;> simp only [ArmUnit.driveLost, h]

theorem ArmUnit.driveLost_held_asserted (h : u.state = .held) (hsto : u.sto = true) :
    u.driveLost m = (u.raiseLinkLoss m .drive).record (u.linkLoss .drive) := by
  simp only [ArmUnit.driveLost, h, hsto, if_true]

theorem ArmUnit.driveLost_cut (h : u.state = .cut) : u.driveLost m = (u.raiseLinkLoss m .drive).record (u.linkLoss .drive) := by
  simp only [ArmUnit.driveLost, h]

/-- A loss of lock in STANDBY with STO asserted: the arm is no longer synchronised. -/
theorem ArmUnit.raiseLinkLoss_toSync {side : Side} (h : u.state = .standby) : (u.raiseLinkLoss m side).toSync m = { u with
    state := .sync, sto := true, stopCause := none, ctx := { u.ctx with carried := none },
    toWs := u.toWs ++ [.stateReport .sync], raises := u.raises ++ [⟨m, .linkLoss, .linkLoss side u.state⟩] } :=
  ArmUnit.toSync_of_ne (u := u.raiseLinkLoss m side) m (h.trans_ne (by decide))

/-- A loss of the controller's lock in RUN is a hard fault. -/
theorem ArmUnit.raiseLinkLoss_hardFault (h : u.state = .run) (hf : u.ctx.fault = none) (hc : u.ctx.carried = none) :
    (u.raiseLinkLoss m .ctrl).hardFault m (u.linkLoss .ctrl) = (u.raiseLinkLoss m .ctrl).haltsOn m
      ⟨.linkLoss, KindSet.empty, none, none, some .ctrl, u.tickCopy, .run⟩ := by
  rw [ArmUnit.hardFault_run (u := u.raiseLinkLoss m .ctrl) m _ h hf hc, ArmUnit.linkLoss, ArmUnit.finding, Finding.toRecord_single]

end LockLoss

/-- Settles O37, by the state the arm is in and, at the drive port, by STO. -/
theorem lockChangeRule : Obligations.LockChangeRule := by
  intro m s rest a at' lost flagged desynced stands
  refine ⟨fun ht => ?_, fun ht => ?_, fun ht => ?ctrl, fun ht => ?drive⟩
  · rw [exec_lockGained_take ht, ArmUnit.lockGained_eq]
    rfl
  · rw [exec_lockGained_take ht, ArmUnit.lockGained_eq]
    rfl
  case ctrl =>
    intro u v run
    have hrun : run = .next (s.setArm m (u.controllerLost m)) := exec_controllerLockLoss_take ht
    refine ⟨fun h => ?_, fun h => ?_, fun h hf hc => ?_, fun h => ?_, fun h => ?_, fun h => ?_⟩
    · rw [hrun, ArmUnit.controllerLost_sync (u := u) m h]
    · rw [hrun, ArmUnit.controllerLost_standby (u := u) m h, ArmUnit.raiseLinkLoss_toSync (u := u) m h]
    · rw [hrun, ArmUnit.controllerLost_run (u := u) m h, ArmUnit.raiseLinkLoss_hardFault (u := u) m h hf hc]
      rfl
    · rw [hrun, ArmUnit.controllerLost_stop (u := u) m h]
      rfl
    · rw [hrun, ArmUnit.controllerLost_held (u := u) m h]
      rfl
    · rw [hrun, ArmUnit.controllerLost_cut (u := u) m h]
      rfl
  case drive =>
    intro u v run
    have hrun : run = .next (s.setArm m (u.driveLost m)) := exec_driveLockLoss_take ht
    refine ⟨fun h => ?_, fun h hsto => ?_, fun h hsto => ?_, fun h => ?_, fun h hsto => ?_, fun h => ?_⟩
    · rw [hrun, ArmUnit.driveLost_sync (u := u) m h]
    · rw [hrun, ArmUnit.driveLost_standby_asserted (u := u) m h hsto, ArmUnit.raiseLinkLoss_toSync (u := u) m h]
    · rw [hrun, ArmUnit.driveLost_released (u := u) m h hsto]
      rfl
    · rw [hrun, ArmUnit.driveLost_moving (u := u) m h]
      rfl
    · rw [hrun, ArmUnit.driveLost_held_asserted (u := u) m h hsto]
      rfl
    · rw [hrun, ArmUnit.driveLost_cut (u := u) m h]
      rfl

end Sys2Proof.Machine
end

