-- ==== Sys2Proof/Proofs/Requests.lean ====
section
/-! PROOFS. The arm-state requests of chapter 4 and ARM_STATUS, settling EnableRule, CutRule, ResetRule and StatusRule. -/

namespace Sys2Proof.Machine

/-! ### ARM_ENABLE and its verdict (R77, R78, R90) -/

theorem exec_armEnable_take {m : Arm} {s : State} {r : Request} {rest : List ArmEvent} (ht : s.armTakes m (.request r) rest)
    (hn : r.name = .armEnable) :
    exec (.armEnable m) s = finishArm m s (({ s.arm m with arrivals := rest } : ArmUnit).enable m r) := by
  rw [exec_armEnable, execArmEnable, takeArmRequest_take ht.1 ht.2 hn]

section Enable

variable {u : ArmUnit} (m : Arm) (r : Request)

theorem ArmUnit.enable_refused {why : Reason} (h : u.enableRefusal = some why) : u.enable m r = (u, refusal r why []) := by
  rw [ArmUnit.enable, h]

theorem ArmUnit.enableRefusal_none {p : Pos} (hs : u.state = .standby) (hb : u.bankKnown = true) (hp : u.present = true)
    (ha : u.lastActual = some p) : u.enableRefusal = none := by
  simp [ArmUnit.enableRefusal, hs, hb, hp, ha]

theorem ArmUnit.enable_carried {c : FaultRec} (h : u.enableRefusal = none) (hc : u.ctx.carried = some c) :
    u.enable m r = (u.deliverCarried m c, refusal r .faultPending []) := by
  rw [ArmUnit.enable, h, hc]

theorem ArmUnit.enable_places {p : Pos} (h : u.enableRefusal = none) (hc : u.ctx.carried = none) (ha : u.lastActual = some p) :
    u.enable m r = ({ u.send (.checked (u.enablePlacement p)) with outstanding := some (.enable r.head u.work.geometry) }, none) := by
  rw [ArmUnit.enable, h, hc, ha]
  rfl

/-- A carried fault is delivered in HELD (R90). -/
theorem ArmUnit.deliverCarried_standby (c : FaultRec) (hs : u.state = .standby) : u.deliverCarried m c = { u with
    state := .held, ctx := { u.ctx with fault := some c, carried := none }, toWs := u.toWs ++ [.stateReport .held],
    raises := u.raises ++ [⟨m, .stateChange, .stateChange .standby .held⟩] } := by
  rw [ArmUnit.deliverCarried, ← hs]
  exact ArmUnit.enter_of_announced (u := { u with ctx := { u.ctx with fault := some c, carried := none } }) m
    (hs.trans_ne (by decide)) rfl

theorem ArmUnit.enterRun_standby (geom : Geometry) (hs : u.state = .standby) : u.enterRun m geom = { u with
    state := .run, sto := false, last := ⟨u.lastActual, ⟨0, 0, 0⟩, u.last.seq⟩, slotFilled := false, expected := none,
    ctx := { u.ctx with soft := 0, miss := 0, feedback := 0, settleCount := 0, settleTimer := 0 }, feedbackSeen := false,
    substituted := false, placeGeom := geom, toWs := u.toWs ++ [.stateReport .run] } := by
  refine ArmUnit.enter_of_unannounced m ?_ rfl
  exact hs.trans_ne (by decide)

end Enable

/-- The offending axis of a FAILED verdict is that of its first kind (R78, R136). -/
theorem Found.firstAxisOf_eq (f : Found) : f.kinds.first.bind f.axisOf
    = if f.kinds.first = some .range then f.rangeAxis else if f.kinds.first = some .speed then f.speedAxis else none := by
  cases f.kinds.first with
  | none => rfl
  | some k => rw [Option.bind_some, Found.axisOf_eq]; simp only [Option.some.injEq]

theorem exec_enableVerdict_take {m : Arm} {s : State} {h : ReqHead} {geom : Geometry} {v : Verdict}
    (ht : s.verdictTakes m (.enable h geom) v) :
    let u : ArmUnit := { s.arm m with outstanding := none, verdict := none }
    exec (.enableVerdict m) s = finishArm m s (match (motive := Verdict → ArmUnit × Option Answer) v with
      | .placed => (u.enterRun m geom, some (answerOk h []))
      | .failed kinds ra sa _ => (u, some (answerRefused h .illegal (illegalData ⟨kinds, ra, sa, none, none⟩)))
      | .absent => (u, some (answerRefused h .absent []))
      | .unknown => (u, some (answerRefused h .state []))) := by
  intro u
  rw [exec_enableVerdict, execEnableVerdict, takeVerdict_take ht.1 ht.2]
  cases v <;> rfl

/-- Settles O38: the refusals in their order, a carried fault, the placement; then the verdict by its kind. -/
theorem enableRule : Obligations.EnableRule := by
  refine ⟨fun m s r rest ht hn => ?request, fun m s h geom v ht hs => ?verdict⟩
  case request =>
    intro u refuse
    have hrun : exec (.armEnable m) s = finishArm m s (u.enable m r) := exec_armEnable_take ht hn
    have hgives {v : ArmUnit} {why : Reason} (h : u.enable m r = (v, refusal r why [])) : refuse v why :=
      hrun.trans (congrArg (finishArm m s) h)
    have hrefused {why : Reason} (h : u.enableRefusal = some why) : refuse u why := hgives (ArmUnit.enable_refused m r h)
    refine ⟨fun hs => hrefused (if_pos hs), fun hs hb => hrefused ?_, fun hs hb hp => hrefused ?_,
      fun hs hb hp ha => hrefused ?_, fun p hs hb hp ha => ⟨fun c hc => hgives ?_, fun hc => ?_⟩⟩
    · simp [ArmUnit.enableRefusal, hs, hb]
    · simp [ArmUnit.enableRefusal, hs, hb, hp]
    · simp [ArmUnit.enableRefusal, hs, hb, hp, ha]
    · rw [ArmUnit.enable_carried m r (ArmUnit.enableRefusal_none hs hb hp ha) hc, ArmUnit.deliverCarried_standby (u := u) m c hs]
    · rw [hrun, ArmUnit.enable_places m r (ArmUnit.enableRefusal_none hs hb hp ha) hc ha]
      rfl
  case verdict =>
    intro u run
    have hrun : run = _ := exec_enableVerdict_take ht
    refine ⟨fun hv => ?_, fun kinds ra sa tick hv => ?_, fun hv => ?_, fun hv => ?_⟩
    all_goals subst hv
    · rw [hrun, ArmUnit.enterRun_standby (u := u) m geom hs]
      rfl
    · intro axis
      have hdata : illegalData ⟨kinds, ra, sa, none, none⟩ = octets16 kinds ++ [axisCode axis] := by
        rw [illegalData, Found.firstAxisOf_eq]
        rfl
      exact hrun.trans (congrArg (fun d => finishArm m s (u, some (answerRefused h .illegal d))) hdata)
    · exact hrun
    · exact hrun

/-! ### Recording a fault, and the passage to CUT (R70, R73, R86, R87) -/

theorem FaultRec.join_has (r : FaultRec) (f : Finding) (k : FaultKind) : KindSet.has (r.join f).also k = true
    ↔ k ≠ r.kind ∧ (KindSet.has r.also k = true ∨ KindSet.has f.also k = true ∨ k = f.kind) := by
  simp only [FaultRec.join, KindSet.has_without, KindSet.has_add, KindSet.has_union, Bool.and_eq_true, Bool.or_eq_true,
    decide_eq_true_eq]
  tauto

theorem ArmUnit.record_pending {u : ArmUnit} (f : Finding) {r : FaultRec} (h : u.ctx.fault = some r) :
    u.record f = { u with ctx := { u.ctx with fault := some (r.join f) } } := by
  rw [ArmUnit.record]
  simp only [h]

theorem ArmUnit.record_carried {u : ArmUnit} (f : Finding) {c : FaultRec} (h : u.ctx.fault = none) (hc : u.ctx.carried = some c) :
    u.record f = { u with ctx := { u.ctx with fault := some (c.join f), carried := none } } := by
  rw [ArmUnit.record]
  simp only [h, hc]

/-- Recording a fault changes the two fault records alone. -/
theorem ArmUnit.record_eq (u : ArmUnit) (f : Finding) : ∃ fault carried : Option FaultRec,
    u.record f = { u with ctx := { u.ctx with fault := fault, carried := carried } } := by
  rw [ArmUnit.record]
  split <;> exact ⟨_, _, rfl⟩

theorem ArmUnit.cutNow_unknown {u : ArmUnit} (m : Arm) (ha : u.lastActual = none) (h : u.state ≠ .cut) : u.cutNow m = { u with
    state := .cut, sto := true, stopCause := none, toWs := u.toWs ++ [.setUnknown] ++ [.stateReport .cut],
    raises := u.raises ++ [⟨m, .stateChange, .stateChange u.state .cut⟩] } := by
  simp only [ArmUnit.cutNow, ha]
  exact ArmUnit.enter_of_announced m h rfl

/-- The passage to CUT after its cause was recorded (R73). -/
theorem ArmUnit.cutNow_eq {u : ArmUnit} (m : Arm) (h : u.state ≠ .cut) : u.cutNow m = { u with
    state := .cut, sto := true, stopCause := none, awaitFeedback := u.awaitFeedback && u.lastActual.isNone,
    toWs := u.toWs ++ (if u.lastActual = none then [.setUnknown] else u.lastActual.toList.map fun p =>
      .rest p.xyz (composeEnvelope u.work u.ctx.stack) u.work.geometry) ++ [.stateReport .cut],
    raises := u.raises ++ [⟨m, .stateChange, .stateChange u.state .cut⟩] } := by
  by_cases hnone : u.lastActual = none
  · rw [ArmUnit.cutNow_unknown m hnone h, if_pos hnone, show u.lastActual.isNone = true by rw [hnone]; rfl, Bool.and_true]
  · obtain ⟨p, ha⟩ := Option.ne_none_iff_exists'.mp hnone
    rw [ArmUnit.cutNow_known m ha h, if_neg hnone, show u.lastActual.isNone = false by rw [ha]; rfl, Bool.and_false,
      show u.lastActual.toList = [p] by rw [ha, Option.toList_some], List.map_singleton, ArmUnit.envelope]

theorem ArmUnit.cut_eq {u : ArmUnit} (m : Arm) (f : Finding) (h : u.state ≠ .cut) : u.cut m f = { u.record f with
    state := .cut, sto := true, stopCause := none, awaitFeedback := u.awaitFeedback && u.lastActual.isNone,
    toWs := u.toWs ++ (if u.lastActual = none then [.setUnknown] else u.lastActual.toList.map fun p =>
      .rest p.xyz (composeEnvelope u.work u.ctx.stack) u.work.geometry) ++ [.stateReport .cut],
    raises := u.raises ++ [⟨m, .stateChange, .stateChange u.state .cut⟩],
    arrivals := if u.state = .halting ∨ u.state = .settling then u.arrivals.map ArmEvent.asSecond else u.arrivals } := by
  obtain ⟨fault, carried, hrecord⟩ := u.record_eq f
  have hcut := ArmUnit.cutNow_eq (u := { u with ctx := { u.ctx with fault := fault, carried := carried } }) m h
  by_cases hstop : u.state = .halting ∨ u.state = .settling
  · rw [cut_inStop hstop, hrecord, if_pos hstop]
    exact congrArg (fun w : ArmUnit => { w with arrivals := u.arrivals.map ArmEvent.asSecond }) hcut
  · rw [cut_elsewhere h (fun hh => hstop (.inl hh)) (fun hh => hstop (.inr hh)), hrecord, if_neg hstop]
    exact hcut

theorem ArmEvent.asSecond_cases (e : ArmEvent) :
    (∀ r : Request, e = .request r → r.name = .armCut → e.asSecond = .cutSecond r)
      ∧ (∀ f : FeedbackFrame, e = .feedback f → f.status ≠ 0 → e.asSecond = .faultSecond f)
      ∧ ((∀ r : Request, e = .request r → r.name ≠ .armCut) → (∀ f : FeedbackFrame, e = .feedback f → f.status = 0) →
        e.asSecond = e) := by
  refine ⟨fun r he hn => ?_, fun f he hf => ?_, fun hr hf => ?_⟩
  · rw [he]
    exact if_pos hn
  · rw [he]
    exact if_neg hf
  · cases e with
    | request r => exact if_neg (hr r rfl)
    | feedback f => exact if_pos (hf f rfl)
    | _ => rfl

theorem exec_armCut_take {m : Arm} {s : State} {r : Request} {rest : List ArmEvent} (ht : s.armTakes m (.request r) rest)
    (hn : r.name = .armCut) :
    exec (.armCut m) s = finishArm m s (({ s.arm m with arrivals := rest } : ArmUnit).cutRequest m r) := by
  rw [exec_armCut, execArmCut, takeArm_take ht.1 ht.2]
  simp only [hn, if_true, Option.getD_some]

theorem exec_armCut_takeSecond {m : Arm} {s : State} {r : Request} {rest : List ArmEvent} (ht : s.armTakes m (.cutSecond r) rest) :
    exec (.armCut m) s = finishArm m s (({ s.arm m with arrivals := rest } : ArmUnit).cutSecond m r) := by
  rw [exec_armCut, execArmCut, takeArm_take ht.1 ht.2]
  rfl

section CutRequest

variable {u : ArmUnit} (m : Arm) (r : Request)

theorem ArmUnit.cutRequest_sync (h : u.state = .sync) : u.cutRequest m r = (u, refusal r .state []) := by
  simp only [ArmUnit.cutRequest, h]

theorem ArmUnit.cutRequest_cut (h : u.state = .cut) : u.cutRequest m r = (u, okAnswer r []) := by
  simp only [ArmUnit.cutRequest, h]

theorem ArmUnit.cutRequest_cuts (hs : u.state ≠ .sync) (hc : u.state ≠ .cut) :
    u.cutRequest m r = (u.cut m ⟨.cutRequested, KindSet.empty, none, none, none, u.tickCopy⟩, okAnswer r []) := by
  rw [ArmUnit.cutRequest]
  cases h : u.state
  case sync => exact absurd h hs
  case cut => exact absurd h hc
  all_goals rfl

/-- A second cause of CUT joins the record of an arm in CUT, and is an ARM_CUT like any other elsewhere. -/
theorem ArmUnit.cutSecond_cuts (hs : u.state ≠ .sync) :
    u.cutSecond m r = (u.cut m ⟨.cutRequested, KindSet.empty, none, none, none, u.tickCopy⟩, okAnswer r []) := by
  by_cases hc : u.state = .cut
  · exact if_pos hc
  · exact (if_neg hc).trans (ArmUnit.cutRequest_cuts m r hs hc)

theorem ArmUnit.cutSecond_sync (h : u.state = .sync) : u.cutSecond m r = (u, refusal r .state []) :=
  (if_neg (h.trans_ne (by decide))).trans (ArmUnit.cutRequest_sync m r h)

end CutRequest

/-- Settles O40. -/
theorem cutRule : Obligations.CutRule := by
  refine ⟨fun u f => ⟨fun r hr => ⟨_, u.record_pending f hr, r.join_has f⟩,
      fun c hf hc => ⟨_, u.record_carried f hf hc, c.join_has f⟩, u.record_first f⟩,
    fun u m f => cut_inCut, fun u m f => ArmUnit.cut_eq m f, ArmEvent.asSecond_cases, fun m s r rest ht => ?second,
    fun m s r rest ht hn => ?request⟩
  case second =>
    intro u
    have hrun : exec (.armCut m) s = finishArm m s (u.cutSecond m r) := exec_armCut_takeSecond ht
    refine ⟨fun hs => ?_, fun hs => ?_⟩
    · rw [hrun, ArmUnit.cutSecond_cuts m r hs]; rfl
    · rw [hrun, ArmUnit.cutSecond_sync m r hs]; rfl
  case request =>
    intro u
    have hrun : exec (.armCut m) s = finishArm m s (u.cutRequest m r) := exec_armCut_take ht hn
    refine ⟨fun hs hc => ?_, fun hc => ?_, fun hs => ?_⟩
    · rw [hrun, ArmUnit.cutRequest_cuts m r hs hc]; rfl
    · rw [hrun, ArmUnit.cutRequest_cut m r hc]; rfl
    · rw [hrun, ArmUnit.cutRequest_sync m r hs]; rfl

/-! ### ARM_RESET (R89) -/

theorem exec_armReset_take {m : Arm} {s : State} {r : Request} {rest : List ArmEvent} (ht : s.armTakes m (.request r) rest)
    (hn : r.name = .armReset) :
    exec (.armReset m) s = finishArm m s (({ s.arm m with arrivals := rest } : ArmUnit).resetRequest m r) := by
  rw [exec_armReset, execArmReset, takeArmRequest_take ht.1 ht.2 hn]

/-- What an ARM_RESET resets, wherever it leads. -/
def ArmUnit.wiped (u : ArmUnit) : ArmUnit :=
  { u with
    ctx := ArmContext.powerOn, expected := none, sto := true, stopCause := none, arrivals := u.arrivals.map ArmEvent.asFirst }

theorem ArmUnit.sendRestIfKnown_unknown {u : ArmUnit} (ha : u.lastActual = none) : u.sendRestIfKnown = u := by
  rw [ArmUnit.sendRestIfKnown, ha]

/-- The rest update of an ARM_RESET (R14): with the last actual position, where it is known, and the base envelope. -/
def ArmUnit.restsAtReset (u : ArmUnit) : List ToWorkspace := u.lastActual.toList.map fun p =>
  .rest p.xyz ⟨u.work.baseLateral, u.work.baseBelow, u.work.baseAbove⟩ u.work.geometry

/-- The arm unit after the rest update of an ARM_RESET. -/
def ArmUnit.restedAtReset (u : ArmUnit) : ArmUnit :=
  { u.wiped with awaitFeedback := u.awaitFeedback && u.lastActual.isNone, toWs := u.toWs ++ u.restsAtReset }

theorem ArmUnit.wiped_sendRestIfKnown (u : ArmUnit) : u.wiped.sendRestIfKnown = u.restedAtReset := by
  by_cases hnone : u.lastActual = none
  · rw [ArmUnit.restedAtReset, ArmUnit.restsAtReset, show u.lastActual.isNone = true by rw [hnone]; rfl, Bool.and_true,
      show u.lastActual.toList = [] by rw [hnone, Option.toList_none], List.map_nil, List.append_nil,
      ArmUnit.sendRestIfKnown_unknown (u := u.wiped) hnone]
    rfl
  · obtain ⟨p, ha⟩ := Option.ne_none_iff_exists'.mp hnone
    rw [ArmUnit.restedAtReset, ArmUnit.restsAtReset, show u.lastActual.isNone = false by rw [ha]; rfl, Bool.and_false,
      show u.lastActual.toList = [p] by rw [ha, Option.toList_some], List.map_singleton,
      ArmUnit.sendRestIfKnown_known (u := u.wiped) ha]
    rfl

section Reset

variable {u : ArmUnit} (m : Arm)

theorem ArmUnit.reset_locked (hb : u.bothLocked = true) (hs : u.state ≠ .sync) :
    u.reset m = (u.wiped.sendRestIfKnown.enter m .standby).send .claimRemoval := by
  rw [ArmUnit.reset, if_pos hb, if_neg hs]
  rfl

theorem ArmUnit.reset_locked_sync (hb : u.bothLocked = true) (hs : u.state = .sync) :
    u.reset m = (u.wiped.standbyFromSync m).send .claimRemoval := by
  rw [ArmUnit.reset, if_pos hb, if_pos hs]
  rfl

theorem ArmUnit.reset_unlocked (hb : ¬u.bothLocked = true) : u.reset m = (u.wiped.enter m .sync).send .claimRemoval := by
  rw [ArmUnit.reset, if_neg hb]
  rfl

theorem ArmUnit.enter_same {st : ArmState} (h : u.state = st) : u.enter m st = u := if_pos h

theorem ArmUnit.resetRequest_refused (r : Request) (h : u.state = .run ∨ u.state = .halting ∨ u.state = .settling) :
    u.resetRequest m r = (u, refusal r .state []) := by
  rcases h with h | h | h <;> simp only [ArmUnit.resetRequest, h]

theorem ArmUnit.resetRequest_resets (r : Request)
    (h : u.state = .sync ∨ u.state = .standby ∨ u.state = .held ∨ u.state = .cut) :
    u.resetRequest m r = (u.reset m, okAnswer r []) := by
  rcases h with h | h | h | h <;> simp only [ArmUnit.resetRequest, h]

theorem ArmUnit.standbyFromSync_eq (h : u.state = .sync) : u.standbyFromSync m = { u with
    state := .standby, awaitFeedback := true, toWs := u.toWs ++ [.setUnknown, .stateReport .standby],
    raises := u.raises ++ [⟨m, .stateChange, .stateChange .sync .standby⟩] } := by
  rw [List.append_cons u.toWs, ← h]
  refine ArmUnit.enter_of_announced m ?_ rfl
  exact h.trans_ne (by decide)

end Reset

theorem ArmEvent.asFirst_cases (e : ArmEvent) : (∀ q : Request, e = .cutSecond q → e.asFirst = .request q)
    ∧ (∀ f : FeedbackFrame, e = .faultSecond f → e.asFirst = .feedback f)
    ∧ ((∀ q : Request, e ≠ .cutSecond q) → (∀ f : FeedbackFrame, e ≠ .faultSecond f) → e.asFirst = e) := by
  refine ⟨fun q he => by rw [he]; rfl, fun f he => by rw [he]; rfl, fun hq hf => ?_⟩
  cases e with
  | cutSecond q => exact absurd rfl (hq q)
  | faultSecond f => exact absurd rfl (hf f)
  | _ => rfl

/-- Settles O42, by the locks and the state the arm is in. -/
theorem resetRule : Obligations.ResetRule := by
  intro m s r rest ht hn u c ok both rests
  have hrun : exec (.armReset m) s = finishArm m s (u.resetRequest m r) := exec_armReset_take ht hn
  have hok {v : ArmUnit} (hs : u.state = .sync ∨ u.state = .standby ∨ u.state = .held ∨ u.state = .cut) (h : u.reset m = v) :
      ok v := by
    rw [ArmUnit.resetRequest_resets m r hs, h] at hrun
    exact hrun
  have hboth : both ↔ u.bothLocked = true := ArmUnit.bothLocked_eq_true_iff.symm
  refine ⟨fun hs => ?_, fun hb hs => hok (by tauto) ?_, fun hb hs => hok (by tauto) ?_, fun hb hs => hok (by tauto) ?_,
    fun hb hs => hok (by tauto) ?_, fun hb hs => hok (by tauto) ?_, ArmEvent.asFirst_cases⟩
  · rw [hrun, ArmUnit.resetRequest_refused m r hs]
    rfl
  · rw [ArmUnit.reset_locked_sync m (hboth.mp hb) hs, ArmUnit.standbyFromSync_eq (u := u.wiped) m hs, ArmUnit.send, List.append_assoc]
    rfl
  · rw [ArmUnit.reset_locked m (hboth.mp hb) (hs.trans_ne (by decide)), u.wiped_sendRestIfKnown,
      ArmUnit.enter_same (u := u.restedAtReset) m hs]
    rfl
  · have hleft : u.state ≠ .sync ∧ u.state ≠ .standby := by rcases hs with h | h <;> rw [h] <;> decide
    rw [ArmUnit.reset_locked m (hboth.mp hb) hleft.1, u.wiped_sendRestIfKnown,
      ArmUnit.enter_of_announced (u := u.restedAtReset) m hleft.2 rfl, List.append_cons (u.toWs ++ rests)]
    rfl
  · rw [ArmUnit.reset_unlocked m (mt hboth.mpr hb), ArmUnit.enter_same (u := u.wiped) m hs]
    rfl
  · have hleft : u.state ≠ .sync := by rcases hs with h | h | h <;> rw [h] <;> decide
    rw [ArmUnit.reset_unlocked m (mt hboth.mpr hb), ArmUnit.enter_of_unannounced (u := u.wiped) m hleft rfl,
      List.append_cons u.toWs]
    rfl

/-! ### ARM_STATUS (R175, R188) -/

@[simp] theorem count32_length (i : Int) : (count32 i).length = 4 := rfl

@[simp] theorem posOctets_length (p : Pos) : (posOctets p).length = 16 := rfl

@[simp] theorem optional_length (width : Nat) (v : Option (List Octet)) (h : ∀ os ∈ v, os.length = width) :
    (optional width v).length = width + 1 := by
  cases v with
  | none => simp [optional]
  | some os => simp [optional, h os rfl]

theorem optional_eq (width : Nat) (v : Option (List Octet)) : optional width v = v.elim (0 :: List.replicate width 0) (1 :: ·) := by
  cases v <;> rfl

/-- A flag given as its opposite's octets. -/
theorem ite_eq_yesNo_not (b : Bool) : (if b then (0 : Octet) else 1) = yesNo !b := by
  cases b <;> rfl

theorem StopCause.code_eq (c : StopCause) : c.code = if c = .fault then 0 else 1 := by
  cases c <;> rfl

theorem faultOctets_some_length (source : Octet) (f : FaultRec) : (faultOctets source (some f)).length = 13 := rfl

theorem ArmUnit.statusOctets_length (u : ArmUnit) : u.statusOctets.length = 83 := by
  have hcause : (optional 1 (u.stopCause.map fun c => [c.code])).length = 2 := by
    rw [optional_length]
    rintro os hos
    obtain ⟨c, -, rfl⟩ := Option.map_eq_some_iff.mp hos
    rfl
  have hfault : (optional 13 (u.ctx.fault.map fun f => faultOctets 1 (some f))).length = 14 := by
    rw [optional_length]
    rintro os hos
    obtain ⟨f, -, rfl⟩ := Option.map_eq_some_iff.mp hos
    rfl
  have hexpected : (optional 1 (u.expected.map fun e => [e])).length = 2 := by
    rw [optional_length]
    rintro os hos
    obtain ⟨e, -, rfl⟩ := Option.map_eq_some_iff.mp hos
    rfl
  have hpos (p : Option Pos) : (positionOption p).length = 17 := by
    rw [positionOption, optional_length]
    rintro os hos
    obtain ⟨q, -, rfl⟩ := Option.map_eq_some_iff.mp hos
    rfl
  simp only [ArmUnit.statusOctets, List.length_append, hcause, hfault, hexpected, hpos, triCounts, count32_length, envelopeOctets,
    List.length_cons, List.length_nil]

theorem ArmUnit.statusOctets_eq (u : ArmUnit) :
    let optional (width : Nat) (v : Option (List Octet)) : List Octet := v.elim (0 :: List.replicate width 0) (1 :: ·)
    let flag (b : Bool) : Octet := if b then 1 else 0
    let envelope := composeEnvelope u.work u.ctx.stack
    u.statusOctets = [octet u.state.code] ++ optional 1 (u.stopCause.map fun c => [if c = .fault then 0 else 1])
      ++ [flag !u.sto, flag !u.ctrlLocked, flag !u.driveLocked]
      ++ optional 13 (u.ctx.fault.map fun f => [1, octet f.kind.code] ++ octets16 f.also
        ++ [f.seq.getD 0, flag f.seq.isSome, axisCode f.axis, sideCode f.port] ++ octets32 f.tick ++ [octet f.state.code])
      ++ [flag u.ctx.carried.isSome, octet u.ctx.soft, octet u.ctx.miss, octet u.ctx.feedback, octet u.ctx.settleCount,
        octet u.ctx.settleTimer, flag u.slotFilled, flag u.substituted, flag u.feedbackSeen]
      ++ optional 1 (u.expected.map fun e => [e]) ++ optional 16 (u.last.pos.map posOctets)
      ++ (posOctets ⟨u.last.step, 0⟩).take 12 ++ [u.last.seq] ++ optional 16 (u.lastActual.map posOctets)
      ++ [octet u.ctx.stack.length, octet envelope.lateral, octet envelope.below, octet envelope.above, octet u.work.cadence] := by
  simp only [ArmUnit.statusOctets, ite_eq_yesNo_not, StopCause.code_eq, optional_eq, positionOption, List.append_assoc]
  rfl

theorem exec_armStatus_take {m : Arm} {s : State} {r : Request} {rest : List ArmEvent} (ht : s.armTakes m (.request r) rest)
    (hn : r.name = .armStatus) : exec (.armStatus m) s = .next (s.setArm m { s.arm m with
      arrivals := rest, toWs := (s.arm m).toWs ++ [.statusRead r.head { s.arm m with arrivals := rest }.statusOctets] }) := by
  rw [exec_armStatus, execArmStatus, takeArmRequest_take ht.1 ht.2 hn]
  rfl

theorem exec_statusRead_take {m : Arm} {s : State} {h : ReqHead} {part : List Octet} {rest : List ToWorkspace}
    (ht : s.wsTakes m (.statusRead h part) rest) : exec (.statusRead m) s
      = .next ((s.setArm m { s.arm m with toWs := rest }).answer m (answerOk h (part ++ s.ws.statusOctets m))) := by
  rw [exec_statusRead, execStatusRead, takeFromArm_take ht]
  rfl

@[simp] theorem recordOctets_length (r : BoxRecord) : (recordOctets r).length = 31 := by
  cases r <;> rfl

/-- Whether an arm is reported ABSENT by the shadow header, there being no active bank (R12, R175). -/
theorem Workspace.reportedRecord_unseen {w : Workspace} {m : Arm} (h : w.active = none ∧ w.headerPresent.get m = false) :
    w.reportedRecord m = .absent := if_pos (by simp [h.1, h.2])

theorem Workspace.reportedRecord_seen {w : Workspace} {m : Arm} (h : ¬(w.active = none ∧ w.headerPresent.get m = false)) :
    w.reportedRecord m = w.record m :=
  if_neg fun hc => h (by simpa [Bool.and_eq_true] using hc)

theorem Workspace.statusOctets_of {w : Workspace} {m : Arm} {r : BoxRecord} {record : List Octet} (h : w.reportedRecord m = r)
    (hr : recordOctets r = record) : w.statusOctets m = record
      ++ [octet (w.reported.get m).code, octet (w.queue.filter fun e => e.arm == m).length, octet (w.outcomeCount.get m)]
      ++ octets32 w.tick := by
  rw [Workspace.statusOctets, h, hr, queuedOf]

/-- Settles O43. -/
theorem statusRule : Obligations.StatusRule := by
  refine ⟨fun m s r rest => exec_armStatus_take, fun m s h part rest => exec_statusRead_take,
    fun u => ⟨u.statusOctets_length, u.statusOctets_eq⟩, rfl, rfl, by decide, fun w m => ?_⟩
  intro coords used unseen gives
  refine ⟨?_, fun h => ?_, fun hseen h => ?_, fun box env hseen h => ?_, fun box motion env hseen h => ?_⟩
  · simp only [Workspace.statusOctets, List.length_append, recordOctets_length]
    rfl
  · have habsent : w.reportedRecord m = .absent := by
      by_cases hu : unseen
      · exact Workspace.reportedRecord_unseen hu
      · exact (Workspace.reportedRecord_seen hu).trans (h.resolve_left hu)
    exact Workspace.statusOctets_of habsent rfl
  · exact Workspace.statusOctets_of ((Workspace.reportedRecord_seen hseen).trans h) rfl
  · exact Workspace.statusOctets_of ((Workspace.reportedRecord_seen hseen).trans h) rfl
  · exact Workspace.statusOctets_of ((Workspace.reportedRecord_seen hseen).trans h) rfl

end Sys2Proof.Machine
end

