-- ==== Sys2Proof/Proofs/Contexts.lean ====
section
/-! PROOFS. Chapter 7: envelope requests, masks, and context records saved and loaded, settling EnvelopeRequestRule and
ContextRequestRule. -/

namespace Sys2Proof.Machine

/-! ### Envelope requests (R133, R134) -/

/-- The arm unit with the stack of an envelope request, and the STACK event of a violation (R130, R133). -/
def ArmUnit.stacked (u : ArmUnit) (m : Arm) (op : EnvOp) (pushed : Option Margin) : ArmUnit :=
  { u with
    ctx := { u.ctx with stack := (applyEnvOp u.ctx.mask.stack op u.ctx.stack).1 },
    raises := u.raises ++ (applyEnvOp u.ctx.mask.stack op u.ctx.stack).2.toList.map fun x =>
      ⟨m, .stack, .stack ⟨.request, x, u.ctx.stack.length, pushed, none⟩⟩ }

section EnvelopeRequest

variable {u : ArmUnit} (m : Arm) (s : State) (r : Request) (op : EnvOp) (pushed : Option Margin)

theorem ArmUnit.stacked_of_none (h : (applyEnvOp u.ctx.mask.stack op u.ctx.stack).2 = none) :
    u.stacked m op pushed = u.setStack (applyEnvOp u.ctx.mask.stack op u.ctx.stack).1 := by
  rw [ArmUnit.stacked, h, Option.toList_none, List.map_nil, List.append_nil]
  rfl

theorem ArmUnit.stacked_of_some {x : StackCase} (h : (applyEnvOp u.ctx.mask.stack op u.ctx.stack).2 = some x) :
    u.stacked m op pushed = (u.setStack (applyEnvOp u.ctx.mask.stack op u.ctx.stack).1).raise m .stack
      (.stack ⟨.request, x, u.ctx.stack.length, pushed, none⟩) := by
  rw [ArmUnit.stacked, h, Option.toList_some, List.map_singleton]
  rfl

/-- An unmasked violation by an envelope request is refused, and in RUN is a fault (R133, R136). -/
theorem ArmUnit.envelopeRequest_violates
    (h : (applyEnvOp u.ctx.mask.stack op u.ctx.stack).2.isSome = true ∧ u.ctx.mask.stack = false) :
    u.envelopeRequest m s r op pushed = finishArm m s
      (if u.state = .run then (u.stacked m op pushed).stackFault m else u.stacked m op pushed, refusal r .stack []) := by
  obtain ⟨x, hx⟩ := Option.isSome_iff_exists.mp h.1
  rw [ArmUnit.envelopeRequest, ArmUnit.stacked_of_some m op pushed hx]
  dsimp only
  rw [hx]
  dsimp only
  rw [if_neg (by simp [h.2])]
  split_ifs <;> rfl

/-- Any other envelope request is carried on to the comparison of the envelopes (R133). -/
theorem ArmUnit.envelopeRequest_carries
    (h : ¬((applyEnvOp u.ctx.mask.stack op u.ctx.stack).2.isSome = true ∧ u.ctx.mask.stack = false)) :
    u.envelopeRequest m s r op pushed = ArmUnit.envelopeRequest.carry u m s r (u.stacked m op pushed) := by
  rw [ArmUnit.envelopeRequest]
  dsimp only
  cases hx : (applyEnvOp u.ctx.mask.stack op u.ctx.stack).2 with
  | none => rw [ArmUnit.stacked_of_none m op pushed hx]
  | some x =>
    have hmask : u.ctx.mask.stack = true := by simpa [hx] using h
    rw [ArmUnit.stacked_of_some m op pushed hx]
    dsimp only
    rw [if_pos hmask]

variable {w : ArmUnit} {p : Pos}

theorem ArmUnit.carry_unchanged (h : w.envelope = u.envelope) :
    ArmUnit.envelopeRequest.carry u m s r w = finishArm m s (w, okAnswer r w.envelopeData) := if_pos h

theorem ArmUnit.carry_run (h : w.envelope ≠ u.envelope) (hs : u.state = .run) (hp : w.last.pos = some p) :
    ArmUnit.envelopeRequest.carry u m s r w = finishArm m s
      ({ w.send (.checked (w.rejudgePlacement p)) with outstanding := some (.envelope r.head w.work.geometry) }, none) := by
  rw [ArmUnit.envelopeRequest.carry, if_neg h, if_pos hs, withForwarded_some hp]
  rfl

theorem ArmUnit.carry_standby (h : w.envelope ≠ u.envelope) (hs : u.state = .standby) :
    ArmUnit.envelopeRequest.carry u m s r w = finishArm m s (w.restForEnvelope, okAnswer r w.envelopeData) := by
  rw [ArmUnit.envelopeRequest.carry, if_neg h, if_neg (hs.trans_ne (by decide))]

theorem ArmUnit.restForEnvelope_silent (h : w.awaitFeedback = true ∨ w.lastActual = none) : w.restForEnvelope = w := by
  by_cases ha : w.awaitFeedback = true
  · exact if_pos ha
  · exact (if_neg ha).trans (ArmUnit.sendRestIfKnown_unknown (h.resolve_left ha))

theorem ArmUnit.restForEnvelope_sends (ha : w.awaitFeedback = false) (hp : w.lastActual = some p) :
    w.restForEnvelope = { w with toWs := w.toWs ++ [.rest p.xyz w.envelope w.work.geometry] } := by
  rw [ArmUnit.restForEnvelope, if_neg (by simp [ha]), ArmUnit.sendRestIfKnown_known hp, ArmUnit.sendRest, ← ha]
  rfl

/-- An unmasked STACK violation by a request in RUN (R136). -/
theorem ArmUnit.stackFault_run (hs : w.state = .run) (hf : w.ctx.fault = none) (hc : w.ctx.carried = none) :
    w.stackFault m = w.haltsOn m ⟨.stack, KindSet.empty, some w.last.seq, none, none, w.tickCopy, .run⟩ := by
  rw [ArmUnit.stackFault, ArmUnit.hardFault_run m _ hs hf hc, ArmUnit.finding, Finding.toRecord_single]

end EnvelopeRequest

/-! ### The envelope commands and the verdict (R133, R136) -/

theorem takesEnvelope_iff (st : ArmState) : takesEnvelope st = true ↔ st = .standby ∨ st = .run := by
  cases st <;> decide

/-- The two envelope commands, by the arm's state and the width of a pushed margin. -/
theorem exec_envelope_take {m : Arm} {s : State} {r : Request} {rest : List ArmEvent} {c : Instr} {op : EnvOp}
    {pushed : Option Margin} (ht : s.armTakes m (.request r) rest) :
    let g : Margin := ⟨(r.args.getD 0 0).toNat, (r.args.getD 1 0).toNat⟩
    (r.name = .envelopePush ∧ c = .envelopePush m ∧ op = .push g ∧ pushed = some g
      ∨ r.name = .envelopePop ∧ c = .envelopePop m ∧ op = .pop ∧ pushed = none) →
    let u : ArmUnit := { s.arm m with arrivals := rest }
    let wide : Prop := c = .envelopePush m ∧ (63 < g.lateral ∨ 63 < g.below)
    (u.state ≠ .standby → u.state ≠ .run → exec c s = finishArm m s (u, refusal r .state []))
      ∧ (u.state = .standby ∨ u.state = .run → wide → exec c s = finishArm m s (u, refusal r .range []))
      ∧ (u.state = .standby ∨ u.state = .run → ¬wide → exec c s = u.envelopeRequest m s r op pushed) := by
  intro g hcase u wide
  have hable (h : u.state = .standby ∨ u.state = .run) : ¬(!takesEnvelope u.state) = true := by
    rw [(takesEnvelope_iff _).mpr h]
    decide
  have hunable (h1 : u.state ≠ .standby) (h2 : u.state ≠ .run) : (!takesEnvelope u.state) = true := by
    rw [Bool.not_eq_true', Bool.eq_false_iff]
    exact fun hc => ((takesEnvelope_iff _).mp hc).elim h1 h2
  rcases hcase with ⟨hn, rfl, rfl, rfl⟩ | ⟨hn, rfl, rfl, rfl⟩
  · have hrun : exec (.envelopePush m) s = if (!takesEnvelope u.state) = true then finishArm m s (u, refusal r .state [])
        else if 63 < g.lateral ∨ 63 < g.below then finishArm m s (u, refusal r .range [])
        else u.envelopeRequest m s r (.push g) (some g) := by
      rw [exec_envelopePush, execEnvelopePush, takeArmRequest_take ht.1 ht.2 hn]
      rfl
    refine ⟨fun h1 h2 => ?_, fun h hw => ?_, fun h hw => ?_⟩
    · rw [hrun, if_pos (hunable h1 h2)]
    · rw [hrun, if_neg (hable h), if_pos hw.2]
    · rw [hrun, if_neg (hable h), if_neg fun hg => hw ⟨rfl, hg⟩]
  · have hrun : exec (.envelopePop m) s = if (!takesEnvelope u.state) = true then finishArm m s (u, refusal r .state [])
        else u.envelopeRequest m s r .pop none := by
      rw [exec_envelopePop, execEnvelopePop, takeArmRequest_take ht.1 ht.2 hn]
    refine ⟨fun h1 h2 => ?_, fun h hw => ?_, fun h hw => ?_⟩
    · rw [hrun, if_pos (hunable h1 h2)]
    · cases hw.1
    · rw [hrun, if_neg (hable h)]

theorem exec_envelopeVerdict_placed {m : Arm} {s : State} {h : ReqHead} {geom : Geometry}
    (ht : s.verdictTakes m (.envelope h geom) .placed) :
    let u : ArmUnit := { s.arm m with outstanding := none, verdict := none }
    exec (.envelopeVerdict m) s = finishArm m s ({ u with placeGeom := geom }, some (answerOk h u.envelopeData)) := by
  intro u
  rw [exec_envelopeVerdict, execEnvelopeVerdict, takeVerdict_take ht.1 ht.2]
  rfl

theorem exec_envelopeVerdict_failed {m : Arm} {s : State} {h : ReqHead} {geom : Geometry} {kinds : KindSet} {ra sa : Option Axis}
    {tick : Tick} (ht : s.verdictTakes m (.envelope h geom) (.failed kinds ra sa tick)) :
    let u : ArmUnit := { s.arm m with outstanding := none, verdict := none }
    exec (.envelopeVerdict m) s = finishArm m s (u.envelopeFailed m ⟨kinds, ra, sa, none, none⟩ tick,
      some (answerRefused h .illegal (illegalData ⟨kinds, ra, sa, none, none⟩))) := by
  intro u
  rw [exec_envelopeVerdict, execEnvelopeVerdict, takeVerdict_take ht.1 ht.2]
  rfl

/-- The hard fault of a FAILED verdict on an envelope request in RUN (R136). -/
theorem ArmUnit.envelopeFailed_run {u : ArmUnit} (m : Arm) {f : Found} (tick : Tick) {k : FaultKind} (hk : f.kinds.first = some k)
    (hs : u.state = .run) (hf : u.ctx.fault = none) (hc : u.ctx.carried = none) :
    u.envelopeFailed m f tick = (u.raiseFound m u.last.seq f).haltsOn m
      ⟨k, KindSet.without f.kinds k, some u.last.seq, f.axisOf k, none, tick, .run⟩ := by
  simp only [ArmUnit.envelopeFailed, Found.finding_of_first u.last.seq tick hk]
  exact ArmUnit.hardFault_run (u := u.raiseFound m u.last.seq f) m _ hs hf hc

/-- Settles O44. -/
theorem envelopeRequestRule : Obligations.EnvelopeRequestRule := by
  refine ⟨fun m s r rest c op pushed ht => ?request, fun m s h geom v ht => ?verdict⟩
  case request =>
    intro g hcase u after before composed data v wide failed run
    obtain ⟨hstate, hrange, htaken⟩ := exec_envelope_take ht hcase
    have hcarries (hs : u.state = .standby ∨ u.state = .run) (hw : ¬wide) (hf : ¬failed) :
        run = ArmUnit.envelopeRequest.carry u m s r v :=
      (htaken hs hw).trans (ArmUnit.envelopeRequest_carries m s r op pushed hf)
    refine ⟨hstate, hrange, fun hs hw hf => ?_, fun hs hw hf hfault hcarried => ?_, fun hs hw hf heq => ?_, fun hs hw hf hne => ?_,
      fun p hs hw hf hne hp => ?_⟩
    · refine (htaken (.inl hs) hw).trans ?_
      rw [ArmUnit.envelopeRequest_violates m s r op pushed hf, if_neg (hs.trans_ne (by decide))]
      rfl
    · refine (htaken (.inr hs) hw).trans ?_
      rw [ArmUnit.envelopeRequest_violates m s r op pushed hf, if_pos hs,
        ArmUnit.stackFault_run (w := u.stacked m op pushed) m hs hfault hcarried]
      rfl
    · rw [hcarries hs hw hf, ArmUnit.carry_unchanged (w := v) m s r heq]
      rfl
    · have hsends : run = finishArm m s (v.restForEnvelope, okAnswer r data) :=
        (hcarries (.inl hs) hw hf).trans (ArmUnit.carry_standby (w := v) m s r hne hs)
      refine ⟨fun hsilent => ?_, fun p ha hp => ?_⟩
      · rw [hsends, ArmUnit.restForEnvelope_silent (w := v) hsilent]
        rfl
      · rw [hsends, ArmUnit.restForEnvelope_sends (w := v) ha hp]
        rfl
    · rw [hcarries (.inr hs) hw hf, ArmUnit.carry_run (w := v) m s r hne hs hp]
      rfl
  case verdict =>
    intro u env
    refine ⟨fun hv => ?_, fun kinds ra sa tick first hv hfirst hs hf hc => ?_⟩
    · subst hv
      exact exec_envelopeVerdict_placed ht
    · intro axis
      subst hv
      have hdata : illegalData ⟨kinds, ra, sa, none, none⟩ = octets16 kinds ++ [axisCode axis] := by
        rw [illegalData, show (⟨kinds, ra, sa, none, none⟩ : Found).kinds.first = some first from hfirst, Option.bind_some,
          Found.axisOf_eq]
        rfl
      have hown : ownRaises m u.last.seq ⟨kinds, ra, sa, none, none⟩ = [] := rfl
      rw [exec_envelopeVerdict_failed ht, hdata,
        ArmUnit.envelopeFailed_run (u := u) (f := ⟨kinds, ra, sa, none, none⟩) m tick hfirst hs hf hc, ArmUnit.raiseFound, hown,
        List.append_nil, Found.axisOf_eq]
      rfl

/-! ### MASK_SET (R137) -/

theorem KindSet.addIf_bit (w : KindSet) (b : Bool) (k : FaultKind) (n : Nat) :
    (KindSet.addIf w b k).getLsbD n = (w.getLsbD n || (b && decide (n = k.code))) := by
  cases b
  · exact (Bool.or_false _).symm
  · exact KindSet.add_bit w k n

theorem maskWord_bit (mask : Mask) (n : Nat) : (maskWord mask).getLsbD n
    = ((n == 3 && mask.trespass) || (n == 4 && mask.speed) || (n == 5 && mask.sequence) || (n == 6 && mask.tracking)
      || (n == 7 && mask.feedbackLoss) || (n == 8 && mask.stack)) := by
  have hempty : KindSet.empty.getLsbD n = false := BitVec.getLsbD_zero
  simp only [maskWord, KindSet.addIf_bit, hempty, FaultKind.code, Bool.false_or, beq_eq_decide, Bool.and_comm]
  rfl

theorem maskWord_maskOfWord (w : BitVec 16) : maskWord (maskOfWord w) = w &&& 0x01F8#16 := by
  refine BitVec.eq_of_getLsbD_eq fun n hn => ?_
  have hmask : (0x01F8#16).getLsbD n
      = (n == 3 || n == 4 || n == 5 || n == 6 || n == 7 || n == 8) := by
    revert n
    decide
  rw [maskWord_bit, BitVec.getLsbD_and, hmask]
  by_cases hin : n = 3 ∨ n = 4 ∨ n = 5 ∨ n = 6 ∨ n = 7 ∨ n = 8
  · rcases hin with rfl | rfl | rfl | rfl | rfl | rfl <;> simp [maskOfWord, KindSet.has, FaultKind.code]
  · obtain ⟨h3, h4, h5, h6, h7, h8⟩ : n ≠ 3 ∧ n ≠ 4 ∧ n ≠ 5 ∧ n ≠ 6 ∧ n ≠ 7 ∧ n ≠ 8 := by tauto
    simp [beq_false_of_ne, h3, h4, h5, h6, h7, h8]

theorem masksUnmaskable_iff (w : BitVec 16) :
    masksUnmaskable w = true ↔ w.getLsbD 0 = true ∨ w.getLsbD 1 = true ∨ w.getLsbD 2 = true := by
  simp only [masksUnmaskable, Bool.or_eq_true, or_assoc]
  rfl

theorem exec_maskSet_take {m : Arm} {s : State} {r : Request} {rest : List ArmEvent} (ht : s.armTakes m (.request r) rest)
    (hn : r.name = .maskSet) :
    exec (.maskSet m) s = finishArm m s (({ s.arm m with arrivals := rest } : ArmUnit).maskRequest r) := by
  rw [exec_maskSet, execMaskSet, takeArmRequest_take ht.1 ht.2 hn]

theorem exec_contextSave_take {m : Arm} {s : State} {r : Request} {rest : List ArmEvent} (ht : s.armTakes m (.request r) rest)
    (hn : r.name = .contextSave) :
    exec (.contextSave m) s = finishArm m s ({ s.arm m with arrivals := rest }, okAnswer r (contextOctets (s.arm m).ctx)) := by
  rw [exec_contextSave, execContextSave, takeArmRequest_take ht.1 ht.2 hn]

theorem exec_contextLoad_take {m : Arm} {s : State} {r : Request} {rest : List ArmEvent} (ht : s.armTakes m (.request r) rest)
    (hn : r.name = .contextLoad) :
    exec (.contextLoad m) s = finishArm m s (({ s.arm m with arrivals := rest } : ArmUnit).loadRequest r) := by
  rw [exec_contextLoad, execContextLoad, takeArmRequest_take ht.1 ht.2 hn]

section Load

variable {u : ArmUnit} (r : Request)

theorem ArmUnit.loadRequest_error {field : ContextField} (hs : u.state = .standby) (h : readContext r.args = .error field) :
    u.loadRequest r = (u, refusal r .invalid [field.code]) := by
  rw [ArmUnit.loadRequest, if_neg (by simp [hs]), h]

theorem ArmUnit.loadRequest_ok {c : LoadedContext} (hs : u.state = .standby) (h : readContext r.args = .ok c) :
    u.loadRequest r = (u.load c, okAnswer r []) := by
  rw [ArmUnit.loadRequest, if_neg (by simp [hs]), h]

/-- The arm unit with a context record's contents, before its rest update (R142). -/
def ArmUnit.loaded (u : ArmUnit) (c : LoadedContext) : ArmUnit :=
  { u with ctx := { u.ctx with mask := c.mask, stack := c.stack, softSeen := c.softSeen, carried := c.fault } }

theorem ArmUnit.load_silent {c : LoadedContext}
    (h : composeEnvelope u.work c.stack = composeEnvelope u.work u.ctx.stack ∨ u.awaitFeedback = true ∨ u.lastActual = none) :
    u.load c = u.loaded c := by
  rcases h with h | h
  · exact if_pos h
  · by_cases hsame : (u.loaded c).envelope = u.envelope
    · exact if_pos hsame
    · exact (if_neg hsame).trans (ArmUnit.restForEnvelope_silent (w := u.loaded c) h)

theorem ArmUnit.load_rests {c : LoadedContext} {p : Pos} (h : composeEnvelope u.work c.stack ≠ composeEnvelope u.work u.ctx.stack)
    (ha : u.awaitFeedback = false) (hp : u.lastActual = some p) :
    u.load c = { u.loaded c with toWs := u.toWs ++ [.rest p.xyz (composeEnvelope u.work c.stack) u.work.geometry] } :=
  (if_neg h).trans (ArmUnit.restForEnvelope_sends (w := u.loaded c) ha hp)

end Load

/-! ### The tests of a context record in their order (R141) -/

/-- An examination makes tests in this order: the first that fails names its field, and with none it succeeds. -/
def FirstFails {α : Type} : List (ContextField × Prop) → Examined α → Prop
  | [], x => ∃ c, x = .ok c
  | (field, fails) :: rest, x => (fails → x = .error field) ∧ (¬fails → FirstFails rest x)

theorem FirstFails.ok_iff {α : Type} {tests : List (ContextField × Prop)} {x : Examined α} (h : FirstFails tests x) :
    (∃ c, x = .ok c) ↔ ∀ t ∈ tests, ¬t.2 := by
  induction tests with
  | nil => simpa [FirstFails] using h
  | cons t rest ih =>
    obtain ⟨field, fails⟩ := t
    by_cases hf : fails
    · simp [h.1 hf, hf]
    · simp [ih (h.2 hf), hf]

theorem FirstFails.error_mem {α : Type} {tests : List (ContextField × Prop)} {x : Examined α} {field : ContextField}
    (h : FirstFails tests x) (hx : x = .error field) : field ∈ tests.map Prod.fst := by
  induction tests with
  | nil =>
    obtain ⟨c, hc⟩ := h
    cases hc.symm.trans hx
  | cons t rest ih =>
    by_cases hf : t.2
    · have := (h.1 hf).symm.trans hx
      cases this
      simp
    · exact List.mem_cons_of_mem _ (ih (h.2 hf))

/-- With each field tested once, a field is named when its test fails and none before it does. -/
theorem FirstFails.error_iff {α : Type} {tests pre post : List (ContextField × Prop)} {x : Examined α} {field : ContextField}
    {fails : Prop} (h : FirstFails tests x) (hd : (tests.map Prod.fst).Nodup) (ht : tests = pre ++ (field, fails) :: post) :
    x = .error field ↔ fails ∧ ∀ t ∈ pre, ¬t.2 := by
  induction pre generalizing tests with
  | nil =>
    subst ht
    by_cases hf : fails
    · simp [h.1 hf, hf]
    · have hnot : field ∉ post.map Prod.fst := (List.nodup_cons.mp hd).1
      simp only [hf, false_and, iff_false]
      exact fun hx => hnot ((h.2 hf).error_mem hx)
  | cons t pre ih =>
    subst ht
    obtain ⟨hnot, hd⟩ := List.nodup_cons.mp hd
    by_cases hf : t.2
    · have hne : t.1 ≠ field := fun he => hnot (by simp [he])
      simp [h.1 hf, hf, hne]
    · simp [ih (h.2 hf) hd rfl, hf]

theorem firstFails_of_ok {α : Type} {tests : List (ContextField × Prop)} {x : Examined α} {c : α} (hx : x = .ok c)
    (h : ∀ t ∈ tests, ¬t.2) : FirstFails tests x := by
  induction tests with
  | nil => exact ⟨c, hx⟩
  | cons t rest ih =>
    exact ⟨fun hf => absurd hf (h t (by simp)), fun _ => ih fun t' ht' => h t' (List.mem_cons_of_mem _ ht')⟩

/-- An examination carried on without further tests. -/
theorem FirstFails.map {α β : Type} {tests : List (ContextField × Prop)} {x : Examined α} {y : Examined β} (h : FirstFails tests x)
    (he : ∀ field, x = .error field → y = .error field) (ho : ∀ c, x = .ok c → ∃ d, y = .ok d) : FirstFails tests y := by
  induction tests with
  | nil =>
    obtain ⟨c, hc⟩ := h
    exact ho c hc
  | cons t rest ih => exact ⟨fun hf => he _ (h.1 hf), fun hf => ih (h.2 hf)⟩

theorem firstFails_examineIf {β : Type} {field : ContextField} {good : Bool} {k : Unit → Examined β} {fails : Prop}
    {rest : List (ContextField × Prop)} (hf : fails ↔ good = false) (hk : ¬fails → FirstFails rest (k ())) :
    FirstFails ((field, fails) :: rest) (examineIf field good >>= k) := by
  refine ⟨fun h => ?_, fun h => ?_⟩
  · rw [hf.mp h]
    rfl
  · rw [Bool.eq_true_of_not_eq_false (mt hf.mpr h)]
    exact hk h

theorem firstFails_examine {α β : Type} {field : ContextField} {read : Option α} {k : α → Examined β} {fails : Prop}
    {rest : List (ContextField × Prop)} (hf : fails ↔ read = none) (hk : ∀ v, read = some v → FirstFails rest (k v)) :
    FirstFails ((field, fails) :: rest) (examine field read >>= k) := by
  refine ⟨fun h => ?_, fun h => ?_⟩
  · rw [hf.mp h]
    rfl
  · obtain ⟨v, hv⟩ := Option.ne_none_iff_exists'.mp (mt hf.mpr h)
    have := hk v hv
    rw [hv]
    exact this

/-! ### The fields of a context record (R141, R190) -/

theorem readFlag_eq_none (n : Nat) : readFlag n = none ↔ 1 < n := by
  rw [readFlag]
  split_ifs <;> simp <;> omega

theorem readFlag_eq_some {n : Nat} {b : Bool} (h : readFlag n = some b) : n = b.toNat := by
  rw [readFlag] at h
  split_ifs at h with h1 h0 <;> cases h
  exacts [h1, h0]

theorem FaultKind.ofCode_eq_none (n : Nat) : FaultKind.ofCode n = none ↔ 14 < n :=
  List.getElem?_eq_none_iff

theorem FaultKind.code_of_ofCode {n : Nat} {k : FaultKind} (h : FaultKind.ofCode n = some k) : k.code = n := by
  obtain ⟨hn, hk⟩ := List.getElem?_eq_some_iff.mp h
  rw [← hk]
  exact FaultKind.code_of_getElem hn

theorem readAxis_eq_none (n : Nat) : readAxis n = none ↔ 3 < n := by
  match n with
  | 0 | 1 | 2 | 3 => simp [readAxis]
  | n + 4 => simp [readAxis]

theorem axisCode_of_readAxis {n : Nat} {ax : Option Axis} (h : readAxis n = some ax) : (axisCode ax).toNat = n := by
  match n with
  | 0 | 1 | 2 | 3 => cases h; rfl
  | n + 4 => cases h

theorem ArmState.ofCode_eq_none (n : Nat) : ArmState.ofCode n = none ↔ 6 < n := by
  match n with
  | 0 | 1 | 2 | 3 | 4 | 5 | 6 => simp [ArmState.ofCode]
  | n + 7 => simp [ArmState.ofCode]

theorem ArmState.code_of_ofCode {n : Nat} {st : ArmState} (h : ArmState.ofCode n = some st) : st.code = n := by
  match n with
  | 0 | 1 | 2 | 3 | 4 | 5 | 6 => cases h; rfl
  | n + 7 => cases h

theorem FaultKind.eq_linkLoss_iff (k : FaultKind) : k = .linkLoss ↔ k.code = 13 := by
  cases k <;> decide

theorem readFaultPort_eq_none (k : FaultKind) (n : Nat) :
    readFaultPort k n = none ↔ if k.code = 13 then n ≠ 1 ∧ n ≠ 2 else n ≠ 0 := by
  simp only [readFaultPort, k.eq_linkLoss_iff]
  split_ifs <;> simp_all

theorem sideCode_of_readFaultPort {k : FaultKind} {n : Nat} {port : Option Side} (h : readFaultPort k n = some port) :
    (sideCode port).toNat = n := by
  rw [readFaultPort] at h
  split_ifs at h with _ h1 h2 h0 <;> cases h
  exacts [h1.symm, h2.symm, h0.symm]

theorem readFaultSeq_eq_none (os : List Octet) : readFaultSeq os = none ↔ 1 < octetAt os 25 := by
  rw [readFaultSeq, Option.map_eq_none_iff, readFlag_eq_none]

theorem readAlso_eq_none (os : List Octet) (k : FaultKind) : readAlso os k = none
    ↔ (os.getD 22 0 ++ os.getD 23 0 : BitVec 16).getLsbD 15 = true ∨ (os.getD 22 0 ++ os.getD 23 0 : BitVec 16).getLsbD k.code = true := by
  rw [readAlso]
  split_ifs with h
  · simpa [KindSet.has] using h
  · simpa [KindSet.has] using h

/-- The tests of the fault of a context record, in their order. -/
def faultTests (os : List Octet) (present : Prop) : List (ContextField × Prop) :=
  let at' (i : Nat) : Nat := (os.getD i 0).toNat
  let also : BitVec 16 := os.getD 22 0 ++ os.getD 23 0
  [(.faultSource, present ∧ 2 < at' 20),
    (.faultKind, present ∧ 14 < at' 21),
    (.faultAlso, present ∧ (also.getLsbD 15 = true ∨ also.getLsbD (at' 21) = true)),
    (.faultSequence, present ∧ 1 < at' 25),
    (.faultAxis, present ∧ 3 < at' 26),
    (.faultPort, present ∧ if at' 21 = 13 then at' 27 ≠ 1 ∧ at' 27 ≠ 2 else at' 27 ≠ 0),
    (.faultArmState, present ∧ 6 < at' 32)]

theorem readFault_firstFails (os : List Octet) {present : Prop} (hp : present) : FirstFails (faultTests os present) (readFault os) := by
  refine firstFails_examineIf (by simp [hp, octetAt]) fun _ =>
    firstFails_examine ((and_iff_right hp).trans (FaultKind.ofCode_eq_none _).symm) fun kind hkind => ?_
  have hcode : kind.code = (os.getD 21 0).toNat := FaultKind.code_of_ofCode hkind
  refine firstFails_examine (by rw [readAlso_eq_none, hcode, and_iff_right hp]) fun also _ =>
    firstFails_examine ((and_iff_right hp).trans (readFaultSeq_eq_none os).symm) fun seq _ =>
    firstFails_examine ((and_iff_right hp).trans (readAxis_eq_none _).symm) fun axis _ =>
    firstFails_examine (by rw [readFaultPort_eq_none, hcode, and_iff_right hp, octetAt]) fun port _ =>
    firstFails_examine ((and_iff_right hp).trans (ArmState.ofCode_eq_none _).symm) fun state _ => ⟨_, rfl⟩

/-- The tests of a context record (R141), in their order. -/
def contextTests (os : List Octet) : List (ContextField × Prop) :=
  let at' (i : Nat) : Nat := (os.getD i 0).toNat
  [(.depth, 8 < at' 2),
    (.entries, ∃ i, i < at' 2 ∧ (63 < at' (3 + 2 * i) ∨ 63 < at' (4 + 2 * i))),
    (.softSeen, 1 < at' 19)] ++ faultTests os (at' 20 ≠ 0)

theorem readStack_all_eq_false (os : List Octet) (depth : Nat) :
    (∃ i, i < depth ∧ (63 < octetAt os (3 + 2 * i) ∨ 63 < octetAt os (4 + 2 * i)))
      ↔ ((readStack os depth).all fun x => decide (x.lateral ≤ 63) && decide (x.below ≤ 63)) = false := by
  simp only [readStack, List.all_reverse, List.all_map, List.all_eq_false, List.mem_range, Function.comp, Bool.and_eq_true,
    decide_eq_true_eq, not_and_or, not_le]

theorem readContext_firstFails (os : List Octet) : FirstFails (contextTests os) (readContext os) := by
  refine firstFails_examineIf (by simp [octetAt]) fun _ => firstFails_examineIf (readStack_all_eq_false os _) fun _ =>
    firstFails_examine (readFlag_eq_none _).symm fun softSeen _ => ?_
  by_cases h : octetAt os 20 = 0
  · have habsent : ∀ t ∈ faultTests os ((os.getD 20 0).toNat ≠ 0), ¬t.2 := by
      rw [show (os.getD 20 0).toNat = 0 from h]
      simp [faultTests]
    dsimp only
    rw [if_pos h]
    exact firstFails_of_ok rfl habsent
  · dsimp only
    rw [if_neg h]
    refine (readFault_firstFails os (present := (os.getD 20 0).toNat ≠ 0) h).map (fun field hx => ?_) fun c hx => ?_
    · rw [hx]
      rfl
    · rw [hx]
      exact ⟨_, rfl⟩

theorem examine_ok {α : Type} {field : ContextField} {read : Option α} {a : α} (h : examine field read = .ok a) : read = some a := by
  cases read <;> cases h
  rfl

/-- A flag octet that is in range is set when it is 1. -/
theorem eq_one_iff_of_toNat {o : Octet} {b : Bool} (h : o.toNat = b.toNat) : o = 1 ↔ b = true := by
  rw [← BitVec.toNat_inj, h]
  cases b <;> decide

/-- The fault a context record delivers, field by field. -/
theorem readFault_ok {os : List Octet} {f : FaultRec} (h : readFault os = .ok f) : f.kind.code = (os.getD 21 0).toNat
    ∧ f.also = os.getD 22 0 ++ os.getD 23 0 ∧ f.seq = (if os.getD 25 0 = 1 then some (os.getD 24 0) else none)
    ∧ axisCode f.axis = os.getD 26 0 ∧ sideCode f.port = os.getD 27 0
    ∧ f.tick = os.getD 28 0 ++ os.getD 29 0 ++ os.getD 30 0 ++ os.getD 31 0 ∧ f.state.code = (os.getD 32 0).toNat := by
  obtain ⟨_, -, h⟩ := examined_bind_ok h
  obtain ⟨kind, hkind, h⟩ := examined_bind_ok h
  obtain ⟨also, halso, h⟩ := examined_bind_ok h
  obtain ⟨seq, hseq, h⟩ := examined_bind_ok h
  obtain ⟨axis, haxis, h⟩ := examined_bind_ok h
  obtain ⟨port, hport, h⟩ := examined_bind_ok h
  obtain ⟨state, hstate, h⟩ := examined_bind_ok h
  cases h
  refine ⟨FaultKind.code_of_ofCode (examine_ok hkind), ?_, ?_, BitVec.eq_of_toNat_eq (axisCode_of_readAxis (examine_ok haxis)),
    BitVec.eq_of_toNat_eq (sideCode_of_readFaultPort (examine_ok hport)), rfl, ArmState.code_of_ofCode (examine_ok hstate)⟩
  · have := examine_ok halso
    rw [readAlso] at this
    split_ifs at this
    cases this
    rfl
  · obtain ⟨b, hb, rfl⟩ := Option.map_eq_some_iff.mp (examine_ok hseq)
    exact if_congr (eq_one_iff_of_toNat (readFlag_eq_some hb)).symm rfl rfl

/-- What a context record that passes its tests loads. -/
theorem readContext_ok {os : List Octet} {c : LoadedContext} (h : readContext os = .ok c) :
    c.mask = maskOfWord (os.getD 0 0 ++ os.getD 1 0) ∧ c.stack = readStack os (os.getD 2 0).toNat
      ∧ c.softSeen = decide (os.getD 19 0 = 1) ∧ (os.getD 20 0 = 0 → c.fault = none)
      ∧ (os.getD 20 0 ≠ 0 → ∃ f : FaultRec, c.fault = some f ∧ readFault os = .ok f) := by
  obtain ⟨_, -, h⟩ := examined_bind_ok h
  obtain ⟨_, -, h⟩ := examined_bind_ok h
  obtain ⟨softSeen, hsoft, h⟩ := examined_bind_ok h
  have hseen : softSeen = decide (os.getD 19 0 = 1) := by
    rw [Bool.eq_iff_iff, decide_eq_true_iff]
    exact (eq_one_iff_of_toNat (readFlag_eq_some (examine_ok hsoft))).symm
  have hzero : octetAt os 20 = 0 ↔ os.getD 20 0 = 0 := by simp [octetAt, BitVec.toNat_eq]
  by_cases h0 : octetAt os 20 = 0
  · dsimp only at h
    rw [if_pos h0] at h
    cases h
    exact ⟨rfl, rfl, hseen, fun _ => rfl, fun hne => absurd (hzero.mp h0) hne⟩
  · dsimp only at h
    rw [if_neg h0] at h
    cases hf : readFault os with
    | error e => rw [hf] at h; cases h
    | ok f =>
      rw [hf] at h
      cases h
      exact ⟨rfl, rfl, hseen, fun he => absurd (hzero.mpr he) h0, fun _ => ⟨f, rfl, rfl⟩⟩

/-- Settles O45. -/
theorem contextRequestRule : Obligations.ContextRequestRule := by
  refine ⟨fun m s r rest ht => ?requests, fun os => ?tests, fun os c h => ?loaded, rfl⟩
  case requests =>
    intro u gives word mask
    refine ⟨fun hn => ?maskSet, fun hn => exec_contextSave_take ht hn, fun hn => ?contextLoad⟩
    case maskSet =>
      have hrun : exec (.maskSet m) s = finishArm m s (u.maskRequest r) := exec_maskSet_take ht hn
      refine ⟨fun hs => ?_, fun hs hbad => ?_, fun hs h0 h1 h2 => ?_⟩
      · exact hrun.trans (congrArg (finishArm m s) (if_pos hs))
      · have hrefused : u.maskRequest r = (u, refusal r .range []) := by
          rw [ArmUnit.maskRequest, if_neg (by simp [hs]), if_pos ((masksUnmaskable_iff word).mpr hbad)]
        exact hrun.trans (congrArg (finishArm m s) hrefused)
      · have hgood : ¬masksUnmaskable word = true := by rw [masksUnmaskable_iff, h0, h1, h2]; decide
        have htaken : u.maskRequest r
            = ({ u with ctx := { u.ctx with mask := mask } }, okAnswer r (octets16 (word &&& 0x01F8#16))) := by
          rw [ArmUnit.maskRequest, if_neg (by simp [hs]), if_neg hgood, maskWord_maskOfWord]
          rfl
        exact hrun.trans (congrArg (finishArm m s) htaken)
    case contextLoad =>
      have hrun : exec (.contextLoad m) s = finishArm m s (u.loadRequest r) := exec_contextLoad_take ht hn
      refine ⟨fun hs => ?_, fun field hs he => ?_, fun c hs hc => ⟨fun hsilent => ?_, fun p hne ha hp => ?_⟩⟩
      · exact hrun.trans (congrArg (finishArm m s) (if_pos hs))
      · exact hrun.trans (congrArg (finishArm m s) (ArmUnit.loadRequest_error r hs he))
      · rw [ArmUnit.loadRequest_ok r hs hc, ArmUnit.load_silent (u := u) hsilent] at hrun
        exact hrun
      · rw [ArmUnit.loadRequest_ok r hs hc, ArmUnit.load_rests (u := u) hne ha hp] at hrun
        exact hrun
  case tests =>
    intro at' also present tests
    have hfirst : FirstFails tests (readContext os) := readContext_firstFails os
    have hd : (tests.map Prod.fst).Nodup := by
      rw [show tests.map Prod.fst = [.depth, .entries, .softSeen, .faultSource, .faultKind, .faultAlso, .faultSequence, .faultAxis,
        .faultPort, .faultArmState] from rfl]
      decide
    exact ⟨hfirst.ok_iff, fun pre post field fails => hfirst.error_iff hd⟩
  case loaded =>
    intro word
    obtain ⟨hmask, hstack, hsoft, hnone, hsome⟩ := readContext_ok h
    refine ⟨hmask, hstack, hsoft, hnone, fun hne => ?_⟩
    obtain ⟨f, hf, hread⟩ := hsome hne
    exact ⟨f, hf, readFault_ok hread⟩

end Sys2Proof.Machine
end

