-- ==== Sys2Proof/Proofs/Records.lean ====
section
/-! PROOFS. The records of R190 and how they read back, settling RecordsReadBack. -/

namespace Sys2Proof.Machine

/-! ### Numbers in octets -/

theorem octet_append_toNat (hi lo : Octet) : (hi ++ lo : BitVec 16).toNat = hi.toNat * 256 + lo.toNat := by
  rw [BitVec.toNat_append, Nat.shiftLeft_eq, Nat.mul_comm, ← Nat.two_pow_add_eq_or_of_lt lo.isLt, Nat.mul_comm]

theorem octets16_append (v : BitVec 16) : (v.extractLsb' 8 8 ++ v.extractLsb' 0 8 : BitVec 16) = v := by
  ext i hi
  simp only [BitVec.getElem_append, BitVec.getElem_extractLsb']
  split
  · simp [BitVec.getLsbD_eq_getElem hi]
  · next h => simp [show 8 + (i - 8) = i by omega, BitVec.getLsbD_eq_getElem hi]

theorem octets24_append (v : BitVec 24) : (v.extractLsb' 16 8 ++ v.extractLsb' 8 8 ++ v.extractLsb' 0 8 : BitVec 24) = v := by
  ext i hi
  simp only [BitVec.getElem_append, BitVec.getElem_extractLsb']
  split
  · simp [BitVec.getLsbD_eq_getElem hi]
  · split
    · next h => simp [show 8 + (i - 8) = i by omega, BitVec.getLsbD_eq_getElem hi]
    · next h => simp [show 16 + (i - 8 - 8) = i by omega, BitVec.getLsbD_eq_getElem hi]

theorem nat16At_eq (os : List Octet) (i : Nat) : nat16At os i = (os.getD i 0 ++ os.getD (i + 1) 0 : BitVec 16).toNat :=
  (octet_append_toNat _ _).symm

section Read

variable {os : List Octet} {i : Nat}

theorem octetAt_of {n : Nat} (hn : n < 256) (h : os.getD i 0 = octet n) : octetAt os i = n := by
  rw [octetAt, h, octet_toNat hn]

theorem nat16At_of {v : BitVec 16} (h : os.getD i 0 = v.extractLsb' 8 8) (l : os.getD (i + 1) 0 = v.extractLsb' 0 8) :
    nat16At os i = v.toNat := by
  rw [nat16At_eq, h, l, octets16_append]

theorem nat16At_ofNat {n : Nat} (hn : n < 65536) (h : os.getD i 0 = (BitVec.ofNat 16 n).extractLsb' 8 8)
    (l : os.getD (i + 1) 0 = (BitVec.ofNat 16 n).extractLsb' 0 8) : nat16At os i = n := by
  rw [nat16At_of h l, BitVec.toNat_ofNat, Nat.mod_eq_of_lt hn]

theorem nat24At_ofNat {n : Nat} (hn : n < 16777216) (h : os.getD i 0 = (BitVec.ofNat 24 n).extractLsb' 16 8)
    (m : os.getD (i + 1) 0 = (BitVec.ofNat 24 n).extractLsb' 8 8) (l : os.getD (i + 1 + 1) 0 = (BitVec.ofNat 24 n).extractLsb' 0 8) :
    nat24At os i = n := by
  have hv : (BitVec.ofNat 24 n).toNat = n := by rw [BitVec.toNat_ofNat, Nat.mod_eq_of_lt hn]
  rw [nat24At, nat16At, octetAt, octetAt, octetAt, h, m, l]
  simp only [BitVec.extractLsb'_toNat, hv, Nat.shiftRight_eq_div_pow]
  omega

theorem count32At_of {q : Int} (hq : Fits32 q) (h3 : os.getD i 0 = (BitVec.ofInt 32 q).extractLsb' 24 8)
    (h2 : os.getD (i + 1) 0 = (BitVec.ofInt 32 q).extractLsb' 16 8) (h1 : os.getD (i + 2) 0 = (BitVec.ofInt 32 q).extractLsb' 8 8)
    (h0 : os.getD (i + 3) 0 = (BitVec.ofInt 32 q).extractLsb' 0 8) : count32At os i = q := by
  rw [count32At, bits32At, h3, h2, h1, h0, octets32_append, toInt_ofInt32 hq]

theorem readCoord_of {q : Int} (hq : 0 ≤ q ∧ q ≤ 1023) (h : os.getD i 0 = (BitVec.ofInt 16 q).extractLsb' 8 8)
    (l : os.getD (i + 1) 0 = (BitVec.ofInt 16 q).extractLsb' 0 8) : readCoord os i = some q := by
  obtain ⟨n, rfl⟩ := Int.eq_ofNat_of_zero_le hq.1
  have hn : n ≤ 1023 := by omega
  have hread : nat16At os i = n := by
    rw [BitVec.ofInt_natCast] at h l
    exact nat16At_ofNat (by omega) h l
  rw [readCoord, hread, if_pos hn]

theorem readCap_of {n : Nat} (hn : 1 ≤ n ∧ n ≤ 65535) (h : os.getD i 0 = (BitVec.ofNat 16 n).extractLsb' 8 8)
    (l : os.getD (i + 1) 0 = (BitVec.ofNat 16 n).extractLsb' 0 8) : readCap os i = some n := by
  rw [readCap, nat16At_ofNat (by omega) h l, if_neg (by omega)]

end Read

/-! ### Zone entries (R27) -/

/-- The coordinates of a box are within those a write accepts (R27). -/
def Box.Writable (b : Box) : Prop := ∀ q ∈ [b.lo.x, b.lo.y, b.lo.z, b.hi.x, b.hi.y, b.hi.z], 0 ≤ q ∧ q ≤ 1023

theorem readBox_boxOctets (index kind : Octet) {b : Box} (hb : b.Writable) (rest : List Octet) :
    readBox (index :: kind :: (boxOctets b ++ rest)) 2 = some b := by
  have hcoord {q : Int} (hq : q ∈ [b.lo.x, b.lo.y, b.lo.z, b.hi.x, b.hi.y, b.hi.z]) := hb q hq
  have hlo : readCoords (index :: kind :: (boxOctets b ++ rest)) 2 = some b.lo := by
    rw [readCoords, readCoord_of (hcoord (q := b.lo.x) (by simp)) rfl rfl, readCoord_of (hcoord (q := b.lo.y) (by simp)) rfl rfl,
      readCoord_of (hcoord (q := b.lo.z) (by simp)) rfl rfl]
  have hhi : readCoords (index :: kind :: (boxOctets b ++ rest)) 8 = some b.hi := by
    rw [readCoords, readCoord_of (hcoord (q := b.hi.x) (by simp)) rfl rfl, readCoord_of (hcoord (q := b.hi.y) (by simp)) rfl rfl,
      readCoord_of (hcoord (q := b.hi.z) (by simp)) rfl rfl]
  rw [readBox, hlo, hhi]

/-- Six numbers as octets, high octet first: the box of an entry record. -/
theorem boxOctets_eq (b : Box) :
    boxOctets b = [b.lo.x, b.lo.y, b.lo.z, b.hi.x, b.hi.y, b.hi.z].flatMap fun c => octets16 (BitVec.ofInt 16 c) := rfl

theorem readCoord_eq_some {os : List Octet} {i : Nat} {q : Int} (h : readCoord os i = some q) : q = nat16At os i := by
  rw [readCoord] at h
  split_ifs at h
  cases h
  rfl

theorem readCoords_eq_some {os : List Octet} {i : Nat} {t : Tri Int} (h : readCoords os i = some t) :
    t = ⟨nat16At os i, nat16At os (i + 2), nat16At os (i + 4)⟩ := by
  rw [readCoords] at h
  split at h
  · next hx hy hz =>
    cases h
    rw [readCoord_eq_some hx, readCoord_eq_some hy, readCoord_eq_some hz]
  · cases h

theorem readBox_eq_some {os : List Octet} {i : Nat} {b : Box} (h : readBox os i = some b) :
    b = ⟨⟨nat16At os i, nat16At os (i + 2), nat16At os (i + 4)⟩, ⟨nat16At os (i + 6), nat16At os (i + 8), nat16At os (i + 10)⟩⟩ := by
  rw [readBox] at h
  split at h
  · next hlo hhi =>
    cases h
    rw [readCoords_eq_some hlo, readCoords_eq_some hhi]
  · cases h

theorem readCaps_eq_some {os : List Octet} {i : Nat} {t : Tri Nat} (h : readCaps os i = some t) :
    t = ⟨nat16At os i, nat16At os (i + 2), nat16At os (i + 4)⟩ := by
  have hcap {j n : Nat} (hn : readCap os j = some n) : n = nat16At os j := by
    rw [readCap] at hn
    split_ifs at hn
    cases hn
    rfl
  rw [readCaps] at h
  split at h
  · next hx hy hz =>
    cases h
    rw [hcap hx, hcap hy, hcap hz]
  · cases h

/-- What an accepted zone entry record reads as, by its kind octet. -/
theorem readEntry_eq_some {os : List Octet} {e : ZoneEntry} (h : readEntry os 1 = some e) :
    let n (i : Nat) : Nat := nat16At os i
    let box : Box := ⟨⟨n 2, n 4, n 6⟩, ⟨n 8, n 10, n 12⟩⟩
    (octetAt os 1 = 0 ∧ e = .empty) ∨ (octetAt os 1 = 1 ∧ e = .home .armA box) ∨ (octetAt os 1 = 2 ∧ e = .home .armB box)
      ∨ (octetAt os 1 = 3 ∧ e = .bin box (octetAt os 14) (octetAt os 15)) ∨ (octetAt os 1 = 4 ∧ e = .forbidden box)
      ∨ (octetAt os 1 = 5 ∧ e = .slow box ⟨n 14, n 16, n 18⟩) := by
  rw [readEntry] at h
  split at h
  case h_1 hk => cases h; exact .inl ⟨hk, rfl⟩
  case h_2 hk =>
    obtain ⟨b, hb, rfl⟩ := Option.map_eq_some_iff.mp h
    exact .inr (.inl ⟨hk, by rw [readBox_eq_some hb]⟩)
  case h_3 hk =>
    obtain ⟨b, hb, rfl⟩ := Option.map_eq_some_iff.mp h
    exact .inr (.inr (.inl ⟨hk, by rw [readBox_eq_some hb]⟩))
  case h_4 hk =>
    obtain ⟨b, hb, rfl⟩ := Option.map_eq_some_iff.mp h
    exact .inr (.inr (.inr (.inl ⟨hk, by rw [readBox_eq_some hb]⟩)))
  case h_5 hk =>
    obtain ⟨b, hb, rfl⟩ := Option.map_eq_some_iff.mp h
    exact .inr (.inr (.inr (.inr (.inl ⟨hk, by rw [readBox_eq_some hb]⟩))))
  case h_6 hk =>
    split at h
    · next hb hc =>
      cases h
      exact .inr (.inr (.inr (.inr (.inr ⟨hk, by rw [readBox_eq_some hb, readCaps_eq_some hc]⟩))))
    · cases h
  case h_7 => cases h

/-- An entry within the ranges a write accepts (R27). -/
def ZoneEntry.Writable : ZoneEntry → Prop
  | .empty => True
  | .home _ b => b.Writable
  | .bin b bays cells => b.Writable ∧ bays < 256 ∧ cells < 256
  | .forbidden b => b.Writable
  | .slow b caps => b.Writable ∧ ∀ c ∈ [caps.x, caps.y, caps.z], 1 ≤ c ∧ c ≤ 65535

theorem readEntry_entryOctets (index : Octet) {e : ZoneEntry} (he : e.Writable) : readEntry (index :: entryOctets e) 1 = some e := by
  cases e with
  | empty => rfl
  | home a b =>
    cases a with
    | armA =>
      rw [readEntry, entryOctets, show octetAt (index :: 1 :: (boxOctets b ++ List.replicate 6 0)) 1 = 1 from rfl]
      simp only [readBox_boxOctets index 1 he, Option.map_some]
    | armB =>
      rw [readEntry, entryOctets, show octetAt (index :: 2 :: (boxOctets b ++ List.replicate 6 0)) 1 = 2 from rfl]
      simp only [readBox_boxOctets index 2 he, Option.map_some]
  | bin b bays cells =>
    obtain ⟨hb, hbays, hcells⟩ := he
    rw [readEntry, entryOctets, List.append_assoc,
      show octetAt (index :: 3 :: (boxOctets b ++ ([octet bays, octet cells] ++ List.replicate 4 0))) 1 = 3 from rfl]
    simp only [readBox_boxOctets index 3 hb, Option.map_some]
    rw [octetAt_of hbays rfl, octetAt_of hcells rfl]
  | forbidden b =>
    rw [readEntry, entryOctets, show octetAt (index :: 4 :: (boxOctets b ++ List.replicate 6 0)) 1 = 4 from rfl]
    simp only [readBox_boxOctets index 4 he, Option.map_some]
  | slow b caps =>
    obtain ⟨hb, hcaps⟩ := he
    have hread : readCaps (index :: 5 :: (boxOctets b ++ tri16 caps)) 14 = some caps := by
      rw [readCaps, readCap_of (hcaps caps.x (by simp)) rfl rfl, readCap_of (hcaps caps.y (by simp)) rfl rfl,
        readCap_of (hcaps caps.z (by simp)) rfl rfl]
    rw [readEntry, entryOctets, show octetAt (index :: 5 :: (boxOctets b ++ tri16 caps)) 1 = 5 from rfl]
    simp only [readBox_boxOctets index 5 hb, hread]

/-! ### Headers and profiles (R24, R28, R29) -/

theorem readFlag_yesNo (b : Bool) : readFlag (yesNo b).toNat = some b := by
  cases b <;> rfl

theorem readHeader_headerOctets {h : Header} (hl : h.label < 65536) : readHeader (headerOctets h) = some h := by
  rw [readHeader, show readFlag (octetAt (headerOctets h) 0) = some h.present.a from readFlag_yesNo _,
    show readFlag (octetAt (headerOctets h) 1) = some h.present.b from readFlag_yesNo _, nat16At_ofNat hl rfl rfl]

theorem readSign_signOctet (x : Sign) : readSign (signOctet x).toNat = some x := by
  cases x <;> rfl

theorem signOctet_eq (x : Sign) : signOctet x = if x = .plus then 0 else 1 := by
  cases x <;> rfl

theorem readSign_of {os : List Octet} {i : Nat} {x : Sign} (h : os.getD i 0 = if x = .plus then 0 else 1) :
    readSign (octetAt os i) = some x := by
  rw [octetAt, h, ← signOctet_eq, readSign_signOctet]

/-- A profile within the ranges of its record's widths (R24, R190). -/
structure Profile.Writable (p : Profile) : Prop where
  origin : ∀ q ∈ [p.origin.x, p.origin.y, p.origin.z], -2147483648 ≤ q ∧ q ≤ 2147483647
  words : ∀ v ∈ [p.pitch.x, p.pitch.y, p.pitch.z, p.decel.x, p.decel.y, p.decel.z, p.stepCap.x, p.stepCap.y, p.stepCap.z,
    p.settleWindow], v < 65536
  octets : ∀ v ∈ [p.baseLateral, p.baseBelow, p.baseAbove, p.cadence, p.missLimit, p.softLimit, p.feedbackLimit, p.settleLimit],
    v < 256
  tracking : p.trackingLimit < 16777216

theorem profileOctets_eq {p : Profile} (h : ∀ q ∈ [p.origin.x, p.origin.y, p.origin.z], -2147483648 ≤ q ∧ q ≤ 2147483647) :
    profileOctets p = ([p.origin.x, p.origin.y, p.origin.z].flatMap fun q => octets32 (BitVec.ofInt 32 q))
      ++ ([p.sign.x, p.sign.y, p.sign.z].map fun x => if x = .plus then 0 else 1)
      ++ ([p.pitch.x, p.pitch.y, p.pitch.z, p.decel.x, p.decel.y, p.decel.z, p.stepCap.x, p.stepCap.y, p.stepCap.z].flatMap
        fun v => octets16 (BitVec.ofNat 16 v))
      ++ [octet p.baseLateral, octet p.baseBelow, octet p.baseAbove, octet p.cadence, octet p.missLimit, octet p.softLimit,
        octet p.feedbackLimit, (BitVec.ofNat 24 p.trackingLimit).extractLsb' 16 8, (BitVec.ofNat 24 p.trackingLimit).extractLsb' 8 8,
        (BitVec.ofNat 24 p.trackingLimit).extractLsb' 0 8]
      ++ octets16 (BitVec.ofNat 16 p.settleWindow) ++ [octet p.settleLimit] := by
  rw [profileOctets, count32_eq (h p.origin.x (by simp)), count32_eq (h p.origin.y (by simp)), count32_eq (h p.origin.z (by simp)),
    signOctet_eq, signOctet_eq, signOctet_eq]
  rfl

theorem readProfile_profileOctets (index : Octet) {p : Profile} (hp : p.Writable) :
    readProfile (index :: profileOctets p) 1 = some p := by
  obtain ⟨horigin, hwords, hoctets, htracking⟩ := hp
  have hword {v : Nat} (h : v ∈ [p.pitch.x, p.pitch.y, p.pitch.z, p.decel.x, p.decel.y, p.decel.z, p.stepCap.x, p.stepCap.y,
    p.stepCap.z, p.settleWindow]) := hwords v h
  have hoctet {v : Nat} (h : v ∈ [p.baseLateral, p.baseBelow, p.baseAbove, p.cadence, p.missLimit, p.softLimit, p.feedbackLimit,
    p.settleLimit]) := hoctets v h
  rw [profileOctets_eq horigin, readProfile, readSign_of (x := p.sign.x) rfl, readSign_of (x := p.sign.y) rfl,
    readSign_of (x := p.sign.z) rfl]
  dsimp only
  rw [count32At_of (horigin p.origin.x (by simp)) rfl rfl rfl rfl, count32At_of (horigin p.origin.y (by simp)) rfl rfl rfl rfl,
    count32At_of (horigin p.origin.z (by simp)) rfl rfl rfl rfl, readTri16, readTri16, readTri16,
    nat16At_ofNat (hword (v := p.pitch.x) (by simp)) rfl rfl, nat16At_ofNat (hword (v := p.pitch.y) (by simp)) rfl rfl,
    nat16At_ofNat (hword (v := p.pitch.z) (by simp)) rfl rfl, nat16At_ofNat (hword (v := p.decel.x) (by simp)) rfl rfl,
    nat16At_ofNat (hword (v := p.decel.y) (by simp)) rfl rfl, nat16At_ofNat (hword (v := p.decel.z) (by simp)) rfl rfl,
    nat16At_ofNat (hword (v := p.stepCap.x) (by simp)) rfl rfl, nat16At_ofNat (hword (v := p.stepCap.y) (by simp)) rfl rfl,
    nat16At_ofNat (hword (v := p.stepCap.z) (by simp)) rfl rfl, nat16At_ofNat (hword (v := p.settleWindow) (by simp)) rfl rfl,
    nat24At_ofNat htracking rfl rfl rfl, octetAt_of (hoctet (v := p.baseLateral) (by simp)) rfl,
    octetAt_of (hoctet (v := p.baseBelow) (by simp)) rfl, octetAt_of (hoctet (v := p.baseAbove) (by simp)) rfl,
    octetAt_of (hoctet (v := p.cadence) (by simp)) rfl, octetAt_of (hoctet (v := p.missLimit) (by simp)) rfl,
    octetAt_of (hoctet (v := p.softLimit) (by simp)) rfl, octetAt_of (hoctet (v := p.feedbackLimit) (by simp)) rfl,
    octetAt_of (hoctet (v := p.settleLimit) (by simp)) rfl]

/-! ### Context records (R139 to R142) -/

theorem marginOctets_flatten_length (l : List Margin) : (l.map marginOctets).flatten.length = 2 * l.length := by
  induction l with
  | nil => rfl
  | cons x l ih =>
    rw [List.map_cons, List.flatten_cons, List.length_append, ih, List.length_cons, show (marginOctets x).length = 2 from rfl]
    omega

/-- The entries of a stack record, two octets each from the bottom. -/
theorem marginOctets_flatten_getD (l : List Margin) (rest : List Octet) {i : Nat} (h : i < l.length) :
    ((l.map marginOctets).flatten ++ rest).getD (2 * i) 0 = octet l[i].lateral
      ∧ ((l.map marginOctets).flatten ++ rest).getD (2 * i + 1) 0 = octet l[i].below := by
  induction l generalizing i with
  | nil => cases h
  | cons x l ih =>
    cases i with
    | zero => exact ⟨rfl, rfl⟩
    | succ i => exact ih (Nat.lt_of_succ_lt_succ h)

theorem stackOctets_length {stack : List Margin} (h : stack.length ≤ 8) : (stackOctets stack).length = 16 := by
  simp only [stackOctets, List.length_append, marginOctets_flatten_length, List.length_reverse, List.length_replicate]
  omega

theorem stackOctets_eq (stack : List Margin) : stackOctets stack
    = (stack.reverse.flatMap fun x => [octet x.lateral, octet x.below]) ++ List.replicate (16 - 2 * stack.length) 0 := by
  rw [stackOctets, marginOctets_flatten_length, List.length_reverse, ← List.flatMap_def]
  rfl

theorem contextFault_eq (c : ArmContext) :
    contextFault c = if c.fault.isSome then faultOctets 1 c.fault else faultOctets 2 c.carried := by
  rw [contextFault]
  cases c.fault <;> rfl

theorem faultOctets_length (source : Octet) (f : Option FaultRec) : (faultOctets source f).length = 13 := by
  cases f <;> rfl

theorem contextFault_length (c : ArmContext) : (contextFault c).length = 13 := by
  rw [contextFault_eq]
  split <;> exact faultOctets_length _ _

/-- The fault a context record is saved with: the pending one, else the carried one (R139). -/
def ArmContext.savedFault (c : ArmContext) : Option FaultRec := if c.fault = none then c.carried else c.fault

/-- A context record's fault octets are those of the fault it is saved with, after a source octet 1 or 2. -/
theorem contextFault_saved (c : ArmContext) : ∃ source : Octet, (source = 1 ∨ source = 2) ∧
    contextFault c = faultOctets source c.savedFault := by
  rw [contextFault_eq, ArmContext.savedFault]
  cases c.fault with
  | none => exact ⟨2, .inr rfl, rfl⟩
  | some f => exact ⟨1, .inl rfl, rfl⟩

/-- The octets of a context record before its stack, and after it. -/
def contextTail (c : ArmContext) : List Octet :=
  [yesNo c.softSeen] ++ contextFault c
    ++ [octet c.soft, octet c.miss, octet c.feedback, octet c.settleCount, octet c.settleTimer]

theorem contextOctets_split (c : ArmContext) :
    contextOctets c = octets16 (maskWord c.mask) ++ [octet c.stack.length] ++ stackOctets c.stack ++ contextTail c := by
  simp only [contextOctets, contextTail, List.append_assoc]

theorem contextOctets_length {c : ArmContext} (h : c.stack.length ≤ 8) : (contextOctets c).length = 38 := by
  rw [contextOctets_split]
  simp only [contextTail, List.length_append, stackOctets_length h, contextFault_length]
  rfl

theorem contextOctets_getD_head (c : ArmContext) : (contextOctets c).getD 0 0 = (maskWord c.mask).extractLsb' 8 8
    ∧ (contextOctets c).getD 1 0 = (maskWord c.mask).extractLsb' 0 8 ∧ (contextOctets c).getD 2 0 = octet c.stack.length :=
  ⟨rfl, rfl, rfl⟩

theorem contextOctets_getD_tail {c : ArmContext} (h : c.stack.length ≤ 8) (i : Nat) :
    (contextOctets c).getD (19 + i) 0 = (contextTail c).getD i 0 := by
  have hlen : (octets16 (maskWord c.mask) ++ [octet c.stack.length] ++ stackOctets c.stack).length = 19 := by
    simp only [List.length_append, stackOctets_length h]
    rfl
  rw [contextOctets_split, List.getD_append_right _ _ _ _ (by omega), hlen, Nat.add_sub_cancel_left]

/-- The octets of a saved fault, where it stands in the record. -/
theorem contextOctets_getD_fault {c : ArmContext} (h : c.stack.length ≤ 8) {source : Octet}
    (hs : contextFault c = faultOctets source c.savedFault) {i : Nat} (hi : i < 13) :
    (contextOctets c).getD (20 + i) 0 = (faultOctets source c.savedFault).getD i 0 := by
  rw [show 20 + i = 19 + (1 + i) by omega, contextOctets_getD_tail h, contextTail, hs, List.append_assoc, Nat.add_comm 1 i]
  exact List.getD_append (faultOctets source c.savedFault) _ _ _ (by rw [faultOctets_length]; exact hi)

/-- The entries of a saved stack, where they stand in the record. -/
theorem contextOctets_getD_entry {c : ArmContext} (hc : stackGood c.stack) {i : Nat} (hi : i < c.stack.reverse.length) :
    octetAt (contextOctets c) (3 + 2 * i) = c.stack.reverse[i].lateral
      ∧ octetAt (contextOctets c) (4 + 2 * i) = c.stack.reverse[i].below := by
  obtain ⟨hlateral, hbelow⟩ := hc.2 c.stack.reverse[i] (List.mem_reverse.mp (List.getElem_mem hi))
  obtain ⟨h0, h1⟩ := marginOctets_flatten_getD c.stack.reverse
    (List.replicate (16 - (c.stack.reverse.map marginOctets).flatten.length) 0 ++ contextTail c) hi
  have hget (j : Nat) : (contextOctets c).getD (3 + j) 0
      = ((c.stack.reverse.map marginOctets).flatten
        ++ (List.replicate (16 - (c.stack.reverse.map marginOctets).flatten.length) 0 ++ contextTail c)).getD j 0 := by
    rw [contextOctets_split, stackOctets, Nat.add_comm 3 j, ← List.append_assoc, List.append_assoc]
    rfl
  refine ⟨octetAt_of (by omega) ((hget _).trans h0), octetAt_of (by omega) ?_⟩
  rw [show 4 + 2 * i = 3 + (2 * i + 1) by omega]
  exact (hget _).trans h1

theorem readStack_contextOctets {c : ArmContext} (hc : stackGood c.stack) : readStack (contextOctets c) c.stack.length = c.stack := by
  have hentries : ((List.range c.stack.length).map fun i =>
      (⟨octetAt (contextOctets c) (3 + 2 * i), octetAt (contextOctets c) (4 + 2 * i)⟩ : Margin)) = c.stack.reverse := by
    refine List.ext_getElem (by simp) fun i _ hi => ?_
    obtain ⟨hlateral, hbelow⟩ := contextOctets_getD_entry hc hi
    rw [List.getElem_map, List.getElem_range, hlateral, hbelow]
  rw [readStack, hentries, List.reverse_reverse]

/-- What the octets of a context record say of the fault it was saved with. -/
structure FaultOctetsOf (os : List Octet) (f : FaultRec) : Prop where
  source : os.getD 20 0 = 1 ∨ os.getD 20 0 = 2
  kind : os.getD 21 0 = octet f.kind.code
  also : (os.getD 22 0 ++ os.getD 23 0 : BitVec 16) = f.also
  seq : os.getD 24 0 = f.seq.getD 0
  seqPresent : os.getD 25 0 = yesNo f.seq.isSome
  axis : os.getD 26 0 = axisCode f.axis
  port : os.getD 27 0 = sideCode f.port
  tick : (os.getD 28 0 ++ os.getD 29 0 ++ os.getD 30 0 ++ os.getD 31 0 : BitVec 32) = f.tick
  state : os.getD 32 0 = octet f.state.code

theorem faultOctetsOf_contextOctets {c : ArmContext} {f : FaultRec} (h : c.stack.length ≤ 8) (hf : c.savedFault = some f) :
    FaultOctetsOf (contextOctets c) f := by
  obtain ⟨source, hsource, hs⟩ := contextFault_saved c
  have hget {i : Nat} (hi : i < 13) : (contextOctets c).getD (20 + i) 0 = (faultOctets source (some f)).getD i 0 := by
    rw [contextOctets_getD_fault h hs hi, hf]
  refine ⟨?_, hget (i := 1) (by omega), ?_, hget (i := 4) (by omega), hget (i := 5) (by omega), hget (i := 6) (by omega),
    hget (i := 7) (by omega), ?_, hget (i := 12) (by omega)⟩
  · rw [hget (i := 0) (by omega)]
    exact hsource
  · rw [hget (i := 2) (by omega), hget (i := 3) (by omega)]
    exact octets16_append f.also
  · rw [hget (i := 8) (by omega), hget (i := 9) (by omega), hget (i := 10) (by omega), hget (i := 11) (by omega)]
    exact octets32_append f.tick

theorem contextOctets_noFault {c : ArmContext} (h : c.stack.length ≤ 8) (hf : c.savedFault = none) :
    (contextOctets c).getD 20 0 = 0 := by
  obtain ⟨source, -, hs⟩ := contextFault_saved c
  rw [contextOctets_getD_fault h hs (i := 0) (by omega), hf]
  rfl

/-- A fault record a context record can hold (R141): no kind beyond the fifteen, its own kind not among the others, a port
for LINK_LOSS alone. -/
def FaultRec.Savable (f : FaultRec) : Prop :=
  f.also.getLsbD 15 = false ∧ KindSet.has f.also f.kind = false ∧ (f.port.isSome = true ↔ f.kind = .linkLoss)

theorem FaultKind.code_lt (k : FaultKind) : k.code < 15 := by
  cases k <;> decide

theorem ArmState.code_lt (st : ArmState) : st.code < 7 := by
  cases st <;> decide

theorem axisCode_le (ax : Option Axis) : (axisCode ax).toNat ≤ 3 := by
  rcases ax with _ | ax
  · decide
  · cases ax <;> decide

/-- The port octet of a fault is in range for its kind (R141). -/
theorem sideCode_inRange {f : FaultRec} (h : f.port.isSome = true ↔ f.kind = .linkLoss) :
    ¬(if f.kind.code = 13 then (sideCode f.port).toNat ≠ 1 ∧ (sideCode f.port).toNat ≠ 2 else (sideCode f.port).toNat ≠ 0) := by
  rw [f.kind.eq_linkLoss_iff] at h
  cases hp : f.port with
  | none =>
    rw [hp] at h
    rw [if_neg fun hc => absurd (h.mpr hc) (by decide)]
    decide
  | some side =>
    rw [hp] at h
    rw [if_pos (h.mp rfl)]
    cases side <;> decide

theorem FaultOctetsOf.tests_pass {os : List Octet} {f : FaultRec} (h : FaultOctetsOf os f) (hf : f.Savable) {present : Prop} :
    ∀ t ∈ faultTests os present, ¬t.2 := by
  obtain ⟨h15, hown, hport⟩ := hf
  have hcode : (os.getD 21 0).toNat = f.kind.code := by rw [h.kind, octet_toNat (by have := f.kind.code_lt; omega)]
  have hsource : (os.getD 20 0).toNat ≤ 2 := by rcases h.source with hs | hs <;> rw [hs] <;> decide
  have hseq : (os.getD 25 0).toNat ≤ 1 := by rw [h.seqPresent]; cases f.seq.isSome <;> decide
  have hstate : (os.getD 32 0).toNat ≤ 6 := by
    have := f.state.code_lt
    rw [h.state, octet_toNat (by omega)]
    omega
  have hkind := f.kind.code_lt
  have haxis := axisCode_le f.axis
  have hside := sideCode_inRange hport
  simp only [faultTests, List.forall_mem_cons, hcode, h.also, h.axis, h.port, h15]
  refine ⟨fun hc => ?_, fun hc => ?_, fun hc => ?_, fun hc => ?_, fun hc => ?_, fun hc => hside hc.2, fun hc => ?_,
    fun _ ht => nomatch ht⟩
  · omega
  · omega
  · simp [show f.also.getLsbD f.kind.code = false from hown] at hc
  · omega
  · omega
  · omega

theorem FaultKind.code_injective : Function.Injective FaultKind.code := by
  intro j k h
  have hj := j.all_getElem?
  rw [h, k.all_getElem?] at hj
  exact (Option.some.inj hj).symm

theorem ArmState.code_injective : Function.Injective ArmState.code := by
  intro a b h
  have hread (st : ArmState) : ArmState.ofCode st.code = some st := by cases st <;> rfl
  have ha := hread a
  rw [h, hread b] at ha
  exact (Option.some.inj ha).symm

theorem axisCode_injective : Function.Injective axisCode := by
  intro a b h
  have hread (ax : Option Axis) : readAxis (axisCode ax).toNat = some ax := by
    rcases ax with _ | ax
    · rfl
    · cases ax <;> rfl
  have ha := hread a
  rw [h, hread b] at ha
  exact (Option.some.inj ha).symm

theorem sideCode_injective : Function.Injective sideCode := by
  refine Function.LeftInverse.injective (g := fun o => if o = 1 then some .ctrl else if o = 2 then some .drive else none) fun p => ?_
  rcases p with _ | side
  · rfl
  · cases side <;> rfl

/-- A fault read from a context record is the one it was saved with. -/
theorem FaultOctetsOf.readFault_eq {os : List Octet} {f g : FaultRec} (h : FaultOctetsOf os f) (hg : readFault os = .ok g) : g = f := by
  obtain ⟨hkind, halso, hseq, haxis, hport, htick, hstate⟩ := readFault_ok hg
  rw [h.kind, octet_toNat (by have := f.kind.code_lt; omega)] at hkind
  rw [h.state, octet_toNat (by have := f.state.code_lt; omega)] at hstate
  rw [h.also] at halso
  rw [h.axis] at haxis
  rw [h.port] at hport
  rw [h.tick] at htick
  have hseq' : g.seq = f.seq := by
    rw [hseq, h.seqPresent, h.seq]
    cases f.seq <;> rfl
  obtain ⟨gk, ga, gs, gx, gp, gt, gst⟩ := g
  obtain ⟨fk, fa, fs, fx, fp, ft, fst⟩ := f
  cases FaultKind.code_injective hkind
  cases ArmState.code_injective hstate
  cases axisCode_injective haxis
  cases sideCode_injective hport
  cases halso
  cases htick
  cases hseq'
  rfl

theorem maskOfWord_maskWord (mask : Mask) : maskOfWord (maskWord mask) = mask := by
  simp only [maskOfWord, KindSet.has, maskWord_bit, FaultKind.code]
  simp

/-- A saved context record loads what it was saved with (R139 to R142). -/
theorem readContext_contextOctets {c : ArmContext} (hc : stackGood c.stack)
    (hf : ∀ f : FaultRec, c.savedFault = some f → f.Savable) :
    readContext (contextOctets c) = .ok ⟨c.mask, c.stack, c.softSeen, c.savedFault⟩ := by
  have hlen := hc.1
  have hdepth : ((contextOctets c).getD 2 0).toNat = c.stack.length := octet_toNat (by omega)
  have hsoft : (contextOctets c).getD 19 0 = yesNo c.softSeen := contextOctets_getD_tail hlen 0
  have hfault : ∀ t ∈ faultTests (contextOctets c) (((contextOctets c).getD 20 0).toNat ≠ 0), ¬t.2 := by
    cases hsaved : c.savedFault with
    | none =>
      rw [contextOctets_noFault hlen hsaved]
      simp [faultTests]
    | some f => exact (faultOctetsOf_contextOctets hlen hsaved).tests_pass (hf f hsaved)
  have hpass : ∀ t ∈ contextTests (contextOctets c), ¬t.2 := by
    simp only [contextTests, List.cons_append, List.nil_append, List.forall_mem_cons, hdepth, hsoft]
    refine ⟨by omega, fun ⟨i, hi, hbig⟩ => ?_, by cases c.softSeen <;> decide, hfault⟩
    have hi' : i < c.stack.reverse.length := by rwa [List.length_reverse]
    obtain ⟨hlateral, hbelow⟩ := contextOctets_getD_entry hc hi'
    obtain ⟨h1, h2⟩ := hc.2 _ (List.mem_reverse.mp (List.getElem_mem hi'))
    rw [octetAt] at hlateral hbelow
    omega
  obtain ⟨d, hd⟩ := (readContext_firstFails _).ok_iff.mpr hpass
  obtain ⟨hmask, hstack, hseen, hnone, hsome⟩ := readContext_ok hd
  have hmask' : d.mask = c.mask := by
    rw [hmask, ← maskOfWord_maskWord c.mask]
    exact congrArg maskOfWord (octets16_append _)
  have hstack' : d.stack = c.stack := by rw [hstack, hdepth, readStack_contextOctets hc]
  have hseen' : d.softSeen = c.softSeen := by
    rw [hseen, hsoft]
    cases c.softSeen <;> rfl
  have hfault' : d.fault = c.savedFault := by
    cases hsaved : c.savedFault with
    | none => exact hnone (contextOctets_noFault hlen hsaved)
    | some f =>
      have hof := faultOctetsOf_contextOctets hlen hsaved
      obtain ⟨g, hg, hread⟩ := hsome (by rcases hof.source with hs | hs <;> rw [hs] <;> decide)
      rw [hg, hof.readFault_eq hread]
  rw [hd]
  obtain ⟨dm, ds, dsoft, df⟩ := d
  cases hmask'
  cases hstack'
  cases hseen'
  cases hfault'
  rfl

/-- Settles O46. -/
theorem recordsReadBack : Obligations.RecordsReadBack := by
  refine ⟨fun h => rfl, fun b bays cells caps => ⟨rfl, rfl, rfl, rfl, rfl, rfl⟩, fun p => profileOctets_eq, fun c => ?context,
    fun os e => ?read, fun h => readHeader_headerOctets, fun index e => ?entry,
    fun index p horigin hwords hoctets htracking => readProfile_profileOctets index ⟨horigin, hwords, hoctets, htracking⟩,
    fun c hc hf => ⟨contextOctets_length hc.1, readContext_contextOctets hc fun f hsaved => hf f ?saved⟩⟩
  case context =>
    refine ⟨maskWord c.mask, ?_⟩
    intro fault
    have hfault (source : Octet) (r : Option FaultRec) : faultOctets source r = fault source r := by
      cases r <;> rfl
    refine ⟨?_, maskWord_bit c.mask⟩
    rw [contextOctets, stackOctets_eq, contextFault_eq, hfault, hfault]
    simp only [List.append_assoc]
    rfl
  case read =>
    intro n box h
    have hn (i : Nat) : nat16At os i = n i := nat16At_eq os i
    have hkind (v : Octet) : octetAt os 1 = v.toNat ↔ os.getD 1 0 = v := BitVec.toNat_inj
    have hread := readEntry_eq_some h
    simp only [hn] at hread
    rcases hread with h | h | h | h | h | h
    · exact .inl ⟨(hkind 0).mp h.1, h.2⟩
    · exact .inr (.inl ⟨(hkind 1).mp h.1, h.2⟩)
    · exact .inr (.inr (.inl ⟨(hkind 2).mp h.1, h.2⟩))
    · exact .inr (.inr (.inr (.inl ⟨(hkind 3).mp h.1, h.2⟩)))
    · exact .inr (.inr (.inr (.inr (.inl ⟨(hkind 4).mp h.1, h.2⟩))))
    · exact .inr (.inr (.inr (.inr (.inr ⟨(hkind 5).mp h.1, h.2⟩))))
  case entry =>
    intro coords he
    refine readEntry_entryOctets index ?_
    rcases he with rfl | ⟨a, b, rfl, hb⟩ | ⟨b, bays, cells, rfl, hb, hbays, hcells⟩ | ⟨b, rfl, hb⟩ | ⟨b, caps, rfl, hb, hcaps⟩
    · trivial
    · exact hb
    · exact ⟨hb, hbays, hcells⟩
    · exact hb
    · exact ⟨hb, hcaps⟩
  case saved =>
    rw [ArmContext.savedFault] at hsaved
    split_ifs at hsaved with hnone
    · exact .inr ⟨hnone, hsaved⟩
    · exact .inl hsaved

end Sys2Proof.Machine
end

