-- ==== Sys2Proof/Proofs/Placements.lean ====
section
/-! PROOFS. Placements and box records at the workspace unit, settling CheckedPlacementRule and RecordUpdateRule. -/

namespace Sys2Proof.Machine

/-! ### Renewal of covered cells (R105) -/

theorem Workspace.bin_eq_of_active {w : Workspace} {bank : Bank} (h : w.active = some bank) : w.bin = bank.bin := by
  rw [Workspace.bin, h, Option.bind_some]

/-- The cells of an arm that a box covers, renewed; with no bin there are none. -/
def renewedCells (bin : Option BinGeom) (m : Arm) (box : Box) (now : Tick) (cells : Option (List CellRec)) : Option (List CellRec) :=
  cells.map fun cells => if bin = none then cells else
    mapCells (fun i c => if c.heldBy m ∧ (bin.any fun g => box.meets (g.columnAt i)) then c.renew now else c) 0 cells

theorem Workspace.renewCovered_eq (w : Workspace) (m : Arm) (box : Box) :
    w.renewCovered m box = { w with cells := renewedCells w.bin m box w.tick w.cells } := by
  rw [Workspace.renewCovered, renewedCells]
  cases hbin : w.bin with
  | none => simp only [if_true, Option.map_id']
  | some g => simp only [reduceCtorEq, if_false, Option.any_some, Bool.and_eq_true]

/-- A placement at the workspace unit (R13, R51). -/
theorem Workspace.place_eq (w : Workspace) (m : Arm) (g : Geometry) (e : Envelope) (p p0 s : Tri Int) : w.place m g e p p0 s = { w with
    records := w.records.set m (.motion (reachBox g e p p0 s) (motionBox g p p0 s).limit e),
    cells := renewedCells w.bin m (reachBox g e p p0 s) w.tick w.cells } := by
  rw [Workspace.place, Workspace.renewCovered_eq]
  rfl

/-! ### What the workspace unit reads (R15 to R18, R47 to R50) -/

theorem ZoneEntry.slowCaps_eq_some (b : Box) (e : ZoneEntry) (caps : Tri Nat) :
    ZoneEntry.slowCaps b e = some caps ↔ ∃ box, e = .slow box caps ∧ b.meets box = true := by
  cases e with
  | slow box cs =>
    simp only [ZoneEntry.slowCaps, Option.ite_none_right_eq_some, Option.some.injEq, ZoneEntry.slow.injEq]
    exact ⟨fun ⟨hm, hc⟩ => ⟨box, ⟨rfl, hc⟩, hm⟩, fun ⟨_, ⟨hb, hc⟩, hm⟩ => ⟨hb ▸ hm, hc⟩⟩
  | _ => simp [ZoneEntry.slowCaps]

theorem Bank.mem_forbiddens (bank : Bank) (box : Box) : box ∈ bank.forbiddens ↔ .forbidden box ∈ bank.entries := by
  simp only [Bank.forbiddens, List.mem_filterMap]
  constructor
  · rintro ⟨e, he, hbox⟩
    cases e with
    | forbidden b => cases hbox; exact he
    | _ => cases hbox
  · exact fun h => ⟨_, h, rfl⟩

theorem overSpeed_firstAxis (limit : Tri Nat) (step : Tri Int) (ax : Axis) : (overSpeed limit step).firstAxis = some ax
    ↔ limit.get ax < (step.get ax).natAbs ∧ ∀ prior : Axis, prior.place < ax.place → (step.get prior).natAbs ≤ limit.get prior := by
  have hget (ax : Axis) : (overSpeed limit step).get ax = decide (limit.get ax < (step.get ax).natAbs) := by
    cases ax <;> rfl
  simp only [Tri.firstAxis_eq_some, hget, decide_eq_true_eq, decide_eq_false_iff_not, not_lt]

/-- The column of a cell by its bay and its place in the bay (R16). -/
theorem BinGeom.columnAt_index (g : BinGeom) {bay cell : Nat} (h : cell < g.cells) :
    g.columnAt (bay * g.cells + cell) = g.column bay cell := by
  have hpos : 0 < g.cells := by omega
  rw [BinGeom.columnAt, Nat.mul_comm, Nat.mul_add_div hpos, Nat.mul_add_mod, Nat.div_eq_of_lt h, Nat.mod_eq_of_lt h, Nat.add_zero]

/-! ### CHECKED_PLACEMENT (R46) -/

theorem sendVerdict_setArm (s : State) (m : Arm) (a : ArmUnit) (w : Workspace) (v : Verdict) :
    ((s.setArm m a).setWs w).sendVerdict m v = (s.setArm m { a with verdict := some v }).setWs w := by
  cases m <;> rfl

theorem exec_checkedPlacement_take {m : Arm} {s : State} {pl : Placement} {rest : List ToWorkspace} {bank : Bank}
    (ht : s.wsTakes m (.checked pl) rest) (hb : s.ws.active = some bank) : exec (.checkedPlacement m) s
      = .next ((s.setArm m { s.arm m with toWs := rest, verdict := some (s.ws.checked bank m pl).2 }).setWs
        (s.ws.checked bank m pl).1) := by
  rw [exec_checkedPlacement, execCheckedPlacement, takeFromArm_take ht]
  simp only [State.setArm_ws, hb, Option.getD_some, sendVerdict_setArm]

section Checked

variable {w : Workspace} {bank : Bank} {m : Arm} {pl : Placement}

theorem Workspace.checked_absent (h : w.record m = .absent) : w.checked bank m pl = (w, .absent) := by
  rw [Workspace.checked, h]

theorem Workspace.checked_unknown (h : w.record m = .unknown) : w.checked bank m pl = (w, .unknown) := by
  rw [Workspace.checked, h]

theorem Workspace.checked_placed (ha : w.record m ≠ .absent) (hu : w.record m ≠ .unknown) (hj : w.judgeFor bank m pl = .placed) :
    w.checked bank m pl = (w.place m pl.geom pl.env pl.p pl.p0 pl.step, .placed) := by
  rw [Workspace.checked, hj]
  cases h : w.record m
  case absent => exact absurd h ha
  case unknown => exact absurd h hu
  all_goals rfl

theorem Workspace.checked_failed (ha : w.record m ≠ .absent) (hu : w.record m ≠ .unknown) {kinds : KindSet} {ra sa : Option Axis}
    {now : Tick} (hj : w.judgeFor bank m pl = .failed kinds ra sa now) :
    w.checked bank m pl = (w, .failed kinds ra sa now) := by
  rw [Workspace.checked, hj]
  cases h : w.record m
  case absent => exact absurd h ha
  case unknown => exact absurd h hu
  all_goals rfl

end Checked

/-- Settles O47: the five tests of a reach box are those of the statement, and the judgement is by them. -/
theorem checkedPlacementRule : Obligations.CheckedPlacementRule := by
  intro m s pl rest bank ht hbank b out slow limit fast other space outside forbidden near trespass speeding gives
  have hgives {w : Workspace} {v : Verdict} (h : s.ws.checked bank m pl = (w, v)) : gives w v := by
    have hrun := exec_checkedPlacement_take ht hbank
    rw [h] at hrun
    exact hrun
  have hout : (outsideWorld b).firstAxis.isSome = true ↔ outside := outsideWorld_isSome b
  have hforbidden : violatesForbidden bank b = true ↔ forbidden := violatesForbidden_iff bank b
  have hnear : violatesProximity other b = true ↔ near := violatesProximity_iff other b
  have htrespass : violatesTrespass space b = true ↔ trespass := violatesTrespass_iff space b
  have hspeeding : (overSpeed (bank.speedLimit b pl.caps) pl.step).firstAxis.isSome = true ↔ speeding := overSpeed_isSome limit pl.step
  refine ⟨fun h => hgives (Workspace.checked_absent h), fun h => hgives (Workspace.checked_unknown h),
    fun ha hu => ⟨fun h1 h2 h3 h4 h5 => ?placed, fun h => ?failed⟩, Tri.firstAxis_eq_some _, fun c => ?space,
    overSpeed_firstAxis limit pl.step, rfl, ZoneEntry.slowCaps_eq_some b, bank.mem_forbiddens, binOf_some bank.entries,
    fun now owner lease deadline => ⟨rfl, rfl⟩, fun bin box part env => ⟨rfl, rfl, rfl, rfl⟩,
    fun g i box part env => ⟨rfl, rfl, rfl, rfl⟩, fun g bay cell => g.columnAt_index, fun b c => ?meets⟩
  case placed =>
    have hjudge : s.ws.judgeFor bank m pl = .placed := judge_placed _ _ _ _ _ _ _
      (Bool.eq_false_iff.mpr (mt hout.mp h1)) (Bool.eq_false_iff.mpr (mt hforbidden.mp h2))
      (Bool.eq_false_iff.mpr (mt hnear.mp h3)) (Bool.eq_false_iff.mpr (mt htrespass.mp h4))
      (Bool.eq_false_iff.mpr (mt hspeeding.mp h5))
    have hplaced := hgives (Workspace.checked_placed ha hu hjudge)
    rw [Workspace.place_eq, Workspace.bin_eq_of_active hbank] at hplaced
    exact hplaced
  case failed =>
    rw [← hout, ← hforbidden, ← hnear, ← htrespass, ← hspeeding] at h
    obtain ⟨kinds, hjudge, hkinds⟩ := judge_failed bank other space pl.caps pl.step s.ws.tick b h
    refine ⟨kinds, hgives (Workspace.checked_failed ha hu hjudge), fun k => ?_⟩
    rw [hkinds, hout, hforbidden, hnear, htrespass, hspeeding]
  case space => rw [List.mem_append, mem_homes, mem_heldSpace]
  case meets => simp only [Box.meets_iff, and_assoc]

/-! ### The other writes of a record (R11, R13, R14, R71, R73, R97, R175) -/

theorem BoxRecord.afterRest_eq (r : BoxRecord) (p : Tri Int) (e : Envelope) (g : Geometry) :
    r.afterRest p e g = if r = .absent then .absent else .rest ((pointBox g p).grow e).limit e := by
  cases r <;> rfl

theorem BoxRecord.forgotten_eq (r : BoxRecord) : r.forgotten = if r = .absent then .absent else .unknown := by
  cases r <;> rfl

/-- Settles O48. -/
theorem recordUpdateRule : Obligations.RecordUpdateRule := by
  intro m s rest t record
  refine ⟨fun p p0 step geom old part env ht hr => ?forced, fun p env geom ht => ?rest, fun ht => ?unknown, fun st ht => ?report,
    fun present later ht => ?presence, fun now owner lease deadline => ⟨rfl, rfl⟩⟩
  case forced =>
    intro b
    rw [exec_forcedPlacement, execForcedPlacement, takeFromArm_take ht]
    simp only [State.setArm_ws, hr, Option.getD_some, Workspace.place_eq]
    rfl
  case rest =>
    rw [exec_restUpdate, execRestUpdate, takeFromArm_take ht]
    simp only [State.setArm_ws, Option.getD_some, BoxRecord.afterRest_eq]
    rfl
  case unknown =>
    rw [exec_setRecordUnknown, execSetRecordUnknown, takeFromArm_take ht]
    simp only [State.setArm_ws, Option.getD_some, BoxRecord.forgotten_eq]
    rfl
  case report =>
    rw [exec_stateReport, execStateReport, takeFromArm_take ht]
    rfl
  case presence =>
    rw [exec_headerPresenceReport, execHeaderPresenceReport, ht]

end Sys2Proof.Machine
end

