-- ==== Sys2Proof/Proofs/Claims.lean ====
section
/-! PROOFS. Chapters 5 and 6: claims, the run requests and re-evaluation, settling ClaimGrantedQueuedOrRefused, RunRequestRule and
ReevaluationRule. -/

namespace Sys2Proof.Machine

/-! ### The grant test of a claim (R99 to R101) -/

theorem claimsOf_any_holds (q : List QueueEntry) (m : Arm) (bay c : Nat) :
    ((claimsOf m q).any fun e => e.run.holds bay c) = true
      ↔ ∃ e ∈ q, e.arm = m ∧ e.run.bay = bay ∧ e.run.first ≤ c ∧ c < e.run.first + e.run.length := by
  simp only [claimsOf, List.any_eq_true, List.mem_filter, beq_iff_eq, Run.holds, Bool.and_eq_true, decide_eq_true_eq, and_assoc]

/-- What a grant test for an arm reads, when these claims may not be overtaken (R99). -/
def Workspace.grantView (w : Workspace) (g : BinGeom) (m : Arm) (kept : List QueueEntry) : GrantView :=
  ⟨g, w.record m.other, w.cellList, claimsOf m.other kept⟩

section GrantView

variable {w : Workspace} {g : BinGeom} {m : Arm} {kept : List QueueEntry} {bay c : Nat}

theorem grantView_cause_held (h : (cellAt w.cellList (bay * g.cells + c)).heldBy m.other = true) :
    (w.grantView g m kept).cause m bay c = some .heldByOther := if_pos h

theorem grantView_cause_occupied (h : ¬(cellAt w.cellList (bay * g.cells + c)).heldBy m.other = true)
    (ho : (w.record m.other).covers g (bay * g.cells + c) = true) : (w.grantView g m kept).cause m bay c = some .occupied :=
  (if_neg h).trans (if_pos ho)

theorem grantView_cause_queued (h : ¬(cellAt w.cellList (bay * g.cells + c)).heldBy m.other = true)
    (ho : ¬(w.record m.other).covers g (bay * g.cells + c) = true)
    (hq : ∃ e ∈ kept, e.arm = m.other ∧ e.run.bay = bay ∧ e.run.first ≤ c ∧ c < e.run.first + e.run.length) :
    (w.grantView g m kept).cause m bay c = some .queuedBefore :=
  (if_neg h).trans ((if_neg ho).trans (if_pos ((claimsOf_any_holds kept m.other bay c).mpr hq)))

theorem grantView_cause_none : (w.grantView g m kept).cause m bay c = none
    ↔ ¬(cellAt w.cellList (bay * g.cells + c)).heldBy m.other = true ∧ ¬(w.record m.other).covers g (bay * g.cells + c) = true
      ∧ ¬∃ e ∈ kept, e.arm = m.other ∧ e.run.bay = bay ∧ e.run.first ≤ c ∧ c < e.run.first + e.run.length := by
  rw [GrantView.cause_none, Bool.not_eq_true, Bool.not_eq_true, ← claimsOf_any_holds, List.any_eq_true]
  simp only [not_exists, not_and, Bool.not_eq_true]
  rfl

end GrantView

/-- The cells of a granted run (R100). -/
theorem grantCells_eq (g : BinGeom) (m : Arm) (r : Run) (lease : Nat) (now : Tick) : grantCells g m r lease now
    = mapCells (fun i c => if r.bay * g.cells + r.first ≤ i ∧ i < r.bay * g.cells + r.first + r.length then
        .held m lease (now + BitVec.ofNat 32 lease) else c) 0 := by
  funext cells
  simp only [grantCells, Run.contains_indexes, after]

/-! ### CLAIM (R98, R115) -/

theorem exec_claim_take {m : Arm} {s : State} {r : Request} {rest : List Request} (ht : s.wsTakesRequest m .claim r rest) :
    exec (.claim m) s = .next ((s.setWs (({ s.ws with requests := rest } : Workspace).claim m r.head (readClaim r.args)).1).answer m
      (({ s.ws with requests := rest } : Workspace).claim m r.head (readClaim r.args)).2) := by
  obtain ⟨hr, ha, hn⟩ := ht
  rw [exec_claim, execClaim, takeWsRequest_take hr ha hn]

/-- The wire form of the argument a CLAIM clashes on (R115). -/
theorem clashes_iff (m : Arm) (tag : Octet) (r : Run) (e : QueueEntry) :
    (e.arm == m && (e.tag == tag || e.run.shares r)) = true ↔ e.arm = m ∧ (e.tag = tag ∨ (e.run.bay = r.bay
      ∧ e.run.first < r.first + r.length ∧ r.first < e.run.first + e.run.length)) := by
  simp only [Run.shares, Bool.and_eq_true, Bool.or_eq_true, beq_iff_eq, decide_eq_true_eq, and_assoc]

section Claim

variable {w : Workspace} {bank : Bank} {g : BinGeom} {m : Arm} {h : ReqHead} {c : ClaimArgs}

theorem claimRefusal_noBin {r : Run} {lease : Nat} (hb : w.bin = none) : w.claimRefusal m r lease = some .noBin := by
  rw [Workspace.claimRefusal, hb]
  cases w.active <;> rfl

/-- The refusals of a CLAIM before the grant test, in their order (R98). -/
theorem claimRefusal_eq {r : Run} {lease : Nat} (ha : w.active = some bank) (hb : w.bin = some g) : w.claimRefusal m r lease
    = if bank.present m = false then some .absent
      else if ¬(w.reported.get m = .standby ∨ w.reported.get m = .run) then some .state
      else if ¬(r.bay < g.bays ∧ 1 ≤ r.length ∧ r.length ≤ 16 ∧ r.first + r.length ≤ g.cells ∧ 1 ≤ lease) then some .range
      else none := by
  have hrange : ((!r.inRange g || decide (lease < 1)) = true)
      ↔ ¬(r.bay < g.bays ∧ 1 ≤ r.length ∧ r.length ≤ 16 ∧ r.first + r.length ≤ g.cells ∧ 1 ≤ lease) := by
    rw [Bool.or_eq_true, Bool.not_eq_true', ← Bool.not_eq_true, r.inRange_iff g, decide_eq_true_eq]
    omega
  rw [Workspace.claimRefusal, ha, hb]
  dsimp only
  refine if_congr (by rw [Bool.not_eq_true']) rfl (if_congr ?_ rfl (if_congr hrange rfl rfl))
  rw [not_or]

theorem Workspace.claim_refused {why : Reason} (hr : w.claimRefusal m c.run c.lease = some why) :
    w.claim m h c = (w, answerRefused h why []) := by
  rw [Workspace.claim, hr]

theorem Workspace.claim_granted (hr : w.claimRefusal m c.run c.lease = none) (hb : w.bin = some g)
    (hfree : (w.grantView g m w.queue).blocking m c.run = none) : w.claim m h c = w.grantClaim g m h c := by
  rw [Workspace.grantView] at hfree
  simp only [Workspace.claim, hr, hb, hfree]

theorem Workspace.claim_blocked {b : ClaimCause × Nat} (hr : w.claimRefusal m c.run c.lease = none) (hb : w.bin = some g)
    (hblock : (w.grantView g m w.queue).blocking m c.run = some b) : w.claim m h c
      = if c.wait = 0 then (w, answerRefused h .busy (blockingOctets c.run.bay b)) else w.queueClaim m h c b := by
  rw [Workspace.grantView] at hblock
  simp only [Workspace.claim, hr, hb, hblock]

theorem Workspace.queueClaim_duplicate {b : ClaimCause × Nat} {e : QueueEntry} (hd : duplicateOf m c.tag c.run w.queue = some e) :
    w.queueClaim m h c b = (w, answerRefused h .duplicate [e.tag]) := by
  rw [Workspace.queueClaim, hd]

theorem Workspace.queueClaim_new {b : ClaimCause × Nat} (hd : duplicateOf m c.tag c.run w.queue = none) :
    w.queueClaim m h c b = if 8 ≤ w.queue.length then (w, answerRefused h .queueFull [])
      else if 4 ≤ w.quotaUse m then (w, answerRefused h .quota [octet (queuedOf m w.queue), octet (w.outcomeCount.get m)])
      else ({ w with queue := w.queue ++ [⟨m, c.tag, c.run, c.lease, after w.tick c.wait⟩] },
        ⟨h, .queued, none, [c.tag] ++ runOctets c.run ++ blockingOctets c.run.bay b ++ octets32 (after w.tick c.wait)
          ++ [octet (w.queue.length + 1)]⟩) := by
  rw [Workspace.queueClaim, hd]

end Claim

theorem duplicateOf_eq_some {m : Arm} {tag : Octet} {r : Run} {q pre post : List QueueEntry} {e : QueueEntry}
    (hq : q = pre ++ e :: post) (he : (e.arm == m && (e.tag == tag || e.run.shares r)) = true)
    (hpre : ∀ x ∈ pre, ¬(x.arm == m && (x.tag == tag || x.run.shares r)) = true) : duplicateOf m tag r q = some e := by
  rw [duplicateOf, List.find?_eq_some_iff_append]
  exact ⟨he, pre, post, hq, fun x hx => Bool.not_eq_true' _ ▸ Bool.eq_false_iff.mpr (hpre x hx)⟩

/-- Settles O49: the grant test cell by cell, and each branch of the claim by its conditions. -/
theorem claimGrantedQueuedOrRefused : Obligations.ClaimGrantedQueuedOrRefused := by
  refine ⟨rfl, fun m s r rest ht => ?_⟩
  intro w run lease wait tag gives refuse
  have hgives {v : Workspace} {ans : Answer} (hc : w.claim m r.head (readClaim r.args) = (v, ans)) : gives v ans := by
    have hrun := exec_claim_take ht
    rw [show ({ s.ws with requests := rest } : Workspace).claim m r.head (readClaim r.args) = (v, ans) from hc] at hrun
    exact hrun
  refine ⟨fun hb => hgives (Workspace.claim_refused (claimRefusal_noBin hb)), fun bank g hactive hbin => ?_⟩
  intro able ranged index held occupied queued mine free
  have hrefusal := claimRefusal_eq (m := m) (r := run) (lease := lease) hactive hbin
  have hpass (hp : bank.present m = true) (ha : able) (hr : ranged) : w.claimRefusal m run lease = none := by
    rw [hrefusal, if_neg (by simp [hp]), if_neg (not_not_intro ha), if_neg (not_not_intro hr)]
  have hcause (c : Nat) : (w.grantView g m w.queue).cause m run.bay c = none ↔ free c := grantView_cause_none
  refine ⟨fun hp => hgives (Workspace.claim_refused ?_), fun hp ha => hgives (Workspace.claim_refused ?_),
    fun hp ha hr => hgives (Workspace.claim_refused ?_), fun hp ha hr hfree => ?granted,
    fun c cause hp ha hr hc hbefore hwhy => ?blocked⟩
  · exact hrefusal.trans (if_pos hp)
  · exact hrefusal.trans ((if_neg (by simp [hp])).trans (if_pos ha))
  · exact hrefusal.trans ((if_neg (by simp [hp])).trans ((if_neg (not_not_intro ha)).trans (if_pos hr)))
  case granted =>
    have hblock : (w.grantView g m w.queue).blocking m run = none :=
      (GrantView.blocking_none _ m run).mpr fun c hc => (hcause c).mpr (hfree c hc)
    have hgranted := Workspace.claim_granted (h := r.head) (c := readClaim r.args) (hpass hp ha hr) hbin hblock
    rw [Workspace.grantClaim, grantCells_eq] at hgranted
    exact hgives hgranted
  case blocked =>
    intro blocking clashes claims
    have hcell : (w.grantView g m w.queue).cause m run.bay c = some cause := by
      rcases hwhy with ⟨h1, rfl⟩ | ⟨h1, h2, rfl⟩ | ⟨h1, h2, h3, rfl⟩
      · exact grantView_cause_held h1
      · exact grantView_cause_occupied h1 h2
      · exact grantView_cause_queued h1 h2 h3
    have hblock : (w.grantView g m w.queue).blocking m run = some (cause, c) :=
      GrantView.blocking_some _ m run c cause hc hcell fun j hj hjc => (hcause j).mpr (hbefore j ⟨hj, by have := hc.2; omega⟩ hjc)
    have hblocked := Workspace.claim_blocked (h := r.head) (c := readClaim r.args) (hpass hp ha hr) hbin hblock
    have hwaits (hw : 1 ≤ wait) : w.claim m r.head (readClaim r.args) = w.queueClaim m r.head (readClaim r.args) (cause, c) :=
      hblocked.trans (if_neg (by change ¬wait = 0; omega))
    have hclash (e : QueueEntry) : (e.arm == m && (e.tag == tag || e.run.shares run)) = true ↔ clashes e := clashes_iff m tag run e
    have hnew (hw : 1 ≤ wait) (hq : ∀ e ∈ w.queue, ¬clashes e) : w.claim m r.head (readClaim r.args) = _ :=
      (hwaits hw).trans (Workspace.queueClaim_new (List.find?_eq_none.mpr fun e he => mt (hclash e).mp (hq e he)))
    refine ⟨fun hw => hgives (hblocked.trans (if_pos hw)), fun pre post e hw hq he hpre => hgives ?_, fun hw hq hfull => hgives ?_,
      fun hw hq hroom hquota => hgives ?_, fun hw hq hroom hquota => hgives ?_⟩
    · exact (hwaits hw).trans (Workspace.queueClaim_duplicate (duplicateOf_eq_some hq ((hclash e).mpr he)
        fun x hx => mt (hclash x).mp (hpre x hx)))
    · exact (hnew hw hq).trans (if_pos hfull)
    · exact (hnew hw hq).trans ((if_neg (Nat.not_le.mpr hroom)).trans (if_pos hquota))
    · exact (hnew hw hq).trans ((if_neg (Nat.not_le.mpr hroom)).trans (if_neg (Nat.not_le.mpr hquota)))

/-! ### Requests about a run (R102, R103) -/

theorem Run.cellNumbers_find?_some {r : Run} {p : Nat → Bool} {c : Nat} (hc : r.first ≤ c ∧ c < r.first + r.length) (hp : p c = true)
    (hbefore : ∀ j, r.first ≤ j ∧ j < r.first + r.length → j < c → p j = false) : r.cellNumbers.find? p = some c := by
  refine List.find?_eq_some_iff_getElem.mpr ⟨hp, c - r.first, by simp [Run.cellNumbers]; omega, ?_, fun j hj => ?_⟩
  · simp [Run.cellNumbers]
    omega
  · have := hbefore (r.first + j) (by omega) (by omega)
    simp [Run.cellNumbers, this]

theorem Run.cellNumbers_find?_none {r : Run} {p : Nat → Bool} (h : ∀ c, r.first ≤ c ∧ c < r.first + r.length → p c = false) :
    r.cellNumbers.find? p = none := by
  simp only [List.find?_eq_none, Run.mem_cellNumbers, Bool.not_eq_true]
  exact h

section RunRequest

variable {w : Workspace} {g : BinGeom} {m : Arm} {h : ReqHead} {r : Run} {cells : List CellRec} {k : BinGeom → Workspace × Answer}

theorem Workspace.withRun_noTable (hc : w.cells = none) : w.withRun h r k = (w, answerRefused h .noBin []) := by
  rw [Workspace.withRun, hc]

theorem Workspace.withRun_eq (hc : w.cells = some cells) (hb : w.bin = some g) : w.withRun h r k
    = if r.bay < g.bays ∧ 1 ≤ r.length ∧ r.length ≤ 16 ∧ r.first + r.length ≤ g.cells then k g else (w, answerRefused h .range []) := by
  rw [Workspace.withRun, hc, hb]
  exact if_congr (r.inRange_iff g) rfl rfl

theorem Workspace.firstNotHeld_some {c : Nat} (hc : r.first ≤ c ∧ c < r.first + r.length)
    (hn : ¬(cellAt w.cellList (r.bay * g.cells + c)).heldBy m = true)
    (hbefore : ∀ j, r.first ≤ j ∧ j < r.first + r.length → j < c → (cellAt w.cellList (r.bay * g.cells + j)).heldBy m = true) :
    w.firstNotHeld g m r = some c :=
  Run.cellNumbers_find?_some hc (by simpa [BinGeom.index] using hn) fun j hj hjc => by simpa [BinGeom.index] using hbefore j hj hjc

theorem Workspace.firstNotHeld_none
    (hh : ∀ c, r.first ≤ c ∧ c < r.first + r.length → (cellAt w.cellList (r.bay * g.cells + c)).heldBy m = true) :
    w.firstNotHeld g m r = none :=
  Run.cellNumbers_find?_none fun c hc => by simpa [BinGeom.index] using hh c hc

theorem Workspace.firstInUse_some {c : Nat} (hc : r.first ≤ c ∧ c < r.first + r.length)
    (hu : (w.record m).covers g (r.bay * g.cells + c) = true)
    (hbefore : ∀ j, r.first ≤ j ∧ j < r.first + r.length → j < c → ¬(w.record m).covers g (r.bay * g.cells + j) = true) :
    w.firstInUse g m r = some c :=
  Run.cellNumbers_find?_some hc hu fun j hj hjc => Bool.eq_false_iff.mpr (hbefore j hj hjc)

theorem Workspace.firstInUse_none
    (hu : ∀ c, r.first ≤ c ∧ c < r.first + r.length → ¬(w.record m).covers g (r.bay * g.cells + c) = true) :
    w.firstInUse g m r = none :=
  Run.cellNumbers_find?_none fun c hc => Bool.eq_false_iff.mpr (hu c hc)

/-- A change of the cells of a run, by the interval of their single indexes. -/
theorem mapCells_run (f : CellRec → CellRec) (cells : List CellRec) :
    mapCells (fun i c => if (r.indexes g).contains i then f c else c) 0 cells
      = mapCells (fun i c => if r.bay * g.cells + r.first ≤ i ∧ i < r.bay * g.cells + r.first + r.length then f c else c) 0 cells := by
  simp only [Run.contains_indexes]

theorem Run.map_indexes {α : Type} (r : Run) (g : BinGeom) (f : Nat → α) :
    (r.indexes g).map f = (List.range r.length).map fun j => f (r.bay * g.cells + (r.first + j)) := by
  simp only [Run.indexes, Run.cellNumbers, List.map_map]
  rfl

end RunRequest

section Taken

variable {m : Arm} {s : State} {r : Request} {rest : List Request}

theorem exec_renew_take (ht : s.wsTakesRequest m .renew r rest) :
    let out := ({ s.ws with requests := rest } : Workspace).renew m r.head (readRun r.args) (octetAt r.args 3)
    exec (.renew m) s = .next ((s.setWs out.1).answer m out.2) := by
  obtain ⟨hr, ha, hn⟩ := ht
  rw [exec_renew, execRenew, takeWsRequest_take hr ha hn]

theorem exec_cancel_take (ht : s.wsTakesRequest m .cancel r rest) :
    let out := ({ s.ws with requests := rest } : Workspace).cancel m r.head (r.args.getD 0 0)
    exec (.cancel m) s = .next ((s.setWs out.1).answer m out.2) := by
  obtain ⟨hr, ha, hn⟩ := ht
  rw [exec_cancel, execCancel, takeWsRequest_take hr ha hn]

theorem exec_cellRead_take (ht : s.wsTakesRequest m .cellRead r rest) :
    let w : Workspace := { s.ws with requests := rest }
    exec (.cellRead m) s = .next ((s.setWs w).answer m (w.readCells r.head (octetAt r.args 0))) := by
  obtain ⟨hr, ha, hn⟩ := ht
  rw [exec_cellRead, execCellRead, takeWsRequest_take hr ha hn]

theorem takeNewFromWs_of_ws {t : State} {v : Workspace} {before : PerArm (List ToPort)} {n : Arm}
    (h : t.ws.toPort.get n = v.toPort.get n) : t.takeNewFromWs before n
      = if (before.get n).length < (v.toPort.get n).length then t.takeAllFromWs n else t := by
  rw [State.takeNewFromWs, h]

/-- A RELEASE, and the ports that take the outcomes it made (R103). -/
theorem exec_release_take (ht : s.wsTakesRequest m .release r rest) {v : Workspace} {ans : Answer}
    (hout : ({ s.ws with requests := rest } : Workspace).release m r.head (readRun r.args) = (v, ans)) :
    let enters (t : State) (n : Arm) : State :=
      if (s.ws.toPort.get n).length < (v.toPort.get n).length then t.takeAllFromWs n else t
    exec (.release m) s = .next (enters (enters ((s.setWs v).answer m ans) .armA) .armB) := by
  intro enters
  obtain ⟨hr, ha, hn⟩ := ht
  have hA : ((s.setWs v).answer m ans).takeNewFromWs s.ws.toPort .armA = enters ((s.setWs v).answer m ans) .armA :=
    takeNewFromWs_of_ws rfl
  have hB : (enters ((s.setWs v).answer m ans) .armA).ws.toPort.get .armB = v.toPort.get .armB := by
    by_cases h : (s.ws.toPort.get .armA).length < (v.toPort.get .armA).length
    · rw [show enters ((s.setWs v).answer m ans) .armA = ((s.setWs v).answer m ans).takeAllFromWs .armA from if_pos h]
      rfl
    · rw [show enters ((s.setWs v).answer m ans) .armA = (s.setWs v).answer m ans from if_neg h]
      rfl
  rw [exec_release, execRelease, takeWsRequest_take hr ha hn, hout]
  dsimp only
  rw [hA, takeNewFromWs_of_ws hB]

/-- A RELEASE that leaves the workspace unit as it was hands no port anything. -/
theorem exec_release_unchanged (ht : s.wsTakesRequest m .release r rest) {ans : Answer}
    (hout : ({ s.ws with requests := rest } : Workspace).release m r.head (readRun r.args) = ({ s.ws with requests := rest }, ans)) :
    exec (.release m) s = .next ((s.setWs { s.ws with requests := rest }).answer m ans) := by
  exact (exec_release_take ht hout).trans (congrArg Host.Outcome.next ((if_neg (lt_irrefl _)).trans (if_neg (lt_irrefl _))))

end Taken

/-! ### Re-evaluation (R117, R118, R126) -/

section Walk

variable {w : Workspace} {g : BinGeom} {kept rest : List QueueEntry} {e : QueueEntry}

/-- A queued claim is grantable when every cell of its run is free to it. -/
theorem Workspace.grantable_iff : w.grantable g kept e = true ↔ ∀ c, e.run.first ≤ c ∧ c < e.run.first + e.run.length →
    (cellAt w.cellList (e.run.bay * g.cells + c)).heldBy e.arm.other = false
      ∧ (w.record e.arm.other).covers g (e.run.bay * g.cells + c) = false
      ∧ ∀ x ∈ kept, x.arm = e.arm.other → x.run.bay = e.run.bay → ¬(x.run.first ≤ c ∧ c < x.run.first + x.run.length) := by
  have hblock : w.grantable g kept e = true ↔ (w.grantView g e.arm kept).blocking e.arm e.run = none := Option.isNone_iff_eq_none
  rw [hblock, GrantView.blocking_none]
  refine forall₂_congr fun c _ => ?_
  rw [grantView_cause_none, Bool.not_eq_true, Bool.not_eq_true]
  simp only [not_exists, not_and]

theorem Workspace.walk_granted (h : w.grantable g kept e = true) : Workspace.walk g kept w (e :: rest) = Workspace.walk g kept { w with
    cells := w.cells.map (mapCells (fun i c => if e.run.bay * g.cells + e.run.first ≤ i
      ∧ i < e.run.bay * g.cells + e.run.first + e.run.length then .held e.arm e.lease (w.tick + BitVec.ofNat 32 e.lease) else c) 0),
    toPort := w.toPort.set e.arm (w.toPort.get e.arm ++ [.outcome ⟨e.tag, .granted, e.run⟩]),
    outcomeCount := w.outcomeCount.set e.arm (w.outcomeCount.get e.arm + 1) } rest := by
  rw [Workspace.walk, if_pos h, grantCells_eq]
  rfl

theorem Workspace.walk_kept (h : ¬w.grantable g kept e = true) :
    Workspace.walk g kept w (e :: rest) = Workspace.walk g (kept ++ [e]) w rest := if_neg h

end Walk

/-- Settles O52. -/
theorem reevaluationRule : Obligations.ReevaluationRule := by
  refine ⟨fun w hb => ?_, fun w g hb => ?_, fun w g kept => rfl, fun w g kept e rest => ?_, fun m s rest ht => ?_⟩
  · rw [Workspace.reevaluate, hb]
  · rw [Workspace.reevaluate, hb]
  · intro index mine free
    refine ⟨fun h => Workspace.walk_granted (Workspace.grantable_iff.mpr h), fun ⟨c, hc, hfree⟩ => ?_⟩
    exact Workspace.walk_kept fun hg => hfree (Workspace.grantable_iff.mp hg c hc)
  · intro t w
    have hremoved : t.ws.removeClaims m = w := by
      have hfilter : (fun e : QueueEntry => !(e.arm == m)) = fun e => decide (e.arm ≠ m) := by
        funext e
        rw [decide_not, beq_eq_decide]
      rw [Workspace.removeClaims, hfilter]
      cases m <;> rfl
    refine ⟨?_, ?_⟩
    · rw [exec_claimRemoval, execClaimRemoval, takeFromArm_take ht]
      exact congrArg (fun v => Host.Outcome.next (t.setWs v)) hremoved
    · rw [← hremoved, removeClaims_toPort, takeAllFromWs_ws, PerArm.get_set_same, List.nil_append]

/-! ### The obligation about run requests (R102 to R104, R122) -/

theorem bool_toNat_eq_ite (b : Bool) : b.toNat = if b then 1 else 0 := by
  cases b <;> rfl

theorem remaining_eq (now deadline : Tick) :
    remaining now deadline = if 0 ≤ (now - deadline).toInt then 0 else (deadline - now).toNat := by
  rw [remaining, reached]
  exact if_congr decide_eq_true_iff rfl rfl

/-- A cell's record in CELL_READ data (R104, R190). -/
theorem Workspace.cellOctets_eq (w : Workspace) (g : BinGeom) (i : Nat) :
    let cover (n : Arm) : Nat := if (w.record n).covers g i then 1 else 0
    (cellAt w.cellList i = .free → w.cellOctets g i = [octet (4 * cover .armA + 8 * cover .armB), 0, 0])
      ∧ ∀ (owner : Arm) (lease : Nat) (deadline : Tick), cellAt w.cellList i = .held owner lease deadline →
        w.cellOctets g i = [octet (1 + (if owner = .armB then 2 else 0) + 4 * cover .armA + 8 * cover .armB), octet lease,
          octet (if 0 ≤ (w.tick - deadline).toInt then 0 else (deadline - w.tick).toNat)] := by
  intro cover
  refine ⟨fun h => ?_, fun owner lease deadline h => ?_⟩
  · simp only [Workspace.cellOctets, h, bool_toNat_eq_ite]
    rfl
  · simp only [Workspace.cellOctets, h, bool_toNat_eq_ite, remaining_eq]
    cases owner <;> rfl

/-- The queue without a claim found in it, when no other entry has its arm and tag. -/
theorem filter_of_unique {m : Arm} {tag : Octet} {pre post : List QueueEntry} {e : QueueEntry} (hm : e.arm = m) (ht : e.tag = tag)
    (hother : ∀ x ∈ pre ++ post, ¬(x.arm = m ∧ x.tag = tag)) :
    (pre ++ e :: post).filter (fun x => !(x.arm == m && x.tag == tag)) = pre ++ post := by
  have hkeep (l : List QueueEntry) (hl : ∀ x ∈ l, ¬(x.arm = m ∧ x.tag = tag)) :
      l.filter (fun x => !(x.arm == m && x.tag == tag)) = l :=
    List.filter_eq_self.mpr fun x hx => by
      rw [Bool.not_eq_true', ← Bool.not_eq_true, Bool.and_eq_true, beq_iff_eq, beq_iff_eq]
      exact hl x hx
  rw [List.filter_append, List.filter_cons_of_neg (by simp [hm, ht]), hkeep pre fun x hx => hother x (List.mem_append_left _ hx),
    hkeep post fun x hx => hother x (List.mem_append_right _ hx)]

/-- Settles O50. -/
theorem runRequestRule : Obligations.RunRequestRule := by
  refine ⟨fun m s r rest => ?requests, fun lease now owner old deadline => ⟨rfl, rfl, rfl⟩, Workspace.cellOctets_eq⟩
  intro w run lease gives refuse
  refine ⟨fun hnone => ⟨fun ht => ?_, fun ht => ?_, fun ht => ?_, fun ht => ?_⟩, fun cells g hcells hbin => ?table⟩
  · have hout : w.renew m r.head (readRun r.args) (octetAt r.args 3) = (w, answerRefused r.head .noBin []) :=
      Workspace.withRun_noTable hnone
    exact (exec_renew_take ht).trans (congrArg (fun out => Host.Outcome.next ((s.setWs out.1).answer m out.2)) hout)
  · exact exec_release_unchanged ht (Workspace.withRun_noTable hnone)
  · have hout : w.cancel m r.head (r.args.getD 0 0) = (w, answerRefused r.head .noBin []) := by rw [Workspace.cancel, hnone]
    exact (exec_cancel_take ht).trans (congrArg (fun out => Host.Outcome.next ((s.setWs out.1).answer m out.2)) hout)
  · have hout : w.readCells r.head (octetAt r.args 0) = answerRefused r.head .noBin [] := by rw [Workspace.readCells, hnone]
    exact (exec_cellRead_take ht).trans (congrArg (fun ans => Host.Outcome.next ((s.setWs w).answer m ans)) hout)
  intro ranged index mine held covered
  have hlist : w.cellList = cells := by rw [Workspace.cellList, hcells, Option.getD_some]
  have hheld (c : Nat) : (cellAt w.cellList (run.bay * g.cells + c)).heldBy m = true ↔ held c := by rw [hlist]
  refine ⟨fun ht => ?renew, fun ht => ?release, fun ht => ?cancel, fun ht => ?cellRead⟩
  case renew =>
    have hgives {v : Workspace} {ans : Answer} (hout : w.renew m r.head run lease = (v, ans)) : gives (.renew m) v ans :=
      (exec_renew_take ht).trans (congrArg (fun out => Host.Outcome.next ((s.setWs out.1).answer m out.2)) hout)
    have hrun : w.renew m r.head run lease = _ := Workspace.withRun_eq hcells hbin
    refine ⟨fun hr => hgives (hrun.trans (if_neg hr)), fun c hr hc hn hbefore => hgives (hrun.trans ((if_pos hr).trans ?_)),
      fun hr hall => ?_⟩
    · rw [Workspace.firstNotHeld_some hc (mt (hheld c).mp hn) fun j hj hjc => (hheld j).mpr (hbefore j hj hjc)]
    · intro renewed
      refine hgives (hrun.trans ((if_pos hr).trans ?_))
      rw [Workspace.firstNotHeld_none fun c hc => (hheld c).mpr (hall c hc), hlist, mapCells_run]
      dsimp only
      rw [Run.map_indexes]
      rfl
  case release =>
    have hrun : w.release m r.head run = _ := Workspace.withRun_eq hcells hbin
    have hrefuse {why : Reason} {data : List Octet} (hout : w.release m r.head run = (w, answerRefused r.head why data)) :
        refuse (.release m) why data := exec_release_unchanged ht hout
    have hnone (hall : ∀ j, mine j → held j) : w.firstNotHeld g m run = none :=
      Workspace.firstNotHeld_none fun c hc => (hheld c).mpr (hall c hc)
    refine ⟨fun hr => hrefuse (hrun.trans (if_neg hr)), fun c hr hc hn hbefore => hrefuse (hrun.trans ((if_pos hr).trans ?_)),
      fun c hr hall hc hu hbefore => hrefuse (hrun.trans ((if_pos hr).trans ?_)), fun hr hall hclear => ?_⟩
    · rw [Workspace.firstNotHeld_some hc (mt (hheld c).mp hn) fun j hj hjc => (hheld j).mpr (hbefore j hj hjc)]
    · rw [hnone hall, Workspace.firstInUse_some hc hu hbefore]
    · intro v enters
      refine exec_release_take ht (v := v) (hrun.trans ((if_pos hr).trans ?_))
      rw [hnone hall, Workspace.firstInUse_none hclear]
      dsimp only
      rw [hlist, mapCells_run fun _ => .free]
  case cancel =>
    intro tag
    have hgives {v : Workspace} {ans : Answer} (hout : w.cancel m r.head tag = (v, ans)) : gives (.cancel m) v ans :=
      (exec_cancel_take ht).trans (congrArg (fun out => Host.Outcome.next ((s.setWs out.1).answer m out.2)) hout)
    have hmatch (x : QueueEntry) : (x.arm == m && x.tag == tag) = true ↔ x.arm = m ∧ x.tag = tag := by simp
    refine ⟨fun hnotfound => hgives ?_, fun pre post e hq hm htag hother => hgives ?_⟩
    · have hfind : w.queue.find? (fun e => e.arm == m && e.tag == tag) = none :=
        List.find?_eq_none.mpr fun x hx => mt (hmatch x).mp (hnotfound x hx)
      rw [Workspace.cancel, hcells]
      dsimp only
      rw [hfind]
    · have hfind : w.queue.find? (fun e => e.arm == m && e.tag == tag) = some e :=
        List.find?_eq_some_iff_append.mpr ⟨(hmatch e).mpr ⟨hm, htag⟩, pre, post, hq, fun x hx =>
          Bool.not_eq_true' _ ▸ Bool.eq_false_iff.mpr (mt (hmatch x).mp (hother x (List.mem_append_left _ hx)))⟩
      rw [Workspace.cancel, hcells]
      dsimp only
      rw [hfind, hq, filter_of_unique hm htag hother]
      rfl
  case cellRead =>
    intro bay
    have hgives {ans : Answer} (hout : w.readCells r.head bay = ans) : gives (.cellRead m) w ans :=
      (exec_cellRead_take ht).trans (congrArg (fun ans => Host.Outcome.next ((s.setWs w).answer m ans)) hout)
    have hread : w.readCells r.head bay = if bay < g.bays then
        answerOk r.head (octets32 w.tick ++ [octet w.scan, octet g.bays, octet g.cells]
          ++ ((List.range g.cells).map fun c => w.cellOctets g (bay * g.cells + c)).flatten)
      else answerRefused r.head .range [] := by
      rw [Workspace.readCells, hcells, hbin]
      rfl
    exact ⟨fun hb => hgives (hread.trans (if_neg (Nat.not_lt.mpr hb))), fun hb => hgives (hread.trans (if_pos hb))⟩

end Sys2Proof.Machine
end

