-- ==== Sys2Proof/Proofs/Leases.lean ====
section
/-! PROOFS. The lease tick, settling LeaseTickRule. -/

namespace Sys2Proof.Machine

/-! ### The scan visit (R107) -/

/-- What the lease tick raises for the cell with a single index (R107). -/
def lapseRaiseAt (w : Workspace) (g : BinGeom) (cells : List CellRec) (i : Nat) : List Raise :=
  if w.visits g i && w.lapses g i (cellAt cells i) then lapseRaise g w.tick i (cellAt cells i) else []

theorem lapseRaises_flatMap (w : Workspace) (g : BinGeom) (cells : List CellRec) :
    w.lapseRaises g 0 cells = (List.range cells.length).flatMap (lapseRaiseAt w g cells) := by
  simp only [lapseRaises_eq, Nat.zero_add]
  rfl

theorem cellAt_of_getElem? {cells : List CellRec} {i : Nat} {c : CellRec} (h : cells[i]? = some c) : cellAt cells i = c := by
  rw [cellAt, List.getD_eq_getElem?_getD, h, Option.getD_some]

/-- A cell raises where it is HELD, visited, outside its owner's box and past its deadline, and nowhere else. -/
theorem lapseRaiseAt_lapses {w : Workspace} {g : BinGeom} {cells : List CellRec} {i : Nat} {owner : Arm} {lease : Nat} {d : Tick}
    (hc : cells[i]? = some (.held owner lease d)) (hv : i / g.cells = w.scan) (ho : (w.record owner).covers g i = false)
    (hr : reached w.tick d = true) :
    lapseRaiseAt w g cells i = [⟨owner, .leaseLapsed, .leaseLapsed (i / g.cells) (i % g.cells) lease w.tick⟩] := by
  rw [lapseRaiseAt, cellAt_of_getElem? hc, if_pos]
  · rfl
  · simp [Workspace.visits, Workspace.lapses, hv, ho, hr]

theorem lapseRaiseAt_none {w : Workspace} {g : BinGeom} {cells : List CellRec} {i : Nat}
    (h : ¬∃ owner lease d, cells[i]? = some (.held owner lease d) ∧ i / g.cells = w.scan ∧ (w.record owner).covers g i = false
      ∧ reached w.tick d = true) : lapseRaiseAt w g cells i = [] := by
  rw [lapseRaiseAt, if_neg]
  intro hlapse
  rw [Bool.and_eq_true] at hlapse
  obtain ⟨hv, hl⟩ := hlapse
  cases hc : cellAt cells i with
  | free => simp [hc, Workspace.lapses] at hl
  | held owner lease d =>
    simp only [hc, Workspace.lapses, Bool.and_eq_true, Bool.not_eq_true'] at hl
    refine h ⟨owner, lease, d, ?_, of_decide_eq_true hv, hl.1, hl.2⟩
    cases hget : cells[i]? with
    | none => simp [cellAt, List.getD_eq_getElem?_getD, hget] at hc
    | some c => rw [cellAt_of_getElem? hget] at hc; rw [hc]

/-- The lease tick raises something exactly where some cell lapses. -/
theorem lapseRaises_isEmpty {w : Workspace} {g : BinGeom} {cells : List CellRec} :
    (w.lapseRaises g 0 cells).isEmpty = false ↔ ∃ i owner lease d, cells[i]? = some (.held owner lease d) ∧ i / g.cells = w.scan
      ∧ (w.record owner).covers g i = false ∧ reached w.tick d = true := by
  rw [← Bool.not_eq_true, List.isEmpty_iff, List.eq_nil_iff_forall_not_mem]
  simp only [mem_lapseRaises, Nat.zero_add, not_forall, not_not]
  exact ⟨fun ⟨_, i, owner, lease, d, hc, hv, ho, hr, _⟩ => ⟨i, owner, lease, d, hc, hv, ho, hr⟩,
    fun ⟨i, owner, lease, d, hc, hv, ho, hr⟩ => ⟨_, i, owner, lease, d, hc, hv, ho, hr, rfl⟩⟩

/-! ### The tick in its parts (R106 to R108, R120) -/

theorem Workspace.scanVisit_eq {w : Workspace} {g : BinGeom} {cells : List CellRec} (hc : w.cells = some cells) : w.scanVisit g = { w with
    cells := some (mapCells (fun i c => if i / g.cells = w.scan then w.visitCell g i c else c) 0 cells),
    raises := w.raises ++ (List.range cells.length).flatMap (lapseRaiseAt w g cells) } := by
  rw [Workspace.scanVisit, Workspace.cellList, hc, Option.getD_some, lapseRaises_flatMap, Option.map_some]
  simp only [Workspace.visits, decide_eq_true_eq]

/-- Wait expiry and the scan pointer's advance (R108, R120), at a tick and a scan pointer named. -/
theorem Workspace.expireWaits_advanceScan {w : Workspace} {now : Tick} {scan : Nat} (g : BinGeom) (ht : w.tick = now) (hs : w.scan = scan) :
    let expiring := w.queue.filter fun e => reached now e.deadline
    let outcomes (n : Arm) : List ToPort := (expiring.filter fun e => e.arm == n).map fun e => .outcome ⟨e.tag, .waitExpired, e.run⟩
    w.expireWaits.advanceScan g = { w with
      queue := w.queue.filter fun e => !reached now e.deadline,
      toPort := ⟨w.toPort.a ++ outcomes .armA, w.toPort.b ++ outcomes .armB⟩,
      outcomeCount := ⟨w.outcomeCount.a + (outcomes .armA).length, w.outcomeCount.b + (outcomes .armB).length⟩,
      scan := if scan + 1 < g.bays then scan + 1 else 0 } := by
  intro expiring outcomes
  subst ht hs
  rw [Workspace.expireWaits, handAll_eq, Workspace.advanceScan]
  simp only [outcomes, List.length_map]
  rfl

theorem Workspace.leaseTick_noTable {w : Workspace} (hc : w.cells = none) : w.leaseTick = w.riseTick := by
  rw [Workspace.leaseTick, hc]

section Table

variable {w : Workspace} {g : BinGeom} {cells : List CellRec} (hc : w.cells = some cells) (hb : w.bin = some g)
include hc hb

theorem Workspace.leaseTick_table : w.leaseTick = (((w.riseTick.scanVisit g).reevaluate).expireWaits).advanceScan g := by
  rw [Workspace.leaseTick, hc, hb]

theorem Workspace.lapseComes_iff : w.lapseComes = true ↔ ∃ i owner lease d, cells[i]? = some (.held owner lease d) ∧ i / g.cells = w.scan
    ∧ (w.record owner).covers g i = false ∧ reached (w.tick + 1) d = true := by
  rw [Workspace.lapseComes, hc, hb, Bool.not_eq_true']
  exact lapseRaises_isEmpty

theorem Workspace.expiryComes_iff :
    w.expiryComes = true ↔ (w.riseTick.scanVisit g).reevaluate.queue.filter (fun e => reached (w.tick + 1) e.deadline) ≠ [] := by
  rw [Workspace.expiryComes, hc, hb, Bool.not_eq_true', ← Bool.not_eq_true, List.isEmpty_iff, Workspace.expired, reevaluate_tick]
  rfl

end Table

/-! ### The commands of a tick -/

theorem exec_leaseTick_take {s : State} (hd : s.ws.ticksDue ≠ 0) : exec .leaseTick s = .next (s.setWs s.ws.leaseTick) := by
  rw [exec_leaseTick, execLeaseTick, takeLeaseTick_take hd rfl]

theorem takeLeaseTick_not {s : State} {cond : Bool} (h : ¬cond = true) : takeLeaseTick s cond = .next s := if_neg fun hc => h hc.2

/-- Settles O51. -/
theorem leaseTickRule : Obligations.LeaseTickRule := by
  refine ⟨fun now d => decide_eq_true_iff, fun s hd hc => ?noTable, fun f cells i => ?_, fun s cells g hd hc hb => ?table⟩
  case noTable =>
    have hno : s.ws.lapseComes = false ∧ s.ws.expiryComes = false := by
      rw [Workspace.lapseComes, Workspace.expiryComes, hc]
      exact ⟨rfl, rfl⟩
    refine ⟨?_, takeLeaseTick_not (by rw [hno.1]; decide), takeLeaseTick_not (by rw [hno.2]; decide)⟩
    rw [exec_leaseTick_take hd, Workspace.leaseTick_noTable hc]
    rfl
  case table =>
    intro now visited after1 lapses
    refine ⟨lapseRaiseAt s.ws.riseTick g cells, ?_⟩
    intro raised part3 expiring outcomes t
    have hpart3 : (s.ws.riseTick.scanVisit g).reevaluate = part3 := by
      rw [Workspace.scanVisit_eq (w := s.ws.riseTick) hc]
      rfl
    have hnext : s.setWs s.ws.leaseTick = t := by
      have htick : part3.tick = now := reevaluate_tick _
      have hscan : part3.scan = s.ws.scan := reevaluate_scan _
      rw [Workspace.leaseTick_table hc hb, hpart3, Workspace.expireWaits_advanceScan g htick hscan]
    have hlapses : s.ws.lapseComes = true ↔ ∃ i, lapses i := Workspace.lapseComes_iff hc hb
    have hexpires : s.ws.expiryComes = true ↔ expiring ≠ [] := by
      rw [Workspace.expiryComes_iff hc hb, hpart3]
    have htake {cond : Bool} (h : cond = true) : takeLeaseTick s cond = .next t := by
      rw [takeLeaseTick_take hd h, hnext]
    refine ⟨htake rfl, fun h => htake (hlapses.mpr h), fun h => takeLeaseTick_not (mt hlapses.mp (not_exists.mpr h)),
      fun h => htake (hexpires.mpr h), fun h => takeLeaseTick_not (mt hexpires.mp (not_not_intro h)),
      fun i hi => lapseRaiseAt_none hi, fun i owner lease d hget hi => ?_, fun i => rfl, fun i owner lease d => rfl⟩
    obtain ⟨o, l, d', hget', hv, ho, hr⟩ := hi
    cases hget.symm.trans hget'
    exact lapseRaiseAt_lapses hget hv ho hr
  · rw [mapCells_getElem?, Nat.zero_add]

end Sys2Proof.Machine
end

