-- ==== Sys2Proof/Proofs/Reports.lean ====
section
/-! PROOFS. The requests and steps of the report unit, settling ReportUnitRule. -/

namespace Sys2Proof.Machine

/-! ### Raises (R179) -/

theorem Flag.raise_eq (f : Flag) (d : Detail) (tick : Tick) :
    f.raise d tick = ⟨true, false, if f.occurrences < 255 then f.occurrences + 1 else 255, some d, some tick⟩ := by
  rw [Flag.raise]
  congr 1
  split <;> omega

theorem exec_eventRaise_take {b : Block} {s : State} {x : Raise} {rest : List Raise} (h : s.raisesOf b = x :: rest) :
    exec (.eventRaise b) s = .next ((s.setRaises b rest).setReport (s.report.takeRaise x)) := by
  rw [exec_eventRaise, execEventRaise, h]

theorem exec_reportTick_take {s : State} (h : s.report.ticksDue ≠ 0) : exec .reportTick s
    = .next (s.setReport { s.report with tick := s.report.tick + 1, ticksDue := s.report.ticksDue - 1 }) := by
  rw [exec_reportTick, execReportTick, if_neg h]

/-! ### EVENTS_READ (R184) -/

/-- The octets of one flag, by the width of its kind's detail. -/
def flagOctetsWide (width : Nat) (f : Flag) : List Octet :=
  [if f.set then 1 else 0, if f.noticed then 1 else 0, octet f.occurrences]
    ++ f.detail.elim (0 :: List.replicate width 0) (fun d => 1 :: detailOctets d)
    ++ f.tick.elim [0, 0, 0, 0, 0] (fun tick => 1 :: octets32 tick)

theorem flagOctets_eq (k : EventKind) (f : Flag) : flagOctets k f = flagOctetsWide (detailWidth k) f := by
  rw [flagOctets, flagOctetsWide]
  cases f.detail <;> cases f.tick <;> rfl

/-- The flags of a port in kind order, by the widths of their details. -/
theorem zipWith_flagOctets (fs : List Flag) : List.zipWith flagOctets EventKind.all fs
    = List.zipWith flagOctetsWide [2, 1, 1, 1, 2, 2, 2, 1, 8, 1, 1, 2, 1, 2, 2, 7, 4, 1, 2, 2, 2, 7, 11, 5] fs := by
  have hwidths : [2, 1, 1, 1, 2, 2, 2, 1, 8, 1, 1, 2, 1, 2, 2, 7, 4, 1, 2, 2, 2, 7, 11, 5] = EventKind.all.map detailWidth := rfl
  rw [hwidths, List.zipWith_map_left]
  congr 1
  funext k f
  exact flagOctets_eq k f

/-! ### EVENTS_CLEAR (R185) -/

theorem clearMarked_getElem? (marks : BitVec 32) (i : Nat) (fs : List Flag) (n : Nat) (hn : n < fs.length) :
    (clearMarked marks i fs)[n]? = if marks.getLsbD (i + n) then some Flag.clear else fs[n]? := by
  induction fs generalizing i n with
  | nil => cases hn
  | cons f rest ih =>
    cases n with
    | zero =>
      rw [clearMarked, List.getElem?_cons_zero, List.getElem?_cons_zero, Nat.add_zero]
      split <;> rfl
    | succ n =>
      rw [clearMarked, List.getElem?_cons_succ, List.getElem?_cons_succ, ih (i + 1) n (Nat.lt_of_succ_lt_succ hn),
        Nat.succ_add_eq_add_succ]

theorem markedOccurrences_eq (marks : BitVec 32) (i : Nat) (fs : List Flag) : markedOccurrences marks i fs
    = ((List.range fs.length).filter fun n => marks.getLsbD (i + n)).map fun n => octet (fs.getD n Flag.clear).occurrences := by
  induction fs generalizing i with
  | nil => rfl
  | cons f rest ih =>
    have hrest : markedOccurrences marks (i + 1) rest
        = (((List.range rest.length).map Nat.succ).filter fun n => marks.getLsbD (i + n)).map
          fun n => octet ((f :: rest).getD n Flag.clear).occurrences := by
      rw [ih, List.filter_map, List.map_map]
      congr 2
      funext n
      exact congrArg marks.getLsbD (Nat.succ_add_eq_add_succ i n)
    rw [markedOccurrences, List.length_cons, List.range_succ_eq_map, hrest]
    by_cases hmark : marks.getLsbD i = true
    · rw [if_pos hmark, List.filter_cons_of_pos (by simpa using hmark)]
      rfl
    · rw [if_neg hmark, List.filter_cons_of_neg (by simpa using hmark)]

/-- A mark of a kind beyond 23 is a mark in the high octet. -/
theorem highMarks_eq_zero (marks : BitVec 32) : marks.extractLsb' 24 8 = 0#8 ↔ ∀ n : Nat, 24 ≤ n → n < 32 → marks.getLsbD n = false := by
  refine ⟨fun h n hlo hhi => ?_, fun h => BitVec.eq_of_getLsbD_eq fun i hi => ?_⟩
  · have hbit := congrArg (fun v : BitVec 8 => v.getLsbD (n - 24)) h
    simpa [show n - 24 < 8 by omega, show 24 + (n - 24) = n by omega] using hbit
  · simpa [hi] using h (24 + i) (by omega) (by omega)

section Requests

variable {m : Arm} {s : State} {r : Request} {rest : List Request}

theorem exec_eventsRead_take (ht : s.reportTakes m .eventsRead r rest) :
    let u : ReportUnit := { s.report with requests := rest }
    exec (.eventsRead m) s = .next ((s.setReport u).answer m (answerOk r.head (u.readData m))) := by
  obtain ⟨hr, ha, hn⟩ := ht
  rw [exec_eventsRead, execEventsRead, takeReportRequest_take hr ha hn]

theorem exec_eventsClear_take (ht : s.reportTakes m .eventsClear r rest) :
    let out := ({ s.report with requests := rest } : ReportUnit).clearRequest m r
    exec (.eventsClear m) s = .next ((s.setReport out.1).answer m out.2) := by
  obtain ⟨hr, ha, hn⟩ := ht
  rw [exec_eventsClear, execEventsClear, takeReportRequest_take hr ha hn]

theorem exec_noticeSet_take (ht : s.reportTakes m .noticeSet r rest) :
    let out := ({ s.report with requests := rest } : ReportUnit).noticeRequest r
    exec (.noticeSet m) s = .next ((s.setReport out.1).answer m out.2) := by
  obtain ⟨hr, ha, hn⟩ := ht
  rw [exec_noticeSet, execNoticeSet, takeReportRequest_take hr ha hn]

end Requests

/-! ### NOTICE_SET (R181) -/

theorem readFlag_of_le {n : Nat} (h : n ≤ 1) : readFlag n = some (decide (n = 1)) := by
  interval_cases n <;> rfl

theorem noticeRequest_refused {u : ReportUnit} {r : Request}
    (h : 23 < octetAt r.args 0 ∨ 1 < octetAt r.args 1 ∨ 7 < octetAt r.args 2) :
    u.noticeRequest r = (u, answerRefused r.head .range []) := by
  rw [ReportUnit.noticeRequest]
  split
  · next enable he =>
    have hflag : ¬1 < octetAt r.args 1 := fun hbig => by rw [(readFlag_eq_none _).mpr hbig] at he; cases he
    rw [if_neg (by omega)]
  · rfl

theorem noticeRequest_set {u : ReportUnit} {r : Request} (hk : octetAt r.args 0 ≤ 23) (he : octetAt r.args 1 ≤ 1)
    (hp : octetAt r.args 2 ≤ 7) : u.noticeRequest r
      = ({ u with settings := u.settings.set (octetAt r.args 0) ⟨decide (octetAt r.args 1 = 1), octetAt r.args 2⟩ },
        answerOk r.head (settingOctets (u.setting (octetAt r.args 0))
          ++ settingOctets ⟨decide (octetAt r.args 1 = 1), octetAt r.args 2⟩)) := by
  rw [ReportUnit.noticeRequest, readFlag_of_le he]
  exact if_pos ⟨hk, hp⟩

/-- A flag octet in range is the number it stands for. -/
theorem yesNo_decide {n : Nat} (h : n ≤ 1) : yesNo (decide (n = 1)) = octet n := by
  interval_cases n <;> rfl

/-- Settles O53. -/
theorem reportUnitRule : Obligations.ReportUnitRule := by
  refine ⟨fun b s x rest h => ?raise, fun s h => exec_reportTick_take h, fun m s r rest => ?requests⟩
  case raise =>
    intro f
    rw [exec_eventRaise_take h, ReportUnit.takeRaise, Flag.raise_eq]
    rfl
  case requests =>
    intro u flag gives
    refine ⟨fun ht => ?read, fun ht => ?clear, fun ht => ?notice⟩
    case read =>
      refine ⟨(List.zipWith flagOctets EventKind.all (u.flagsOf m)).flatten, exec_eventsRead_take ht, ?_⟩
      rw [zipWith_flagOctets]
      rfl
    case clear =>
      intro marks
      have hgives {v : ReportUnit} {ans : Answer} (hout : u.clearRequest m r = (v, ans)) : gives (.eventsClear m) v ans :=
        (exec_eventsClear_take ht).trans (congrArg (fun out => Host.Outcome.next ((s.setReport out.1).answer m out.2)) hout)
      refine ⟨fun ⟨n, hlo, hhi, hn⟩ => hgives (if_neg fun hz => ?_), fun hz => ?_⟩
      · rw [(highMarks_eq_zero marks).mp hz n hlo hhi] at hn
        cases hn
      · refine ⟨clearMarked marks 0 (u.flagsOf m), markedOccurrences marks 0 (u.flagsOf m),
          hgives (if_pos ((highMarks_eq_zero marks).mpr hz)), ReportUnit.clearMarked_length _ _ _, fun n hn => ?_, ?_⟩
        · rw [ReportUnit.clearMarked_length] at hn
          rw [clearMarked_getElem? _ _ _ _ hn, Nat.zero_add]
          rfl
        · simp only [markedOccurrences_eq, Nat.zero_add]
    case notice =>
      intro kind enable priority before
      have hgives {v : ReportUnit} {ans : Answer} (hout : u.noticeRequest r = (v, ans)) : gives (.noticeSet m) v ans :=
        (exec_noticeSet_take ht).trans (congrArg (fun out => Host.Outcome.next ((s.setReport out.1).answer m out.2)) hout)
      refine ⟨fun h => hgives (noticeRequest_refused h), fun hk he hp => hgives ?_⟩
      have hset := noticeRequest_set (u := u) (r := r) hk he hp
      have hafter : settingOctets ⟨decide (enable = 1), priority⟩ = [octet enable, octet priority] := by
        rw [settingOctets, yesNo_decide he]
      rw [show settingOctets ⟨decide (octetAt r.args 1 = 1), octetAt r.args 2⟩ = _ from hafter] at hset
      exact hset

end Sys2Proof.Machine
end

