-- ==== Sys2Proof/Proofs/Validations.lean ====
section
/-! PROOFS. Chapter 2: the check over a sequence of octets, and the validation result as the first test that fails. -/

namespace Sys2Proof.Machine

/-! ### The first test that fails -/

/-- Tests in this order, each with what it names: the first that fails is the one named, and with none nothing is. -/
def PicksFirst {α : Type} : List (α × Prop) → Option α → Prop
  | [], x => x = none
  | (a, fails) :: rest, x => (fails → x = some a) ∧ (¬fails → PicksFirst rest x)

section PicksFirst

variable {α : Type} {tests : List (α × Prop)} {x : Option α}

theorem PicksFirst.eq_none (h : PicksFirst tests x) (hpass : ∀ t ∈ tests, ¬t.2) : x = none := by
  induction tests with
  | nil => exact h
  | cons t rest ih => exact ih (h.2 (hpass t (by simp))) fun t' ht' => hpass t' (List.mem_cons_of_mem _ ht')

theorem PicksFirst.eq_some {pre post : List (α × Prop)} {a : α} {fails : Prop} (h : PicksFirst tests x)
    (ht : tests = pre ++ (a, fails) :: post) (hf : fails) (hpass : ∀ t ∈ pre, ¬t.2) : x = some a := by
  induction pre generalizing tests with
  | nil =>
    subst ht
    exact h.1 hf
  | cons t pre ih =>
    subst ht
    exact ih (h.2 (hpass t (by simp))) rfl fun t' ht' => hpass t' (List.mem_cons_of_mem _ ht')

/-- One list of tests after another. -/
theorem PicksFirst.orElse {tests' : List (α × Prop)} {y : Option α} (h : PicksFirst tests x) (h' : PicksFirst tests' y) :
    PicksFirst (tests ++ tests') (x.orElse fun _ => y) := by
  induction tests with
  | nil =>
    cases h
    exact h'
  | cons t rest ih => exact ⟨fun hf => by rw [h.1 hf]; rfl, fun hf => ih (h.2 hf)⟩

end PicksFirst

/-! ### The header's test (R36) -/

theorem lacksHome_iff (b : Bank) (arm : Arm) :
    lacksHome b arm = true ↔ b.header.present.get arm = true ∧ ∀ box, .home arm box ∉ b.entries := by
  rw [lacksHome, Bool.and_eq_true, List.isEmpty_iff, List.eq_nil_iff_forall_not_mem]
  exact and_congr_right fun _ => forall_congr' fun box => not_congr (mem_homes b arm box)

def headerTests (b : Bank) : List (ValFailure × Prop) :=
  let homeless (a : Arm) : Prop := b.header.present.get a = true ∧ ∀ box, .home a box ∉ b.entries
  [(⟨.header, .noHome, none⟩, homeless .armA ∨ homeless .armB)]

theorem headerFailure_picksFirst (b : Bank) : PicksFirst (headerTests b) (headerFailure b) := by
  have hlacks : (lacksHome b .armA || lacksHome b .armB) = true
      ↔ (b.header.present.get .armA = true ∧ ∀ box, .home .armA box ∉ b.entries)
        ∨ (b.header.present.get .armB = true ∧ ∀ box, .home .armB box ∉ b.entries) := by
    rw [Bool.or_eq_true, lacksHome_iff, lacksHome_iff]
  exact ⟨fun h => if_pos (hlacks.mpr h), fun h => if_neg fun hl => h (hlacks.mp hl)⟩

/-! ### The tests of an entry (R36) -/

/-- What the tests of an entry speak of: its box, whatever its kind. -/
def ZoneEntry.Shape (e : ZoneEntry) (box : Box) : Prop :=
  (∃ a, e = .home a box) ∨ (∃ bays cells, e = .bin box bays cells) ∨ e = .forbidden box ∨ ∃ caps, e = .slow box caps

def entryTests (b : Bank) (i : Nat) : List (ValFailure × Prop) :=
  let e := b.entries.getD i .empty
  [(⟨.entry i, .badBox, none⟩, ∃ box, e.Shape box ∧ (box.hi.x < box.lo.x ∨ box.hi.y < box.lo.y ∨ box.hi.z < box.lo.z)),
    (⟨.entry i, .absentHome, none⟩, ∃ a box, e = .home a box ∧ b.header.present.get a = false),
    (⟨.entry i, .homeInBin, none⟩, ∃ a box other bays cells,
      e = .home a box ∧ .bin other bays cells ∈ b.entries ∧ box.meets other = true),
    (⟨.entry i, .twoBins, none⟩, (∃ box bays cells, e = .bin box bays cells)
      ∧ ∃ j box bays cells, j < i ∧ b.entries[j]? = some (.bin box bays cells)),
    (⟨.entry i, .badGrid, none⟩, ∃ box bays cells, e = .bin box bays cells ∧ (bays < 1 ∨ 8 < bays ∨ cells < 1 ∨ 16 < cells
      ∨ (box.hi.x - box.lo.x + 1) % (bays : Int) ≠ 0 ∨ (box.hi.y - box.lo.y + 1) % (cells : Int) ≠ 0))]

theorem Box.ordered_eq_false (box : Box) :
    box.ordered = false ↔ box.hi.x < box.lo.x ∨ box.hi.y < box.lo.y ∨ box.hi.z < box.lo.z := by
  simp only [Box.ordered, Bool.and_eq_false_iff, decide_eq_false_iff_not, not_le, or_assoc]

theorem badGrid_iff (box : Box) (bays cells : Nat) : badGrid box bays cells = true ↔ bays < 1 ∨ 8 < bays ∨ cells < 1 ∨ 16 < cells
    ∨ (box.hi.x - box.lo.x + 1) % (bays : Int) ≠ 0 ∨ (box.hi.y - box.lo.y + 1) % (cells : Int) ≠ 0 := by
  simp only [badGrid, Bool.or_eq_true, Bool.not_eq_true', decide_eq_false_iff_not, decide_eq_true_eq]
  omega

theorem mem_binBoxes (entries : List ZoneEntry) (other : Box) :
    other ∈ entries.filterMap ZoneEntry.binBox ↔ ∃ bays cells, .bin other bays cells ∈ entries := by
  rw [List.mem_filterMap]
  constructor
  · rintro ⟨e, he, hbox⟩
    cases e with
    | bin box bays cells =>
      cases hbox
      exact ⟨bays, cells, he⟩
    | _ => cases hbox
  · rintro ⟨bays, cells, he⟩
    exact ⟨_, he, rfl⟩

theorem homeInBin_iff (entries : List ZoneEntry) (box : Box) : (entries.filterMap ZoneEntry.binBox).any box.meets = true
    ↔ ∃ other bays cells, .bin other bays cells ∈ entries ∧ box.meets other = true := by
  simp only [List.any_eq_true, mem_binBoxes]
  exact ⟨fun ⟨other, ⟨bays, cells, hmem⟩, hmeets⟩ => ⟨other, bays, cells, hmem, hmeets⟩,
    fun ⟨other, bays, cells, hmem, hmeets⟩ => ⟨other, ⟨bays, cells, hmem⟩, hmeets⟩⟩

section Entry

variable {b : Bank} {i : Nat} {before : Bool}

/-- What an entry's tests find is what they find of its kind: the tests of the other kinds cannot fail. -/
theorem entryFailure_picksFirst {e : ZoneEntry} (he : b.entries.getD i .empty = e)
    (hbefore : before = true ↔ ∃ j box bays cells, j < i ∧ b.entries[j]? = some (.bin box bays cells)) :
    PicksFirst (entryTests b i) ((entryFailure b before e).map fun why => ⟨.entry i, why, none⟩) := by
  rw [entryTests, he]
  cases e with
  | empty => simp [PicksFirst, entryFailure, ZoneEntry.Shape]
  | forbidden box => by_cases ho : box.ordered = false <;>
      simp [PicksFirst, entryFailure, ZoneEntry.Shape, ← Box.ordered_eq_false, ho]
  | slow box caps => by_cases ho : box.ordered = false <;>
      simp [PicksFirst, entryFailure, ZoneEntry.Shape, ← Box.ordered_eq_false, ho]
  | home arm box =>
    have hin : (∃ a box' other bays cells, ZoneEntry.home arm box = .home a box' ∧ .bin other bays cells ∈ b.entries
        ∧ box'.meets other = true) ↔ (b.entries.filterMap ZoneEntry.binBox).any box.meets = true := by
      rw [homeInBin_iff]
      simp
    simp only [hin]
    by_cases ho : box.ordered = false
    · simp [PicksFirst, entryFailure, ZoneEntry.Shape, ← Box.ordered_eq_false, ho]
    · by_cases hp : b.header.present.get arm = false
      · simp [PicksFirst, entryFailure, ZoneEntry.Shape, ← Box.ordered_eq_false, ho, Bank.present, hp]
      · cases hm : (b.entries.filterMap ZoneEntry.binBox).any box.meets <;>
          simp [PicksFirst, entryFailure, ZoneEntry.Shape, ← Box.ordered_eq_false, ho, Bank.present, hp, hm]
  | bin box bays cells =>
    have hgrid : (∃ box' bays' cells', ZoneEntry.bin box bays cells = .bin box' bays' cells' ∧ (bays' < 1 ∨ 8 < bays' ∨ cells' < 1
        ∨ 16 < cells' ∨ (box'.hi.x - box'.lo.x + 1) % (bays' : Int) ≠ 0 ∨ (box'.hi.y - box'.lo.y + 1) % (cells' : Int) ≠ 0))
        ↔ badGrid box bays cells = true := by
      rw [badGrid_iff]
      simp
    have htwo : ((∃ box' bays' cells', ZoneEntry.bin box bays cells = .bin box' bays' cells')
        ∧ ∃ j box bays cells, j < i ∧ b.entries[j]? = some (.bin box bays cells)) ↔ before = true := by
      rw [hbefore]
      simp
    simp only [hgrid, htwo]
    by_cases ho : box.ordered = false
    · simp [PicksFirst, entryFailure, ZoneEntry.Shape, ← Box.ordered_eq_false, ho]
    · cases before with
      | true => simp [PicksFirst, entryFailure, ZoneEntry.Shape, ← Box.ordered_eq_false, ho]
      | false =>
        cases hg : badGrid box bays cells <;>
          simp [PicksFirst, entryFailure, ZoneEntry.Shape, ← Box.ordered_eq_false, ho, hg]

theorem ZoneEntry.isBin_iff (e : ZoneEntry) : e.isBin = true ↔ ∃ box bays cells, e = .bin box bays cells := by
  cases e <;> simp [ZoneEntry.isBin, ZoneEntry.binBox]

/-- The entries from index `i` on: the first failing test of the first failing entry. -/
theorem entriesFailure_picksFirst {l : List ZoneEntry} (hl : b.entries.drop i = l)
    (hbefore : before = true ↔ ∃ j box bays cells, j < i ∧ b.entries[j]? = some (.bin box bays cells)) :
    PicksFirst ((List.range' i l.length).flatMap (entryTests b)) (entriesFailure b i before l) := by
  induction l generalizing i before with
  | nil => rfl
  | cons e rest ih =>
    have he : b.entries[i]? = some e := by
      rw [← List.head?_drop, hl, List.head?_cons]
    have hrest : b.entries.drop (i + 1) = rest := by
      rw [← List.tail_drop, hl, List.tail_cons]
    have hbin : (before || e.isBin) = true ↔ ∃ j box bays cells, j < i + 1 ∧ b.entries[j]? = some (.bin box bays cells) := by
      rw [Bool.or_eq_true, hbefore, ZoneEntry.isBin_iff]
      constructor
      · rintro (⟨j, box, bays, cells, hj, hget⟩ | ⟨box, bays, cells, rfl⟩)
        · exact ⟨j, box, bays, cells, by omega, hget⟩
        · exact ⟨i, box, bays, cells, by omega, he⟩
      · rintro ⟨j, box, bays, cells, hj, hget⟩
        rcases Nat.lt_succ_iff_lt_or_eq.mp hj with hj | rfl
        · exact .inl ⟨j, box, bays, cells, hj, hget⟩
        · exact .inr ⟨box, bays, cells, Option.some.inj (he.symm.trans hget)⟩
    have hsplit : entriesFailure b i before (e :: rest) = ((entryFailure b before e).map fun why => ⟨.entry i, why, none⟩).orElse
        fun _ => entriesFailure b (i + 1) (before || e.isBin) rest := by
      rw [entriesFailure]
      cases entryFailure b before e <;> rfl
    rw [hsplit, List.length_cons, List.range'_succ, List.flatMap_cons]
    exact (entryFailure_picksFirst (by rw [List.getD_eq_getElem?_getD, he]; rfl) hbefore).orElse (ih hrest hbin)

end Entry

/-! ### The tests of a profile (R37) -/

/-- The fields that can fail, in the order of the table of R24, each with its value and its valid range. -/
def profileRanges (p : Profile) : List (ProfileField × Nat × Nat × Nat) := [
  (.pitch .axisX, p.pitch.x, 1, 65535), (.pitch .axisY, p.pitch.y, 1, 65535), (.pitch .axisZ, p.pitch.z, 1, 65535),
  (.decel .axisX, p.decel.x, 1, 65535), (.decel .axisY, p.decel.y, 1, 65535), (.decel .axisZ, p.decel.z, 1, 65535),
  (.stepCap .axisX, p.stepCap.x, 1, 65535), (.stepCap .axisY, p.stepCap.y, 1, 65535), (.stepCap .axisZ, p.stepCap.z, 1, 65535),
  (.baseLateral, p.baseLateral, 0, 63), (.baseBelow, p.baseBelow, 0, 63), (.baseAbove, p.baseAbove, 0, 63),
  (.cadence, p.cadence, 1, 32), (.missLimit, p.missLimit, 1, 8), (.softLimit, p.softLimit, 1, 15),
  (.feedbackLimit, p.feedbackLimit, 1, 8), (.trackingLimit, p.trackingLimit, 1, 1048575), (.settleLimit, p.settleLimit, 1, 64)]

def rangeTests (a : Arm) (fields : List (ProfileField × Nat × Nat × Nat)) : List (ValFailure × Prop) :=
  fields.map fun x => (⟨.profile a, .badProfile, some x.1⟩, x.2.1 < x.2.2.1 ∨ x.2.2.2 < x.2.1)

theorem profileChecks_eq (p : Profile) :
    profileChecks p = (profileRanges p).map fun x => (inRange x.2.2.1 x.2.2.2 x.2.1, x.1) := rfl

theorem inRange_eq_false (lo hi v : Nat) : inRange lo hi v = false ↔ v < lo ∨ hi < v := by
  rw [inRange, decide_eq_false_iff_not]
  omega

theorem rangeTests_picksFirst (a : Arm) (fields : List (ProfileField × Nat × Nat × Nat)) :
    PicksFirst (rangeTests a fields) (((((fields.map fun x => (inRange x.2.2.1 x.2.2.2 x.2.1, x.1)).find? fun c => !c.1).map
      (·.2)).map fun f => ⟨.profile a, .badProfile, some f⟩)) := by
  induction fields with
  | nil => rfl
  | cons x rest ih =>
    rw [List.map_cons, List.find?_cons]
    refine ⟨fun hbad => ?_, fun hgood => ?_⟩
    · rw [(inRange_eq_false _ _ _).mpr hbad]
      rfl
    · rw [Bool.eq_true_of_not_eq_false (mt (inRange_eq_false _ _ _).mp hgood)]
      exact ih

theorem profileFailure_picksFirst (b : Bank) (a : Arm) :
    PicksFirst (rangeTests a (profileRanges (b.profiles.get a))) (profileFailure b a) := by
  rw [profileFailure, badField, profileChecks_eq]
  exact rangeTests_picksFirst a _

/-! ### The tests of a bank (R35) -/

/-- The tests of a bank in the order of R35: the header, the entries in index order, the profiles of both arms. -/
def bankTests (b : Bank) : List (ValFailure × Prop) :=
  headerTests b ++ (List.range b.entries.length).flatMap (entryTests b) ++ rangeTests .armA (profileRanges (b.profiles.get .armA))
    ++ rangeTests .armB (profileRanges (b.profiles.get .armB))

theorem firstFailure_picksFirst (b : Bank) : PicksFirst (bankTests b) (firstFailure b) := by
  rw [bankTests, List.append_assoc, List.append_assoc, List.range_eq_range', firstFailure]
  exact (headerFailure_picksFirst b).orElse
    ((entriesFailure_picksFirst (i := 0) (before := false) rfl (by simp)).orElse
      ((profileFailure_picksFirst b .armA).orElse (profileFailure_picksFirst b .armB)))

theorem validate_passed {b : Bank} (h : ∀ t ∈ bankTests b, ¬t.2) : validate b = .passed := by
  rw [validate, (firstFailure_picksFirst b).eq_none h]

theorem validate_failed {b : Bank} {pre post : List (ValFailure × Prop)} {failure : ValFailure} {fails : Prop}
    (ht : bankTests b = pre ++ (failure, fails) :: post) (hf : fails) (hpass : ∀ t ∈ pre, ¬t.2) :
    validate b = .failed failure := by
  rw [validate, (firstFailure_picksFirst b).eq_some ht hf hpass]

/-! ### The check over a sequence of octets (R34) -/

/-- One bit into the check register, as R34 says it. -/
theorem checkBit_eq (r : BitVec 16) (bit : Bool) :
    checkBit r bit = if r.getLsbD 15 = bit then r <<< 1 else (r <<< 1) ^^^ 0x1021#16 := by
  rw [checkBit, BitVec.msb_eq_getLsbD_last]
  cases r.getLsbD 15 <;> cases bit <;> rfl

theorem check_append_singleton (os : List Octet) (o : Octet) : check (os ++ [o]) = [7, 6, 5, 4, 3, 2, 1, 0].foldl
    (fun (r : BitVec 16) (n : Nat) => if r.getLsbD 15 = o.getLsbD n then r <<< 1 else (r <<< 1) ^^^ 0x1021#16) (check os) := by
  rw [check, List.foldl_append, List.foldl_cons, List.foldl_nil, checkOctet]
  simp only [List.foldl_cons, List.foldl_nil, checkBit_eq]
  rfl

theorem digestOf_eq (b : Bank) : digestOf b
    = check (headerOctets b.header ++ b.entries.flatMap entryOctets ++ profileOctets b.profiles.a ++ profileOctets b.profiles.b) := by
  rw [digestOf, canonicalOctets, List.flatMap_def]

end Sys2Proof.Machine

end

