-- ==== Sys2Proof/Proofs/Tables.lean ====
section
/-! PROOFS. Chapters 2 and 8: the writes of the shadow, the reads, agreement and completion, settling ShadowWriteRule,
TableReadRule, AgreementRule and CompletionRule. -/

namespace Sys2Proof.Machine

/-! ### Which records are refused (R27, R28, R29) -/

theorem readHeader_eq_none (os : List Octet) : readHeader os = none ↔ 1 < (os.getD 0 0).toNat ∨ 1 < (os.getD 1 0).toNat := by
  have ha := readFlag_eq_none (octetAt os 0)
  have hb := readFlag_eq_none (octetAt os 1)
  rw [octetAt] at ha hb
  rw [← ha, ← hb, readHeader, octetAt, octetAt]
  cases readFlag (os.getD 0 0).toNat <;> cases readFlag (os.getD 1 0).toNat <;> simp

theorem readSign_eq_none (n : Nat) : readSign n = none ↔ 1 < n := by
  rw [readSign]
  split_ifs <;> simp <;> omega

theorem readProfile_eq_none (os : List Octet) :
    readProfile os 1 = none ↔ 1 < (os.getD 13 0).toNat ∨ 1 < (os.getD 14 0).toNat ∨ 1 < (os.getD 15 0).toNat := by
  have hx := readSign_eq_none (octetAt os 13)
  have hy := readSign_eq_none (octetAt os 14)
  have hz := readSign_eq_none (octetAt os 15)
  rw [octetAt] at hx hy hz
  rw [← hx, ← hy, ← hz, readProfile, octetAt, octetAt, octetAt]
  cases readSign (os.getD 13 0).toNat <;> cases readSign (os.getD 14 0).toNat <;> cases readSign (os.getD 15 0).toNat <;> simp

section Entry

variable (os : List Octet)

theorem readCoord_eq_none (i : Nat) : readCoord os i = none ↔ 1023 < nat16At os i := by
  rw [readCoord]
  split_ifs <;> simp <;> omega

theorem readCap_eq_none (i : Nat) : readCap os i = none ↔ nat16At os i = 0 := by
  rw [readCap]
  split_ifs <;> simp [*]

theorem readCoords_eq_none (i : Nat) :
    readCoords os i = none ↔ 1023 < nat16At os i ∨ 1023 < nat16At os (i + 2) ∨ 1023 < nat16At os (i + 4) := by
  rw [← readCoord_eq_none, ← readCoord_eq_none, ← readCoord_eq_none, readCoords]
  cases readCoord os i <;> cases readCoord os (i + 2) <;> cases readCoord os (i + 4) <;> simp

theorem readCaps_eq_none (i : Nat) :
    readCaps os i = none ↔ nat16At os i = 0 ∨ nat16At os (i + 2) = 0 ∨ nat16At os (i + 4) = 0 := by
  rw [← readCap_eq_none, ← readCap_eq_none, ← readCap_eq_none, readCaps]
  cases readCap os i <;> cases readCap os (i + 2) <;> cases readCap os (i + 4) <;> simp

theorem readBox_eq_none : readBox os 2 = none ↔ ∃ j : Nat, j < 6 ∧ 1023 < nat16At os (2 + 2 * j) := by
  have hboth : readBox os 2 = none ↔ readCoords os 2 = none ∨ readCoords os 8 = none := by
    rw [readBox]
    cases readCoords os 2 <;> cases readCoords os 8 <;> simp
  rw [hboth, readCoords_eq_none, readCoords_eq_none]
  constructor
  · rintro ((h | h | h) | (h | h | h))
    exacts [⟨0, by omega, h⟩, ⟨1, by omega, h⟩, ⟨2, by omega, h⟩, ⟨3, by omega, h⟩, ⟨4, by omega, h⟩, ⟨5, by omega, h⟩]
  · rintro ⟨j, hj, h⟩
    interval_cases j <;> simp_all

theorem readCaps_none_iff : readCaps os 14 = none ↔ ∃ j : Nat, j < 3 ∧ nat16At os (14 + 2 * j) = 0 := by
  rw [readCaps_eq_none]
  constructor
  · rintro (h | h | h)
    exacts [⟨0, by omega, h⟩, ⟨1, by omega, h⟩, ⟨2, by omega, h⟩]
  · rintro ⟨j, hj, h⟩
    interval_cases j <;> simp_all

/-- A record is refused for its kind, for the box its kind has, or for the caps of a SLOW. -/
theorem readEntry_none_iff : readEntry os 1 = none ↔ 5 < octetAt os 1 ∨ (1 ≤ octetAt os 1 ∧ readBox os 2 = none)
    ∨ (octetAt os 1 = 5 ∧ readCaps os 14 = none) := by
  rw [readEntry]
  split
  case h_1 hk => simp [hk]
  case h_6 hk =>
    rw [hk]
    cases readBox os 2 <;> cases readCaps os 14 <;> simp
  case h_7 h0 h1 h2 h3 h4 h5 =>
    have hk : 5 < octetAt os 1 := by
      by_contra hle
      interval_cases octetAt os 1 <;> simp_all
    simp [hk]
  all_goals
    rename_i hk
    simp [hk]

theorem readEntry_eq_none : readEntry os 1 = none
    ↔ 5 < (os.getD 1 0).toNat
      ∨ (1 ≤ (os.getD 1 0).toNat ∧ ∃ j : Nat, j < 6 ∧ 1023 < (os.getD (2 + 2 * j) 0 ++ os.getD (2 + 2 * j + 1) 0 : BitVec 16).toNat)
      ∨ (os.getD 1 0 = 5 ∧ ∃ j : Nat, j < 3 ∧ (os.getD (14 + 2 * j) 0 ++ os.getD (14 + 2 * j + 1) 0 : BitVec 16).toNat = 0) := by
  have hfive : os.getD 1 0 = 5 ↔ octetAt os 1 = 5 := by
    rw [octetAt, ← BitVec.toNat_inj]
    rfl
  simp only [← nat16At_eq]
  rw [hfive, readEntry_none_iff, readBox_eq_none, readCaps_none_iff]
  rfl

end Entry

/-! ### The effects of a shadow write (R26, R31) -/

/-- The new shadow with its digest and validation result, and the agreements that fall with the old one. -/
def TableUnit.rewritten (t : TableUnit) (cause : DropCause) (b : Bank) : TableUnit := { t with
  shadow := b, digest := digestOf b, result := validate b, agreement := ⟨none, none⟩,
  raises := t.raises ++ ((t.agreement.a.toList.map fun d => (⟨.armA, .agreementDropped, .dropped cause d none⟩ : Raise))
    ++ (t.agreement.b.toList.map fun d => ⟨.armB, .agreementDropped, .dropped cause d none⟩)) }

theorem TableUnit.drop_eq (t : TableUnit) (m : Arm) (cause : DropCause) (port : Option Side) : t.drop m cause port = { t with
    agreement := t.agreement.set m none,
    raises := t.raises ++ ((t.agreement.get m).toList.map fun d => ⟨m, .agreementDropped, .dropped cause d port⟩) } := by
  rw [TableUnit.drop]
  split
  case h_1 h =>
    rw [h, Option.toList_none, List.map_nil, List.append_nil, ← h, PerArm.set_get]
  case h_2 h => rw [h, Option.toList_some, List.map_singleton]

theorem TableUnit.dropAll_setShadow (t : TableUnit) (cause : DropCause) (b : Bank) :
    (t.setShadow b).dropAll cause = t.rewritten cause b := by
  simp only [TableUnit.dropAll, TableUnit.drop_eq, TableUnit.setShadow, TableUnit.rewritten, List.append_assoc]
  rfl

theorem TableUnit.write_eq (t : TableUnit) (b : Bank) : t.write b = t.rewritten .write b := t.dropAll_setShadow .write b

/-! ### The answer of each write -/

section Writes

variable {t : TableUnit} {r : Request}

theorem TableUnit.tableWrite_refused (h : 23 < (r.args.getD 0 0).toNat ∨ readEntry r.args 1 = none) :
    t.tableWrite r = (t, answerRefused r.head .range []) := by
  rw [TableUnit.tableWrite]
  split
  case h_1 e he => exact if_neg (by simpa [he, octetAt] using h)
  case h_2 => rfl

theorem TableUnit.tableWrite_written {e : ZoneEntry} (hi : (r.args.getD 0 0).toNat ≤ 23) (he : readEntry r.args 1 = some e) :
    let u := t.rewritten .write { t.shadow with entries := t.shadow.entries.set (r.args.getD 0 0).toNat e }
    t.tableWrite r = (u, u.writeAnswer r.head) := by
  simp only [TableUnit.tableWrite, he]
  rw [if_pos (by exact hi), TableUnit.write_eq]
  rfl

theorem TableUnit.headerWrite_refused (h : readHeader r.args = none) :
    t.headerWrite r = (t, answerRefused r.head .range []) := by
  simp only [TableUnit.headerWrite, h]

theorem TableUnit.headerWrite_written {h : Header} (hr : readHeader r.args = some h) :
    let u := { t.rewritten .write { t.shadow with header := h } with toWs := t.toWs ++ [.presence h.present] }
    t.headerWrite r = (u, u.writeAnswer r.head) := by
  simp only [TableUnit.headerWrite, hr, TableUnit.write_eq]
  rfl

theorem readArm_eq_none (n : Nat) : readArm n = none ↔ 1 < n := by
  rw [readArm]
  split_ifs <;> simp <;> omega

theorem readArm_of_le {n : Nat} (h : n ≤ 1) : readArm n = some (if n = 0 then .armA else .armB) := by
  interval_cases n <;> rfl

theorem TableUnit.profileWrite_refused (h : 1 < (r.args.getD 0 0).toNat ∨ readProfile r.args 1 = none) :
    t.profileWrite r = (t, answerRefused r.head .range []) := by
  rw [TableUnit.profileWrite]
  split
  case h_1 m p hm hp =>
    rcases h with h | h
    · cases hm.symm.trans ((readArm_eq_none _).mpr h)
    · cases hp.symm.trans h
  case h_2 => rfl

theorem TableUnit.profileWrite_written {p : Profile} (hi : (r.args.getD 0 0).toNat ≤ 1) (hp : readProfile r.args 1 = some p) :
    let u := t.rewritten .write { t.shadow with
      profiles := if (r.args.getD 0 0).toNat = 0 then ⟨p, t.shadow.profiles.b⟩ else ⟨t.shadow.profiles.a, p⟩ }
    t.profileWrite r = (u, u.writeAnswer r.head) := by
  have harm : readArm (octetAt r.args 0) = some (if (r.args.getD 0 0).toNat = 0 then .armA else .armB) := readArm_of_le hi
  simp only [TableUnit.profileWrite, harm, hp, TableUnit.write_eq]
  split_ifs <;> rfl

theorem TableUnit.reset_eq (t : TableUnit) :
    t.reset = { t.rewritten .tablesReset Bank.powerOn with toWs := t.toWs ++ [.presence ⟨false, false⟩] } := by
  rw [TableUnit.reset, TableUnit.dropAll_setShadow]
  rfl

end Writes

/-- A request that the table unit takes, by what it makes of it. -/
theorem takesTableRequest {c : Instr} {m : Arm} {n : ReqName} {s : State} {k : Request → TableUnit → TableUnit × Answer} {r : Request}
    {rest : List TableEvent} {v : TableUnit} {ans : Answer} (hc : exec c s = takeTableRequest m n s k) (ht : s.tableTakes m n r rest)
    (hk : k r { s.table with arrivals := rest } = (v, ans)) : exec c s = .next ((s.setTable v).answer m ans) := by
  obtain ⟨ho, ha, hm, hn⟩ := ht
  rw [hc, takeTableRequest_take ho ha hm hn, hk]

/-! ### The octets of a validation result (R33, R35) -/

theorem validationOctets_failed (item : BankItem) (why : ValReason) (field : ProfileField) :
    validationOctets (.failed ⟨item, why, none⟩) = [1, item.code, why.code, 0, 0]
      ∧ validationOctets (.failed ⟨item, why, some field⟩) = [1, item.code, why.code, 1, field.code] := ⟨rfl, rfl⟩

/-! ### The obligation about shadow writes -/

/-- Settles O54: each write by what its record reads as, the check by its octets, and the validation result as the first test
that fails. -/
theorem shadowWriteRule : Obligations.ShadowWriteRule := by
  refine ⟨fun m s r rest => ?_, readHeader_eq_none, readProfile_eq_none, readEntry_eq_none, rfl, check_append_singleton,
    digestOf_eq, fun b => ⟨validate_passed, fun _ _ _ _ ht hf hpass => validate_failed ht hf hpass⟩, rfl, validationOctets_failed,
    rfl, fun _ => rfl, rfl, rfl, rfl, rfl⟩
  refine ⟨fun ht => ?tableWrite, fun ht => ?headerWrite, fun ht => ?profileWrite, fun ht => ?tablesReset⟩
  case tableWrite =>
    exact ⟨fun h => takesTableRequest (exec_tableWrite m s) ht (TableUnit.tableWrite_refused h),
      fun e hi he => takesTableRequest (exec_tableWrite m s) ht (TableUnit.tableWrite_written hi he)⟩
  case headerWrite =>
    exact ⟨fun h => takesTableRequest (exec_headerWrite m s) ht (TableUnit.headerWrite_refused h),
      fun h hr => takesTableRequest (exec_headerWrite m s) ht (TableUnit.headerWrite_written hr)⟩
  case profileWrite =>
    exact ⟨fun h => takesTableRequest (exec_profileWrite m s) ht (TableUnit.profileWrite_refused h),
      fun p hi hp => takesTableRequest (exec_profileWrite m s) ht (TableUnit.profileWrite_written hi hp)⟩
  case tablesReset => exact takesTableRequest (exec_tablesReset m s) ht (by rw [TableUnit.reset_eq]; rfl)

/-! ### Reads of the shadow (R30, R32, R33, R149) -/

theorem takeFirst_append {p : TableEvent → Bool} {pre post : List TableEvent} {e : TableEvent} (hpre : ∀ x ∈ pre, p x = false)
    (he : p e = true) : takeFirst p (pre ++ e :: post) = some (e, pre ++ post) := by
  induction pre with
  | nil => exact if_pos he
  | cons x pre ih =>
    rw [List.cons_append, takeFirst, if_neg (by simp [hpre x (by simp)]), ih fun y hy => hpre y (List.mem_cons_of_mem _ hy)]
    rfl

/-- A read is taken when it is at the front, or while a commit is outstanding when it is the first of its kind. -/
theorem takeTableRead_take {m : Arm} {n : ReqName} {s : State} {k : Request → TableUnit → Answer} {r : Request}
    {pre post : List TableEvent} (ha : s.table.arrivals = pre ++ .request r :: post) (hm : r.arm = m) (hn : r.name = n)
    (hready : pre = [] ∨ (s.table.outstanding = true ∧ ∀ e ∈ pre, e.isRequest m n = false))
    (hk : k r { s.table with arrivals := pre ++ post } = k r s.table) :
    takeTableRead m n s k = .next ((s.setTable { s.table with arrivals := pre ++ post }).answer m (k r s.table)) := by
  rw [takeTableRead]
  by_cases ho : s.table.outstanding = true
  · have hpre : ∀ e ∈ pre, e.isRequest m n = false := by
      rcases hready with rfl | ⟨-, hpre⟩
      · simp
      · exact hpre
    rw [if_pos ho, ha, takeFirst_append hpre (by simp [TableEvent.isRequest, hm, hn])]
  · have hnil : pre = [] := hready.resolve_right fun h => ho h.1
    subst hnil
    rw [if_neg ho, takeTableRequest_take (by simpa using ho) ha hm hn]
    exact congrArg (fun ans => Host.Outcome.next (State.answer _ m ans)) hk

section Reads

variable {r : Request}

theorem Workspace.readActive_range {w : Workspace} (h : 26 < (r.args.getD 1 0).toNat) :
    w.readActive r = answerRefused r.head .range [] := if_pos h

theorem Workspace.readActive_noBank {w : Workspace} (h : (r.args.getD 1 0).toNat ≤ 26) (ha : w.active = none) :
    w.readActive r = answerRefused r.head .noBank [] := by
  rw [Workspace.readActive, if_neg (by exact not_lt.mpr h), ha]

theorem Workspace.readActive_item {w : Workspace} {b : Bank} (h : (r.args.getD 1 0).toNat ≤ 26) (ha : w.active = some b) :
    w.readActive r = answerOk r.head (b.item (r.args.getD 1 0).toNat) := by
  rw [Workspace.readActive, if_neg (by exact not_lt.mpr h), ha]
  rfl

theorem octetAt_eq_one (os : List Octet) (i : Nat) : octetAt os i = 1 ↔ os.getD i 0 = 1 := by
  rw [octetAt, ← BitVec.toNat_inj]
  rfl

theorem TableUnit.readShadow_range {t : TableUnit} (h : r.args.getD 0 0 ≠ 1 ∨ 26 < (r.args.getD 1 0).toNat) :
    t.readShadow r = answerRefused r.head .range [] :=
  if_pos (h.imp_left (mt (octetAt_eq_one _ _).mp))

theorem TableUnit.readShadow_item {t : TableUnit} (h : r.args.getD 0 0 = 1) (hi : (r.args.getD 1 0).toNat ≤ 26) :
    t.readShadow r = answerOk r.head (t.shadow.item (r.args.getD 1 0).toNat) :=
  if_neg fun hbad => hbad.elim (fun hne => hne ((octetAt_eq_one _ _).mpr h)) (not_lt.mpr hi)

end Reads

theorem Bank.item_entry (b : Bank) {i : Nat} (hi : i < 24) : b.item (i + 1) = entryOctets (b.entries.getD i .empty) := by
  rw [Bank.item, if_neg (by omega), if_pos (by omega), Nat.add_sub_cancel]

/-- Settles O55: a read of the active bank at the workspace unit, reads of the shadow at the table unit, and the items. -/
theorem tableReadRule : Obligations.TableReadRule := by
  refine ⟨fun m s r rest ht => ?active, fun m s r pre post ha hm => ?shadow, fun b => ⟨rfl, fun i hi => b.item_entry hi, rfl, rfl⟩⟩
  case active =>
    obtain ⟨hr, hm, hn⟩ := ht
    have hwaits : s.ws.readWaits m = true := by simp [Workspace.readWaits, hr, hm, hn]
    have hrun {ans : Answer} (hans : s.ws.readActive r = ans) :
        exec (.tableRead m) s = .next ((s.setWs { s.ws with requests := rest }).answer m ans) := by
      rw [exec_tableRead, execTableRead, if_pos hwaits, takeWsRequest_take hr hm hn, ← hans]
      rfl
    exact ⟨fun h => hrun (Workspace.readActive_range h), fun h ha => hrun (Workspace.readActive_noBank h ha),
      fun b h ha => hrun (Workspace.readActive_item h ha)⟩
  case shadow =>
    refine ⟨fun ⟨hn, hready⟩ hwaits => ?_, fun ⟨hn, hready⟩ => ?_⟩
    · have hrun {ans : Answer} (hans : s.table.readShadow r = ans) : exec (.tableRead m) s
          = .next ((s.setTable { s.table with arrivals := pre ++ post }).answer m ans) := by
        rw [exec_tableRead, execTableRead, if_neg (by simp [hwaits]), takeTableRead_take ha hm hn hready rfl, hans]
      exact ⟨fun h => hrun (TableUnit.readShadow_range h), fun h hi => hrun (TableUnit.readShadow_item h hi)⟩
    · rw [exec_digestRead, execDigestRead, takeTableRead_take ha hm hn hready rfl]
      rfl

/-! ### Agreement (R145, R147, R148) -/

theorem presentIn_iff (active : Option Bank) (m : Arm) : presentIn active m = true ↔ ∃ b, active = some b ∧ b.present m = true := by
  cases active <;> simp [presentIn]

theorem TableUnit.required_iff (t : TableUnit) (active : Option Bank) (n : Arm) :
    t.required active n = true ↔ t.shadow.present n = true ∨ ∃ b, active = some b ∧ b.present n = true := by
  rw [TableUnit.required, Bool.or_eq_true, presentIn_iff, or_comm]

theorem TableUnit.commitTest_iff (t : TableUnit) (active : Option Bank) : t.commitTest active = true
    ↔ ∀ n : Arm, (t.shadow.present n = true ∨ ∃ b, active = some b ∧ b.present n = true) → t.agreement.get n = some t.digest := by
  have harm (n : Arm) : (!(t.required active n) || t.agreement.get n == some t.digest) = true
      ↔ (t.required active n = true → t.agreement.get n = some t.digest) := by
    cases t.required active n <;> simp
  have hboth : t.commitTest active = true ↔ (t.required active .armA = true → t.agreement.get .armA = some t.digest)
      ∧ (t.required active .armB = true → t.agreement.get .armB = some t.digest) := by
    rw [← harm, ← harm, ← Bool.and_eq_true]
    rfl
  simp only [hboth, ← TableUnit.required_iff]
  exact ⟨fun ⟨ha, hb⟩ n => by cases n; exacts [ha, hb], fun h => ⟨h .armA, h .armB⟩⟩

theorem failureOctets_eq (f : ValFailure) :
    failureOctets f = [f.item.code, f.reason.code] ++ f.field.elim [0, 0] (fun x => [1, x.code]) := by
  rw [failureOctets]
  cases f.field <;> rfl

section Agree

variable {t : TableUnit} {active : Option Bank} {m : Arm} {r : Request}

theorem TableUnit.agree_unlocked (hl : t.ctrlLocked.get m = false) : t.agree active m r = (t, answerRefused r.head .state []) :=
  if_pos (by rw [hl]; rfl)

theorem TableUnit.agree_mismatch (hl : t.ctrlLocked.get m = true) (hd : (r.args.getD 0 0 ++ r.args.getD 1 0 : BitVec 16) ≠ t.digest) :
    t.agree active m r = (t, answerRefused r.head .mismatch (octets16 t.digest)) :=
  (if_neg (by simp [hl])).trans (if_pos hd)

theorem TableUnit.agree_invalid {f : ValFailure} (hl : t.ctrlLocked.get m = true)
    (hd : (r.args.getD 0 0 ++ r.args.getD 1 0 : BitVec 16) = t.digest) (hf : t.result = .failed f) :
    t.agree active m r = (t, answerRefused r.head .invalid (failureOctets f)) := by
  simp only [TableUnit.agree]
  rw [if_neg (by simp [hl]), if_neg (not_not.mpr hd), hf]

/-- The records after an agreement that is not refused. -/
def TableUnit.agreed (t : TableUnit) (m : Arm) (d : Digest) : TableUnit := { t with agreement := t.agreement.set m (some d) }

theorem TableUnit.agree_passed (hl : t.ctrlLocked.get m = true)
    (hd : (r.args.getD 0 0 ++ r.args.getD 1 0 : BitVec 16) = t.digest) (hp : t.result = .passed) :
    let u := t.agreed m (r.args.getD 0 0 ++ r.args.getD 1 0)
    t.agree active m r = (if u.commitTest active then u.requestCommit else u,
      answerOk r.head (octets16 (r.args.getD 0 0 ++ r.args.getD 1 0) ++ [yesNo (u.commitTest active)])) := by
  simp only [TableUnit.agree]
  rw [if_neg (by simp [hl]), if_neg (not_not.mpr hd)]
  split
  case h_1 f hf => cases hp.symm.trans hf
  case h_2 => rfl

/-- The record of every arm required for a commit holds the current digest (R148). -/
def TableUnit.AllAgreed (t : TableUnit) (active : Option Bank) : Prop :=
  ∀ n : Arm, (t.shadow.present n = true ∨ ∃ b, active = some b ∧ b.present n = true) → t.agreement.get n = some t.digest

theorem TableUnit.agree_waits (hl : t.ctrlLocked.get m = true)
    (hd : (r.args.getD 0 0 ++ r.args.getD 1 0 : BitVec 16) = t.digest) (hp : t.result = .passed)
    (h : ¬(t.agreed m (r.args.getD 0 0 ++ r.args.getD 1 0)).AllAgreed active) :
    t.agree active m r = (t.agreed m (r.args.getD 0 0 ++ r.args.getD 1 0),
      answerOk r.head (octets16 (r.args.getD 0 0 ++ r.args.getD 1 0) ++ [0])) := by
  have htest := Bool.eq_false_iff.mpr (mt (TableUnit.commitTest_iff _ active).mp h)
  rw [TableUnit.agree_passed hl hd hp, htest]
  rfl

theorem TableUnit.agree_requests (hl : t.ctrlLocked.get m = true)
    (hd : (r.args.getD 0 0 ++ r.args.getD 1 0 : BitVec 16) = t.digest) (hp : t.result = .passed)
    (h : (t.agreed m (r.args.getD 0 0 ++ r.args.getD 1 0)).AllAgreed active) :
    t.agree active m r = ((t.agreed m (r.args.getD 0 0 ++ r.args.getD 1 0)).requestCommit,
      answerOk r.head (octets16 (r.args.getD 0 0 ++ r.args.getD 1 0) ++ [1])) := by
  have htest := (TableUnit.commitTest_iff _ active).mpr h
  rw [TableUnit.agree_passed hl hd hp, htest]
  rfl

end Agree

theorem TableUnit.lockReport_eq (t : TableUnit) (side : Side) (m : Arm) (locked : Bool) : t.lockReport side m locked = { t with
    ctrlLocked := if side = .ctrl then t.ctrlLocked.set m locked else t.ctrlLocked,
    agreement := if locked then t.agreement else t.agreement.set m none,
    raises := t.raises ++ (if locked then [] else (t.agreement.get m).toList.map fun d =>
      ⟨m, .agreementDropped, .dropped .lock d (some side)⟩) } := by
  have hnote (l : Bool) : t.noteLock side m l
      = { t with ctrlLocked := if side = .ctrl then t.ctrlLocked.set m l else t.ctrlLocked } := by
    cases side <;> rfl
  cases locked with
  | true =>
    simp only [TableUnit.lockReport, hnote]
    simp
  | false =>
    simp only [TableUnit.lockReport, TableUnit.drop_eq, hnote]
    rfl

/-- Settles O56: an agreement by the tests it meets in their order, and a lock report. -/
theorem agreementRule : Obligations.AgreementRule := by
  refine ⟨fun m s r rest ht => ?agree, fun m side locked s rest ho ha => ?lock⟩
  case agree =>
    have hgives {v : TableUnit} {ans : Answer} (h : TableUnit.agree _ s.ws.active m r = (v, ans)) :
        exec (.agree m) s = .next ((s.setTable v).answer m ans) := takesTableRequest (exec_agree m s) ht h
    refine ⟨fun hl => hgives (TableUnit.agree_unlocked hl), fun hl hd => hgives (TableUnit.agree_mismatch hl hd),
      fun f hl hd hf => ?invalid, fun hl hd hp hnot => hgives (TableUnit.agree_waits hl hd hp hnot),
      fun hl hd hp hall => hgives (TableUnit.agree_requests hl hd hp hall)⟩
    rw [← failureOctets_eq]
    exact hgives (TableUnit.agree_invalid hl hd hf)
  case lock =>
    refine ((exec_tableLockReport s).trans (takeTable_take ho ha)).trans ?_
    exact congrArg (fun t => Host.Outcome.next (s.setTable t)) (TableUnit.lockReport_eq _ side m locked)

/-! ### Completion (R153) -/

theorem TableUnit.complete_done (t : TableUnit) (old : Option Bank) (label : Nat) (digest : Digest) (changed : Bool) :
    let b := old.getD Bank.powerOn
    t.complete (.done old label digest changed) = { t with
      shadow := b, digest := digestOf b, result := validate b, agreement := ⟨none, none⟩, outstanding := false, completion := none,
      toWs := t.toWs ++ [.presence b.header.present],
      raises := t.raises ++ [⟨.armA, .commitDone, .commitDone label digest (digestOf b) changed⟩,
        ⟨.armB, .commitDone, .commitDone label digest (digestOf b) changed⟩] } := by
  simp only [TableUnit.complete, TableUnit.setShadow, TableUnit.endCommit, TableUnit.reportPresence, TableUnit.raiseBoth]

theorem exec_commitCompletion_of {s : State} {c : Completion} (hc : s.table.completion = some c) :
    exec .commitCompletion s = .next (s.setTable (s.table.complete c)) := by
  rw [exec_commitCompletion, execCommitCompletion, hc]

/-- Settles O59: what a completion leaves of the table unit, done and refused. -/
theorem completionRule : Obligations.CompletionRule := fun s =>
  ⟨fun old label digest changed hc => (exec_commitCompletion_of hc).trans
      (congrArg (fun t => Host.Outcome.next (s.setTable t)) (s.table.complete_done old label digest changed)),
    fun _ hc => exec_commitCompletion_of hc⟩

end Sys2Proof.Machine

end

