-- ==== Sys2Proof/Proofs/Commits.lean ====
section
/-! PROOFS. Chapter 8: the commit done and the tests of a commit in their order, settling CommitRule. -/

namespace Sys2Proof.Machine

/-! ### The commit taken (R150, R151) -/

section Taken

variable {s : State} {new : Bank} {digest : Digest} {rest : List FromTable}

theorem exec_commit_refused {why : CommitRefusal} (hc : s.table.toWs = .commit new digest :: rest)
    (h : s.ws.commitRefusal new = some why) :
    exec .commit s = .next ((s.setTable { s.table with toWs := rest }).sendCompletion (.refused why)) := by
  rw [exec_commit, execCommit, hc]
  simp only [State.takeCommit, State.setTable_ws, h]

theorem exec_commit_done (hc : s.table.toWs = .commit new digest :: rest) (h : s.ws.commitRefusal new = none) :
    exec .commit s = .next (((((s.setTable { s.table with toWs := rest }).setWs (s.ws.commitDone new)).notifyCommit new).sendCompletion
      (.done s.ws.active new.header.label digest (s.ws.geometryChanges new)))) := by
  rw [exec_commit, execCommit, hc]
  simp only [State.takeCommit, State.setTable_ws, h]

end Taken

namespace Workspace

variable (w : Workspace) (new : Bank)

/-! ### What the commit leaves at the workspace unit (R93, R127, R128, R151) -/

theorem presentIn_iff_exists (n : Arm) : presentIn w.active n = true ↔ ∃ old ∈ w.active, old.present n = true :=
  presentIn_iff w.active n

theorem newRecord_eq (n : Arm) : w.newRecord new n = if new.present n = false then .absent
    else if ∃ old ∈ w.active, old.present n = true then w.record n else .unknown := by
  simp only [newRecord, ← presentIn_iff_exists]
  cases new.present n <;> rfl

theorem newCells_eq : w.newCells new = if new.bin ≠ w.bin then new.bin.map fun g => List.replicate (g.bays * g.cells) .free
    else if new.bin = none then none else w.cells := by
  rw [newCells]
  cases hb : new.bin with
  | none => simp
  | some g =>
    by_cases hw : w.bin = some g
    · simp [hw]
    · simp [hw, Ne.symm hw]

theorem newScan_eq : w.newScan new = if new.bin ≠ w.bin ∨ new.bin = none then 0 else w.scan := by
  rw [newScan]
  cases hb : new.bin with
  | none => simp
  | some g =>
    by_cases hw : w.bin = some g
    · simp [hw]
    · simp [hw, Ne.symm hw]

/-- The outcomes of the claims that a commit cancels, for one arm in queue order. -/
def cancelledOutcomes (n : Arm) : List ToPort :=
  (w.queue.filter fun e => w.cancels new e && e.arm == n).map fun e => .outcome ⟨e.tag, .cancelled, e.run⟩

theorem claimsOf_cancels (n : Arm) :
    ((claimsOf n (w.queue.filter (w.cancels new))).map fun e => ToPort.outcome (e.outcome .cancelled)) = w.cancelledOutcomes new n := by
  rw [claimsOf, List.filter_filter, cancelledOutcomes]
  simp only [Bool.and_comm]
  rfl

theorem commitDone_outcomes : w.commitDone new = ({ w.committed new with
    toPort := ⟨w.toPort.a ++ w.cancelledOutcomes new .armA, w.toPort.b ++ w.cancelledOutcomes new .armB⟩,
    outcomeCount := ⟨w.outcomeCount.a + (w.cancelledOutcomes new .armA).length,
      w.outcomeCount.b + (w.cancelledOutcomes new .armB).length⟩ } : Workspace).reevaluate := by
  rw [commitDone_eq, handAll_eq, ← claimsOf_cancels, ← claimsOf_cancels, List.length_map, List.length_map]
  rfl

/-! ### The tests of a commit (R150) -/

def HoldsCell (n : Arm) : Prop := ∃ c ∈ w.cellList, c.heldBy n = true

/-- Test 1 fails: the geometry changes and a cell is held. -/
def HeldAgainst : Prop := new.bin ≠ w.bin ∧ (w.HoldsCell .armA ∨ w.HoldsCell .armB)

/-- The first kind that a stored box violates against the new bank. -/
def BoxBad (b : Box) (n : Arm) (k : FaultKind) : Prop :=
  if (outsideWorld b).firstAxis.isSome then k = .range
  else if ∃ z ∈ new.forbiddens, b.meets z = true then k = .forbidden
  else b.coveredBy (new.homes n ++ (if new.bin ≠ w.bin then [] else heldSpace new.bin w.cellList n)) = false ∧ k = .trespass

/-- Test 2 fails for an arm. -/
def IllegalUnder (n : Arm) (k : FaultKind) : Prop :=
  new.present n = true ∧ ∃ box part env, w.record n = .motion box part env ∧ w.BoxBad new box n k

/-- Test 3 fails for an arm. -/
def ActiveAgainst (n : Arm) : Prop := (∃ old ∈ w.active, old.present n = true) ∧ new.present n = false
  ∧ (w.HoldsCell n ∨ (w.reported.get n).moving = true ∨ (w.record n).isMotion = true)

theorem leasesHeld_eq_some (why : CommitRefusal) : w.leasesHeld new = some why ↔ ∃ i o, why = .leasesHeld i o ∧ new.bin ≠ w.bin
    ∧ (∃ c, w.cellList[i]? = some c ∧ c.heldBy o = true) ∧ ∀ (j : Nat) (c : CellRec), j < i → w.cellList[j]? = some c → c = .free := by
  have hfirst (i : Nat) (o : Arm) : firstHeld 0 w.cellList = some (i, o) ↔ (∃ c, w.cellList[i]? = some c ∧ c.heldBy o = true)
      ∧ ∀ (j : Nat) (c : CellRec), j < i → w.cellList[j]? = some c → c = .free := by
    rw [firstHeld_some]
    constructor
    · rintro ⟨k, rfl, hk⟩
      simpa using hk
    · exact fun h => ⟨i, by simp, h⟩
  by_cases hbin : new.bin = w.bin
  · simp [leasesHeld, geometryChanges, hbin]
  · simp only [leasesHeld, geometryChanges, hbin, not_false_eq_true, ne_eq, decide_true, if_true, Option.map_eq_some_iff, true_and,
      ← hfirst]
    exact ⟨fun ⟨⟨i, o⟩, hf, hw⟩ => ⟨i, o, hw.symm, hf⟩, fun ⟨i, o, hw, hf⟩ => ⟨(i, o), hf, hw.symm⟩⟩

theorem firstHeld_eq_none (i : Nat) (cells : List CellRec) :
    firstHeld i cells = none ↔ ∀ n : Arm, ∀ c ∈ cells, c.heldBy n = false := by
  induction cells generalizing i with
  | nil => simp [firstHeld]
  | cons c rest ih =>
    cases c with
    | free => simp [firstHeld, ih, CellRec.heldBy]
    | held owner lease deadline =>
      simp only [firstHeld, reduceCtorEq, false_iff]
      exact fun h => by simpa [CellRec.heldBy] using h owner _ (List.mem_cons_self ..)

theorem leasesHeld_eq_none : w.leasesHeld new = none ↔ ¬w.HeldAgainst new := by
  have hnone : firstHeld 0 w.cellList = none ↔ ¬(w.HoldsCell .armA ∨ w.HoldsCell .armB) := by
    rw [firstHeld_eq_none]
    constructor
    · rintro h (⟨c, hc, hheld⟩ | ⟨c, hc, hheld⟩)
      · simp [h _ c hc] at hheld
      · simp [h _ c hc] at hheld
    · intro h n c hc
      rw [Bool.eq_false_iff]
      intro hheld
      cases n
      · exact h (.inl ⟨c, hc, hheld⟩)
      · exact h (.inr ⟨c, hc, hheld⟩)
  by_cases hbin : new.bin = w.bin
  · simp [leasesHeld, geometryChanges, HeldAgainst, hbin]
  · simp [leasesHeld, geometryChanges, HeldAgainst, hbin, hnone]

theorem newSpace_eq (n : Arm) :
    w.newSpace new n = new.homes n ++ (if new.bin ≠ w.bin then [] else heldSpace new.bin w.cellList n) := by
  by_cases hbin : new.bin = w.bin <;> simp [newSpace, entitled, geometryChanges, hbin, heldSpace]

theorem boxViolation_eq_some (n : Arm) (b : Box) (k : FaultKind) : w.boxViolation new n b = some k ↔ w.BoxBad new b n k := by
  rw [boxViolation, BoxBad]
  by_cases hr : (outsideWorld b).firstAxis.isSome = true
  · simp [hr, eq_comm]
  · by_cases hf : ∃ z ∈ new.forbiddens, b.meets z = true
    · rw [if_neg hr, if_neg hr, if_pos hf, if_pos ((violatesForbidden_iff new b).mpr hf), Option.some_inj, eq_comm]
    · rw [if_neg hr, if_neg hr, if_neg hf, if_neg (mt (violatesForbidden_iff new b).mp hf), newSpace_eq, violatesTrespass]
      cases b.coveredBy _ <;> simp [eq_comm]

theorem illegalBox_eq_some (n : Arm) (why : CommitRefusal) :
    w.illegalBox new n = some why ↔ ∃ k, why = .illegalBox n k ∧ w.IllegalUnder new n k := by
  rw [illegalBox]
  split
  case h_1 box part env hp hrec =>
    simp only [Option.map_eq_some_iff, boxViolation_eq_some, IllegalUnder, hp, hrec, true_and]
    constructor
    · rintro ⟨k, hbad, rfl⟩
      exact ⟨k, rfl, box, part, env, rfl, hbad⟩
    · rintro ⟨k, rfl, box', part', env', hsame, hbad⟩
      cases hsame
      exact ⟨k, hbad, rfl⟩
  case h_2 hnot =>
    simp only [reduceCtorEq, false_iff]
    rintro ⟨k, -, hp, box, part, env, hrec, -⟩
    exact hnot box part env hp hrec

theorem illegalBox_eq_none (n : Arm) : w.illegalBox new n = none ↔ ∀ k, ¬w.IllegalUnder new n k := by
  simp only [Option.eq_none_iff_forall_ne_some, ne_eq, illegalBox_eq_some]
  exact ⟨fun h k hk => h _ ⟨k, rfl, hk⟩, fun h why ⟨k, _, hk⟩ => h k hk⟩

theorem armActive_eq_some (n : Arm) (why : CommitRefusal) :
    w.armActive new n = some why ↔ why = .armActive n ∧ w.ActiveAgainst new n := by
  have hcond : (presentIn w.active n && !(new.present n)
      && (w.cellList.any (CellRec.heldBy n) || (w.reported.get n).moving || (w.record n).isMotion)) = true
      ↔ w.ActiveAgainst new n := by
    rw [ActiveAgainst, ← presentIn_iff_exists, HoldsCell]
    simp only [Bool.and_eq_true, Bool.or_eq_true, Bool.not_eq_true', List.any_eq_true, and_assoc, or_assoc]
  rw [armActive]
  by_cases h : w.ActiveAgainst new n
  · rw [if_pos (hcond.mpr h), Option.some_inj, eq_comm, and_iff_left h]
  · rw [if_neg (mt hcond.mp h)]
    simp [h]

theorem armActive_eq_none (n : Arm) : w.armActive new n = none ↔ ¬w.ActiveAgainst new n := by
  simp only [Option.eq_none_iff_forall_ne_some, ne_eq, armActive_eq_some]
  exact ⟨fun h hn => h _ ⟨rfl, hn⟩, fun h why hw => h hw.2⟩

/-- The tests in their order: the first that fails is the reason. -/
theorem commitRefusal_eq_some (why : CommitRefusal) : w.commitRefusal new = some why ↔ w.leasesHeld new = some why
    ∨ (¬w.HeldAgainst new ∧ (w.illegalBox new .armA = some why
      ∨ ((∀ k, ¬w.IllegalUnder new .armA k) ∧ (w.illegalBox new .armB = some why
        ∨ ((∀ k, ¬w.IllegalUnder new .armB k) ∧ (w.armActive new .armA = some why
          ∨ (¬w.ActiveAgainst new .armA ∧ w.armActive new .armB = some why))))))) := by
  rw [← leasesHeld_eq_none, ← illegalBox_eq_none, ← illegalBox_eq_none, ← armActive_eq_none]
  have horElse (x y : Option CommitRefusal) : (x.orElse fun _ => y) = some why ↔ x = some why ∨ (x = none ∧ y = some why) :=
    Option.orElse_eq_some x y why
  simp only [commitRefusal, horElse]

theorem commitRefusal_leasesHeld (i : Nat) (owner : Arm) : w.commitRefusal new = some (.leasesHeld i owner) ↔ new.bin ≠ w.bin
    ∧ (∃ c, w.cellList[i]? = some c ∧ c.heldBy owner = true)
    ∧ ∀ (j : Nat) (c : CellRec), j < i → w.cellList[j]? = some c → c = .free := by
  simp [commitRefusal_eq_some, leasesHeld_eq_some, illegalBox_eq_some, armActive_eq_some]

theorem commitRefusal_illegalBox (n : Arm) (k : FaultKind) : w.commitRefusal new = some (.illegalBox n k)
    ↔ ¬w.HeldAgainst new ∧ w.IllegalUnder new n k ∧ (n = .armB → ∀ j, ¬w.IllegalUnder new .armA j) := by
  cases n <;> simp [commitRefusal_eq_some, leasesHeld_eq_some, illegalBox_eq_some, armActive_eq_some, and_comm]

theorem commitRefusal_armActive (n : Arm) : w.commitRefusal new = some (.armActive n) ↔ ¬w.HeldAgainst new
    ∧ (∀ a j, ¬w.IllegalUnder new a j) ∧ w.ActiveAgainst new n ∧ (n = .armB → ¬w.ActiveAgainst new .armA) := by
  have hboth : (∀ a j, ¬w.IllegalUnder new a j) ↔ (∀ j, ¬w.IllegalUnder new .armA j) ∧ ∀ j, ¬w.IllegalUnder new .armB j :=
    ⟨fun h => ⟨h .armA, h .armB⟩, fun ⟨ha, hb⟩ a => by cases a; exacts [ha, hb]⟩
  rw [hboth]
  simp only [commitRefusal_eq_some, leasesHeld_eq_some, illegalBox_eq_some, armActive_eq_some, reduceCtorEq,
    CommitRefusal.armActive.injEq, false_and, exists_false, false_or, and_assoc]
  cases n with
  | armA => simp
  | armB => simp [and_comm (a := w.ActiveAgainst new .armB)]

end Workspace

/-! ### The obligation -/

/-- Settles O58: the commit refused and the commit done, block by block, and each reason by the test that fails first. -/
theorem commitRule : Obligations.CommitRule := by
  refine ⟨fun s new digest rest hc => ⟨fun why h => exec_commit_refused hc h, fun h => ?done⟩, fun w new =>
    ⟨w.commitRefusal_leasesHeld new, w.commitRefusal_illegalBox new, w.commitRefusal_armActive new⟩⟩
  intro record cells goes outcomes notice timer
  refine (exec_commit_done hc h).trans ?_
  rw [Workspace.commitDone_outcomes, Workspace.committed, Workspace.newRecord_eq, Workspace.newRecord_eq, Workspace.newCells_eq,
    Workspace.newScan_eq]
  rfl

end Sys2Proof.Machine

end

