-- ==== Sys2Proof/Proofs/Idle.lean ====
section
/-! PROOFS. A command whose event is not the one its block takes next changes nothing: block by block, settling
NothingWaitsNothingChanges. -/

namespace Sys2Proof.Machine

section Idle

variable {m : Arm} {s : State}

/-! ### Events of an arm unit -/

theorem setpointArrival_idle (h : ∀ f, ¬∃ rest, s.armTakes m (.setpoint f) rest) : exec (.setpointArrival m) s = .next s :=
  (exec_setpointArrival m s).trans (takeArm_idle fun e rest ho ha => by
    cases e with
    | setpoint f => exact absurd ⟨rest, ho, ha⟩ (h f)
    | _ => rfl)

theorem feedbackArrival_idle (hf : ∀ f, ¬∃ rest, s.armTakes m (.feedback f) rest)
    (hs : ∀ f, ¬∃ rest, s.armTakes m (.faultSecond f) rest) : exec (.feedbackArrival m) s = .next s :=
  (exec_feedbackArrival m s).trans (takeArm_idle fun e rest ho ha => by
    cases e with
    | feedback f => exact absurd ⟨rest, ho, ha⟩ (hf f)
    | faultSecond f => exact absurd ⟨rest, ho, ha⟩ (hs f)
    | _ => rfl)

theorem paramArrival_idle (h : ∀ os seq, ¬∃ rest, s.armTakes m (.param os seq) rest) : exec (.paramArrival m) s = .next s :=
  (exec_paramArrival m s).trans (takeArm_idle fun e rest ho ha => by
    cases e with
    | param os seq => exact absurd ⟨rest, ho, ha⟩ (h os seq)
    | _ => rfl)

theorem armTickCopy_idle (h : ¬∃ rest, s.armTakes m .tick rest) : exec (.armTickCopy m) s = .next s :=
  (exec_armTickCopy m s).trans (takeArm_idle fun e rest ho ha => by
    cases e with
    | tick => exact absurd ⟨rest, ho, ha⟩ h
    | _ => rfl)

theorem lockGained_idle (h : ∀ side, ¬∃ rest, s.armTakes m (.lock side true) rest) : exec (.lockGained m) s = .next s :=
  (exec_lockGained m s).trans (takeArm_idle fun e rest ho ha => by
    cases e with
    | lock side locked =>
      cases locked with
      | true => exact absurd ⟨rest, ho, ha⟩ (h side)
      | false => rfl
    | _ => rfl)

theorem controllerLockLoss_idle (h : ¬∃ rest, s.armTakes m (.lock .ctrl false) rest) : exec (.controllerLockLoss m) s = .next s :=
  (exec_controllerLockLoss m s).trans (takeArm_idle fun e rest ho ha => by
    cases e with
    | lock side locked =>
      match side, locked with
      | .ctrl, false => exact absurd ⟨rest, ho, ha⟩ h
      | .ctrl, true => rfl
      | .drive, _ => rfl
    | _ => rfl)

theorem driveLockLoss_idle (h : ¬∃ rest, s.armTakes m (.lock .drive false) rest) : exec (.driveLockLoss m) s = .next s :=
  (exec_driveLockLoss m s).trans (takeArm_idle fun e rest ho ha => by
    cases e with
    | lock side locked =>
      match side, locked with
      | .drive, false => exact absurd ⟨rest, ho, ha⟩ h
      | .drive, true => rfl
      | .ctrl, _ => rfl
    | _ => rfl)

theorem commitNotice_idle (h : ∀ present profile, ¬∃ rest, s.armTakes m (.commitNotice present profile) rest) :
    exec (.commitNotice m) s = .next s :=
  (exec_commitNotice m s).trans (takeArm_idle fun e rest ho ha => by
    cases e with
    | commitNotice present profile => exact absurd ⟨rest, ho, ha⟩ (h present profile)
    | _ => rfl)

theorem armCut_idle (hr : ∀ r : Request, r.name = .armCut → ¬∃ rest, s.armTakes m (.request r) rest)
    (hs : ∀ r, ¬∃ rest, s.armTakes m (.cutSecond r) rest) : exec (.armCut m) s = .next s :=
  (exec_armCut m s).trans (takeArm_idle fun e rest ho ha => by
    cases e with
    | request r => exact if_neg fun hn => hr r hn ⟨rest, ho, ha⟩
    | cutSecond r => exact absurd ⟨rest, ho, ha⟩ (hs r)
    | _ => rfl)

theorem armRequest_idle {n : ReqName} {k : Request → ArmUnit → Result}
    (h : ∀ r : Request, r.name = n → ¬∃ rest, s.armTakes m (.request r) rest) : takeArmRequest m n s k = .next s :=
  takeArmRequest_idle fun r rest ho ha hn => h r hn ⟨rest, ho, ha⟩

/-- An expiry is not taken where none waits, the state is another, or what the command names does not come about. -/
theorem expiry_idle {ok : ArmState → Bool} {cond : ArmUnit → Bool} {k : ArmUnit → Result}
    (h : (¬∃ rest, s.armTakes m .expiry rest) ∨ ok (s.arm m).state = false
      ∨ ∀ rest, cond ({ s.arm m with arrivals := rest } : ArmUnit).takeProfile = false) :
    takeExpiry m s ok cond k = .next s := by
  refine takeExpiry_idle fun rest ho ha => ?_
  rcases h with hwait | hstate | hcond
  · exact absurd ⟨rest, ho, ha⟩ hwait
  · rw [hstate, Bool.false_and]
  · rw [hcond rest, Bool.and_false]

section Expiry

theorem isRun_eq_false {st : ArmState} : isRun st = false ↔ st ≠ .run := by
  cases st <;> simp [isRun]

theorem isHalting_eq_false {st : ArmState} : isHalting st = false ↔ st ≠ .halting := by
  cases st <;> simp [isHalting]

theorem isSettling_eq_false {st : ArmState} : isSettling st = false ↔ st ≠ .settling := by
  cases st <;> simp [isSettling]

theorem isQuiet_eq_false {st : ArmState} : isQuiet st = false ↔ st = .run ∨ st = .halting ∨ st = .settling := by
  cases st <;> simp [isQuiet]

theorem moving_eq_false {st : ArmState} : st.moving = false ↔ st ≠ .run ∧ st ≠ .halting ∧ st ≠ .settling := by
  cases st <;> simp [ArmState.moving]

variable {u : ArmUnit}

theorem ArmUnit.takeProfile_misses_not (h : u.slotFilled = true ∨ u.ctx.miss + 1 < (u.newProfile.getD u.work).missLimit) :
    (!u.takeProfile.slotFilled && u.takeProfile.missRunsOut) = false := by
  rw [ArmUnit.takeProfile_eq]
  rcases h with h | h
  · simp [h]
  · rw [Bool.eq_false_iff.mpr (mt (ArmUnit.missRunsOut_iff _).mp (not_le.mpr h)), Bool.and_false]

theorem ArmUnit.takeProfile_feedback_not (h : u.feedbackSeen = true ∨ u.ctx.feedback + 1 < (u.newProfile.getD u.work).feedbackLimit) :
    u.takeProfile.feedbackRunsOut = false := by
  rw [ArmUnit.takeProfile_eq, Bool.eq_false_iff, Ne, ArmUnit.feedbackRunsOut_iff]
  rintro ⟨hseen, hlimit⟩
  rcases h with h | h
  · simp [h] at hseen
  · exact absurd hlimit (not_le.mpr h)

theorem ArmUnit.takeProfile_settle_not (h : u.ctx.settleTimer + 1 < (u.newProfile.getD u.work).settleLimit) :
    u.takeProfile.settleRunsOut = false := by
  rw [ArmUnit.takeProfile_eq]
  exact Bool.eq_false_iff.mpr (mt (ArmUnit.settleRunsOut_iff _).mp (not_le.mpr h))

end Expiry

/-! ### Verdicts -/

theorem setpointVerdict_idle (h : ∀ f step geom expected stack, ¬∃ v, s.verdictTakes m (.setpoint f step geom expected stack) v) :
    exec (.setpointVerdict m) s = .next s :=
  (exec_setpointVerdict m s).trans (takeVerdict_idle fun o v ho hv => by
    cases o with
    | setpoint f step geom expected stack => exact absurd ⟨v, ho, hv⟩ (h f step geom expected stack)
    | _ => rfl)

theorem enableVerdict_idle (h : ∀ head geom, ¬∃ v, s.verdictTakes m (.enable head geom) v) :
    exec (.enableVerdict m) s = .next s :=
  (exec_enableVerdict m s).trans (takeVerdict_idle fun o v ho hv => by
    cases o with
    | enable head geom => exact absurd ⟨v, ho, hv⟩ (h head geom)
    | _ => rfl)

theorem envelopeVerdict_idle (h : ∀ head geom, ¬∃ v, s.verdictTakes m (.envelope head geom) v) :
    exec (.envelopeVerdict m) s = .next s :=
  (exec_envelopeVerdict m s).trans (takeVerdict_idle fun o v ho hv => by
    cases o with
    | envelope head geom => exact absurd ⟨v, ho, hv⟩ (h head geom)
    | _ => rfl)

/-! ### Messages of an arm unit to the workspace unit -/

theorem checkedPlacement_idle (h : ∀ pl, ¬∃ rest, s.wsTakes m (.checked pl) rest) : exec (.checkedPlacement m) s = .next s :=
  (exec_checkedPlacement m s).trans (takeFromArm_idle fun msg rest hm t => by
    cases msg with
    | checked pl => exact absurd ⟨rest, hm⟩ (h pl)
    | _ => rfl)

theorem forcedPlacement_idle (h : ∀ p p0 step geom, ¬∃ rest, s.wsTakes m (.forced p p0 step geom) rest) :
    exec (.forcedPlacement m) s = .next s :=
  (exec_forcedPlacement m s).trans (takeFromArm_idle fun msg rest hm t => by
    cases msg with
    | forced p p0 step geom => exact absurd ⟨rest, hm⟩ (h p p0 step geom)
    | _ => rfl)

theorem restUpdate_idle (h : ∀ p env geom, ¬∃ rest, s.wsTakes m (.rest p env geom) rest) : exec (.restUpdate m) s = .next s :=
  (exec_restUpdate m s).trans (takeFromArm_idle fun msg rest hm t => by
    cases msg with
    | rest p env geom => exact absurd ⟨rest, hm⟩ (h p env geom)
    | _ => rfl)

theorem setRecordUnknown_idle (h : ¬∃ rest, s.wsTakes m .setUnknown rest) : exec (.setRecordUnknown m) s = .next s :=
  (exec_setRecordUnknown m s).trans (takeFromArm_idle fun msg rest hm t => by
    cases msg with
    | setUnknown => exact absurd ⟨rest, hm⟩ h
    | _ => rfl)

theorem stateReport_idle (h : ∀ st, ¬∃ rest, s.wsTakes m (.stateReport st) rest) : exec (.stateReport m) s = .next s :=
  (exec_stateReport m s).trans (takeFromArm_idle fun msg rest hm t => by
    cases msg with
    | stateReport st => exact absurd ⟨rest, hm⟩ (h st)
    | _ => rfl)

theorem claimRemoval_idle (h : ¬∃ rest, s.wsTakes m .claimRemoval rest) : exec (.claimRemoval m) s = .next s :=
  (exec_claimRemoval m s).trans (takeFromArm_idle fun msg rest hm t => by
    cases msg with
    | claimRemoval => exact absurd ⟨rest, hm⟩ h
    | _ => rfl)

theorem statusRead_idle (h : ∀ head part, ¬∃ rest, s.wsTakes m (.statusRead head part) rest) :
    exec (.statusRead m) s = .next s :=
  (exec_statusRead m s).trans (takeFromArm_idle fun msg rest hm t => by
    cases msg with
    | statusRead head part => exact absurd ⟨rest, hm⟩ (h head part)
    | _ => rfl)

/-! ### Requests at the workspace unit, the report unit and the table unit -/

theorem wsRequest_idle {n : ReqName} {k : Request → Workspace → Workspace × Answer} (h : ∀ r rest, ¬s.wsTakesRequest m n r rest) :
    takeWsRequest m n s k = .next s :=
  takeWsRequest_idle fun r rest hr hmn => h r rest ⟨hr, hmn⟩

theorem takeNewFromWs_same (n : Arm) : s.takeNewFromWs s.ws.toPort n = s := if_neg (lt_irrefl _)

theorem release_idle (h : ∀ r rest, ¬s.wsTakesRequest m .release r rest) : exec (.release m) s = .next s := by
  rw [exec_release, execRelease, wsRequest_idle h]
  exact congrArg Host.Outcome.next ((congrArg (·.takeNewFromWs s.ws.toPort .armB) (takeNewFromWs_same .armA)).trans
    (takeNewFromWs_same .armB))

theorem reportRequest_idle {n : ReqName} {k : Request → ReportUnit → ReportUnit × Answer}
    (h : ∀ r rest, ¬s.reportTakes m n r rest) : takeReportRequest m n s k = .next s :=
  takeReportRequest_idle fun r rest hr hmn => h r rest ⟨hr, hmn⟩

theorem tableRequest_idle {n : ReqName} {k : Request → TableUnit → TableUnit × Answer}
    (h : ¬∃ r rest, s.tableTakes m n r rest) : takeTableRequest m n s k = .next s :=
  takeTableRequest_idle fun r rest ho ha hmn => h ⟨r, rest, ho, ha, hmn⟩

theorem shadowRead_idle {n : ReqName} {k : Request → TableUnit → Answer}
    (h : (s.table.outstanding = false → ¬∃ r rest, s.tableTakes m n r rest)
      ∧ (s.table.outstanding = true → ∀ r : Request, .request r ∈ s.table.arrivals → ¬(r.arm = m ∧ r.name = n))) :
    takeTableRead m n s k = .next s :=
  takeTableRead_idle (fun r rest ho ha hmn => h.1 ho ⟨r, rest, ho, ha, hmn⟩) h.2

theorem tableRead_idle (h : (s.table.outstanding = false → ¬∃ r rest, s.tableTakes m .tableRead r rest)
      ∧ (s.table.outstanding = true → ∀ r : Request, .request r ∈ s.table.arrivals → ¬(r.arm = m ∧ r.name = .tableRead)))
    (hw : ∀ r rest, ¬s.wsTakesRequest m .tableRead r rest) : exec (.tableRead m) s = .next s := by
  rw [exec_tableRead, execTableRead]
  split
  · exact wsRequest_idle hw
  · exact shadowRead_idle h

theorem tableLockReport_idle
    (h : s.table.outstanding = true ∨ ∀ side n locked rest, s.table.arrivals ≠ .lock side n locked :: rest) :
    exec .tableLockReport s = .next s := by
  rw [exec_tableLockReport, execTableLockReport, takeTable]
  split
  · next e rest ho ha =>
    cases e with
    | request r => rfl
    | lock side n locked =>
      rcases h with h | h
      · cases ho.symm.trans h
      · exact absurd ha (h side n locked rest)
  · rfl

/-! ### The remaining channels -/

theorem leaseTick_idle {cond : Bool} (h : s.ws.ticksDue = 0) : takeLeaseTick s cond = .next s := if_neg fun hc => hc.1 h

theorem reportTick_idle (h : s.report.ticksDue = 0) : exec .reportTick s = .next s := (exec_reportTick s).trans (if_pos h)

theorem commit_idle (h : ∀ bank digest rest, s.table.toWs ≠ .commit bank digest :: rest) : exec .commit s = .next s := by
  rw [exec_commit, execCommit]
  split
  · next bank digest rest hc => exact absurd hc (h bank digest rest)
  · rfl

theorem headerPresenceReport_idle (h : ∀ present rest, s.table.toWs ≠ .presence present :: rest) :
    exec .headerPresenceReport s = .next s := by
  rw [exec_headerPresenceReport, execHeaderPresenceReport]
  split
  · next present rest hc => exact absurd hc (h present rest)
  · rfl

theorem commitCompletion_idle (h : s.table.completion = none) : exec .commitCompletion s = .next s := by
  rw [exec_commitCompletion, execCommitCompletion, h]

theorem portExpiry_idle {side : Side} {cond : Bool} (h : s.expiryDue side m = false ∨ cond = false) :
    takePortExpiry side m s cond = .next s := by
  rw [takePortExpiry]
  rcases h with h | h
  · rw [h]
    rfl
  · rw [h, Bool.and_false]
    rfl

theorem LinkLock.silenceOut_eq_false {l : LinkLock} (h : l.locked = false ∨ l.silent < 15) : l.silenceOut = false := by
  rw [LinkLock.silenceOut]
  rcases h with h | h
  · rw [h, Bool.false_and]
  · rw [decide_eq_false (by omega), Bool.and_false]

theorem requestDecode_idle (h : (s.req.get m).incoming = none) : exec (.requestDecode m) s = .next s := by
  rw [exec_requestDecode, execRequestDecode, h]

theorem answerPlace_idle (h : (s.req.get m).answer = none) : exec (.answerPlace m) s = .next s := by
  rw [exec_answerPlace, execAnswerPlace, h]

theorem insertionOpportunity_idle (h : (s.port m).opportunity ≠ .offered) : exec (.insertionOpportunity m) s = .next s :=
  (exec_insertionOpportunity m s).trans (if_neg h)

theorem noticeSelection_idle (h : (s.port m).opportunity ≠ .asked) : exec (.noticeSelection m) s = .next s :=
  (exec_noticeSelection m s).trans (if_neg h)

theorem outcomeHandover_idle (h : ∀ o rest, s.ws.toPort.get m ≠ .outcome o :: rest) : exec (.outcomeHandover m) s = .next s := by
  rw [exec_outcomeHandover, execOutcomeHandover]
  split
  · next o rest hc => exact absurd hc (h o rest)
  · rfl

theorem outcomeDiscard_idle (h : ∀ rest, s.ws.toPort.get m ≠ .discard :: rest) : exec (.outcomeDiscard m) s = .next s := by
  rw [exec_outcomeDiscard, execOutcomeDiscard]
  split
  · next rest hc => exact absurd hc (h rest)
  · rfl

theorem sentReport_idle (h : ∀ rest, (s.port m).toWs ≠ .sent :: rest) : exec (.sentReport m) s = .next s := by
  rw [exec_sentReport, execSentReport]
  split
  · next rest hc => exact absurd hc (h rest)
  · rfl

theorem discardReport_idle (h : ∀ n rest, (s.port m).toWs ≠ .discarded n :: rest) : exec (.discardReport m) s = .next s := by
  rw [exec_discardReport, execDiscardReport]
  split
  · next n rest hc => exact absurd hc (h n rest)
  · rfl

theorem eventRaise_idle {b : Block} (h : s.raisesOf b = []) : exec (.eventRaise b) s = .next s := by
  rw [exec_eventRaise, execEventRaise, h]

end Idle

/-! ### The obligation -/

/-- Settles O60: command by command, in the order of the statement. -/
theorem nothingWaitsNothingChanges : Obligations.NothingWaitsNothingChanges := by
  intro m s
  dsimp only
  simp only [List.forall_mem_cons, List.not_mem_nil, false_implies, implies_true, and_true]
  refine ⟨setpointArrival_idle, feedbackArrival_idle, paramArrival_idle, armTickCopy_idle, lockGained_idle, controllerLockLoss_idle,
    driveLockLoss_idle, commitNotice_idle,
    fun h => (exec_cadenceExpiryRun m s).trans (expiry_idle (h.imp_right fun h => .inl (isRun_eq_false.mpr h))),
    fun h => (exec_cadenceExpiryHalting m s).trans (expiry_idle (h.imp_right fun h => .inl (isHalting_eq_false.mpr h))),
    fun h => (exec_cadenceExpirySettling m s).trans (expiry_idle (h.imp_right fun h => .inl (isSettling_eq_false.mpr h))),
    fun h => (exec_cadenceExpiryQuiet m s).trans (expiry_idle (h.imp_right fun h => .inl (isQuiet_eq_false.mpr h))),
    fun h => (exec_frameLoss m s).trans (expiry_idle (h.imp_right fun h => h.imp isRun_eq_false.mpr fun h _ =>
      ArmUnit.takeProfile_misses_not (u := { s.arm m with arrivals := _ }) h)),
    fun h => (exec_feedbackLoss m s).trans (expiry_idle (h.imp_right fun h => h.imp moving_eq_false.mpr fun h _ =>
      ArmUnit.takeProfile_feedback_not (u := { s.arm m with arrivals := _ }) h)),
    fun h => (exec_settleTimeout m s).trans (expiry_idle (h.imp_right fun h => h.imp isSettling_eq_false.mpr fun h _ =>
      ArmUnit.takeProfile_settle_not (u := { s.arm m with arrivals := _ }) h)),
    ?armRequests, armCut_idle, setpointVerdict_idle, enableVerdict_idle, envelopeVerdict_idle, checkedPlacement_idle,
    forcedPlacement_idle, restUpdate_idle, setRecordUnknown_idle, stateReport_idle, claimRemoval_idle, statusRead_idle,
    ?wsRequests, ?reportRequests, ?tableRequests, fun h => (exec_digestRead m s).trans (shadowRead_idle h), tableRead_idle,
    tableLockReport_idle,
    fun h => ⟨(exec_leaseTick s).trans (leaseTick_idle h), (exec_leaseLapse s).trans (leaseTick_idle h),
      (exec_waitExpired s).trans (leaseTick_idle h)⟩,
    reportTick_idle, commit_idle, headerPresenceReport_idle, commitCompletion_idle,
    fun side h => ⟨(exec_portCadenceExpiry side m s).trans (portExpiry_idle (.inl h)),
      (exec_lockLossSilence side m s).trans (portExpiry_idle (.inl h))⟩,
    fun h => (exec_lockLossSilence .ctrl m s).trans (portExpiry_idle (.inr (LinkLock.silenceOut_eq_false h))),
    fun h => (exec_lockLossSilence .drive m s).trans (portExpiry_idle (.inr (LinkLock.silenceOut_eq_false h))),
    requestDecode_idle, answerPlace_idle, insertionOpportunity_idle, noticeSelection_idle, outcomeHandover_idle,
    outcomeDiscard_idle, sentReport_idle, discardReport_idle, fun b => eventRaise_idle⟩
  case armRequests =>
    exact ⟨fun h => (exec_armEnable m s).trans (armRequest_idle h), fun h => (exec_armHalt m s).trans (armRequest_idle h),
      fun h => (exec_armClear m s).trans (armRequest_idle h), fun h => (exec_armReset m s).trans (armRequest_idle h),
      fun h => (exec_armStatus m s).trans (armRequest_idle h), fun h => (exec_envelopePush m s).trans (armRequest_idle h),
      fun h => (exec_envelopePop m s).trans (armRequest_idle h), fun h => (exec_maskSet m s).trans (armRequest_idle h),
      fun h => (exec_contextSave m s).trans (armRequest_idle h), fun h => (exec_contextLoad m s).trans (armRequest_idle h)⟩
  case wsRequests =>
    exact ⟨fun h => (exec_claim m s).trans (wsRequest_idle h), fun h => (exec_renew m s).trans (wsRequest_idle h), release_idle,
      fun h => (exec_cancel m s).trans (wsRequest_idle h), fun h => (exec_cellRead m s).trans (wsRequest_idle h)⟩
  case reportRequests =>
    exact ⟨fun h => (exec_eventsRead m s).trans (reportRequest_idle h),
      fun h => (exec_eventsClear m s).trans (reportRequest_idle h), fun h => (exec_noticeSet m s).trans (reportRequest_idle h)⟩
  case tableRequests =>
    exact ⟨fun h => (exec_tableWrite m s).trans (tableRequest_idle h), fun h => (exec_headerWrite m s).trans (tableRequest_idle h),
      fun h => (exec_profileWrite m s).trans (tableRequest_idle h), fun h => (exec_tablesReset m s).trans (tableRequest_idle h),
      fun h => (exec_agree m s).trans (tableRequest_idle h), fun h => (exec_agreeWithdraw m s).trans (tableRequest_idle h)⟩

end Sys2Proof.Machine

end
